-- ==== Sys2Proof/Word.lean ====
section
/-! DEFINITION. The word types of the engine: bytes of DMEM, 32-bit registers and 16-bit coefficients
(00_scope R6, R14; 10_state section 1.2, R40). -/

namespace Sys2Proof

/-- A byte of DMEM, of a byte source or of a blob (00_scope R14). -/
abbrev Byte := BitVec 8

/-- A host register, a command word or a host access datum (10_state section 1.2). -/
abbrev Word := BitVec 32

/-- A coefficient of a polynomial register: 16-bit two's complement (00_scope R6, 10_state R40). -/
abbrev Coeff := BitVec 16

end Sys2Proof
end

