-- ==== Sys2Proof/Syntax.lean ====
section
/-! DEFINITION. The commands of the engine, one constructor per row of the opcode table (30_encoding R94).
Every register field holds one of eight values and every flag either value, and each such combination is
legal (R92, R93), so a term of this type is always well formed. -/

namespace Sys2Proof

/-- A polynomial register number, PR0 to PR7 (30_encoding R93). -/
abbrev PReg := Fin 8

/-- The 25 commands (30_encoding R94) with the fields each uses (R91). -/
inductive Instr where
  | nop
  | padd (rd rs1 rs2 : PReg) (red : Bool)
  | psub (rd rs1 rs2 : PReg) (red : Bool)
  | pconv (rd rs1 rs2 : PReg) (red : Bool)
  | pred (rd rs1 : PReg)
  | peq (rs1 rs2 : PReg)
  | pinvp (rd rs1 : PReg)
  | pinvq (rd rs1 : PReg)
  | bpack (rs1 : PReg) (dry : Bool)
  | bunpack (rd : PReg)
  | srcrng
  | srcmgf (sha256 ph : Bool)
  | srcmem
  | srcclose
  | igfinit
  | igfnext
  | trismp (rd : PReg)
  | trimgf (rd : PReg)
  | trienc (rs1 : PReg)
  | keygen
  | encrypt
  | decrypt
  | keyclose
  | keyload
  | keyexport (priv : Bool)
deriving DecidableEq, Repr

end Sys2Proof
end

