-- ==== Sys2Proof/Config.lean ====
section
/-! DEFINITION. The fixed implementation parameters (00_scope R6), the parameter-set record (R7), the
configuration a run is taken with (R9, R12, R247), and the values the spec leaves open, as constants
without a body. -/

namespace Sys2Proof

namespace Config

/-- NMAX, the coefficients of a polynomial register (00_scope R6). -/
abbrev nmax : Nat := 1499

/-- DMEM_SIZE, the data memory in bytes (00_scope R6). -/
abbrev dmemSize : Nat := 8192

/-- NPS, the parameter sets (00_scope R6). -/
abbrev nps : Nat := 12

/-- INV_PRIME, the prime of the mod-prime inverter (00_scope R6). -/
abbrev invPrime : Nat := 2

/-- INV_TARGET, the target modulus of the prime-power inverter (00_scope R6, 90_conflicts C3). -/
abbrev invTarget : Nat := 2048

/-- q, the large modulus of every parameter set (00_scope R7). -/
abbrev q : Nat := 2048

/-- p, the small modulus of every parameter set (00_scope R7). -/
abbrev p : Nat := 3

/-- lLen, the length-field size in bytes of every parameter set (00_scope R7). -/
abbrev lLen : Nat := 1

end Config

/-- The two digests (00_scope R6 HASHES, R12). -/
inductive HashAlg where
  | sha1
  | sha256
deriving DecidableEq, Repr, Inhabited

/-- The digest length in bytes, 20 or 32 (00_scope R12). -/
def HashAlg.digestLen : HashAlg → Nat
  | .sha1 => 20
  | .sha256 => 32

/-- Which two functions instantiate the digest parameter (00_scope R12): the standard FIPS 180-4 ones
(PRESUMED, log 5) or any others of the stated output lengths. -/
inductive DigestImpl where
  | fips
  | other (k : Nat)
deriving DecidableEq, Repr, Inhabited

/-- Which pair of functions is a parameter set's binary-to-trinary map and its inverse (45_ntru R247): the
default R247 suggests (PRESUMED, log 6) or any other pair. -/
inductive BinTriMap where
  | suggested
  | other (k : Nat)
deriving DecidableEq, Repr, Inhabited

/-- A parameter-set record (00_scope R7). p, q and lLen are the same for every set: `Config.p`, `Config.q`,
`Config.lLen`. -/
structure ParamSet where
  /-- parameter-set name -/
  name : String
  /-- three-byte identifier -/
  oid : Byte × Byte × Byte
  /-- ring dimension -/
  N : Nat
  /-- weight of F: df coefficients +1 and df coefficients -1 -/
  df : Nat
  /-- weight of g: dg+1 coefficients +1 and dg coefficients -1 -/
  dg : Nat
  /-- weight of r: dr coefficients +1 and dr coefficients -1 -/
  dr : Nat
  /-- number of random bytes in the message buffer -/
  db : Nat
  /-- largest message in bytes -/
  maxMsgLenBytes : Nat
  /-- minimum count of each trit symbol -/
  dm0 : Nat
  /-- IGF2 bits per index -/
  c : Nat
  /-- MGF1 minimum hash runs when deriving r -/
  minCallsR : Nat
  /-- MGF1 minimum hash runs when deriving the mask -/
  minCallsMask : Nat
  /-- digest used for masking and index generation -/
  hashAlg : HashAlg
  /-- length of the truncated bit-packed h in sData; 0 means the whole packed h (R245) -/
  hTruncBytes : Nat
  /-- length in bytes of the padded message buffer -/
  mBufLen : Nat
  /-- whether MGF1 hashes its seed first when deriving r -/
  prehashR : Bool
  /-- whether MGF1 hashes its seed first when deriving the mask -/
  prehashMask : Bool
  /-- the binary-to-trinary map and its inverse -/
  binTri : BinTriMap
deriving DecidableEq, Repr, Inhabited

/-- The configuration of a run: the table of parameter sets (00_scope R9, "a model takes the table as an
argument") and the digest functions (R12, "a model takes the two functions as parameters"). No step writes
it (log 3). -/
structure Params where
  table : Vector ParamSet 12
  digest : DigestImpl
deriving DecidableEq, Repr

namespace Config

/-- FREE VALUE: the fields of each parameter set that LL does not give (00_scope R7, OPEN; log 3). -/
opaque openSet : Nat → ParamSet

/-- FREE VALUE: a digest of 20 bytes other than the standard one (00_scope R12; log 5). -/
opaque openDigest20 : Nat → List Byte → Vector Byte 20

/-- FREE VALUE: a digest of 32 bytes other than the standard one (00_scope R12; log 5). -/
opaque openDigest32 : Nat → List Byte → Vector Byte 32

/-- FREE VALUE: a binary-to-trinary map (45_ntru R247, OPEN; log 6), taken up to the range R247 gives it. -/
opaque openBinToTri : Nat → List Byte → List Int

/-- FREE VALUE: an inverse of a binary-to-trinary map (45_ntru R247, OPEN; log 6). -/
opaque openTriToBin : Nat → List Int → List Byte × Bool

/-- FREE VALUE: what a 32-bit result register shows of a count that does not fit it (log 11). -/
opaque wideCount : Nat → Word

/-- FREE VALUE: what the three bits of SRCSTAT.IGF_NBITS show of a bit count above 7 (log 12). -/
opaque wideNbits : Nat → BitVec 3

end Config

end Sys2Proof
end

