-- ==== Sys2Proof/Machine/Lengths.lean ====
section
/-! DEFINITION. The derived lengths of a parameter set (00_scope R8) and ceil(log2 x) (R15). -/

namespace Sys2Proof

/-- The least k with 2^k ≥ x (00_scope R15 `ceil(log2(x))`). -/
def ceilLog2 (x : Nat) : Nat :=
  if x ≤ 1 then 0 else Nat.log2 (x - 1) + 1

namespace ParamSet

/-- `nb = ceil(log2 N)` (00_scope R8). -/
def nb (P : ParamSet) : Nat := ceilLog2 P.N

/-- The length of the bit-packed h or e (00_scope R8). -/
def lenH (P : ParamSet) : Nat := (P.N * 11 + 7) / 8

/-- The length of F as trits (00_scope R8). -/
def lenTrit (P : ParamSet) : Nat := (P.N + 4) / 5

/-- The length of F as two index lists in one bit stream (00_scope R8, D44). -/
def lenIndex (P : ParamSet) : Nat := (2 * P.df * P.nb + 7) / 8

/-- `LenCt` (00_scope R8). -/
def lenCt (P : ParamSet) : Nat := P.lenH

/-- `LenPub` (00_scope R8). -/
def lenPub (P : ParamSet) : Nat := 4 + P.lenH

/-- `LenPriv` (00_scope R8). -/
def lenPriv (P : ParamSet) : Nat := 4 + P.lenH + min P.lenTrit P.lenIndex

/-- The three bytes of the OID in stored order (20_memory R65 e). -/
def oidBytes (P : ParamSet) : List Byte := [P.oid.1, P.oid.2.1, P.oid.2.2]

end ParamSet

end Sys2Proof
end

