-- ==== Sys2Proof/WellFormed.lean ====
section
/-! DEFINITION. The checks on configuration data: the constraints 00_scope R7, R9 and 45_ntru R244, R281 put on
the parameter-set table. A command term is well formed by its type (Syntax.lean); whether a WORD is legal is
`legalWord` in Decode.lean (30_encoding R92). -/

namespace Sys2Proof

namespace ParamSet

/-- 45_ntru R244: "2·dg + 1 ≤ N, 2·df ≤ N, 2·dr ≤ N and N ≤ 2^c ≤ 65536", so that IgfInit's bounds hold and
Bpgm3 can end. -/
def samplingOk (P : ParamSet) : Bool :=
  decide (2 * P.dg + 1 ≤ P.N) && decide (2 * P.df ≤ P.N) && decide (2 * P.dr ≤ P.N) &&
    decide (P.N ≤ 2 ^ P.c) && decide (2 ^ P.c ≤ 65536)

/-- 00_scope R7: N in [1, NMAX] and c in [1, 16]. -/
def rangeOk (P : ParamSet) : Bool :=
  decide (1 ≤ P.N) && decide (P.N ≤ Config.nmax) && decide (1 ≤ P.c) && decide (P.c ≤ 16)

/-- 00_scope R7: maxMsgLenBytes at most 255, hTruncBytes at most Lh, mBufLen at least db + 1 +
maxMsgLenBytes. -/
def bufferOk (P : ParamSet) : Bool :=
  decide (P.maxMsgLenBytes ≤ 255) && decide (P.hTruncBytes ≤ P.lenH) &&
    decide (P.db + 1 + P.maxMsgLenBytes ≤ P.mBufLen)

/-- The record meets every constraint 00_scope R7 and 45_ntru R244 put on one set. -/
def wf (P : ParamSet) : Bool := P.rangeOk && P.bufferOk && P.samplingOk

end ParamSet

namespace Params

/-- The OID of set i differs from that of every other set (45_ntru R281). -/
def oidUnique (C : Params) (i : Fin 12) : Bool :=
  (List.finRange 12).all fun j => decide (j = i) || decide (C.table[j].oid ≠ C.table[i].oid)

/-- Set i meets every constraint of 00_scope R7, 45_ntru R244 and R281. -/
def setOk (C : Params) (i : Fin 12) : Bool := C.table[i].wf && C.oidUnique i

/-- 00_scope R9: index 0 is ees401ep1 with N = 401 and index 11 is ees1499ep1 with N = 1499, with the private
key lengths 637 and 2284 (45_ntru R279). The table of `State.reset` meets it (Laws/Boot.lean). -/
def pinned (C : Params) : Bool :=
  decide (C.table[0].N = 401) && decide (C.table[0].lenPriv = 637) &&
    decide (C.table[11].N = 1499) && decide (C.table[11].lenPriv = 2284)

/-- The whole table meets the constraints of 00_scope R7, R9 and 45_ntru R244, R281. -/
def wf (C : Params) : Bool := (List.finRange 12).all C.setOk && C.pinned

end Params

end Sys2Proof
end

