-- ==== Sys2Proof/Decode.lean ====
section
/-! DEFINITION. The command word: the fields (30_encoding R91), the opcode map with its masks (R94), the total
decoder (R95), the encoder (R94) and the assembler form (R98). -/

namespace Sys2Proof

/-- RD, bits [10:8] (30_encoding R91). -/
def fieldRD (w : Word) : PReg := (w.extractLsb' 8 3).toFin

/-- RS1, bits [13:11] (30_encoding R91). -/
def fieldRS1 (w : Word) : PReg := (w.extractLsb' 11 3).toFin

/-- RS2, bits [16:14] (30_encoding R91). -/
def fieldRS2 (w : Word) : PReg := (w.extractLsb' 14 3).toFin

/-- RED, bit 17 (30_encoding R91). -/
def fieldRED (w : Word) : Bool := w.getLsbD 17

/-- F1, bit 18 (30_encoding R91). -/
def fieldF1 (w : Word) : Bool := w.getLsbD 18

/-- F2, bit 19 (30_encoding R91). -/
def fieldF2 (w : Word) : Bool := w.getLsbD 19

/-- One row of the opcode map (30_encoding R94): a word matches when its bits under the mask are the opcode. -/
structure OpRow where
  mask : Word
  op : Word
  build : Word → Instr

/-- The word's bits under the row's mask are the row's match value (30_encoding R92). -/
def OpRow.matches (r : OpRow) (w : Word) : Bool := (w &&& r.mask) == r.op

/-- The rows of families 0x0x and 0x1x (30_encoding R94). -/
def opRowsArith : List OpRow :=
  [ ⟨0xFFFFFFFF#32, 0x00#32, fun _ => .nop⟩,
    ⟨0xFFFC00FF#32, 0x10#32, fun w => .padd (fieldRD w) (fieldRS1 w) (fieldRS2 w) (fieldRED w)⟩,
    ⟨0xFFFC00FF#32, 0x11#32, fun w => .psub (fieldRD w) (fieldRS1 w) (fieldRS2 w) (fieldRED w)⟩,
    ⟨0xFFFC00FF#32, 0x12#32, fun w => .pconv (fieldRD w) (fieldRS1 w) (fieldRS2 w) (fieldRED w)⟩,
    ⟨0xFFFFC0FF#32, 0x13#32, fun w => .pred (fieldRD w) (fieldRS1 w)⟩,
    ⟨0xFFFE07FF#32, 0x14#32, fun w => .peq (fieldRS1 w) (fieldRS2 w)⟩ ]

/-- The rows of families 0x2x and 0x3x (30_encoding R94). -/
def opRowsInvPack : List OpRow :=
  [ ⟨0xFFFFC0FF#32, 0x20#32, fun w => .pinvp (fieldRD w) (fieldRS1 w)⟩,
    ⟨0xFFFFC0FF#32, 0x21#32, fun w => .pinvq (fieldRD w) (fieldRS1 w)⟩,
    ⟨0xFFFBC7FF#32, 0x30#32, fun w => .bpack (fieldRS1 w) (fieldF1 w)⟩,
    ⟨0xFFFFF8FF#32, 0x31#32, fun w => .bunpack (fieldRD w)⟩ ]

/-- The rows of family 0x4x (30_encoding R94). -/
def opRowsStream : List OpRow :=
  [ ⟨0xFFFFFFFF#32, 0x40#32, fun _ => .srcrng⟩,
    ⟨0xFFF3FFFF#32, 0x41#32, fun w => .srcmgf (fieldF1 w) (fieldF2 w)⟩,
    ⟨0xFFFFFFFF#32, 0x42#32, fun _ => .srcmem⟩,
    ⟨0xFFFFFFFF#32, 0x43#32, fun _ => .srcclose⟩,
    ⟨0xFFFFFFFF#32, 0x44#32, fun _ => .igfinit⟩,
    ⟨0xFFFFFFFF#32, 0x45#32, fun _ => .igfnext⟩,
    ⟨0xFFFFF8FF#32, 0x46#32, fun w => .trismp (fieldRD w)⟩,
    ⟨0xFFFFF8FF#32, 0x47#32, fun w => .trimgf (fieldRD w)⟩,
    ⟨0xFFFFC7FF#32, 0x48#32, fun w => .trienc (fieldRS1 w)⟩ ]

/-- The rows of family 0x5x (30_encoding R94). -/
def opRowsKey : List OpRow :=
  [ ⟨0xFFFFFFFF#32, 0x50#32, fun _ => .keygen⟩,
    ⟨0xFFFFFFFF#32, 0x51#32, fun _ => .encrypt⟩,
    ⟨0xFFFFFFFF#32, 0x52#32, fun _ => .decrypt⟩,
    ⟨0xFFFFFFFF#32, 0x53#32, fun _ => .keyclose⟩,
    ⟨0xFFFFFFFF#32, 0x54#32, fun _ => .keyload⟩,
    ⟨0xFFFBFFFF#32, 0x55#32, fun w => .keyexport (fieldF1 w)⟩ ]

/-- The opcode map (30_encoding R94). -/
def opRows : List OpRow := opRowsArith ++ opRowsInvPack ++ opRowsStream ++ opRowsKey

/-- 30_encoding R95: the command of the row whose `(w AND mask) = match`, or none for ILLEGAL. -/
def decode (w : Word) : Option Instr :=
  (opRows.find? fun r => r.matches w).map fun r => r.build w

/-- The word is legal: some row of the opcode map matches it (30_encoding R92). -/
def legalWord (w : Word) : Bool := opRows.any fun r => r.matches w

/-- The opcode of a command (30_encoding R94, column OP). -/
def Instr.opcode : Instr → BitVec 8
  | .nop => 0x00#8
  | .padd .. => 0x10#8
  | .psub .. => 0x11#8
  | .pconv .. => 0x12#8
  | .pred .. => 0x13#8
  | .peq .. => 0x14#8
  | .pinvp .. => 0x20#8
  | .pinvq .. => 0x21#8
  | .bpack .. => 0x30#8
  | .bunpack .. => 0x31#8
  | .srcrng => 0x40#8
  | .srcmgf .. => 0x41#8
  | .srcmem => 0x42#8
  | .srcclose => 0x43#8
  | .igfinit => 0x44#8
  | .igfnext => 0x45#8
  | .trismp .. => 0x46#8
  | .trimgf .. => 0x47#8
  | .trienc .. => 0x48#8
  | .keygen => 0x50#8
  | .encrypt => 0x51#8
  | .decrypt => 0x52#8
  | .keyclose => 0x53#8
  | .keyload => 0x54#8
  | .keyexport .. => 0x55#8

/-- A register number as a 32-bit value. -/
def regWord (r : PReg) : Word := BitVec.ofNat 32 r.val

/-- A flag as a 32-bit value. -/
def flagWord (b : Bool) : Word := if b then 1#32 else 0#32

/-- 30_encoding R94: `w = OP | RD<<8 | RS1<<11 | RS2<<14 | RED<<17 | F1<<18 | F2<<19`. -/
def assemble (op : BitVec 8) (rd rs1 rs2 : PReg) (red f1 f2 : Bool) : Word :=
  op.setWidth 32 ||| (regWord rd <<< 8) ||| (regWord rs1 <<< 11) ||| (regWord rs2 <<< 14) |||
    (flagWord red <<< 17) ||| (flagWord f1 <<< 18) ||| (flagWord f2 <<< 19)

/-- The encoding of a command, every field its opcode does not use equal to 0 (30_encoding R94). -/
def encode : Instr → Word
  | .nop => assemble 0x00#8 0 0 0 false false false
  | .padd rd rs1 rs2 red => assemble 0x10#8 rd rs1 rs2 red false false
  | .psub rd rs1 rs2 red => assemble 0x11#8 rd rs1 rs2 red false false
  | .pconv rd rs1 rs2 red => assemble 0x12#8 rd rs1 rs2 red false false
  | .pred rd rs1 => assemble 0x13#8 rd rs1 0 false false false
  | .peq rs1 rs2 => assemble 0x14#8 0 rs1 rs2 false false false
  | .pinvp rd rs1 => assemble 0x20#8 rd rs1 0 false false false
  | .pinvq rd rs1 => assemble 0x21#8 rd rs1 0 false false false
  | .bpack rs1 dry => assemble 0x30#8 0 rs1 0 false dry false
  | .bunpack rd => assemble 0x31#8 rd 0 0 false false false
  | .srcrng => assemble 0x40#8 0 0 0 false false false
  | .srcmgf sha256 ph => assemble 0x41#8 0 0 0 false sha256 ph
  | .srcmem => assemble 0x42#8 0 0 0 false false false
  | .srcclose => assemble 0x43#8 0 0 0 false false false
  | .igfinit => assemble 0x44#8 0 0 0 false false false
  | .igfnext => assemble 0x45#8 0 0 0 false false false
  | .trismp rd => assemble 0x46#8 rd 0 0 false false false
  | .trimgf rd => assemble 0x47#8 rd 0 0 false false false
  | .trienc rs1 => assemble 0x48#8 0 rs1 0 false false false
  | .keygen => assemble 0x50#8 0 0 0 false false false
  | .encrypt => assemble 0x51#8 0 0 0 false false false
  | .decrypt => assemble 0x52#8 0 0 0 false false false
  | .keyclose => assemble 0x53#8 0 0 0 false false false
  | .keyload => assemble 0x54#8 0 0 0 false false false
  | .keyexport priv => assemble 0x55#8 0 0 0 false priv false

/-- The command the decoder reads from a table row's word: one 32-bit word, bits above nbits zero
(30_encoding R90). -/
def decodeTableWord (nbits w : Nat) : Option Instr := decode (BitVec.ofNat 32 (w % 2 ^ nbits))

/-- The assembler name of a polynomial register (30_encoding R98). -/
def PReg.asm (r : PReg) : String := "p" ++ toString r.val

/-- The assembler form of a command (30_encoding R98). -/
def Instr.asm : Instr → String
  | .nop => "nop"
  | .padd rd rs1 rs2 red => (if red then "padd.r " else "padd ") ++ PReg.asm rd ++ ", " ++ PReg.asm rs1 ++ ", " ++ PReg.asm rs2
  | .psub rd rs1 rs2 red => (if red then "psub.r " else "psub ") ++ PReg.asm rd ++ ", " ++ PReg.asm rs1 ++ ", " ++ PReg.asm rs2
  | .pconv rd rs1 rs2 red => (if red then "pconv.r " else "pconv ") ++ PReg.asm rd ++ ", " ++ PReg.asm rs1 ++ ", " ++ PReg.asm rs2
  | .pred rd rs1 => "pred " ++ PReg.asm rd ++ ", " ++ PReg.asm rs1
  | .peq rs1 rs2 => "peq " ++ PReg.asm rs1 ++ ", " ++ PReg.asm rs2
  | .pinvp rd rs1 => "pinvp " ++ PReg.asm rd ++ ", " ++ PReg.asm rs1
  | .pinvq rd rs1 => "pinvq " ++ PReg.asm rd ++ ", " ++ PReg.asm rs1
  | .bpack rs1 dry => (if dry then "bpack.dry " else "bpack ") ++ PReg.asm rs1
  | .bunpack rd => "bunpack " ++ PReg.asm rd
  | .srcrng => "srcrng"
  | .srcmgf sha256 ph => "srcmgf" ++ (if sha256 then ".sha256" else "") ++ (if ph then ".ph" else "")
  | .srcmem => "srcmem"
  | .srcclose => "srcclose"
  | .igfinit => "igfinit"
  | .igfnext => "igfnext"
  | .trismp rd => "trismp " ++ PReg.asm rd
  | .trimgf rd => "trimgf " ++ PReg.asm rd
  | .trienc rs1 => "trienc " ++ PReg.asm rs1
  | .keygen => "keygen"
  | .encrypt => "encrypt"
  | .decrypt => "decrypt"
  | .keyclose => "keyclose"
  | .keyload => "keyload"
  | .keyexport priv => if priv then "keyexport.priv" else "keyexport"

end Sys2Proof
end

