-- ==== Sys2Proof/Machine/Arith.lean ====
section
/-! DEFINITION. The arithmetic of the engine on plain integers: residues and wrap-around (00_scope R15),
polynomials of dimension N as lists of N integers (R16), the ring operations (41_poly_arith R131, R135) and
the two inverters (42_inversion R150 to R154). -/

namespace Sys2Proof.Machine

/-- `red(v, m, low)`: the value in [low, low+m) congruent to v mod m (00_scope R15). -/
def red (v m low : Int) : Int := low + (v - low) % m

/-- `wrap16(v)`: the 16-bit two's-complement value congruent to v mod 2^16 (00_scope R15). -/
def wrap16 (v : Int) : Int := (v + 32768) % 65536 - 32768

/-- A polynomial of dimension N as the list of its N coefficients, index = exponent (00_scope R16). -/
abbrev Vec := List Int

/-- `a[i]`; 0 beyond the list. -/
def at' (a : Vec) (i : Nat) : Int := a.getD i 0

/-- The polynomial of dimension N with coefficient `f i` at X^i. -/
def tab (N : Nat) (f : Nat → Int) : Vec := (List.range N).map f

/-- The sum of `f i` over i < n. -/
def sumTo : Nat → (Nat → Int) → Int
  | 0, _ => 0
  | n + 1, f => sumTo n f + f n

/-- The cyclic convolution's coefficient k: the exact sum over i < N of `A[i] * B[mod(k - i, N)]`
(41_poly_arith R135). -/
def convAt (N : Nat) (a b : Vec) (k : Nat) : Int :=
  sumTo N fun i => at' a i * at' b ((k + N - i) % N)

/-- The cyclic convolution over the integers (41_poly_arith R135). -/
def conv (N : Nat) (a b : Vec) : Vec := tab N (convAt N a b)

/-- Every coefficient mod m (00_scope R15 `mod`). -/
def modVec (N : Nat) (m : Int) (a : Vec) : Vec := tab N fun i => at' a i % m

/-- The unit polynomial (1, 0, ..., 0) (42_inversion R150). -/
def unitVec (N : Nat) : Vec := tab N fun i => if i = 0 then 1 else 0

/-- `count(a, s)`: the number of i < N with a[i] = s (00_scope R16). -/
def countSym (N : Nat) (a : Vec) (s : Int) : Nat := (List.range N).countP fun i => at' a i == s

/-- a and b are inverse to each other in R_m: conv(a, b) is the unit mod m (42_inversion R150). -/
def isInverse (N : Nat) (m : Int) (a b : Vec) : Bool :=
  (List.range N).all fun k => convAt N a b k % m == (if k = 0 then 1 else 0) % m

/-! The mod-prime inverter: the almost-inverse algorithm of 42_inversion R152, with P = INV_PRIME. f and g
are polynomials of N + 1 coefficients; b and c are kept as elements of the ring, so that c · X is a rotation. -/

/-- The inverse table of R152: the multiplicative inverse of r mod P, and 0, the sentinel, where there is none. -/
def primeInv (P r : Int) : Int :=
  match (List.range P.toNat).find? fun x => (r * (x : Int)) % P == 1 with
  | some x => (x : Int)
  | none => 0

/-- The degree of a polynomial of n coefficients: the highest index of a nonzero coefficient, 0 for none. -/
def degree (a : Vec) : Nat → Nat
  | 0 => 0
  | n + 1 => if at' a n ≠ 0 then n else degree a n

/-- X^j · a mod (X^N - 1): the coefficients rotated up by j positions. -/
def rotUp (N j : Nat) (a : Vec) : Vec := tab N fun i => at' a ((i + N - j % N) % N)

/-- The registers of the almost-inverse loop (42_inversion R152). -/
structure InvState where
  f : Vec
  g : Vec
  b : Vec
  c : Vec
  k : Nat
deriving DecidableEq, Repr

/-- How one turn of the almost-inverse loop ends. -/
inductive InvTurn where
  | found (b : Vec)
  | noInverse
  | again (st : InvState)
deriving DecidableEq, Repr

/-- "if deg(f) < deg(g): swap(f, g); swap(b, c)" (42_inversion R152). -/
def invSwap (N : Nat) (s : InvState) : InvState :=
  if degree s.f (N + 1) < degree s.g (N + 1) then { s with f := s.g, g := s.f, b := s.c, c := s.b } else s

/-- "f = f - u*g mod P; b = b - u*c mod P" with u = f[0] · inv[g[0]] (42_inversion R152). -/
def invEliminate (N : Nat) (P : Int) (s : InvState) : InvState :=
  let u := at' s.f 0 * primeInv P (at' s.g 0) % P
  { s with
    f := tab (N + 1) fun i => (at' s.f i - u * at' s.g i) % P
    b := tab N fun i => (at' s.b i - u * at' s.c i) % P }

/-- One turn of the loop of 42_inversion R152: strip one factor X, or stop, or eliminate. -/
def invTurn (N : Nat) (P : Int) (s : InvState) : InvTurn :=
  if at' s.f 0 = 0 then
    if (List.range (N + 1)).all (fun i => at' s.f i == 0) then .noInverse
    else .again { s with
      f := tab (N + 1) fun i => at' s.f (i + 1)
      c := rotUp N 1 s.c
      k := s.k + 1 }
  else if degree s.f (N + 1) = 0 then
    let scale := primeInv P (at' s.f 0)
    .found (rotUp N (N - s.k % N) (tab N fun i => at' s.b i * scale % P))
  else
    let t := invSwap N s
    if primeInv P (at' t.g 0) = 0 then .noInverse else .again (invEliminate N P t)

/-- The loop of 42_inversion R152, at most `fuel` turns. -/
def invLoop (N : Nat) (P : Int) : Nat → InvState → Option Vec
  | 0, _ => none
  | fuel + 1, s =>
    match invTurn N P s with
    | .found b => some b
    | .noInverse => none
    | .again t => invLoop N P fuel t

/-- The start of the loop: f = a mod P, g = X^N - 1, b = 1, c = 0 (42_inversion R152). -/
def invStart (N : Nat) (P : Int) (a : Vec) : InvState :=
  { f := tab (N + 1) fun i => if i < N then at' a i % P else 0
    g := tab (N + 1) fun i => if i = 0 then (-1) % P else if i = N then 1 else 0
    b := unitVec N
    c := tab N fun _ => 0
    k := 0 }

/-- The inverse of a in R_P for the prime P, or none (42_inversion R151, R152). Two turns lower deg f + deg g
by at least 1 and it starts below 2·N, so 4·N + 4 turns are enough (log 19). -/
def invertPrime (N : Nat) (P : Int) (a : Vec) : Option Vec := invLoop N P (4 * N + 4) (invStart N P a)

/-- One Newton round, `b = conv(b, 2 - conv(a, b) mod m) mod m` (42_inversion R154). -/
def newtonRound (N : Nat) (a : Vec) (b : Vec) (m : Int) : Vec :=
  let ab := conv N a b
  modVec N m (conv N b (tab N fun i => ((if i = 0 then 2 else 0) - at' ab i % m)))

/-- The working moduli of the lift from 2 to 2048 (42_inversion R154). -/
def newtonModuli : List Int := [4, 16, 256, 2048]

/-- The inverse of a in R_2, coefficients in [0, 2) (42_inversion R151). -/
def invertP (N : Nat) (a : Vec) : Option Vec := invertPrime N (Config.invPrime : Int) a

/-- The inverse of a in R_2048, coefficients in [0, 2048) (42_inversion R153, R154). -/
def invertQ (N : Nat) (a : Vec) : Option Vec :=
  (invertP N a).map fun b => newtonModuli.foldl (newtonRound N a) b

end Sys2Proof.Machine
end

