-- ==== Sys2Proof/Machine/Boot.lean ====
section
/-! DEFINITION. The platform configuration a machine is reset with (70_reset R344 (1): the parameter-set table "is
fixed before the engine leaves reset and never changes"). What the spec pins is pinned; the rest is open. -/

namespace Sys2Proof.Machine

/-- Entry i of the table: index 0 is ees401ep1 with N = 401, index 11 is ees1499ep1 with N = 1499 (00_scope R7,
R9). Their published private-key lengths, 637 and 2284 bytes (45_ntru R279), constrain df: entry 0 has df ≥ 36,
any such value (95_test_vectors L1.1), and entry 11 has df = 79 (L1.4), both DEDUCED (log 4). Every other field
is a free value (log 3). -/
def bootSet (i : Nat) : ParamSet :=
  if i = 0 then
    { Config.openSet 0 with name := "ees401ep1", N := 401, df := 36 + (Config.openSet 0).df }
  else if i = 11 then { Config.openSet 11 with name := "ees1499ep1", N := 1499, df := 79 }
  else Config.openSet i

/-- The configuration at reset: the table of twelve entries, and the standard digests (PRESUMED, log 5). -/
def bootParams : Params :=
  { table := #v[bootSet 0, bootSet 1, bootSet 2, bootSet 3, bootSet 4, bootSet 5, bootSet 6, bootSet 7, bootSet 8,
      bootSet 9, bootSet 10, bootSet 11]
    digest := .fips }

/-- The loop turns granted to a command in one step at reset (DESIGN CHOICE, log 8). -/
def bootTurns : Nat := 65536

end Sys2Proof.Machine
end

