-- ==== Sys2Proof/Machine/State.lean ====
section
/-! DEFINITION. The state of the engine (10_state R20), as plain data, with the state after reset (70_reset R342),
and the reasons a step can stop. -/

namespace Sys2Proof.Machine

/-- Why a step stops with a fault: no reason exists. The spec gives every command, every word and every host
access a next state: an error ends the command and the engine goes on (60_exceptions R302, R313). -/
inductive Fault where
deriving DecidableEq, Repr

/-- Why a step is refused. -/
inductive Refusal where
  /-- An instruction with no meaning yet, by its mnemonic; raised by exec's arms alone, and by none of them. Safe. -/
  | notModelled (mnemonic : String)
deriving DecidableEq, Repr

/-- The error codes a command can end with (60_exceptions R300); no error is `none` where one is optional. -/
inductive Err where
  | illegalCmd
  | precondition
  | noSource
  | srcExhausted
  | msgTooLong
  | fmtTag
  | fmtOid
  | fmtLen
  | fmtData
  | decryptFail
  | keyClosed
  | noPrivkey
  | iterLimit
deriving DecidableEq, Repr

/-- The fields of STATUS but BUSY, which is PHASE (10_state R24, R47). -/
structure Status where
  done : Bool
  err : Bool
  noinv : Bool
  eq : Bool
  ovr : Bool
  accerr : Bool
  errCode : Option Err
deriving DecidableEq, Repr

/-- The sequencer's phase (10_state R47). -/
inductive Phase where
  | idle
  | busy
deriving DecidableEq, Repr

/-- The command context: the word and the operands latched at acceptance (10_state R47, 40_command R110). -/
structure Context where
  word : Word
  arg0 : Word
  arg1 : Word
  arg2 : Word
  arg3 : Word
  cfgN : Word
  cfgMod : Word
  cfgLow : Word
  iterCap : Word
deriving DecidableEq, Repr

/-- No context: there is one only while BUSY (10_state R47). All zero (DESIGN CHOICE, log 10). -/
def Context.empty : Context := ⟨0, 0, 0, 0, 0, 0, 0, 0, 0⟩

/-- DMEM (20_memory R61): the bytes that are not 0, as (address, byte) pairs with strictly rising addresses. -/
abbrev Memory := List Host.Cell

/-- A coefficient array of NMAX entries (10_state R40): the coefficients from index 0, without trailing zeros;
every coefficient beyond the list is 0 (log 16). -/
abbrev Poly := List Coeff

/-- The state of the key object (10_state R41). -/
inductive KState where
  | empty
  | pub
  | priv
  | closed
deriving DecidableEq, Repr

/-- The key object: KPS, KEY_H, KEY_F, KSTATE (10_state R41). -/
structure Key where
  kps : Fin 12
  h : Poly
  f : Poly
  kstate : KState
deriving DecidableEq, Repr

/-- The current byte source (10_state R43). -/
inductive Source where
  | none
  | rng
  | mgf
  | mem
deriving DecidableEq, Repr

/-- The MGF1 stream state: MHASH, MSEED, MCTR, MBUF, MRUNS, MMIN (10_state R44). -/
structure Mgf where
  hash : HashAlg
  seed : List Byte
  ctr : Word
  buf : List Byte
  runs : Nat
  minRuns : Nat
deriving DecidableEq, Repr

/-- The IGF2 state: IGFACT, IGF_M, IGF_B, IGF_CUT, IGF_BUF, IGF_NBITS (10_state R46). -/
structure Igf where
  act : Bool
  m : Nat
  b : Nat
  cut : Nat
  buf : Nat
  nbits : Nat
deriving DecidableEq, Repr

/-- The stream unit (10_state R43 to R46), with the run count MGF_RUNS keeps after a stream is closed
(R37, 44_streams R197). -/
structure StreamUnit where
  src : Source
  mgf : Mgf
  lastRuns : Nat
  mcur : Nat
  mend : Nat
  igf : Igf
deriving DecidableEq, Repr

/-- The width of a host access (20_memory R66). -/
inductive Width where
  | w8
  | w16
  | w32
deriving DecidableEq, Repr

/-- A host access at a byte offset of the 64 KiB aperture (20_memory R60, R66; NPE_BASE is outside, log 17). -/
inductive Access where
  | read (off : BitVec 16) (width : Width)
  | write (off : BitVec 16) (width : Width) (data : Word)
deriving DecidableEq, Repr

/-- What reaches the engine, one event a step (log 1). -/
inductive Event where
  /-- the sequencer's turn: a running command executes -/
  | turn
  /-- a host access (20_memory R72 a) -/
  | access (a : Access)
  /-- the sequencer's turn and a host access in the same step: the completion first (60_exceptions R312) -/
  | together (a : Access)
  /-- the RNG port offers one more byte (00_scope R11) -/
  | rngByte (b : Byte)
  /-- the reset input, asserted and released (70_reset R340) -/
  | hardReset
deriving DecidableEq, Repr

/-- The state of the engine (10_state R20), and below it the model's own fields. -/
structure State where
  /-- CMD (10_state R25) -/
  cmd : Word
  /-- ARG0 to ARG3 (10_state R26) -/
  arg0 : Word
  arg1 : Word
  arg2 : Word
  arg3 : Word
  /-- RES0, RES1 (10_state R27) -/
  res0 : Word
  res1 : Word
  /-- CFG_N (10_state R28) -/
  cfgN : Word
  /-- CFG_MOD (10_state R29) -/
  cfgMod : Word
  /-- CFG_LOW (10_state R30) -/
  cfgLow : Word
  /-- IRQ_EN.DONEIE (10_state R32) -/
  doneIE : Bool
  /-- ITER_CAP (10_state R33) -/
  iterCap : Word
  /-- ITER_CNT (10_state R34) -/
  iterCnt : Word
  /-- RNG_CNT (10_state R35) -/
  rngCnt : Word
  /-- STATUS but BUSY (10_state R24) -/
  status : Status
  /-- PR0 to PR7 (10_state R40) -/
  pr : Vector Poly 8
  /-- the key object (10_state R41) -/
  key : Key
  /-- the stream unit (10_state R43) -/
  su : StreamUnit
  /-- DMEM (20_memory R61) -/
  dmem : Memory
  /-- PHASE (10_state R47) -/
  phase : Phase
  /-- the command context (10_state R47) -/
  ctx : Context
  /-- MODEL: the configuration, which no step writes (00_scope R9, R12; log 3) -/
  params : Params
  /-- MODEL: the bytes the RNG port has offered and the engine has not consumed (00_scope R11; log 7) -/
  rng : List Byte
  /-- MODEL: how many of them the running command has pulled so far (70_reset R356; log 9) -/
  inflight : Nat
  /-- MODEL: the loop turns granted to the running command in one step (40_command R117; log 8) -/
  turns : Nat
  /-- MODEL: the events still to reach the engine, in order (20_memory R72; log 1) -/
  inbox : List Event
  /-- MODEL: the word the last host read returned on the bus (log 21) -/
  rdata : Option Word
deriving DecidableEq, Repr

/-- STATUS after reset (70_reset R342). -/
def Status.reset : Status := ⟨false, false, false, false, false, false, none⟩

/-- The key object after reset: EMPTY, everything 0 (10_state R41). -/
def Key.reset : Key := ⟨0, [], [], .empty⟩

/-- The MGF1 stream state after reset (10_state R44). -/
def Mgf.reset : Mgf := ⟨.sha1, [], 0, [], 0, 0⟩

/-- The IGF2 state after reset (10_state R46). -/
def Igf.reset : Igf := ⟨false, 0, 0, 0, 0, 0⟩

/-- The stream unit after reset (70_reset R342). -/
def StreamUnit.reset : StreamUnit := ⟨.none, Mgf.reset, 0, 0, 0, Igf.reset⟩

/-- The machine right after reset (70_reset R342: "No state is left unspecified at reset"). -/
def State.reset : State :=
  { cmd := 0, arg0 := 0, arg1 := 0, arg2 := 0, arg3 := 0, res0 := 0, res1 := 0
    cfgN := 0, cfgMod := 0, cfgLow := 0, doneIE := false, iterCap := 0, iterCnt := 0, rngCnt := 0
    status := Status.reset
    pr := #v[[], [], [], [], [], [], [], []]
    key := Key.reset
    su := StreamUnit.reset
    dmem := []
    phase := .idle
    ctx := Context.empty
    params := bootParams
    rng := []
    inflight := 0
    turns := bootTurns
    inbox := []
    rdata := none }

end Sys2Proof.Machine
end

