-- ==== Sys2Proof/Machine/Flags.lean ====
section
/-! DEFINITION. STATUS and the status-like views: the error codes (60_exceptions R300), the STATUS word and its
write-1-to-clear bits (10_state R24), what acceptance and completion do to the flags (40_command R110, R114,
R115), the IRQ output (60_exceptions R310), and the KEYSTAT and SRCSTAT words (10_state R31, R36). -/

namespace Sys2Proof.Machine

/-- The code STATUS.ERRCODE reports (60_exceptions R300). -/
def Err.code : Err → BitVec 8
  | .illegalCmd => 0x01#8
  | .precondition => 0x02#8
  | .noSource => 0x03#8
  | .srcExhausted => 0x04#8
  | .msgTooLong => 0x10#8
  | .fmtTag => 0x20#8
  | .fmtOid => 0x21#8
  | .fmtLen => 0x22#8
  | .fmtData => 0x23#8
  | .decryptFail => 0x30#8
  | .keyClosed => 0x40#8
  | .noPrivkey => 0x41#8
  | .iterLimit => 0x50#8

/-- ERRCODE: the code of the last error, 0 for none (10_state R24, 60_exceptions R300). -/
def errCodeByte : Option Err → BitVec 8
  | none => 0x00#8
  | some e => e.code

/-- A flag at bit k of a register. -/
def flagAt (b : Bool) (k : Nat) : Word := if b then 1#32 <<< k else 0#32

/-- STATUS.BUSY is PHASE = BUSY (10_state R24, R47). -/
def State.busy (s : State) : Bool := decide (s.phase = .busy)

/-- The STATUS register (10_state R24). -/
def statusWord (s : State) : Word :=
  flagAt s.busy 0 ||| flagAt s.status.done 1 ||| flagAt s.status.err 2 ||| flagAt s.status.noinv 3 |||
    flagAt s.status.eq 4 ||| flagAt s.status.ovr 5 ||| flagAt s.status.accerr 6 |||
    ((errCodeByte s.status.errCode).setWidth 32 <<< 8)

/-- A host write to STATUS: DONE, ERR, OVR and ACCERR are cleared by a 1; every other bit of the datum has no
effect (10_state R24; ERRCODE stays, log 22). -/
def Status.writeOneToClear (t : Status) (w : Word) : Status :=
  { t with
    done := t.done && !w.getLsbD 1
    err := t.err && !w.getLsbD 2
    ovr := t.ovr && !w.getLsbD 5
    accerr := t.accerr && !w.getLsbD 6 }

/-- What acceptance does to STATUS: DONE, ERR, NOINV, EQ and ERRCODE cleared, OVR and ACCERR kept
(40_command R110). -/
def Status.accepted (t : Status) : Status :=
  { t with done := false, err := false, noinv := false, eq := false, errCode := none }

/-- What completion without error does to STATUS (40_command R114). -/
def Status.completed (t : Status) : Status := { t with done := true }

/-- What completion with an error does to STATUS (40_command R115, 60_exceptions R301). -/
def Status.failed (t : Status) (e : Err) : Status := { t with done := true, err := true, errCode := some e }

/-- The IRQ output: DONE AND DONEIE (60_exceptions R310). -/
def State.irq (s : State) : Bool := s.status.done && s.doneIE

/-- KSTATE's two bits (10_state R31). -/
def KState.bits : KState → BitVec 2
  | .empty => 0#2
  | .pub => 1#2
  | .priv => 2#2
  | .closed => 3#2

/-- The KEYSTAT register (10_state R31). -/
def keystatWord (s : State) : Word :=
  s.key.kstate.bits.setWidth 32 |||
    (match s.key.kstate with
      | .empty | .closed => 0#32
      | .pub | .priv => BitVec.ofNat 32 s.key.kps.val <<< 8)

/-- SRC's two bits (10_state R36). -/
def Source.bits : Source → BitVec 2
  | .none => 0#2
  | .rng => 1#2
  | .mgf => 2#2
  | .mem => 3#2

/-- What SRCSTAT.IGF_NBITS shows: the bit count in three bits; a count above 7 is left open (10_state R36,
log 12). -/
def nbitsField (n : Nat) : BitVec 3 := if n < 8 then BitVec.ofNat 3 n else Config.wideNbits n

/-- The SRCSTAT register (10_state R36). -/
def srcstatWord (s : State) : Word :=
  s.su.src.bits.setWidth 32 ||| flagAt s.su.igf.act 2 |||
    flagAt (decide (s.su.src = .mgf) && decide (s.su.mgf.hash = .sha256)) 3 |||
    ((if s.su.igf.act then (BitVec.ofNat 5 s.su.igf.b).setWidth 32 else 0#32) <<< 8) |||
    ((nbitsField s.su.igf.nbits).setWidth 32 <<< 16)

/-- A count shown in a 32-bit register: the count itself where it fits, a free value where it does not (log 11). -/
def countWord (n : Nat) : Word := if n < 2 ^ 32 then BitVec.ofNat 32 n else Config.wideCount n

/-- The MGF_RUNS register: the runs of the open stream, else of the last one closed (10_state R37,
44_streams R197). -/
def mgfRunsWord (s : State) : Word :=
  countWord (if s.su.src = .mgf then s.su.mgf.runs else s.su.lastRuns)

/-- The SRC_REM register (10_state R38). -/
def srcRemWord (s : State) : Word :=
  if s.su.src = .mem then BitVec.ofNat 32 (s.su.mend - s.su.mcur) else 0#32

end Sys2Proof.Machine
end

