-- ==== Sys2Proof/Machine/Ops.lean ====
section
/-! DEFINITION. The named operations over memory and registers: DMEM (20_memory R61, 00_scope R17, R18), coefficient
arrays (10_state R40), and the command cycle: acceptance (40_command R110), what a running command has consumed
and what it writes (R113), completion without error (R114), completion with an error (R115), a command that has
to go on (R116, R117), and reset (70_reset R340, R341). Completing with an error is this engine's one exception
entry; there is no trap and no return from one (60_exceptions R313, R314). -/

namespace Sys2Proof.Machine

/-! ### DMEM -/

/-- The byte at an address: an address not listed reads 0 (20_memory R61). -/
def Memory.read : Memory → Nat → Byte
  | [], _ => 0#8
  | (b, v) :: rest, a => if a = b then v else Memory.read rest a

/-- The list without an entry for the address. -/
def Memory.erase (m : Memory) (a : Nat) : Memory := m.filter fun c => decide (c.1 ≠ a)

/-- The list with a nonzero byte put at an address, in rising order. -/
def Memory.put : Memory → Nat → Byte → Memory
  | [], a, v => [(a, v)]
  | (b, w) :: rest, a, v =>
    if a < b then (a, v) :: (b, w) :: rest
    else if a = b then (a, v) :: rest
    else (b, w) :: Memory.put rest a v

/-- DMEM[a] ← v. Addresses from DMEM_SIZE up do not exist (20_memory R61): nothing is written there; every
command's range check has refused them before (00_scope R18). -/
def Memory.write (m : Memory) (a : Nat) (v : Byte) : Memory :=
  if a < Config.dmemSize then if v = 0#8 then m.erase a else m.put a v else m

/-- `MemRead(addr, n)` (00_scope R17). -/
def Memory.readBytes (m : Memory) (a n : Nat) : List Byte := (List.range n).map fun i => m.read (a + i)

/-- `MemWrite(addr, |s|, s)` (00_scope R17). -/
def Memory.writeBytes : Memory → Nat → List Byte → Memory
  | m, _, [] => m
  | m, a, v :: rest => Memory.writeBytes (m.write a v) (a + 1) rest

/-- The canonical form: strictly rising addresses, all of them below DMEM_SIZE, and no byte equal to what an
unlisted address reads as. -/
def Memory.wf (m : Memory) : Bool :=
  decide (m.Pairwise fun c d => c.1 < d.1) && m.all fun c => decide (c.1 < Config.dmemSize) && decide (c.2 ≠ 0#8)

/-- `InRange(addr, n)`, over unbounded integers (00_scope R18). -/
def inRange (addr n : Nat) : Bool := decide (addr + n ≤ Config.dmemSize)

/-! ### Coefficient arrays -/

/-- The list without trailing zeros. -/
def trimZeros : List Coeff → List Coeff
  | [] => []
  | c :: rest =>
    match trimZeros rest with
    | [] => if c = 0#16 then [] else [c]
    | d :: more => c :: d :: more

/-- `PR[k][i]` as a signed integer (00_scope R17); there is no coefficient from NMAX up (10_state R40). -/
def Poly.coeff (p : Poly) (i : Nat) : Int := if i < Config.nmax then (p.getD i 0).toInt else 0

/-- The array with coefficient `f i` (16-bit two's complement) at i < N and 0 at every i ≥ N: the destination
rule of 10_state R40 and 40_command R119. -/
def Poly.ofFn (N : Nat) (f : Nat → Int) : Poly :=
  trimZeros ((List.range (min N Config.nmax)).map fun i => BitVec.ofInt 16 (f i))

/-- The array holding a polynomial of dimension N (10_state R40). -/
def Poly.ofVec (N : Nat) (a : Vec) : Poly := Poly.ofFn N (at' a)

/-- Coefficients 0 to N-1 as integers (40_command R119). -/
def Poly.toVec (p : Poly) (N : Nat) : Vec := tab N p.coeff

/-- The list with entry i set, filled with zeros up to it. -/
def setEntry : List Coeff → Nat → Coeff → List Coeff
  | [], 0, c => [c]
  | [], i + 1, c => 0#16 :: setEntry [] i c
  | _ :: rest, 0, c => c :: rest
  | d :: rest, i + 1, c => d :: setEntry rest i c

/-- PR[k][i] ← c; an index from NMAX up ignores the write (20_memory R63). -/
def Poly.setCoeff (p : Poly) (i : Nat) (c : Coeff) : Poly :=
  if i < Config.nmax then trimZeros (setEntry p i c) else p

/-- The canonical form of a coefficient array: at most NMAX entries, the last one not 0 (log 16). -/
def Poly.wf (p : Poly) : Bool := decide (p.length ≤ Config.nmax) && decide (p.getLast? ≠ some 0#16)

/-! ### The command cycle -/

/-- The context latched at acceptance (40_command R110). -/
def State.latch (s : State) (w : Word) : Context :=
  { word := w, arg0 := s.arg0, arg1 := s.arg1, arg2 := s.arg2, arg3 := s.arg3
    cfgN := s.cfgN, cfgMod := s.cfgMod, cfgLow := s.cfgLow, iterCap := s.iterCap }

/-- Acceptance of a command word, in one indivisible step (40_command R110). -/
def accept (s : State) (w : Word) : State :=
  { s with
    cmd := w
    ctx := s.latch w
    status := s.status.accepted
    iterCnt := 0#32
    phase := .busy
    inflight := 0 }

/-- What a running command consumes and keeps even when it ends with an error (40_command R115): the stream
unit, the offered RNG bytes with the number pulled, ITER_CNT. -/
structure Feed where
  su : StreamUnit
  rng : List Byte
  pulled : Nat
  iterCnt : Word
deriving DecidableEq, Repr

/-- A command's start: nothing consumed yet. -/
def State.feed (s : State) : Feed := { su := s.su, rng := s.rng, pulled := 0, iterCnt := s.iterCnt }

/-- A command's output writes, each `none` where its rule writes nothing (40_command R113, R115). -/
structure Writes where
  pr : Option (PReg × Poly) := none
  mem : Option (Nat × List Byte) := none
  key : Option Key := none
  res0 : Option Word := none
  res1 : Option Word := none
  noinv : Option Bool := none
  eq : Option Bool := none
deriving DecidableEq, Repr

/-- How far a command came: it reached `complete`, it reached `raise Err(code)`, it waits for an RNG byte
(40_command R116), or it used up its loop turns and goes on in a later step (R117, 70_reset R360). -/
inductive Res (σ α : Type) where
  | ok (a : α) (s : σ)
  | err (e : Err) (s : σ)
  | starved (s : σ)
  | paused (s : σ)
deriving DecidableEq, Repr

/-- One part of a command after another. -/
def Res.bind {σ α β : Type} (r : Res σ α) (k : α → σ → Res σ β) : Res σ β :=
  match r with
  | .ok a s => k a s
  | .err e s => .err e s
  | .starved s => .starved s
  | .paused s => .paused s

/-- The same outcome over another consumption state. -/
def Res.mapState {σ τ α : Type} (r : Res σ α) (f : σ → τ) : Res τ α :=
  match r with
  | .ok a s => .ok a (f s)
  | .err e s => .err e (f s)
  | .starved s => .starved (f s)
  | .paused s => .paused (f s)

/-- The commit of a command's input consumption (40_command R115; RNG_CNT counts mod 2^32, 10_state R35). -/
def State.consume (s : State) (f : Feed) : State :=
  { s with
    su := f.su
    rng := f.rng
    rngCnt := s.rngCnt + BitVec.ofNat 32 f.pulled
    iterCnt := f.iterCnt }

/-- The commit of a command's output writes (40_command R113). -/
def State.write (s : State) (w : Writes) : State :=
  { s with
    pr := (match w.pr with | none => s.pr | some (k, p) => s.pr.set k p)
    dmem := (match w.mem with | none => s.dmem | some (a, bytes) => s.dmem.writeBytes a bytes)
    key := w.key.getD s.key
    res0 := w.res0.getD s.res0
    res1 := w.res1.getD s.res1
    status := { s.status with noinv := w.noinv.getD s.status.noinv, eq := w.eq.getD s.status.eq } }

/-- The end of a command: PHASE ← IDLE, and with it no context and no byte in flight. -/
def State.toIdle (s : State) : State := { s with phase := .idle, ctx := Context.empty, inflight := 0 }

/-- Completion without error (40_command R114). -/
def complete (s : State) (f : Feed) (w : Writes) : State :=
  let t := (s.consume f).write w
  { t.toIdle with status := t.status.completed }

/-- Completion with an error: the output writes are discarded, the input consumption is kept (40_command R115,
60_exceptions R301, R302). -/
def raiseErr (s : State) (f : Feed) (e : Err) : State :=
  let t := s.consume f
  { t.toIdle with status := t.status.failed e }

/-- A command that waits for an RNG byte: nothing is committed, PHASE stays (40_command R113, R116); the bytes it
has pulled are gone at the producer (70_reset R356, log 9). -/
def starve (s : State) (f : Feed) : State := { s with inflight := f.pulled }

/-- A command that goes on in a later step: nothing is committed; more loop turns are granted to it (40_command
R117, log 8). -/
def pause (s : State) (f : Feed) : State := { s with inflight := f.pulled, turns := 2 * s.turns + 1 }

/-- The state a command's run leads to (40_command R113 to R117). -/
def afterRun (s : State) : Res Feed Writes → State
  | .ok w f => complete s f w
  | .err e f => raiseErr s f e
  | .starved f => starve s f
  | .paused f => pause s f

/-- Every command ends in a next state. -/
def conclude (s : State) (r : Res Feed Writes) : Host.Outcome State Fault Refusal := .next (afterRun s r)

/-- A command that consumes nothing: its writes, or one error. -/
def ofExcept (f : Feed) : Except Err Writes → Res Feed Writes
  | .ok w => .ok w f
  | .error e => .err e f

/-- Reset, hard or soft: every piece of architectural state takes its reset value (70_reset R340, R341, R342). The
configuration, the RNG producer (not rewound: bytes the running command had pulled stay consumed, R356), the
events to come and the bus are outside the engine and stay. -/
def resetEngine (s : State) : State :=
  { State.reset with
    params := s.params
    rng := s.rng.drop s.inflight
    turns := s.turns
    inbox := s.inbox
    rdata := s.rdata }

end Sys2Proof.Machine
end

