-- ==== Sys2Proof/Machine/Operands.lean ====
section
/-! DEFINITION. The operand forms: the latched scalar operands ARG0 to ARG3, N, MOD, LOW, CAP (30_encoding R93,
10_state R47), source polynomials (40_command R119), the common operand checks (41_poly_arith R130) and the
reducer's output function (R131). -/

namespace Sys2Proof.Machine

namespace State

/-- `ARG0`, unsigned (30_encoding R93). -/
def argA (s : State) : Nat := s.ctx.arg0.toNat

/-- `ARG1`, unsigned (30_encoding R93). -/
def argB (s : State) : Nat := s.ctx.arg1.toNat

/-- `ARG2`, unsigned (30_encoding R93). -/
def argC (s : State) : Nat := s.ctx.arg2.toNat

/-- `ARG3`, unsigned (30_encoding R93). -/
def argD (s : State) : Nat := s.ctx.arg3.toNat

/-- `N` = CFG_N, unsigned (30_encoding R93). -/
def dim (s : State) : Nat := s.ctx.cfgN.toNat

/-- `MOD` = CFG_MOD, unsigned (30_encoding R93). -/
def modulus (s : State) : Int := (s.ctx.cfgMod.toNat : Int)

/-- `LOW` = CFG_LOW, two's complement (30_encoding R93). -/
def low (s : State) : Int := s.ctx.cfgLow.toInt

/-- `CAP` = ITER_CAP, unsigned (30_encoding R93). -/
def cap (s : State) : Nat := s.ctx.iterCap.toNat

/-- The source polynomial PR[k] with the latched dimension (40_command R119). -/
def source (s : State) (k : PReg) : Vec := (s.pr[k]).toVec s.dim

/-- 1 ≤ N ≤ NMAX (10_state R28, 41_poly_arith R130). -/
def dimOk (s : State) : Bool := decide (1 ≤ s.dim) && decide (s.dim ≤ Config.nmax)

/-- 1 ≤ MOD ≤ 65536 (10_state R29, 41_poly_arith R130). -/
def modOk (s : State) : Bool := decide (1 ≤ s.modulus) && decide (s.modulus ≤ 65536)

/-- -32768 ≤ LOW and LOW + MOD - 1 ≤ 32767 (10_state R30, 41_poly_arith R130). -/
def lowOk (s : State) : Bool := decide (-32768 ≤ s.low) && decide (s.low + s.modulus - 1 ≤ 32767)

/-- The checks of 41_poly_arith R130, `reduces` telling whether the command reduces. Every failure is the same
error, so their order shows nowhere. -/
def ringOk (s : State) (reduces : Bool) : Bool := s.dimOk && (!reduces || (s.modOk && s.lowOk))

/-- The output function out(v) (41_poly_arith R131). -/
def out (s : State) (reduces : Bool) (v : Int) : Int := if reduces then red v s.modulus s.low else wrap16 v

end State

end Sys2Proof.Machine
end

