-- ==== Sys2Proof/Machine/Bus.lean ====
section
/-! DEFINITION. The host interface: the register map (10_state R22 to R39), the DMEM and PR windows (20_memory R62,
R63), refused accesses (R64, R66), the side effects of writes (R69), command issue (40_command R110, R111), soft
and hard reset (70_reset R340, R341), the RNG port's offers (00_scope R11), and the decoding of the latched word
(40_command R112). -/

namespace Sys2Proof.Machine

/-! ### The register map (10_state section 1.2) -/

abbrev offID : Nat := 0x000
abbrev offCTRL : Nat := 0x004
abbrev offSTATUS : Nat := 0x008
abbrev offCMD : Nat := 0x00C
abbrev offARG0 : Nat := 0x010
abbrev offARG1 : Nat := 0x014
abbrev offARG2 : Nat := 0x018
abbrev offARG3 : Nat := 0x01C
abbrev offRES0 : Nat := 0x020
abbrev offRES1 : Nat := 0x024
abbrev offCFGN : Nat := 0x028
abbrev offCFGMOD : Nat := 0x02C
abbrev offCFGLOW : Nat := 0x030
abbrev offKEYSTAT : Nat := 0x034
abbrev offIRQEN : Nat := 0x038
abbrev offITERCAP : Nat := 0x03C
abbrev offITERCNT : Nat := 0x040
abbrev offRNGCNT : Nat := 0x044
abbrev offSRCSTAT : Nat := 0x048
abbrev offMGFRUNS : Nat := 0x04C
abbrev offSRCREM : Nat := 0x050

/-- The constant of the ID register (10_state R22). -/
def idWord : Word := 0x4E504531#32

/-- A host read of the register area, offsets below 0x2000; a reserved offset reads 0 (10_state R22 to R39). -/
def regRead (s : State) (off : Nat) : Word :=
  if off = offID then idWord
  else if off = offSTATUS then statusWord s
  else if off = offCMD then s.cmd
  else if off = offARG0 then s.arg0
  else if off = offARG1 then s.arg1
  else if off = offARG2 then s.arg2
  else if off = offARG3 then s.arg3
  else if off = offRES0 then s.res0
  else if off = offRES1 then s.res1
  else if off = offCFGN then s.cfgN
  else if off = offCFGMOD then s.cfgMod
  else if off = offCFGLOW then s.cfgLow
  else if off = offKEYSTAT then keystatWord s
  else if off = offIRQEN then flagAt s.doneIE 0
  else if off = offITERCAP then s.iterCap
  else if off = offITERCNT then s.iterCnt
  else if off = offRNGCNT then s.rngCnt
  else if off = offSRCSTAT then srcstatWord s
  else if off = offMGFRUNS then mgfRunsWord s
  else if off = offSRCREM then srcRemWord s
  else 0#32

/-- A command issue: accepted while idle, dropped with OVR while busy (40_command R110, R111). -/
def issue (s : State) (w : Word) : State :=
  match s.phase with
  | .idle => accept s w
  | .busy => { s with status := { s.status with ovr := true } }

/-- A host write to the register area; a read-only or reserved offset ignores it (10_state R22 to R39). -/
def regWrite (s : State) (off : Nat) (w : Word) : State :=
  if off = offCTRL then (if w.getLsbD 0 then resetEngine s else s)
  else if off = offSTATUS then { s with status := s.status.writeOneToClear w }
  else if off = offCMD then issue s w
  else if off = offARG0 then { s with arg0 := w }
  else if off = offARG1 then { s with arg1 := w }
  else if off = offARG2 then { s with arg2 := w }
  else if off = offARG3 then { s with arg3 := w }
  else if off = offCFGN then { s with cfgN := w }
  else if off = offCFGMOD then { s with cfgMod := w }
  else if off = offCFGLOW then { s with cfgLow := w }
  else if off = offIRQEN then { s with doneIE := w.getLsbD 0 }
  else if off = offITERCAP then { s with iterCap := w }
  else s

/-! ### The windows -/

/-- Word k of the DMEM window, little-endian (20_memory R62). -/
def dmemWord (m : Memory) (k : Nat) : Word :=
  m.read (4 * k + 3) ++ m.read (4 * k + 2) ++ m.read (4 * k + 1) ++ m.read (4 * k)

/-- A host write of word k of the DMEM window (20_memory R62). -/
def setDmemWord (m : Memory) (k : Nat) (w : Word) : Memory :=
  m.writeBytes (4 * k) [w.extractLsb' 0 8, w.extractLsb' 8 8, w.extractLsb' 16 8, w.extractLsb' 24 8]

/-- The 16 bits of coefficient i; 0 from NMAX up (20_memory R63). -/
def coeffBits (p : Poly) (i : Nat) : Coeff := if i < Config.nmax then p.getD i 0 else 0

/-- Word j of a PR window: coefficient 2j in the low half, 2j+1 in the high half (20_memory R63). -/
def prWord (p : Poly) (j : Nat) : Word := coeffBits p (2 * j + 1) ++ coeffBits p (2 * j)

/-- A host write of word j of a PR window (20_memory R63). -/
def setPrWord (p : Poly) (j : Nat) (w : Word) : Poly :=
  (p.setCoeff (2 * j) (w.extractLsb' 0 16)).setCoeff (2 * j + 1) (w.extractLsb' 16 16)

/-- The register of a PR window offset (20_memory R63). -/
def windowReg (off : Nat) : PReg := Fin.ofNat 8 ((off - 0x4000) / 0x1000)

/-- The word index of a PR window offset (20_memory R63). -/
def windowWord (off : Nat) : Nat := (off - 0x4000) % 0x1000 / 4

/-! ### Host accesses -/

/-- The offset lies in the DMEM window or a PR window (10_state section 1.2). -/
def inWindow (off : Nat) : Bool := decide (0x2000 ≤ off) && decide (off < 0xC000)

/-- The access is refused: it is not an aligned 32-bit access, or it goes to a window while busy (20_memory R64,
R66; the width and alignment rule holds at reserved offsets too, log 13). -/
def refusedAccess (s : State) (off : Nat) (width : Width) : Bool :=
  decide (width ≠ .w32) || decide (off % 4 ≠ 0) || (s.busy && inWindow off)

/-- A refused access sets ACCERR (20_memory R64, R66). -/
def setAccerr (s : State) : State := { s with status := { s.status with accerr := true } }

/-- The word a host read that is not refused returns (10_state section 1.2, 20_memory R62, R63). -/
def readWord (s : State) (off : Nat) : Word :=
  if off < 0x2000 then regRead s off
  else if off < 0x4000 then dmemWord s.dmem ((off - 0x2000) / 4)
  else if off < 0xC000 then prWord s.pr[windowReg off] (windowWord off)
  else 0#32

/-- The effect of a host write that is not refused (10_state section 1.2, 20_memory R62, R63). -/
def writeWord (s : State) (off : Nat) (w : Word) : State :=
  if off < 0x2000 then regWrite s off w
  else if off < 0x4000 then { s with dmem := setDmemWord s.dmem ((off - 0x2000) / 4) w }
  else if off < 0xC000 then
    { s with pr := s.pr.set (windowReg off) (setPrWord s.pr[windowReg off] (windowWord off) w) }
  else s

/-- A host access (20_memory R66, R69): the bus transaction always completes. -/
def hostAccess (s : State) : Access → State
  | .read off width =>
    if refusedAccess s off.toNat width then { setAccerr s with rdata := some 0#32 }
    else { s with rdata := some (readWord s off.toNat) }
  | .write off width w =>
    if refusedAccess s off.toNat width then setAccerr s else writeWord s off.toNat w

/-- The RNG port offers one more byte (00_scope R11). -/
def offerByte (s : State) (v : Byte) : State := { s with rng := s.rng ++ [v] }

/-! ### The latched command -/

/-- The command of the latched word (40_command R112, 30_encoding R95). -/
def currentCommand (s : State) : Option Instr := decode s.ctx.word

/-- An illegal word: the command completes with ILLEGAL_CMD and changes nothing else (40_command R112,
30_encoding R96). -/
def illegalCommand (s : State) : State := raiseErr s s.feed .illegalCmd

/-- The state in which the word has just been accepted and the sequencer has the next turn (log 2). -/
def loadWord (s : State) (w : Word) : State := accept { s with inbox := .turn :: s.inbox } w

end Sys2Proof.Machine
end

