-- ==== Sys2Proof/Machine/Inversion.lean ====
section
/-! DEFINITION. PINVP and PINVQ (42_inversion R151, R153). -/

namespace Sys2Proof.Machine

/-- The shape of the two inversion commands: N checked; D and NOINV from the inverter's answer, "no inverse" being
no error (42_inversion R151, R153). -/
def inversionCommand (s : State) (rd : PReg) (inverse : Option Vec) : Except Err Writes :=
  if s.dimOk then
    match inverse with
    | some b => .ok { pr := some (rd, Poly.ofVec s.dim b), noinv := some false }
    | none => .ok { noinv := some true }
  else .error .precondition

/-- PINVP: the inverse in R_2 of A mod 2 (42_inversion R151). -/
def execPinvp (rd rs1 : PReg) (s : State) : Host.Outcome State Fault Refusal :=
  conclude s (ofExcept s.feed (inversionCommand s rd (invertP s.dim (modVec s.dim 2 (s.source rs1)))))

/-- PINVQ: the inverse in R_2048 of A mod 2048 (42_inversion R153). -/
def execPinvq (rd rs1 : PReg) (s : State) : Host.Outcome State Fault Refusal :=
  conclude s (ofExcept s.feed (inversionCommand s rd (invertQ s.dim (modVec s.dim 2048 (s.source rs1)))))

end Sys2Proof.Machine
end

