-- ==== Sys2Proof/Machine/BinTri.lean ====
section
/-! DEFINITION. The binary-to-trinary map of a parameter set and its inverse (45_ntru R247). `BinTriMap.suggested`
is the default R247 suggests (PRESUMED, log 6); `BinTriMap.other` is any other pair of functions, taken up to
the ranges R247 gives them (log 24). -/

namespace Sys2Proof.Machine

/-- The bits of a byte string, the most significant bit of each byte first (45_ntru R247). -/
def bitsOfBytes (m : List Byte) : List Bool := m.flatMap fun v => (List.range 8).map fun j => v.getLsbD (7 - j)

/-- The bytes of a bit string, the most significant bit of each byte first. -/
def bytesOfBits : List Bool → List Byte
  | b7 :: b6 :: b5 :: b4 :: b3 :: b2 :: b1 :: b0 :: rest =>
    BitVec.ofNat 8 ([b7, b6, b5, b4, b3, b2, b1, b0].foldl (fun v b => 2 * v + b.toNat) 0) :: bytesOfBits rest
  | _ => []

/-- The two trits of a 3-bit group, most significant bit first (45_ntru R247's table). -/
def tritPair : Bool → Bool → Bool → List Int
  | false, false, false => [0, 0]
  | false, false, true => [0, 1]
  | false, true, false => [0, -1]
  | false, true, true => [1, 0]
  | true, false, false => [1, 1]
  | true, false, true => [1, -1]
  | true, true, false => [-1, 0]
  | true, true, true => [-1, 1]

/-- The trits of a bit string, padded with 0 bits to a multiple of 3 (45_ntru R247). -/
def tritsOfBits : List Bool → List Int
  | [] => []
  | [x] => tritPair x false false
  | [x, y] => tritPair x y false
  | x :: y :: z :: rest => tritPair x y z ++ tritsOfBits rest

/-- The 3-bit group of a trit pair, none for (-1, -1) and for a pair that holds no trit. -/
def bitsOfPair (a b : Int) : Option (List Bool) :=
  if a = 0 ∧ b = 0 then some [false, false, false]
  else if a = 0 ∧ b = 1 then some [false, false, true]
  else if a = 0 ∧ b = -1 then some [false, true, false]
  else if a = 1 ∧ b = 0 then some [false, true, true]
  else if a = 1 ∧ b = 1 then some [true, false, false]
  else if a = 1 ∧ b = -1 then some [true, false, true]
  else if a = -1 ∧ b = 0 then some [true, true, false]
  else if a = -1 ∧ b = 1 then some [true, true, true]
  else none

/-- The bits read back from the first `n` trit pairs, and whether every pair stands for a group. DESIGN CHOICE
(log 27): a pair (-1, -1), for which R247 gives no bits, is read as 000; the result then has ok = false. -/
def bitsOfTrits : Nat → List Int → List Bool × Bool
  | 0, _ => ([], true)
  | n + 1, t =>
    let r := bitsOfTrits n (t.drop 2)
    match bitsOfPair (t.getD 0 0) (t.getD 1 0) with
    | some bits => (bits ++ r.1, r.2)
    | none => ([false, false, false] ++ r.1, false)

/-- The list cut or filled with `z` to n elements. -/
def fitTo {α : Type} (n : Nat) (z : α) (l : List α) : List α := l.take n ++ List.replicate (n - l.length) z

/-- A coefficient forced into {-1, 0, 1}. -/
def toTrit (v : Int) : Int := if v = 1 ∨ v = -1 then v else 0

/-- The number of trit pairs of the suggested map: ceil(8·mBufLen/3) (45_ntru R247). -/
def pairCount (mBufLen : Nat) : Nat := (8 * mBufLen + 2) / 3

/-- `BinToTri_P(M)`, a trinomial of dimension N (45_ntru R247). DESIGN CHOICE (log 27): the suggested map on a set
with N < 2·ceil(8·mBufLen/3), for which R247 does not define it, cuts its trits to the first N. -/
def binToTri (P : ParamSet) (m : List Byte) : List Int :=
  match P.binTri with
  | .suggested => fitTo P.N 0 (tritsOfBits (bitsOfBytes m))
  | .other k => (fitTo P.N 0 (Config.openBinToTri k m)).map toTrit

/-- `TriToBin_P(t)`, a byte string of mBufLen bytes and whether t is BinToTri_P of it (45_ntru R247). DESIGN
CHOICE (log 27): the bytes that come with ok = false under the suggested map, which R247 does not give. -/
def triToBin (P : ParamSet) (t : List Int) : List Byte × Bool :=
  match P.binTri with
  | .suggested =>
    let n := pairCount P.mBufLen
    let r := bitsOfTrits n t
    (fitTo P.mBufLen 0 (bytesOfBits (r.1.take (8 * P.mBufLen))),
      r.2 && (r.1.drop (8 * P.mBufLen)).all (fun b => !b) && (t.drop (2 * n)).all (fun v => v == 0))
  | .other k => (fitTo P.mBufLen 0 (Config.openTriToBin k t).1, (Config.openTriToBin k t).2)

/-- A trinomial of dimension N (00_scope R16). -/
def isTrinomial (N : Nat) (t : List Int) : Bool :=
  decide (t.length = N) && t.all fun v => decide (v = 0 ∨ v = 1 ∨ v = -1)

/-- Laws (a) and (b) of 45_ntru R247 for the map of one parameter set. -/
def binTriLawful (P : ParamSet) : Prop :=
  (∀ m : List Byte, m.length = P.mBufLen → triToBin P (binToTri P m) = (m, true)) ∧
  ∀ t : List Int, isTrinomial P.N t = true →
    ((triToBin P t).2 = false ↔ ∀ m : List Byte, m.length = P.mBufLen → binToTri P m ≠ t)

end Sys2Proof.Machine
end

