-- ==== Sys2Proof/Machine/BitPack.lean ====
section
/-! DEFINITION. The bit packer's pure functions (43_bitpack R170 to R173) and the trit encoder of MGF_TP_1
(44_streams R204, R206), on lists. -/

namespace Sys2Proof.Machine

/-- `bw(maxEltValue)`, the bits per element (43_bitpack R170). -/
def bw (mx : Nat) : Nat := ceilLog2 mx

/-- `L(n, maxEltValue) = ceil(n·b / 8)`, the packed length in bytes (43_bitpack R171). -/
def packedLen (n mx : Nat) : Nat := (n * bw mx + 7) / 8

/-- Stream bit k of the packed layout: bit b-1-j of element i, for k = i·b + j; a pad bit is 0
(43_bitpack R171, the element's bit order PRESUMED, log 18). -/
def packBit (x : List Nat) (n mx k : Nat) : Bool :=
  decide (k < n * bw mx) && (x.getD (k / bw mx) 0).testBit (bw mx - 1 - k % bw mx)

/-- The value of `len` bits, the first the most significant. -/
def bitsValue (bit : Nat → Bool) : Nat → Nat
  | 0 => 0
  | len + 1 => 2 * bitsValue bit len + (if bit len then 1 else 0)

/-- The packed layout: stream bit k goes to byte k div 8 at bit position 7 - (k mod 8) (43_bitpack R171). -/
def packAll (x : List Nat) (n mx : Nat) : List Byte :=
  (List.range (packedLen n mx)).map fun g => BitVec.ofNat 8 (bitsValue (fun j => packBit x n mx (8 * g + j)) 8)

/-- `plen(n, maxEltValue, c)` (43_bitpack R172). -/
def plen (n mx c : Nat) : Nat := if c = 0 then packedLen n mx else c

/-- `pack(x, n, maxEltValue, c)`: the whole layout, or its first c bytes (43_bitpack R172). -/
def pack (x : List Nat) (n mx c : Nat) : List Byte :=
  if c = 0 then packAll x n mx else (packAll x n mx).take c

/-- Bit k of a byte string read as a stream, the most significant bit of each byte first (43_bitpack R171). -/
def streamBit (s : List Byte) (k : Nat) : Bool := (s.getD (k / 8) 0).getLsbD (7 - k % 8)

/-- Element i of `unpack(s, n, maxEltValue)` (43_bitpack R173). -/
def unpackAt (s : List Byte) (mx i : Nat) : Nat := bitsValue (fun j => streamBit s (i * bw mx + j)) (bw mx)

/-- `unpack(s, n, maxEltValue)` (43_bitpack R173). -/
def unpack (s : List Byte) (n mx : Nat) : List Nat := (List.range n).map (unpackAt s mx)

/-- `over(s)`: the number of elements at or above the bound (43_bitpack R173). -/
def overCount (s : List Byte) (n mx : Nat) : Nat := (unpack s n mx).countP fun y => decide (mx ≤ y)

/-- `padnz(s)`: some pad bit of the first L bytes is 1 (43_bitpack R173). -/
def padnz (s : List Byte) (n mx : Nat) : Bool :=
  (List.range (8 * packedLen n mx - n * bw mx)).any fun j => streamBit s (n * bw mx + j)

/-- `trit(d)`: 0 → 0, 1 → 1, 2 → -1 (44_streams R204, 90_conflicts C1). -/
def trit (d : Nat) : Int := if d = 2 then -1 else (d : Int)

/-- `dig(t)`: 0 → 0, 1 → 1, -1 → 2 (44_streams R206). -/
def dig (t : Int) : Nat := if t = -1 then 2 else t.toNat

/-- The five trits of an accepted byte, least significant base-3 digit first (44_streams R204). -/
def tritsOfByte (v : Byte) : List Int := (List.range 5).map fun j => trit (v.toNat / 3 ^ j % 3)

/-- Byte g of `TpEncode(t, N)` (44_streams R206). -/
def tpEncodeByte (t : List Int) (N g : Nat) : Byte :=
  BitVec.ofNat 8 (((List.range 5).map fun j =>
    if 5 * g + j < N then dig (t.getD (5 * g + j) 0) * 3 ^ j else 0).sum)

/-- `TpEncode(t, N)`: ceil(N/5) bytes (44_streams R206). -/
def tpEncode (t : List Int) (N : Nat) : List Byte := (List.range ((N + 4) / 5)).map (tpEncodeByte t N)

end Sys2Proof.Machine
end

