-- ==== Sys2Proof/Machine/Digest.lean ====
section
/-! DEFINITION. The digest function `Hash_h` (00_scope R12). The spec treats it as a parameter that "any standard
SHA-1/SHA-256 implementation satisfies"; `DigestImpl.fips` is the standard pair of FIPS 180-4
(PRESUMED, log 5), `DigestImpl.other` any pair of functions of the stated output lengths. -/

namespace Sys2Proof.Machine

/-- BE32(n), the four-byte big-endian encoding of n mod 2^32 (00_scope R14). -/
def be32 (w : Word) : List Byte :=
  [w.extractLsb' 24 8, w.extractLsb' 16 8, w.extractLsb' 8 8, w.extractLsb' 0 8]

/-- Four bytes as one big-endian word, and the rest after them. -/
def wordsBE : List Byte → List Word
  | a :: b :: c :: d :: rest => (a ++ b ++ c ++ d) :: wordsBE rest
  | _ => []

/-- The padded message: a 1 bit, zeros, and the bit length in 64 bits, in 64-byte blocks. -/
def shaPad (m : List Byte) : List Byte :=
  let zeros := (119 - m.length % 64) % 64
  m ++ [0x80#8] ++ List.replicate zeros 0#8 ++
    be32 (BitVec.ofNat 32 (m.length * 8 / 2 ^ 32)) ++ be32 (BitVec.ofNat 32 (m.length * 8))

/-- The list cut into groups of 16 words, at most `n` groups. -/
def blocksOf : Nat → List Word → List (List Word)
  | 0, _ => []
  | n + 1, ws => if ws.isEmpty then [] else ws.take 16 :: blocksOf n (ws.drop 16)

/-- The blocks of a message. -/
def shaBlocks (m : List Byte) : List (List Word) :=
  blocksOf (m.length / 64 + 2) (wordsBE (shaPad m))

/-- The message schedule grown to `n` more words; the newest word stands first. -/
def schedule (next : List Word → Word) : Nat → List Word → List Word
  | 0, ws => ws
  | n + 1, ws => schedule next n (next ws :: ws)

/-- SHA-1's schedule word from the 16 words before it, newest first. -/
def sha1Next (ws : List Word) : Word :=
  (ws.getD 2 0 ^^^ ws.getD 7 0 ^^^ ws.getD 13 0 ^^^ ws.getD 15 0).rotateLeft 1

/-- SHA-1's chaining value. -/
structure Sha1 where
  a : Word
  b : Word
  c : Word
  d : Word
  e : Word
deriving DecidableEq, Repr

/-- SHA-1's round function and constant for round t. -/
def sha1F (t : Nat) (b c d : Word) : Word :=
  if t < 20 then ((b &&& c) ^^^ ((~~~b) &&& d)) + 0x5A827999#32
  else if t < 40 then (b ^^^ c ^^^ d) + 0x6ED9EBA1#32
  else if t < 60 then ((b &&& c) ^^^ (b &&& d) ^^^ (c &&& d)) + 0x8F1BBCDC#32
  else (b ^^^ c ^^^ d) + 0xCA62C1D6#32

/-- The rounds of SHA-1 from round t on. -/
def sha1Rounds : Nat → List Word → Sha1 → Sha1
  | _, [], h => h
  | t, w :: ws, h =>
    sha1Rounds (t + 1) ws
      ⟨h.a.rotateLeft 5 + sha1F t h.b h.c h.d + h.e + w, h.a, h.b.rotateLeft 30, h.c, h.d⟩

/-- SHA-1 of one block. -/
def sha1Block (h : Sha1) (blk : List Word) : Sha1 :=
  let r := sha1Rounds 0 (schedule sha1Next 64 blk.reverse).reverse h
  ⟨h.a + r.a, h.b + r.b, h.c + r.c, h.d + r.d, h.e + r.e⟩

/-- SHA-1 (FIPS 180-4): 20 bytes. -/
def sha1 (m : List Byte) : List Byte :=
  let h := (shaBlocks m).foldl sha1Block
    ⟨0x67452301#32, 0xEFCDAB89#32, 0x98BADCFE#32, 0x10325476#32, 0xC3D2E1F0#32⟩
  be32 h.a ++ be32 h.b ++ be32 h.c ++ be32 h.d ++ be32 h.e

/-- SHA-256's schedule word from the 16 words before it, newest first. -/
def sha256Next (ws : List Word) : Word :=
  let s0 := fun x : Word => x.rotateRight 7 ^^^ x.rotateRight 18 ^^^ (x >>> 3)
  let s1 := fun x : Word => x.rotateRight 17 ^^^ x.rotateRight 19 ^^^ (x >>> 10)
  s1 (ws.getD 1 0) + ws.getD 6 0 + s0 (ws.getD 14 0) + ws.getD 15 0

/-- SHA-256's round constants. -/
def sha256K : List Word :=
  [ 0x428a2f98#32, 0x71374491#32, 0xb5c0fbcf#32, 0xe9b5dba5#32, 0x3956c25b#32, 0x59f111f1#32, 0x923f82a4#32, 0xab1c5ed5#32,
    0xd807aa98#32, 0x12835b01#32, 0x243185be#32, 0x550c7dc3#32, 0x72be5d74#32, 0x80deb1fe#32, 0x9bdc06a7#32, 0xc19bf174#32 ] ++
  [ 0xe49b69c1#32, 0xefbe4786#32, 0x0fc19dc6#32, 0x240ca1cc#32, 0x2de92c6f#32, 0x4a7484aa#32, 0x5cb0a9dc#32, 0x76f988da#32,
    0x983e5152#32, 0xa831c66d#32, 0xb00327c8#32, 0xbf597fc7#32, 0xc6e00bf3#32, 0xd5a79147#32, 0x06ca6351#32, 0x14292967#32 ] ++
  [ 0x27b70a85#32, 0x2e1b2138#32, 0x4d2c6dfc#32, 0x53380d13#32, 0x650a7354#32, 0x766a0abb#32, 0x81c2c92e#32, 0x92722c85#32,
    0xa2bfe8a1#32, 0xa81a664b#32, 0xc24b8b70#32, 0xc76c51a3#32, 0xd192e819#32, 0xd6990624#32, 0xf40e3585#32, 0x106aa070#32 ] ++
  [ 0x19a4c116#32, 0x1e376c08#32, 0x2748774c#32, 0x34b0bcb5#32, 0x391c0cb3#32, 0x4ed8aa4a#32, 0x5b9cca4f#32, 0x682e6ff3#32,
    0x748f82ee#32, 0x78a5636f#32, 0x84c87814#32, 0x8cc70208#32, 0x90befffa#32, 0xa4506ceb#32, 0xbef9a3f7#32, 0xc67178f2#32 ]

/-- SHA-256's chaining value. -/
structure Sha256 where
  a : Word
  b : Word
  c : Word
  d : Word
  e : Word
  f : Word
  g : Word
  h : Word
deriving DecidableEq, Repr

/-- One round of SHA-256 with its constant and schedule word. -/
def sha256Round (s : Sha256) (kw : Word × Word) : Sha256 :=
  let t1 := s.h + (s.e.rotateRight 6 ^^^ s.e.rotateRight 11 ^^^ s.e.rotateRight 25) +
    ((s.e &&& s.f) ^^^ ((~~~s.e) &&& s.g)) + kw.1 + kw.2
  let t2 := (s.a.rotateRight 2 ^^^ s.a.rotateRight 13 ^^^ s.a.rotateRight 22) +
    ((s.a &&& s.b) ^^^ (s.a &&& s.c) ^^^ (s.b &&& s.c))
  ⟨t1 + t2, s.a, s.b, s.c, s.d + t1, s.e, s.f, s.g⟩

/-- SHA-256 of one block. -/
def sha256Block (h : Sha256) (blk : List Word) : Sha256 :=
  let r := (sha256K.zip (schedule sha256Next 48 blk.reverse).reverse).foldl sha256Round h
  ⟨h.a + r.a, h.b + r.b, h.c + r.c, h.d + r.d, h.e + r.e, h.f + r.f, h.g + r.g, h.h + r.h⟩

/-- SHA-256 (FIPS 180-4): 32 bytes. -/
def sha256 (m : List Byte) : List Byte :=
  let h := (shaBlocks m).foldl sha256Block
    ⟨0x6a09e667#32, 0xbb67ae85#32, 0x3c6ef372#32, 0xa54ff53a#32, 0x510e527f#32, 0x9b05688c#32, 0x1f83d9ab#32, 0x5be0cd19#32⟩
  be32 h.a ++ be32 h.b ++ be32 h.c ++ be32 h.d ++ be32 h.e ++ be32 h.f ++ be32 h.g ++ be32 h.h

/-- `Hash_h(s)` for the instantiation of the digest parameter that the configuration names (00_scope R12). -/
def digest (impl : DigestImpl) (h : HashAlg) (s : List Byte) : List Byte :=
  match impl, h with
  | .fips, .sha1 => sha1 s
  | .fips, .sha256 => sha256 s
  | .other k, .sha1 => (Config.openDigest20 k s).toList
  | .other k, .sha256 => (Config.openDigest32 k s).toList

end Sys2Proof.Machine
end

