-- ==== Sys2Proof/Machine/Stream.lean ====
section
/-! DEFINITION. The byte sources (44_streams R190 to R193), CloseSource (R197), IGF2 (R200), BPGM3 (R203) and the
MGF_TP_1 decoder (R204), as functions over the state they consume. A rejection loop takes the number of turns it
may make in this step as its recursion (log 8); using them up answers `paused`. -/

namespace Sys2Proof.Machine

/-! ### Byte sources -/

/-- `RngPull()`: the next byte the port has offered; with none offered the command waits (44_streams R191). -/
def rngPull (f : Feed) : Res Feed Byte :=
  match f.rng with
  | [] => .starved f
  | v :: rest => .ok v { f with rng := rest, pulled := f.pulled + 1 }

/-- `MgfOpen(h, seed, prehash, minRuns)` (44_streams R193). -/
def mgfOpen (impl : DigestImpl) (h : HashAlg) (seed : List Byte) (prehash : Bool) (minRuns : Nat) : Mgf :=
  { hash := h
    seed := if prehash then digest impl h seed else seed
    ctr := 0#32
    buf := []
    runs := 0
    minRuns := minRuns }

/-- The digest run of a pull with MBUF empty (44_streams R193). -/
def mgfRun (impl : DigestImpl) (m : Mgf) : Mgf :=
  { m with
    buf := digest impl m.hash (m.seed ++ be32 m.ctr)
    ctr := m.ctr + 1#32
    runs := m.runs + 1 }

/-- `MgfPull()` (44_streams R193): hash only when MBUF is empty, then take its first byte. -/
def mgfPull (impl : DigestImpl) (m : Mgf) : Byte × Mgf :=
  let n := if m.buf.isEmpty then mgfRun impl m else m
  (n.buf.headD 0#8, { n with buf := n.buf.tail })

/-- The run count `MgfClose()` leaves: padding runs up to MMIN (44_streams R193, R199). The padding digests are
discarded and MCTR is cleared at the close (R197), so the count is all that is left of them. -/
def mgfCloseRuns (m : Mgf) : Nat := max m.runs m.minRuns

/-- `Pull()`, one byte from the current source (44_streams R192). -/
def pull (mem : Memory) (impl : DigestImpl) (f : Feed) : Res Feed Byte :=
  match f.su.src with
  | .none => .err .noSource f
  | .rng => rngPull f
  | .mem =>
    if f.su.mcur = f.su.mend then .err .srcExhausted f
    else .ok (mem.read f.su.mcur) { f with su := { f.su with mcur := f.su.mcur + 1 } }
  | .mgf => .ok (mgfPull impl f.su.mgf).1 { f with su := { f.su with mgf := (mgfPull impl f.su.mgf).2 } }

/-- `CloseSource()` (44_streams R197). -/
def closeSource (u : StreamUnit) : StreamUnit :=
  { src := .none
    mgf := if u.src = .mgf then Mgf.reset else u.mgf
    lastRuns := if u.src = .mgf then mgfCloseRuns u.mgf else u.lastRuns
    mcur := 0
    mend := 0
    igf := Igf.reset }

/-! ### IGF2 -/

/-- `IgfInit(M, b)` (44_streams R200). -/
def igfInit (m b : Nat) : Igf := { act := true, m := m, b := b, cut := 2 ^ b - 2 ^ b % m, buf := 0, nbits := 0 }

/-- A byte appended to the buffered bits (44_streams R200). -/
def igfPush (g : Igf) (v : Byte) : Igf := { g with buf := g.buf * 256 + v.toNat, nbits := g.nbits + 8 }

/-- The bytes to pull before b bits are buffered (44_streams R200 "while IGF_NBITS < IGF_B"). -/
def igfNeed (g : Igf) : Nat := (g.b - g.nbits + 7) / 8

/-- n bytes pulled into the bit buffer. -/
def igfFill {σ : Type} (pull : σ → Res σ Byte) : Nat → Igf → σ → Res (Igf × σ) Unit
  | 0, g, s => .ok () (g, s)
  | n + 1, g, s =>
    match pull s with
    | .ok v t => igfFill pull n (igfPush g v) t
    | .err e t => .err e (g, t)
    | .starved t => .starved (g, t)
    | .paused t => .paused (g, t)

/-- The oldest b buffered bits (44_streams R200). -/
def igfGroup (g : Igf) : Nat := g.buf / 2 ^ (g.nbits - g.b)

/-- The buffer without its oldest b bits (44_streams R200). -/
def igfRest (g : Igf) : Igf := { g with buf := g.buf % 2 ^ (g.nbits - g.b), nbits := g.nbits - g.b }

/-- `IgfNext(pull)`: the accepted index and the number of groups rejected before it (44_streams R200). -/
def igfNext {σ : Type} (pull : σ → Res σ Byte) : Nat → Nat → Igf → σ → Res (Igf × σ) (Nat × Nat)
  | 0, _, g, s => .paused (g, s)
  | turns + 1, rej, g, s =>
    (igfFill pull (igfNeed g) g s).bind fun _ t =>
      if igfGroup t.1 < t.1.cut then .ok (igfGroup t.1 % t.1.m, rej) (igfRest t.1, t.2)
      else igfNext pull turns (rej + 1) (igfRest t.1) t.2

/-! ### BPGM3 -/

/-- BPGM3's trinomial so far, its draws and its rejected groups (44_streams R203). -/
structure Bpgm where
  t : Vec
  draws : Nat
  rej : Nat
deriving DecidableEq, Repr

/-- One draw's effect: index i gets `val` if it is free, else the draw is a collision (44_streams R203). -/
def bpgmDraw (acc : Bpgm) (val : Int) (i r : Nat) : Bpgm :=
  { t := if at' acc.t i = 0 then acc.t.set i val else acc.t, draws := acc.draws + 1, rej := acc.rej + r }

/-- Draws until `need` more coefficients hold `val` (44_streams R203). -/
def bpgmPlace {σ : Type} (pull : σ → Res σ Byte) (turns : Nat) (val : Int) :
    Nat → Nat → Bpgm → Igf × σ → Res (Igf × σ) Bpgm
  | _, 0, acc, s => .ok acc s
  | 0, _ + 1, _, s => .paused s
  | left + 1, need + 1, acc, s =>
    (igfNext pull turns 0 s.1 s.2).bind fun d t =>
      bpgmPlace pull turns val left (if at' acc.t d.1 = 0 then need else need + 1) (bpgmDraw acc val d.1 d.2) t

/-- `Bpgm3(N, ones, negs, pull)` (44_streams R203). -/
def bpgm3 {σ : Type} (pull : σ → Res σ Byte) (turns N ones negs : Nat) (s : Igf × σ) : Res (Igf × σ) Bpgm :=
  (bpgmPlace pull turns 1 turns ones { t := tab N fun _ => 0, draws := 0, rej := 0 } s).bind fun acc t =>
    bpgmPlace pull turns (-1) turns negs acc t

/-! ### MGF_TP_1 -/

/-- The decoder's trits so far, the bytes used and the bytes rejected (44_streams R204). -/
structure TpAcc where
  t : Vec
  used : Nat
  rej : Nat
deriving DecidableEq, Repr

/-- One byte's effect: 243 and above are rejected; else its five trits are appended, up to N (44_streams R204). -/
def tpByte (N : Nat) (acc : TpAcc) (v : Byte) : TpAcc :=
  if 243 ≤ v.toNat then { acc with used := acc.used + 1, rej := acc.rej + 1 }
  else { t := acc.t ++ (tritsOfByte v).take (N - acc.t.length), used := acc.used + 1, rej := acc.rej }

/-- `TpDecode(N, pull)` from the accumulator on (44_streams R204). -/
def tpDecode {σ : Type} (pull : σ → Res σ Byte) (N : Nat) : Nat → TpAcc → σ → Res σ TpAcc
  | 0, acc, s => if N ≤ acc.t.length then .ok acc s else .paused s
  | turns + 1, acc, s =>
    if N ≤ acc.t.length then .ok acc s
    else (pull s).bind fun v t => tpDecode pull N turns (tpByte N acc v) t

end Sys2Proof.Machine
end

