-- ==== Sys2Proof/Machine/Protocol.lean ====
section
/-! DEFINITION. The shared definitions of the NTRU protocol (45_ntru R240 to R250), key generation (R252 to R254),
an encryption attempt (R258), the decryption computation (R265 to R271) and the key-blob formats (R277 to R283),
as functions over a parameter set. -/

namespace Sys2Proof.Machine

/-- The private polynomial f = 1 + 3·F (45_ntru R240). -/
def privPoly (N : Nat) (F : Vec) : Vec := tab N fun i => (if i = 0 then 1 else 0) + (Config.p : Int) * at' F i

/-- A polynomial with coefficients in [0, 2048) as packer elements. -/
def natVec (a : Vec) : List Nat := a.map Int.toNat

/-- Packer elements as a polynomial. -/
def intVec (x : List Nat) : Vec := x.map fun v : Nat => (v : Int)

/-- A part of a command that runs on a scratch stream of its own: the stream is discarded, and only an answer or
the need to go on remains (45_ntru R241, R246, R248). -/
def scratch {τ α : Type} (r : Res τ α) (f : Feed) : Res Feed α := r.mapState fun _ => f

/-- `MgfPull` of a scratch stream, whose state is the stream itself (44_streams R193). -/
def mgfPullRes (impl : DigestImpl) (m : Mgf) : Res Mgf Byte := .ok (mgfPull impl m).1 (mgfPull impl m).2

/-- `GenTri(N, ones, negs, c)`: a trinomial from the RNG port, starting with an empty bit buffer (45_ntru R244). -/
def genTri (turns N ones negs c : Nat) (f : Feed) : Res Feed Vec :=
  ((bpgm3 rngPull turns N ones negs (igfInit N c, f)).mapState Prod.snd).bind fun r g => .ok r.t g

/-- `hTrunc(h)` (45_ntru R245). -/
def hTrunc (P : ParamSet) (h : Vec) : List Byte := pack (natVec h) P.N Config.q P.hTruncBytes

/-- `sData(m, b, h) = OID ‖ m ‖ b ‖ hTrunc(h)` (45_ntru R245). -/
def sData (P : ParamSet) (m b : List Byte) (h : Vec) : List Byte := P.oidBytes ++ m ++ b ++ hTrunc P h

/-- `GenR(s)`: dr ones and dr negative ones drawn by BPGM3 over MGF1(s) (45_ntru R246). -/
def genR (impl : DigestImpl) (turns : Nat) (P : ParamSet) (s : List Byte) : Res (Igf × Mgf) Bpgm :=
  bpgm3 (mgfPullRes impl) turns P.N P.dr P.dr
    (igfInit P.N P.c, mgfOpen impl P.hashAlg s P.prehashR P.minCallsR)

/-- The seed of the mask: R mod 4 packed in 2 bits a coefficient (45_ntru R248). -/
def maskSeed (P : ParamSet) (R : Vec) : List Byte := pack (natVec (modVec P.N 4 R)) P.N 4 0

/-- `GenMask(R)`: N trits decoded from MGF1 over the seed (45_ntru R248). -/
def genMask (impl : DigestImpl) (turns : Nat) (P : ParamSet) (R : Vec) : Res Mgf TpAcc :=
  tpDecode (mgfPullRes impl) P.N turns ⟨[], 0, 0⟩
    (mgfOpen impl P.hashAlg (maskSeed P R) P.prehashMask P.minCallsMask)

/-- `Dm0ok(t)` (45_ntru R249). -/
def dm0ok (P : ParamSet) (t : Vec) : Bool :=
  decide (P.dm0 ≤ countSym P.N t 1) && decide (P.dm0 ≤ countSym P.N t 0) && decide (P.dm0 ≤ countSym P.N t (-1))

/-- `Buf(b, m) = b ‖ [l] ‖ m ‖ zeros` (45_ntru R250; for an mBufLen that R7 does not allow, log 25). -/
def msgBuf (P : ParamSet) (b m : List Byte) : List Byte :=
  b ++ [BitVec.ofNat 8 m.length] ++ m ++ List.replicate (P.mBufLen - P.db - 1 - m.length) 0#8

/-! ### KEYGEN -/

/-- `GLoop()`: trinomials g until one is invertible mod 2048, with the attempts made (45_ntru R252, R243). -/
def gLoop (turns cap : Nat) (P : ParamSet) : Nat → Nat → Feed → Res Feed (Vec × Nat)
  | 0, _, f => .paused f
  | left + 1, ga, f =>
    if cap ≠ 0 ∧ ga = cap then .err .iterLimit f
    else
      (genTri turns P.N (P.dg + 1) P.dg P.c { f with iterCnt := countWord (ga + 1) }).bind fun g f' =>
        if (invertQ P.N g).isSome then .ok (g, ga + 1) f' else gLoop turns cap P left (ga + 1) f'

/-- What the F loop answers: F, the inverse of f = 1 + 3F, the attempts made (45_ntru R253). -/
structure FFound where
  F : Vec
  fq : Vec
  fa : Nat
deriving DecidableEq, Repr

/-- `FLoop()`: trinomials F until f = 1 + 3F is invertible mod 2048; ITER_CNT also counts the g loop's attempts
`ga` (45_ntru R253, R243, R255). -/
def fLoop (turns cap : Nat) (P : ParamSet) (ga : Nat) : Nat → Nat → Feed → Res Feed FFound
  | 0, _, f => .paused f
  | left + 1, fa, f =>
    if cap ≠ 0 ∧ fa = cap then .err .iterLimit f
    else
      (genTri turns P.N P.df P.df P.c { f with iterCnt := countWord (ga + (fa + 1)) }).bind fun F f' =>
        match invertQ P.N (privPoly P.N F) with
        | some fq => .ok ⟨F, fq, fa + 1⟩ f'
        | none => fLoop turns cap P ga left (fa + 1) f'

/-- `KeyH(F, g)[k] = mod(3 · conv(fq, g)[k], 2048)` (45_ntru R254). -/
def keyH (N : Nat) (fq g : Vec) : Vec := tab N fun k => (Config.p : Int) * convAt N fq g k % (Config.q : Int)

/-- A generated key: F, h, and the attempts of the two loops (45_ntru R251). -/
structure KeyPair where
  F : Vec
  h : Vec
  ga : Nat
  fa : Nat
deriving DecidableEq, Repr

/-- The computation of KEYGEN after its checks and the close (45_ntru R251 to R254). -/
def generateKey (turns cap : Nat) (P : ParamSet) (f : Feed) : Res Feed KeyPair :=
  (gLoop turns cap P turns 0 f).bind fun g f1 =>
    (fLoop turns cap P g.2 turns 0 f1).bind fun r f2 =>
      .ok ⟨r.F, keyH P.N r.fq g.1, g.2, r.fa⟩ f2

/-! ### ENCRYPT -/

/-- n bytes pulled from the RNG port, in pull order (45_ntru R258). -/
def rngTake : Nat → Feed → Res Feed (List Byte)
  | 0, f => .ok [] f
  | n + 1, f => (rngPull f).bind fun v g => (rngTake n g).bind fun rest t => .ok (v :: rest) t

/-- R = mod(conv(r, h), 2048) (45_ntru R258, R271). -/
def blindPoly (N : Nat) (r h : Vec) : Vec := modVec N (Config.q : Int) (conv N r h)

/-- One encryption attempt: the ciphertext polynomial e, or none where the dm0 check fails (45_ntru R258). -/
def encAttempt (impl : DigestImpl) (turns : Nat) (P : ParamSet) (m : List Byte) (h : Vec) (f : Feed) :
    Res Feed (Option Vec) :=
  (rngTake P.db f).bind fun b f1 =>
    (scratch (genR impl turns P (sData P m b h)) f1).bind fun r f2 =>
      let R := blindPoly P.N r.t h
      (scratch (genMask impl turns P R) f2).bind fun mask f3 =>
        let Mt := binToTri P (msgBuf P b m)
        let mp := tab P.N fun i => red (at' Mt i + at' mask.t i) 3 (-1)
        if dm0ok P mp then .ok (some (tab P.N fun i => (at' R i + at' mp i) % (Config.q : Int))) f3
        else .ok none f3

/-- The encryption loop: attempts until one passes the dm0 check (45_ntru R257, R243, R262). -/
def encLoop (impl : DigestImpl) (turns cap : Nat) (P : ParamSet) (m : List Byte) (h : Vec) :
    Nat → Nat → Feed → Res Feed Vec
  | 0, _, f => .paused f
  | left + 1, att, f =>
    if cap ≠ 0 ∧ att = cap then .err .iterLimit f
    else
      (encAttempt impl turns P m h { f with iterCnt := countWord (att + 1) }).bind fun e f' =>
        match e with
        | some e => .ok e f'
        | none => encLoop impl turns cap P m h left (att + 1) f'

/-! ### DECRYPT -/

/-- What Parse answers (45_ntru R270). -/
structure Parsed where
  cb : List Byte
  cm : List Byte
  padok : Bool
deriving DecidableEq, Repr

/-- `Parse(cM)`: random bytes, length, message, zero-pad; a length above maxMsgLenBytes is clamped and fails
(45_ntru R270). -/
def parseBuf (P : ParamSet) (cM : List Byte) : Parsed :=
  let cl := (cM.getD P.db 0#8).toNat
  let lenOk := decide (cl ≤ P.maxMsgLenBytes)
  let l := if lenOk then cl else P.maxMsgLenBytes
  { cb := cM.take P.db
    cm := (cM.drop (P.db + 1)).take l
    padok := lenOk && (cM.drop (P.db + 1 + l)).all fun v => v == 0#8 }

/-- a = red(conv(f, e), 2048, -1024) and ci = red(a, 3, -1) (45_ntru R268). -/
def candidateMsg (N : Nat) (F e : Vec) : Vec :=
  tab N fun i => red (red (convAt N (privPoly N F) e i) 2048 (-1024)) 3 (-1)

/-- cR = mod(e - ci, 2048) (45_ntru R269). -/
def candidateR (N : Nat) (e ci : Vec) : Vec := tab N fun i => (at' e i - at' ci i) % (Config.q : Int)

/-- The decryption computation: every check runs, and the message is returned only where none failed (45_ntru
R265, R266, R273). It consumes nothing, so only its loops may need further turns. -/
def decryptMsg (impl : DigestImpl) (turns : Nat) (P : ParamSet) (F h : Vec) (ct : List Byte) (f : Feed) :
    Res Feed (Option (List Byte)) :=
  let e := intVec (unpack ct P.N Config.q)
  let ci := candidateMsg P.N F e
  let cR := candidateR P.N e ci
  (scratch (genMask impl turns P cR) f).bind fun mask f1 =>
    let cMt := tab P.N fun i => red (at' ci i - at' mask.t i) 3 (-1)
    let cM := triToBin P cMt
    let parsed := parseBuf P cM.1
    (scratch (genR impl turns P (sData P parsed.cm parsed.cb h)) f1).bind fun r f2 =>
      let good := !padnz ct P.N Config.q && dm0ok P ci && cM.2 && parsed.padok &&
        decide (blindPoly P.N r.t h = cR)
      .ok (if good then some parsed.cm else none) f2

/-! ### Key blobs -/

/-- The first bytes of a blob: tag, OID, bit-packed h (45_ntru R277, R278). -/
def blobHead (P : ParamSet) (tag : Byte) (h : Vec) : List Byte :=
  [tag] ++ P.oidBytes ++ pack (natVec h) P.N Config.q 0

/-- `PubBlob(P, h)` (45_ntru R277). -/
def pubBlob (P : ParamSet) (h : Vec) : List Byte := blobHead P 0x01#8 h

/-- The indices i < N with F[i] = s, ascending (45_ntru R278). -/
def indicesOf (N : Nat) (F : Vec) (s : Int) : List Nat := (List.range N).filter fun i => at' F i == s

/-- `IndexEnc(F)`: the +1 indices then the -1 indices in one bit stream (45_ntru R278). -/
def indexEnc (P : ParamSet) (F : Vec) : List Byte :=
  pack (indicesOf P.N F 1 ++ indicesOf P.N F (-1)) (2 * P.df) P.N 0

/-- `FEnc(F)`: the index form where it is shorter and F has the weights df/df, else the trit form (45_ntru R278). -/
def encodeF (P : ParamSet) (F : Vec) : List Byte :=
  if P.lenIndex < P.lenTrit ∧ countSym P.N F 1 = P.df ∧ countSym P.N F (-1) = P.df then indexEnc P F
  else tpEncode F P.N

/-- `PrivBlob(P, h, F)` (45_ntru R278). -/
def privBlob (P : ParamSet) (h F : Vec) : List Byte := blobHead P 0x02#8 h ++ encodeF P F

/-- `OidLookup(o)`: the index of the set whose OID is the three bytes (45_ntru R281). DESIGN CHOICE (log 28): where
several entries of a table share the OID, which R281 rules out of a table and no KEYLOAD checks, the lowest index. -/
def oidLookup (C : Params) (o : List Byte) : Option (Fin 12) :=
  (List.finRange 12).find? fun i => (C.table[i]).oidBytes == o

/-- The trit path: each byte below 243, the last below 3^r for r = N mod 5 ≠ 0 (45_ntru R282). -/
def decodeFTrit (P : ParamSet) (u : List Byte) : Option Vec :=
  if u.all (fun v => decide (v.toNat < 243)) &&
      (decide (P.N % 5 = 0) || decide ((u.getD (P.lenTrit - 1) 0#8).toNat < 3 ^ (P.N % 5))) then
    some ((u.flatMap tritsOfByte).take P.N)
  else none

/-- The index path: indices below N, all different, no pad bit set (45_ntru R283). -/
def decodeFIndex (P : ParamSet) (u : List Byte) : Option Vec :=
  let idx := unpack u (2 * P.df) P.N
  if idx.all (fun i => decide (i < P.N)) && decide idx.Nodup && !padnz u (2 * P.df) P.N then
    some (tab P.N fun i =>
      if (idx.take P.df).contains i then 1 else if (idx.drop P.df).contains i then -1 else 0)
  else none

/-- A decoded blob: the set, h, F and the new key state (45_ntru R280). -/
structure Blob where
  ps : Fin 12
  h : Vec
  F : Vec
  kstate : KState
deriving DecidableEq, Repr

/-- The part of KEYLOAD after the OID lookup: exact length, pad bits of h, then F (45_ntru R280). -/
def decodeBody (P : ParamSet) (ps : Fin 12) (isPriv : Bool) (s : List Byte) : Except Err Blob :=
  let packed := (s.drop 4).take P.lenH
  let fBytes := s.drop (4 + P.lenH)
  let h := intVec (unpack packed P.N Config.q)
  if isPriv then
    if s.length = 4 + P.lenH + P.lenTrit then
      if padnz packed P.N Config.q then .error .fmtData
      else match decodeFTrit P fBytes with
        | some F => .ok ⟨ps, h, F, .priv⟩
        | none => .error .fmtData
    else if s.length = 4 + P.lenH + P.lenIndex then
      if padnz packed P.N Config.q then .error .fmtData
      else match decodeFIndex P fBytes with
        | some F => .ok ⟨ps, h, F, .priv⟩
        | none => .error .fmtData
    else .error .fmtLen
  else if s.length = 4 + P.lenH then
    if padnz packed P.N Config.q then .error .fmtData else .ok ⟨ps, h, [], .pub⟩
  else .error .fmtLen

/-- KEYLOAD's decoding of the blob bytes, its checks in the order of 45_ntru R280. -/
def decodeBlob (C : Params) (s : List Byte) : Except Err Blob :=
  if s.length < 1 then .error .fmtLen
  else
    let tag := s.getD 0 0#8
    if tag ≠ 0x01#8 ∧ tag ≠ 0x02#8 then .error .fmtTag
    else if s.length < 4 then .error .fmtLen
    else match oidLookup C ((s.drop 1).take 3) with
      | none => .error .fmtOid
      | some ps => decodeBody C.table[ps] ps (decide (tag = 0x02#8)) s

end Sys2Proof.Machine
end

