-- ==== Sys2Proof/Machine/StreamCommands.lean ====
section
/-! DEFINITION. SRCRNG, SRCMGF, SRCMEM, SRCCLOSE, IGFINIT, IGFNEXT, TRISMP, TRIMGF, TRIENC (44_streams R194 to
R207). -/

namespace Sys2Proof.Machine

/-- The consumption state with another stream unit. -/
def Feed.withUnit (f : Feed) (u : StreamUnit) : Feed := { f with su := u }

/-- The IGF2 state put back into the stream unit. -/
def Feed.withIgf (x : Igf × Feed) : Feed := { x.2 with su := { x.2.su with igf := x.1 } }

/-- `Pull()` for a command of this state (44_streams R192). -/
def State.pull (s : State) : Feed → Res Feed Byte := Sys2Proof.Machine.pull s.dmem s.params.digest

/-- SRCRNG: `CloseSource(); SRC ← RNG` (44_streams R194). -/
def execSrcrng (s : State) : Host.Outcome State Fault Refusal :=
  conclude s (.ok {} (s.feed.withUnit { closeSource s.su with src := .rng }))

/-- The stream unit after SRCMGF opened its stream (44_streams R195). -/
def openMgf (s : State) (h : HashAlg) (ph : Bool) : StreamUnit :=
  { closeSource s.su with
    src := .mgf
    mgf := mgfOpen s.params.digest h (s.dmem.readBytes s.argA s.argB) ph s.argC
    lastRuns := 0 }

/-- SRCMGF: open an MGF1 stream over the seed in DMEM (44_streams R195). -/
def execSrcmgf (sha256 ph : Bool) (s : State) : Host.Outcome State Fault Refusal :=
  conclude s (
    if inRange s.argA s.argB then
      .ok {} (s.feed.withUnit (openMgf s (if sha256 then .sha256 else .sha1) ph))
    else .err .precondition s.feed)

/-- SRCMEM: make DMEM bytes the current source (44_streams R196). -/
def execSrcmem (s : State) : Host.Outcome State Fault Refusal :=
  conclude s (
    if inRange s.argA s.argB then
      .ok {} (s.feed.withUnit { closeSource s.su with src := .mem, mcur := s.argA, mend := s.argA + s.argB })
    else .err .precondition s.feed)

/-- SRCCLOSE: `CloseSource()` (44_streams R198). -/
def execSrcclose (s : State) : Host.Outcome State Fault Refusal :=
  conclude s (.ok {} (s.feed.withUnit (closeSource s.su)))

/-- 1 ≤ b ≤ 16 and 1 ≤ M ≤ 2^b (44_streams R201). -/
def igfBoundsOk (m b : Nat) : Bool :=
  decide (1 ≤ b) && decide (b ≤ 16) && decide (1 ≤ m) && decide (m ≤ 2 ^ b)

/-- IGFINIT: initialise the IGF2 state (44_streams R201). -/
def execIgfinit (s : State) : Host.Outcome State Fault Refusal :=
  conclude s (
    if igfBoundsOk s.argA s.argB then
      .ok {} (s.feed.withUnit { s.su with igf := igfInit s.argA s.argB })
    else .err .precondition s.feed)

/-- One index drawn from the stream unit (44_streams R200, R202). -/
def drawIndex (s : State) : Res Feed (Nat × Nat) :=
  (igfNext s.pull s.turns 0 s.su.igf s.feed).mapState Feed.withIgf

/-- IGFNEXT: RES0 ← the index, RES1 ← the rejected groups (44_streams R202). -/
def execIgfnext (s : State) : Host.Outcome State Fault Refusal :=
  conclude s (
    if s.su.igf.act then
      (drawIndex s).bind fun d f =>
        .ok { res0 := some (BitVec.ofNat 32 d.1), res1 := some (countWord d.2) } f
    else .err .precondition s.feed)

/-- TRISMP's checks: N, the IGF2 state, the weight sum (44_streams R203, 60_exceptions R304). -/
def trismpOk (s : State) : Bool :=
  s.dimOk && (s.su.igf.act && decide (s.su.igf.m = s.dim)) && decide (s.argA + s.argB ≤ s.dim)

/-- The trinomial TRISMP samples from the stream unit (44_streams R203). -/
def drawTrinomial (s : State) : Res Feed Bpgm :=
  (bpgm3 s.pull s.turns s.dim s.argA s.argB (s.su.igf, s.feed)).mapState Feed.withIgf

/-- TRISMP: BPGM3 fixed-weight trinomial (44_streams R203). -/
def execTrismp (rd : PReg) (s : State) : Host.Outcome State Fault Refusal :=
  conclude s (
    if trismpOk s then
      (drawTrinomial s).bind fun r f =>
        .ok { pr := some (rd, Poly.ofVec s.dim r.t), res0 := some (countWord r.draws), res1 := some (countWord r.rej) } f
    else .err .precondition s.feed)

/-- The trits TRIMGF decodes from the current source (44_streams R204, R205). -/
def decodeTrits (s : State) : Res Feed TpAcc := tpDecode s.pull s.dim s.turns ⟨[], 0, 0⟩ s.feed

/-- TRIMGF: decode N trits from the current source (44_streams R205). -/
def execTrimgf (rd : PReg) (s : State) : Host.Outcome State Fault Refusal :=
  conclude s (
    if s.dimOk then
      (decodeTrits s).bind fun r f =>
        .ok { pr := some (rd, Poly.ofVec s.dim r.t), res0 := some (countWord r.used), res1 := some (countWord r.rej) } f
    else .err .precondition s.feed)

/-- Every coefficient below N is a trit (44_streams R207). -/
def allTrits (N : Nat) (a : Vec) : Bool :=
  (List.range N).all fun i => decide (at' a i = 0 ∨ at' a i = 1 ∨ at' a i = -1)

/-- TRIENC's checks and writes (44_streams R207). -/
def triencWrites (s : State) (rs1 : PReg) : Except Err Writes :=
  if s.dimOk && inRange s.argA ((s.dim + 4) / 5) && allTrits s.dim (s.source rs1) then
    .ok { mem := some (s.argA, tpEncode (s.source rs1) s.dim), res0 := some (BitVec.ofNat 32 ((s.dim + 4) / 5)) }
  else .error .precondition

/-- TRIENC: encode PR[RS1] as trit bytes into DMEM (44_streams R207). -/
def execTrienc (rs1 : PReg) (s : State) : Host.Outcome State Fault Refusal :=
  conclude s (ofExcept s.feed (triencWrites s rs1))

end Sys2Proof.Machine
end

