-- ==== Sys2Proof/Machine/KeyCommands.lean ====
section
/-! DEFINITION. KEYGEN, ENCRYPT, DECRYPT, KEYCLOSE, KEYLOAD, KEYEXPORT (45_ntru R251 to R291). -/

namespace Sys2Proof.Machine

/-- The key's parameter set, P = table[KPS] (45_ntru section 9). -/
def State.keySet (s : State) : ParamSet := s.params.table[s.key.kps]

/-- KEY_H as a polynomial of the set's dimension. -/
def State.keyH (s : State) : Vec := s.key.h.toVec s.keySet.N

/-- KEY_F as a polynomial of the set's dimension. -/
def State.keyF (s : State) : Vec := s.key.f.toVec s.keySet.N

/-- `RequireKey()`: the error it raises, if any (45_ntru R242). -/
def requireKey (s : State) : Option Err :=
  match s.key.kstate with
  | .empty | .closed => some .keyClosed
  | .pub | .priv => none

/-- `RequirePrivate()`: the error it raises, if any (45_ntru R242). -/
def requirePrivate (s : State) : Option Err :=
  match s.key.kstate with
  | .empty | .closed => some .keyClosed
  | .pub => some .noPrivkey
  | .priv => none

/-- The stream unit closed, as KEYGEN, ENCRYPT and DECRYPT do after their precondition checks (45_ntru R241). -/
def State.closedFeed (s : State) : Feed := s.feed.withUnit (closeSource s.su)

/-! ### KEYGEN -/

/-- The record KEYGEN uses: index below NPS and the table constraints met (45_ntru R251, R244; the constraints of
00_scope R7 and 45_ntru R281 beside them, log 15). -/
def keygenSet (s : State) : Option (Fin 12) :=
  if h : s.argA < 12 then if s.params.setOk ⟨s.argA, h⟩ then some ⟨s.argA, h⟩ else none else none

/-- The key object KEYGEN leaves (45_ntru R251). -/
def generatedKey (P : ParamSet) (ps : Fin 12) (k : KeyPair) : Key :=
  ⟨ps, Poly.ofVec P.N k.h, Poly.ofVec P.N k.F, .priv⟩

/-- KEYGEN: generate a key pair (45_ntru R251). -/
def execKeygen (s : State) : Host.Outcome State Fault Refusal :=
  conclude s (
    match keygenSet s with
    | none => .err .precondition s.feed
    | some ps =>
      (generateKey s.turns s.cap s.params.table[ps] s.closedFeed).bind fun k f =>
        .ok { key := some (generatedKey s.params.table[ps] ps k)
              res0 := some (countWord k.ga)
              res1 := some (countWord k.fa) } f)

/-! ### ENCRYPT -/

/-- ENCRYPT's checks in order: key state, message length, message range, destination range, then the table
constraints of R244 (45_ntru R257, 60_exceptions R304; log 14). -/
def encryptError (s : State) : Option Err :=
  match requireKey s with
  | some e => some e
  | none =>
    if s.keySet.maxMsgLenBytes < s.argB then some .msgTooLong
    else if inRange s.argA s.argB && inRange s.argC s.keySet.lenH && s.keySet.samplingOk then none
    else some .precondition

/-- ENCRYPT: encrypt a message with the key's public polynomial (45_ntru R257). -/
def execEncrypt (s : State) : Host.Outcome State Fault Refusal :=
  conclude s (
    match encryptError s with
    | some e => .err e s.feed
    | none =>
      (encLoop s.params.digest s.turns s.cap s.keySet (s.dmem.readBytes s.argA s.argB) s.keyH s.turns 0 s.closedFeed).bind
        fun e f =>
          .ok { mem := some (s.argC, pack (natVec e) s.keySet.N Config.q 0)
                res0 := some (BitVec.ofNat 32 s.keySet.lenH) } f)

/-! ### DECRYPT -/

/-- DECRYPT's checks in order (45_ntru R264), then the table constraints of R244 (log 14). -/
def decryptError (s : State) : Option Err :=
  match requirePrivate s with
  | some e => some e
  | none =>
    if s.argB ≠ s.keySet.lenH then some .fmtLen
    else if inRange s.argA s.argB && inRange s.argC s.keySet.maxMsgLenBytes && s.keySet.samplingOk then none
    else some .precondition

/-- DECRYPT: decrypt a ciphertext with the key's private polynomial; every failure of a check is the one error
DECRYPT_FAIL (45_ntru R265, R266). -/
def execDecrypt (s : State) : Host.Outcome State Fault Refusal :=
  conclude s (
    match decryptError s with
    | some e => .err e s.feed
    | none =>
      (decryptMsg s.params.digest s.turns s.keySet s.keyF s.keyH (s.dmem.readBytes s.argA s.keySet.lenH) s.closedFeed).bind
        fun cm f =>
          match cm with
          | some cm => .ok { mem := some (s.argC, cm), res0 := some (BitVec.ofNat 32 cm.length) } f
          | none => .err .decryptFail f)

/-! ### KEYCLOSE, KEYLOAD, KEYEXPORT -/

/-- The closed key object: everything zeroed (45_ntru R276). -/
def Key.closed : Key := ⟨0, [], [], .closed⟩

/-- KEYCLOSE: zero the key and mark it unusable, from any state (45_ntru R276). -/
def execKeyclose (s : State) : Host.Outcome State Fault Refusal :=
  conclude s (.ok { key := some Key.closed } s.feed)

/-- The key object KEYLOAD leaves (45_ntru R280). -/
def loadedKey (P : ParamSet) (b : Blob) : Key := ⟨b.ps, Poly.ofVec P.N b.h, Poly.ofVec P.N b.F, b.kstate⟩

/-- KEYLOAD's checks and writes (45_ntru R280). -/
def keyloadWrites (s : State) : Except Err Writes :=
  if inRange s.argA s.argB then
    match decodeBlob s.params (s.dmem.readBytes s.argA s.argB) with
    | .error e => .error e
    | .ok b =>
      .ok { key := some (loadedKey s.params.table[b.ps] b)
            res0 := some (BitVec.ofNat 32 s.argB)
            res1 := some (BitVec.ofNat 32 b.ps.val) }
  else .error .precondition

/-- KEYLOAD: decode a key blob into the key object (45_ntru R280). -/
def execKeyload (s : State) : Host.Outcome State Fault Refusal :=
  conclude s (ofExcept s.feed (keyloadWrites s))

/-- The blob KEYEXPORT writes (45_ntru R290). -/
def exportBlob (s : State) (priv : Bool) : List Byte :=
  if priv then privBlob s.keySet s.keyH s.keyF else pubBlob s.keySet s.keyH

/-- KEYEXPORT's checks and writes (45_ntru R290). -/
def keyexportWrites (s : State) (priv : Bool) : Except Err Writes :=
  match (if priv then requirePrivate s else requireKey s) with
  | some e => .error e
  | none =>
    if inRange s.argA (exportBlob s priv).length then
      .ok { mem := some (s.argA, exportBlob s priv)
            res0 := some (BitVec.ofNat 32 (exportBlob s priv).length) }
    else .error .precondition

/-- KEYEXPORT: encode the key object as a blob in DMEM (45_ntru R290). -/
def execKeyexport (priv : Bool) (s : State) : Host.Outcome State Fault Refusal :=
  conclude s (ofExcept s.feed (keyexportWrites s priv))

end Sys2Proof.Machine
end

