-- ==== Sys2Proof/Machine/PackCommands.lean ====
section
/-! DEFINITION. BPACK and BUNPACK (43_bitpack R174, R175). -/

namespace Sys2Proof.Machine

/-- n ≤ NMAX and 2 ≤ maxEltValue ≤ 32768 (43_bitpack R174, R175). -/
def packShapeOk (n mx : Nat) : Bool := decide (n ≤ Config.nmax) && decide (2 ≤ mx) && decide (mx ≤ 32768)

/-- Every element is in bound: 0 ≤ A[i] < maxEltValue for i < n (43_bitpack R170, R174). -/
def elementsOk (p : Poly) (n mx : Nat) : Bool :=
  (List.range n).all fun i => decide (0 ≤ p.coeff i) && decide (p.coeff i < mx)

/-- Elements 0 to n-1 of a coefficient array. -/
def elements (p : Poly) (n : Nat) : List Nat := (List.range n).map fun i => (p.coeff i).toNat

/-- BPACK's checks and writes (43_bitpack R174). -/
def bpackWrites (s : State) (rs1 : PReg) (dry : Bool) : Except Err Writes :=
  if packShapeOk s.argB s.argC && decide (s.argD ≤ packedLen s.argB s.argC) then
    let len := plen s.argB s.argC s.argD
    if dry then .ok { res0 := some (BitVec.ofNat 32 len) }
    else if inRange s.argA len && elementsOk s.pr[rs1] s.argB s.argC then
      .ok { mem := some (s.argA, pack (elements s.pr[rs1] s.argB) s.argB s.argC s.argD)
            res0 := some (BitVec.ofNat 32 len) }
    else .error .precondition
  else .error .precondition

/-- BPACK: pack coefficients of PR[RS1] into DMEM, or only size the packing (43_bitpack R174). -/
def execBpack (rs1 : PReg) (dry : Bool) (s : State) : Host.Outcome State Fault Refusal :=
  conclude s (ofExcept s.feed (bpackWrites s rs1 dry))

/-- BUNPACK's RES1: the number of elements out of bound, and bit 16 for a nonzero pad bit (43_bitpack R175). -/
def unpackReport (bytes : List Byte) (n mx : Nat) : Word :=
  BitVec.ofNat 32 (overCount bytes n mx) ||| flagAt (padnz bytes n mx) 16

/-- BUNPACK's checks and writes (43_bitpack R175). -/
def bunpackWrites (s : State) (rd : PReg) : Except Err Writes :=
  if packShapeOk s.argB s.argC && inRange s.argA (packedLen s.argB s.argC) then
    let bytes := s.dmem.readBytes s.argA (packedLen s.argB s.argC)
    .ok { pr := some (rd, Poly.ofFn s.argB fun i => (unpackAt bytes s.argC i : Int))
          res0 := some (BitVec.ofNat 32 (packedLen s.argB s.argC))
          res1 := some (unpackReport bytes s.argB s.argC) }
  else .error .precondition

/-- BUNPACK: unpack bytes of DMEM into PR[RD] (43_bitpack R175). -/
def execBunpack (rd : PReg) (s : State) : Host.Outcome State Fault Refusal :=
  conclude s (ofExcept s.feed (bunpackWrites s rd))

end Sys2Proof.Machine
end

