-- ==== Sys2Proof/Machine/PolyArith.lean ====
section
/-! DEFINITION. PADD, PSUB, PCONV, PRED, PEQ (41_poly_arith R130 to R137). -/

namespace Sys2Proof.Machine

/-- The shape of PADD, PSUB, PCONV and PRED: the checks of R130, then D[i] ← out(f i) for i < N and 0 above
(41_poly_arith R130, R131, R133). -/
def ringCommand (s : State) (rd : PReg) (reduces : Bool) (f : Nat → Int) : Except Err Writes :=
  if s.ringOk reduces then .ok { pr := some (rd, Poly.ofFn s.dim fun i => s.out reduces (f i)) }
  else .error .precondition

/-- PADD: `t[i] = out(A[i] + B[i])` (41_poly_arith R133). -/
def execPadd (rd rs1 rs2 : PReg) (reduces : Bool) (s : State) : Host.Outcome State Fault Refusal :=
  conclude s (ofExcept s.feed (ringCommand s rd reduces fun i => at' (s.source rs1) i + at' (s.source rs2) i))

/-- PSUB: `t[i] = out(A[i] - B[i])` (41_poly_arith R134). -/
def execPsub (rd rs1 rs2 : PReg) (reduces : Bool) (s : State) : Host.Outcome State Fault Refusal :=
  conclude s (ofExcept s.feed (ringCommand s rd reduces fun i => at' (s.source rs1) i - at' (s.source rs2) i))

/-- PCONV: `t[k] = out(sum over i of A[i] * B[mod(k - i, N)])` (41_poly_arith R135). -/
def execPconv (rd rs1 rs2 : PReg) (reduces : Bool) (s : State) : Host.Outcome State Fault Refusal :=
  conclude s (ofExcept s.feed (ringCommand s rd reduces (convAt s.dim (s.source rs1) (s.source rs2))))

/-- PRED: `t[i] = red(A[i], MOD, LOW)` (41_poly_arith R136). -/
def execPred (rd rs1 : PReg) (s : State) : Host.Outcome State Fault Refusal :=
  conclude s (ofExcept s.feed (ringCommand s rd true (at' (s.source rs1))))

/-- A[i] = B[i] for every i < N (41_poly_arith R137). -/
def polyEq (s : State) (rs1 rs2 : PReg) : Bool :=
  (List.range s.dim).all fun i => at' (s.source rs1) i == at' (s.source rs2) i

/-- PEQ: STATUS.EQ and RES0 become 1 for equal operands, else 0 (41_poly_arith R137). -/
def execPeq (rs1 rs2 : PReg) (s : State) : Host.Outcome State Fault Refusal :=
  conclude s (ofExcept s.feed (
    if s.dimOk then
      .ok { eq := some (polyEq s rs1 rs2), res0 := some (if polyEq s rs1 rs2 then 1#32 else 0#32) }
    else .error .precondition))

end Sys2Proof.Machine
end

