-- ==== Sys2Proof/Machine/System.lean ====
section
/-! DEFINITION. NOP (40_command R120). -/

namespace Sys2Proof.Machine

/-- NOP: `complete` (40_command R120). -/
def execNop (s : State) : Host.Outcome State Fault Refusal := conclude s (.ok {} s.feed)

end Sys2Proof.Machine
end

