-- ==== Sys2Proof/Machine/Dispatch.lean ====
section
/-! DEFINITION. The dispatch: one arm per command of the opcode map (30_encoding R94). -/

namespace Sys2Proof.Machine

def exec (i : Instr) (s : State) : Host.Outcome State Fault Refusal :=
  match i with
  | .nop => Sys2Proof.Machine.execNop s
  | .padd rd rs1 rs2 red => Sys2Proof.Machine.execPadd rd rs1 rs2 red s
  | .psub rd rs1 rs2 red => Sys2Proof.Machine.execPsub rd rs1 rs2 red s
  | .pconv rd rs1 rs2 red => Sys2Proof.Machine.execPconv rd rs1 rs2 red s
  | .pred rd rs1 => Sys2Proof.Machine.execPred rd rs1 s
  | .peq rs1 rs2 => Sys2Proof.Machine.execPeq rs1 rs2 s
  | .pinvp rd rs1 => Sys2Proof.Machine.execPinvp rd rs1 s
  | .pinvq rd rs1 => Sys2Proof.Machine.execPinvq rd rs1 s
  | .bpack rs1 dry => Sys2Proof.Machine.execBpack rs1 dry s
  | .bunpack rd => Sys2Proof.Machine.execBunpack rd s
  | .srcrng => Sys2Proof.Machine.execSrcrng s
  | .srcmgf sha256 ph => Sys2Proof.Machine.execSrcmgf sha256 ph s
  | .srcmem => Sys2Proof.Machine.execSrcmem s
  | .srcclose => Sys2Proof.Machine.execSrcclose s
  | .igfinit => Sys2Proof.Machine.execIgfinit s
  | .igfnext => Sys2Proof.Machine.execIgfnext s
  | .trismp rd => Sys2Proof.Machine.execTrismp rd s
  | .trimgf rd => Sys2Proof.Machine.execTrimgf rd s
  | .trienc rs1 => Sys2Proof.Machine.execTrienc rs1 s
  | .keygen => Sys2Proof.Machine.execKeygen s
  | .encrypt => Sys2Proof.Machine.execEncrypt s
  | .decrypt => Sys2Proof.Machine.execDecrypt s
  | .keyclose => Sys2Proof.Machine.execKeyclose s
  | .keyload => Sys2Proof.Machine.execKeyload s
  | .keyexport priv => Sys2Proof.Machine.execKeyexport priv s

end Sys2Proof.Machine
end

