-- ==== Sys2Proof/Machine/Sequencer.lean ====
section
/-! DEFINITION. The sequencer's turn and the effect of each event (log 1). The sequencer decodes the latched word and
executes it (40_command R112, R113); while idle it has nothing to do (60_exceptions R322). -/

namespace Sys2Proof.Machine

/-- The sequencer's turn (40_command R112, R113). -/
def sequencerTurn (s : State) : Host.Outcome State Fault Refusal :=
  match s.phase with
  | .idle => .next s
  | .busy =>
    match currentCommand s with
    | some i => exec i s
    | none => .next (illegalCommand s)

/-- The completion first, then the host access (60_exceptions R312). -/
def thenAccess (o : Host.Outcome State Fault Refusal) (a : Access) : Host.Outcome State Fault Refusal :=
  match o with
  | .next s => .next (hostAccess s a)
  | .fault r => .fault r
  | .refused r => .refused r

/-- The effect of one event (log 1). -/
def handle (s : State) : Event → Host.Outcome State Fault Refusal
  | .turn => sequencerTurn s
  | .access a => .next (hostAccess s a)
  | .together a => thenAccess (sequencerTurn s) a
  | .rngByte v => .next (offerByte s v)
  | .hardReset => .next (resetEngine s)

end Sys2Proof.Machine
end

