-- ==== Sys2Proof/Machine/Step.lean ====
section
/-! DEFINITION. One step of the machine: the next event of the inbox, or the sequencer's turn where there is none
(log 1). -/

namespace Sys2Proof.Machine

/-- One step (log 1). -/
def step (s : State) : Host.Outcome State Fault Refusal :=
  match s.inbox with
  | [] => sequencerTurn s
  | e :: rest => handle { s with inbox := rest } e

/-- The word issued and accepted, and the sequencer's turn next, so that the next step executes it (40_command
R110; log 2). -/
def State.withFetchWord (s : State) (nbits w : Nat) : State := loadWord s (BitVec.ofNat 32 (w % 2 ^ nbits))

end Sys2Proof.Machine
end

