-- ==== Sys2Proof/Safety.lean ====
section
/-! DEFINITION. What counts as a safe run: how a command ends (40_command R114, R115), the preconditions the command
rules share, and the invariants the spec gives the state (20_memory R61, 10_state R40, R41, R43 to R47). -/

namespace Sys2Proof.Machine

/-! ### How a command ends -/

/-- The state after a successful completion that wrote nothing: PHASE IDLE, DONE 1, no context (40_command R114). -/
def State.finished (s : State) : State :=
  { s with phase := .idle, ctx := Context.empty, inflight := 0, status := { s.status with done := true } }

/-- The state after a completion with error that had consumed nothing: PHASE IDLE, DONE 1, ERR 1, ERRCODE the code
(40_command R115, 60_exceptions R301). -/
def State.failedWith (s : State) (e : Err) : State :=
  { s with
    phase := .idle, ctx := Context.empty, inflight := 0
    status := { s.status with done := true, err := true, errCode := some e } }

/-- The state of a command that has to go on: nothing is committed, PHASE and the context stay (40_command R113,
R116, R117). -/
def State.goesOn (s : State) (pulled turns : Nat) : State := { s with inflight := pulled, turns := turns }

/-- PR[k] ← p. -/
def State.setPr (s : State) (k : PReg) (p : Poly) : State := { s with pr := s.pr.set k p }

/-- The coefficient array holds `f i` at i < N and 0 at every i ≥ N, in its canonical form (10_state R40). -/
def Poly.Holds (p : Poly) (N : Nat) (f : Nat → Int) : Prop :=
  p.wf = true ∧ ∀ i, p.coeff i = if i < N then f i else 0

/-! ### Preconditions -/

/-- 1 ≤ N ≤ NMAX (10_state R28). -/
def State.DimPre (s : State) : Prop := 1 ≤ s.ctx.cfgN.toNat ∧ s.ctx.cfgN.toNat ≤ 1499

/-- The checks of 41_poly_arith R130. -/
def State.RingPre (s : State) (reduces : Bool) : Prop :=
  s.DimPre ∧
    (reduces = true →
      1 ≤ s.ctx.cfgMod.toNat ∧ s.ctx.cfgMod.toNat ≤ 65536 ∧
        -32768 ≤ s.ctx.cfgLow.toInt ∧ s.ctx.cfgLow.toInt + (s.ctx.cfgMod.toNat : Int) - 1 ≤ 32767)

/-- `InRange(addr, n)` (00_scope R18). -/
def RangePre (addr n : Nat) : Prop := addr + n ≤ 8192

/-! ### Invariants -/

/-- DMEM is in its canonical form (20_memory R61). -/
def State.MemoryOk (s : State) : Prop := s.dmem.wf = true

/-- Every polynomial register is in its canonical form: at most NMAX coefficients (10_state R40). -/
def State.PolysOk (s : State) : Prop := ∀ k : PReg, (s.pr[k]).wf = true

/-- The key object is as 10_state R41 says: KEY_H in [0, 2048) and KEY_F in {-1, 0, 1} below N, both 0 from N up; all
0 when EMPTY or CLOSED; no F when PUBLIC. -/
def Key.Ok (C : Params) (k : Key) : Prop :=
  k.h.wf = true ∧ k.f.wf = true ∧
    k.h.length ≤ C.table[k.kps].N ∧ k.f.length ≤ C.table[k.kps].N ∧
    (∀ c ∈ k.h, 0 ≤ c.toInt ∧ c.toInt < 2048) ∧ (∀ c ∈ k.f, c = 0#16 ∨ c = 1#16 ∨ c = -1#16) ∧
    ((k.kstate = .empty ∨ k.kstate = .closed) → k.kps = 0 ∧ k.h = [] ∧ k.f = []) ∧
    (k.kstate = .pub → k.f = [])

/-- The IGF2 state is as 10_state R46 says; inactive, every field is 0. Between commands at most 15 bits are buffered,
above 7 only after a draw that ended with SRC_EXHAUSTED (40_command R115, log 12). -/
def Igf.Ok (g : Igf) : Prop :=
  (g.act = false → g = Igf.reset) ∧
    (g.act = true →
      1 ≤ g.b ∧ g.b ≤ 16 ∧ 1 ≤ g.m ∧ g.m ≤ 2 ^ g.b ∧ g.cut = 2 ^ g.b - 2 ^ g.b % g.m ∧
        g.buf < 2 ^ g.nbits ∧ g.nbits < 16)

/-- The stream unit is as 10_state R43 to R46 say: what belongs to a source that is not open is at its reset value. -/
def StreamUnit.Ok (u : StreamUnit) : Prop :=
  (u.src ≠ .mgf → u.mgf = Mgf.reset) ∧ (u.src ≠ .mem → u.mcur = 0 ∧ u.mend = 0) ∧
    u.mcur ≤ u.mend ∧ u.mend ≤ 8192 ∧
    u.mgf.buf.length ≤ u.mgf.hash.digestLen ∧ u.mgf.seed.length ≤ 8192 ∧ u.mgf.minRuns < 2 ^ 32 ∧ u.igf.Ok

/-- The sequencer is as 10_state R47 and 40_command R110, R113 say: while busy the flags acceptance clears are clear and
CMD reads the running word; while idle there is no context; no more bytes are in flight than were offered. -/
def State.SequencerOk (s : State) : Prop :=
  (s.phase = .busy →
      s.status.done = false ∧ s.status.err = false ∧ s.status.noinv = false ∧ s.status.eq = false ∧
        s.status.errCode = none ∧ s.iterCnt = 0#32 ∧ s.cmd = s.ctx.word) ∧
    (s.phase = .idle → s.ctx = Context.empty ∧ s.inflight = 0) ∧
    s.inflight ≤ s.rng.length

/-- Every invariant together. -/
structure State.Safe (s : State) : Prop where
  memory : s.MemoryOk
  polys : s.PolysOk
  key : s.key.Ok s.params
  unit : s.su.Ok
  sequencer : s.SequencerOk

/-! ### Isolation of the private key -/

/-- The states differ in KEY_F at most (20_memory R71). -/
def SameButF (s s' : State) : Prop := s' = { s with key := { s.key with f := s'.key.f } }

/-! ### Notions of the protocol laws -/

/-- b is an inverse of a in R_m, with coefficients in [0, m) (42_inversion R150). -/
def InverseIn (N : Nat) (m : Int) (a b : Nat → Int) : Prop :=
  (∀ i, i < N → 0 ≤ b i ∧ b i < m) ∧
    ∀ k, k < N → (sumTo N fun i => a i * b ((k + N - i) % N)) % m = (if k = 0 then 1 else 0) % m

/-- The message representative of an attempt: mp = red(Mt + mask, 3, -1) (45_ntru R258). -/
def messageRep (P : ParamSet) (b m : List Byte) (mask : Vec) : Vec :=
  tab P.N fun i => red (at' (binToTri P (msgBuf P b m)) i + at' mask i) 3 (-1)

/-- R is the blinding polynomial of message m and random bytes b (45_ntru R245, R246, R258, R271): R = r·h mod 2048 for the
r drawn from MGF1 over OID ‖ m ‖ b ‖ hTrunc, hTrunc being the first hTruncBytes bytes of the packed h, or all of them. -/
def BlindOf (impl : DigestImpl) (turns : Nat) (P : ParamSet) (m b : List Byte) (h R : Vec) : Prop :=
  let packed := pack (h.map Int.toNat) P.N 2048 0
  let hTrunc := if P.hTruncBytes = 0 then packed else packed.take P.hTruncBytes
  ∃ (r : Bpgm) (x : Igf × Mgf),
    bpgm3 (mgfPullRes impl) turns P.N P.dr P.dr
      (igfInit P.N P.c, mgfOpen impl P.hashAlg ([P.oid.1, P.oid.2.1, P.oid.2.2] ++ m ++ b ++ hTrunc) P.prehashR
        P.minCallsR) = .ok r x ∧
    R.length = P.N ∧
    ∀ k, k < P.N → at' R k = (∑ i ∈ Finset.range P.N, at' r.t i * at' h ((k + P.N - i) % P.N)) % 2048

/-- The mask of R: N trits decoded from MGF1 over R mod 4, packed in 2 bits a coefficient (45_ntru R248). -/
def MaskOf (impl : DigestImpl) (turns : Nat) (P : ParamSet) (R mask : Vec) : Prop :=
  ∃ (x : TpAcc) (y : Mgf),
    tpDecode (mgfPullRes impl) P.N turns ⟨[], 0, 0⟩
      (mgfOpen impl P.hashAlg (pack (R.map fun v => (v % 4).toNat) P.N 4 0) P.prehashMask P.minCallsMask) =
        .ok x y ∧ mask = x.t

/-- What an encryption attempt of message m with the random bytes b computes (45_ntru R258): R and its mask, and
mp = red(Mt + mask, 3, -1) for the trinomial Mt of b ‖ [l] ‖ m ‖ zeros (R250). -/
def AttemptOf (impl : DigestImpl) (turns : Nat) (P : ParamSet) (m b : List Byte) (h R mp : Vec) : Prop :=
  let buf := b ++ [BitVec.ofNat 8 m.length] ++ m ++ List.replicate (P.mBufLen - P.db - 1 - m.length) 0#8
  BlindOf impl turns P m b h R ∧
    ∃ mask, MaskOf impl turns P R mask ∧
      mp.length = P.N ∧ ∀ i, i < P.N → at' mp i = red (at' (binToTri P buf) i + at' mask i) 3 (-1)

/-- The values a decryption computes (45_ntru R266): the message candidate ci, the candidate R, the recovered buffer with
TriToBin's flag, the message and random bytes Parse cuts from it, and the R of those. -/
structure Recovery where
  ci : Vec
  cR : Vec
  cM : List Byte
  ok : Bool
  cb : List Byte
  cm : List Byte
  R2 : Vec

/-- The length byte of the recovered buffer (45_ntru R270). -/
def Recovery.lengthByte (P : ParamSet) (v : Recovery) : Nat := (v.cM.getD P.db 0#8).toNat

/-- What DECRYPT computes from a ciphertext (45_ntru R266 to R271): e unpacked, ci = red(red(f·e, 2048, -1024), 3, -1) for
f = 1 + 3F, cR = e - ci mod 2048, the mask of cR, TriToBin of red(ci - mask, 3, -1), the random bytes and the message
Parse cuts from it (the length clamped to maxMsgLenBytes), and R2, the blinding polynomial of those. -/
def RecoveryOf (impl : DigestImpl) (turns : Nat) (P : ParamSet) (F h : Vec) (ct : List Byte) (v : Recovery) : Prop :=
  let e := fun i : Nat => (unpackAt ct 2048 i : Int)
  let f := fun i : Nat => (if i = 0 then 1 else 0) + 3 * at' F i
  v.ci.length = P.N ∧
  (∀ k, k < P.N → at' v.ci k =
    red (red (∑ i ∈ Finset.range P.N, f i * e ((k + P.N - i) % P.N)) 2048 (-1024)) 3 (-1)) ∧
  v.cR.length = P.N ∧ (∀ i, i < P.N → at' v.cR i = (e i - at' v.ci i) % 2048) ∧
  (∃ mask cMt : Vec, MaskOf impl turns P v.cR mask ∧
    cMt.length = P.N ∧ (∀ i, i < P.N → at' cMt i = red (at' v.ci i - at' mask i) 3 (-1)) ∧
    triToBin P cMt = (v.cM, v.ok)) ∧
  v.cb = v.cM.take P.db ∧ v.cm = (v.cM.drop (P.db + 1)).take (min (v.lengthByte P) P.maxMsgLenBytes) ∧
  BlindOf impl turns P v.cm v.cb h v.R2

/-- Every check of a decryption passes (45_ntru R266): no pad bit of the ciphertext is 1 (R267), ci has at least dm0 of each
symbol (R249), TriToBin accepts (R247), the length byte is at most maxMsgLenBytes and only zeros follow the message
(R270), and R2 is the candidate R (R271). -/
def Recovery.Passes (P : ParamSet) (ct : List Byte) (v : Recovery) : Prop :=
  (∀ k, P.N * 11 ≤ k → k < 8 * P.lenH → (ct.getD (k / 8) 0#8).getLsbD (7 - k % 8) = false) ∧
  (∀ sym ∈ [(1 : Int), 0, -1], P.dm0 ≤ countSym P.N v.ci sym) ∧
  v.ok = true ∧
  v.lengthByte P ≤ P.maxMsgLenBytes ∧
  (∀ i, P.db + 1 + v.lengthByte P ≤ i → i < P.mBufLen → v.cM.getD i 0#8 = 0#8) ∧
  ∀ i, i < P.N → at' v.R2 i = at' v.cR i

/-- Decryption under the private polynomial of F does not wrap for this message: for every attempt's r and mp, every
coefficient of conv(f, R + mp), reduced by the multiple of 2048 that makes it so, is 3·conv(r, g) + conv(f, mp) in
[-1024, 1024) (45_ntru R268). -/
def NeverWraps (impl : DigestImpl) (turns : Nat) (P : ParamSet) (F g h : Vec) (m : List Byte) : Prop :=
  ∀ (b : List Byte) (r : Bpgm) (x : Igf × Mgf) (mask : TpAcc) (y : Mgf),
    b.length = P.db →
    genR impl turns P (sData P m b h) = .ok r x →
    genMask impl turns P (blindPoly P.N r.t h) = .ok mask y →
    ∀ i, i < P.N →
      -1024 ≤ 3 * convAt P.N r.t g i + convAt P.N (privPoly P.N F) (messageRep P b m mask.t) i ∧
        3 * convAt P.N r.t g i + convAt P.N (privPoly P.N F) (messageRep P b m mask.t) i < 1024

/-- f·h = 3·g in R_2048: h is the public polynomial of F with some g (45_ntru R254, R268). -/
def KeyRelation (N : Nat) (F g h : Vec) : Prop :=
  ∀ k, k < N → convAt N (privPoly N F) h k % 2048 = 3 * at' g k % 2048

end Sys2Proof.Machine
end

