-- ==== Sys2Proof/Certificates/Slice0/Obligations.lean ====
section
/-! DEFINITION. The statements for the provers. Each docstring names the rules of spec/ it formalises; a clause that
rests on a choice of the model names the log entry. -/

open Sys2Proof Sys2Proof.Machine

/-! ### Encoding -/

/-- Words written out from 30_encoding R91 and R94 decode to the commands they stand for; four words with a bit outside
their opcode's fields, or an unlisted opcode, decode to nothing (R96). -/
def Obligations.WrittenOutWordsDecode : Prop :=
  decode 0x00000000#32 = some .nop ∧
  decode 0x00028B10#32 = some (.padd 3 1 2 true) ∧
  decode 0x00004014#32 = some (.peq 0 1) ∧
  decode 0x00000121#32 = some (.pinvq 1 0) ∧
  decode 0x00042830#32 = some (.bpack 5 true) ∧
  decode 0x000C0041#32 = some (.srcmgf true true) ∧
  decode 0x00000247#32 = some (.trimgf 2) ∧
  decode 0x00040055#32 = some (.keyexport true) ∧
  decode 0x00000114#32 = none ∧ decode 0x00100010#32 = none ∧ decode 0x00000015#32 = none ∧
  decode 0x00080055#32 = none

/-- Decoding the encoding of any command, with every field at every value, gives that command back (30_encoding R94,
R95). -/
def Obligations.DecodeReturnsEncoded : Prop := ∀ i : Instr, decode (encode i) = some i

/-- Decoding is total and unambiguous (30_encoding R95): at most one row matches a word; the word of a matching row
decodes to that row's command, any other word to nothing; and a word that decodes is the encoding of its command
(R92, R94). -/
def Obligations.EveryWordHasOneMeaning : Prop :=
  (∀ w : Word, (opRows.filter fun r => r.matches w).length ≤ 1) ∧
  (∀ (w : Word) (r : OpRow), r ∈ opRows → r.matches w = true → decode w = some (r.build w)) ∧
  (∀ w : Word, (∀ r ∈ opRows, r.matches w = false) → decode w = none) ∧
  ∀ (w : Word) (i : Instr), decode w = some i → encode i = w

/-! ### The command cycle -/

/-- A step in which the sequencer has its turn runs the decoded latched command; with a host access in the same step the
access follows; an idle sequencer leaves everything as it is (40_command R112, R113, 60_exceptions R322; log 1). -/
def Obligations.StepRunsDecodedCommand : Prop :=
  (∀ (s : State) (i : Instr), s.phase = .busy → decode s.ctx.word = some i →
    (s.inbox = [] → step s = exec i s) ∧
    (∀ rest, s.inbox = .turn :: rest → step s = exec i { s with inbox := rest }) ∧
    (∀ a rest, s.inbox = .together a :: rest → step s = thenAccess (exec i { s with inbox := rest }) a)) ∧
  ∀ s : State, s.phase = .idle →
    (s.inbox = [] → step s = .next s) ∧
    (∀ rest, s.inbox = .turn :: rest → step s = .next { s with inbox := rest })

/-- Placing a command's word with `withFetchWord` and taking one step is executing that command in the state its
acceptance leaves (40_command R110, R112; log 2). -/
def Obligations.PlacedWordRunsNext : Prop :=
  ∀ (s : State) (i : Instr), step (s.withFetchWord 32 (encode i).toNat) = exec i (accept s (encode i))

/-- 40_command R112: a latched word that decodes to nothing completes at once with ILLEGAL_CMD and changes nothing
else. -/
def Obligations.IllegalWordCompletesWithError : Prop :=
  ∀ s : State, s.phase = .busy → decode s.ctx.word = none →
    (s.inbox = [] → step s = .next (s.failedWith .illegalCmd)) ∧
    ∀ rest, s.inbox = .turn :: rest → step s = .next (State.failedWith { s with inbox := rest } .illegalCmd)

/-- 40_command R110, R111: a CMD write while idle accepts the word, whatever it is; while busy it is dropped and sets OVR,
and changes nothing else. -/
def Obligations.IssueAcceptedOrDropped : Prop :=
  ∀ (s : State) (w : Word),
    (s.phase = .idle →
      hostAccess s (.write 0x00C .w32 w) =
        { s with
          cmd := w
          ctx := ⟨w, s.arg0, s.arg1, s.arg2, s.arg3, s.cfgN, s.cfgMod, s.cfgLow, s.iterCap⟩
          status := { s.status with done := false, err := false, noinv := false, eq := false, errCode := none }
          iterCnt := 0#32
          phase := .busy
          inflight := 0 }) ∧
    (s.phase = .busy →
      hostAccess s (.write 0x00C .w32 w) = { s with status := { s.status with ovr := true } })

/-- Every step answers a next state; and every command ends in one of three ways: its consumption and writes committed
with DONE, its consumption alone committed with DONE, ERR and one code, or nothing committed and the command goes on
(40_command R113 to R117, 60_exceptions R302). The RNG bytes a command consumes are the first of those offered, in
order, and RNG_CNT rises by their number mod 2^32, an error changing nothing of that (00_scope R11, 10_state R35,
44_streams R191); the port's offer of a byte appends it and changes nothing else (log 7); a command that goes on has
pulled no more than was offered (log 9). -/
def Obligations.CommandsEndInOneOfThreeWays : Prop :=
  (∀ s : State, ∃ t, step s = .next t) ∧
  (∀ (i : Instr) (s : State),
    (∃ f w, exec i s = .next ((s.consume f).write w).finished ∧
      f.pulled ≤ s.rng.length ∧ f.rng = s.rng.drop f.pulled) ∨
    (∃ f e, exec i s = .next ((s.consume f).failedWith e) ∧
      f.pulled ≤ s.rng.length ∧ f.rng = s.rng.drop f.pulled) ∨
    (∃ n k, exec i s = .next (s.goesOn n k) ∧ n ≤ s.rng.length)) ∧
  (∀ (s : State) (f : Feed),
    s.consume f =
      { s with su := f.su, rng := f.rng, rngCnt := s.rngCnt + BitVec.ofNat 32 f.pulled, iterCnt := f.iterCnt }) ∧
  ∀ (s : State) (v : Byte), handle s (.rngByte v) = .next { s with rng := s.rng ++ [v] }

/-- The frame every command shares: the registers only the host writes, CMD, OVR, ACCERR, the configuration, the events
to come and the last read word are unchanged (10_state R25, R26, R32, R50, 40_command R110). -/
def Obligations.CommandsLeaveHostRegisters : Prop :=
  ∀ (i : Instr) (s t : State), exec i s = .next t →
    t.cmd = s.cmd ∧ t.arg0 = s.arg0 ∧ t.arg1 = s.arg1 ∧ t.arg2 = s.arg2 ∧ t.arg3 = s.arg3 ∧
    t.cfgN = s.cfgN ∧ t.cfgMod = s.cfgMod ∧ t.cfgLow = s.cfgLow ∧ t.doneIE = s.doneIE ∧ t.iterCap = s.iterCap ∧
    t.status.ovr = s.status.ovr ∧ t.status.accerr = s.status.accerr ∧
    t.params = s.params ∧ t.inbox = s.inbox ∧ t.rdata = s.rdata

/-- A running command depends on no register a host may write while it runs and on no flag: with other values there it
makes the same state up to those registers and flags (10_state R47, R51, 70_reset R351). -/
def Obligations.CommandsIgnoreHostRegistersAndFlags : Prop :=
  ∀ (i : Instr) (s t : State) (a0 a1 a2 a3 n m l c : Word) (e : Bool) (x : Status),
    exec i s = .next t →
    ∃ y : Status,
      exec i { s with
        arg0 := a0, arg1 := a1, arg2 := a2, arg3 := a3, cfgN := n, cfgMod := m, cfgLow := l
        iterCap := c, doneIE := e, status := x } =
      .next { t with
        arg0 := a0, arg1 := a1, arg2 := a2, arg3 := a3, cfgN := n, cfgMod := m, cfgLow := l
        iterCap := c, doneIE := e, status := y }

/-- The number of loop turns granted in a step decides nothing but whether the command goes on: a run that did not use
the grant up is the same under any larger grant (40_command R113 "no timing", 70_reset R360; log 8). -/
def Obligations.LargerGrantSameOutcome : Prop :=
  ∀ (i : Instr) (s t : State) (k : Nat), exec i s = .next t → t.turns = s.turns → s.turns ≤ k →
    exec i { s with turns := k } = .next { t with turns := k }

/-- A command that needs an RNG byte waits for it: TRIMGF from the RNG port with no byte offered commits nothing and stays
busy, for as many turns as it is given (40_command R116, 44_streams R191). With `used` bytes offered of which the last
completes the N trits, it takes exactly those, in order: RNG_CNT rises by `used`, RES0 ← `used`, RES1 ← the bytes from
243 up among them, and coefficient i is the trit of base-3 digit i mod 5 of accepted byte i div 5 (R204, R205). IGFNEXT and TRISMP
too take the offered bytes in order (R192): with SRC = RNG each command does what it does from a memory source that holds
the offered bytes and suffices, but the bytes go from the port and RNG_CNT rises by their number. -/
def Obligations.RngPullWaits : Prop :=
  (∀ (s : State) (rd : PReg), s.phase = .busy → decode s.ctx.word = some (.trimgf rd) → s.DimPre →
    s.su.src = .rng → s.rng = [] → 1 ≤ s.turns → s.inflight = 0 → s.inbox = [] → step s = .next s) ∧
  (∀ (s : State) (rd : PReg) (used : Nat) (accepted : List Byte), s.DimPre → s.su.src = .rng → 1 ≤ used →
    used ≤ s.rng.length → used ≤ s.turns → accepted = (s.rng.take used).filter (fun v => v.toNat < 243) →
    accepted.length = (s.ctx.cfgN.toNat + 4) / 5 → (s.rng.getD (used - 1) 0#8).toNat < 243 →
    ∃ p : Poly,
      exec (.trimgf rd) s =
        .next { s.finished.setPr rd p with
          rng := s.rng.drop used
          rngCnt := s.rngCnt + BitVec.ofNat 32 used
          res0 := countWord used
          res1 := countWord (used - accepted.length) } ∧
      p.Holds s.ctx.cfgN.toNat fun i =>
        match (accepted.getD (i / 5) 0#8).toNat / 3 ^ (i % 5) % 3 with
        | 0 => 0
        | 1 => 1
        | _ => -1) ∧
  ∀ (i : Instr) (s t : State) (m : Memory) (a n : Nat), (i = .igfnext ∨ ∃ rd, i = .trismp rd ∨ i = .trimgf rd) →
    s.phase = .busy → s.su.src = .rng → n ≤ s.rng.length → (∀ k, k < n → m.read (a + k) = s.rng.getD k 0#8) →
    exec i { s with dmem := m, su := { s.su with src := .mem, mcur := a, mend := a + n } } = .next t →
    t.phase = .idle → t.status.err = false →
    t.su.mcur ≤ a + n ∧
    exec i s =
      .next { t with
        dmem := s.dmem
        su := { t.su with src := .rng, mcur := s.su.mcur, mend := s.su.mend }
        rng := s.rng.drop (t.su.mcur - a)
        rngCnt := s.rngCnt + BitVec.ofNat 32 (t.su.mcur - a) }

/-! ### Host accesses -/

/-- The register map (10_state R22 to R38): what an aligned 32-bit read returns, changing nothing in the engine, and what
a write does; read-only registers ignore writes. MGF_RUNS (R37) shows the runs of the open MGF1 stream, else those of
the last one closed, where the count fits 32 bits (a free value where it does not: the model's choice, log 11). -/
def Obligations.RegisterMap : Prop :=
  ∀ (s : State) (w : Word),
    (∀ p ∈ [ ((0x000 : BitVec 16), 0x4E504531#32), (0x004, 0#32), (0x008, statusWord s), (0x00C, s.cmd),
        (0x010, s.arg0), (0x014, s.arg1), (0x018, s.arg2), (0x01C, s.arg3), (0x020, s.res0), (0x024, s.res1),
        (0x028, s.cfgN), (0x02C, s.cfgMod), (0x030, s.cfgLow), (0x034, keystatWord s),
        (0x038, if s.doneIE then 1#32 else 0#32), (0x03C, s.iterCap), (0x040, s.iterCnt), (0x044, s.rngCnt),
        (0x048, srcstatWord s), (0x04C, mgfRunsWord s),
        (0x050, if s.su.src = .mem then BitVec.ofNat 32 (s.su.mend - s.su.mcur) else 0#32) ],
      hostAccess s (.read p.1 .w32) = { s with rdata := some p.2 }) ∧
    hostAccess s (.write 0x010 .w32 w) = { s with arg0 := w } ∧
    hostAccess s (.write 0x014 .w32 w) = { s with arg1 := w } ∧
    hostAccess s (.write 0x018 .w32 w) = { s with arg2 := w } ∧
    hostAccess s (.write 0x01C .w32 w) = { s with arg3 := w } ∧
    hostAccess s (.write 0x028 .w32 w) = { s with cfgN := w } ∧
    hostAccess s (.write 0x02C .w32 w) = { s with cfgMod := w } ∧
    hostAccess s (.write 0x030 .w32 w) = { s with cfgLow := w } ∧
    hostAccess s (.write 0x038 .w32 w) = { s with doneIE := w.getLsbD 0 } ∧
    hostAccess s (.write 0x03C .w32 w) = { s with iterCap := w } ∧
    (∀ off ∈ [(0x000 : BitVec 16), 0x020, 0x024, 0x034, 0x040, 0x044, 0x048, 0x04C, 0x050],
      hostAccess s (.write off .w32 w) = s) ∧
    (s.su.src = .mgf → s.su.mgf.runs < 2 ^ 32 → mgfRunsWord s = BitVec.ofNat 32 s.su.mgf.runs) ∧
    (s.su.src ≠ .mgf → s.su.lastRuns < 2 ^ 32 → mgfRunsWord s = BitVec.ofNat 32 s.su.lastRuns)

/-- 10_state R39: a reserved offset reads 0 and ignores writes, at any time, and neither sets ACCERR. -/
def Obligations.ReservedOffsetsInert : Prop :=
  ∀ (s : State) (off : BitVec 16) (w : Word), off.toNat % 4 = 0 →
    (0x054 ≤ off.toNat ∧ off.toNat ≤ 0x1FFC ∨ 0xC000 ≤ off.toNat) →
    hostAccess s (.read off .w32) = { s with rdata := some 0#32 } ∧ hostAccess s (.write off .w32 w) = s

/-- The STATUS register (10_state R24): where each field stands, that reserved bits read 0, and that a write clears DONE,
ERR, OVR and ACCERR where it has a 1 and does nothing else; and the code of each error, 0 for none (60_exceptions
R300). That a write of 1 to ERR leaves ERRCODE is the model's choice (log 22, DEDUCED). -/
def Obligations.StatusFieldsAndWrite : Prop :=
  ∀ (s : State) (w : Word),
    ((statusWord s).getLsbD 0 = true ↔ s.phase = .busy) ∧
    (statusWord s).getLsbD 1 = s.status.done ∧ (statusWord s).getLsbD 2 = s.status.err ∧
    (statusWord s).getLsbD 3 = s.status.noinv ∧ (statusWord s).getLsbD 4 = s.status.eq ∧
    (statusWord s).getLsbD 5 = s.status.ovr ∧ (statusWord s).getLsbD 6 = s.status.accerr ∧
    (statusWord s).getLsbD 7 = false ∧ (statusWord s).extractLsb' 8 8 = errCodeByte s.status.errCode ∧
    (statusWord s).extractLsb' 16 16 = 0#16 ∧
    hostAccess s (.write 0x008 .w32 w) =
      { s with
        status :=
          { done := s.status.done && !w.getLsbD 1
            err := s.status.err && !w.getLsbD 2
            noinv := s.status.noinv
            eq := s.status.eq
            ovr := s.status.ovr && !w.getLsbD 5
            accerr := s.status.accerr && !w.getLsbD 6
            errCode := s.status.errCode } } ∧
    errCodeByte none = 0x00#8 ∧
    errCodeByte (some .illegalCmd) = 0x01#8 ∧ errCodeByte (some .precondition) = 0x02#8 ∧
    errCodeByte (some .noSource) = 0x03#8 ∧ errCodeByte (some .srcExhausted) = 0x04#8 ∧
    errCodeByte (some .msgTooLong) = 0x10#8 ∧ errCodeByte (some .fmtTag) = 0x20#8 ∧
    errCodeByte (some .fmtOid) = 0x21#8 ∧ errCodeByte (some .fmtLen) = 0x22#8 ∧
    errCodeByte (some .fmtData) = 0x23#8 ∧ errCodeByte (some .decryptFail) = 0x30#8 ∧
    errCodeByte (some .keyClosed) = 0x40#8 ∧ errCodeByte (some .noPrivkey) = 0x41#8 ∧
    errCodeByte (some .iterLimit) = 0x50#8

/-- KEYSTAT and SRCSTAT (10_state R31, R36): where each field stands and that reserved bits read 0; both read 0 at reset;
a read returns the word and a write has no effect. IGF_NBITS alone is stated for 0 to 7 buffered bits only, the range
R36 gives. -/
def Obligations.KeystatAndSrcstatFields : Prop :=
  (∀ s : State,
    (keystatWord s).extractLsb' 0 2 =
      (match s.key.kstate with | .empty => 0#2 | .pub => 1#2 | .priv => 2#2 | .closed => 3#2) ∧
    (keystatWord s).extractLsb' 2 6 = 0#6 ∧
    (keystatWord s).extractLsb' 8 4 =
      (if s.key.kstate = .empty ∨ s.key.kstate = .closed then 0#4 else BitVec.ofNat 4 s.key.kps.val) ∧
    (keystatWord s).extractLsb' 12 20 = 0#20) ∧
  (∀ s : State,
    (srcstatWord s).extractLsb' 0 2 =
      (match s.su.src with | .none => 0#2 | .rng => 1#2 | .mgf => 2#2 | .mem => 3#2) ∧
    (srcstatWord s).getLsbD 2 = s.su.igf.act ∧
    ((srcstatWord s).getLsbD 3 = true ↔ s.su.src = .mgf ∧ s.su.mgf.hash = .sha256) ∧
    (srcstatWord s).extractLsb' 4 4 = 0#4 ∧
    (srcstatWord s).extractLsb' 8 5 = (if s.su.igf.act then BitVec.ofNat 5 s.su.igf.b else 0#5) ∧
    (srcstatWord s).extractLsb' 13 3 = 0#3 ∧
    (s.su.igf.nbits ≤ 7 → (srcstatWord s).extractLsb' 16 3 = BitVec.ofNat 3 s.su.igf.nbits) ∧
    (srcstatWord s).extractLsb' 19 13 = 0#13) ∧
  keystatWord State.reset = 0#32 ∧ srcstatWord State.reset = 0#32 ∧
  ∀ (s : State) (w : Word),
    hostAccess s (.read 0x034 .w32) = { s with rdata := some (keystatWord s) } ∧
    hostAccess s (.read 0x048 .w32) = { s with rdata := some (srcstatWord s) } ∧
    hostAccess s (.write 0x034 .w32 w) = s ∧ hostAccess s (.write 0x048 .w32 w) = s

/-- 20_memory R62: the DMEM window. Word k is the four bytes from 4k, the first in the low bits; a write sets those four
bytes and changes nothing else. -/
def Obligations.DmemWindowLittleEndian : Prop :=
  ∀ (s : State) (k : Nat) (w : Word), s.phase = .idle → k < 2048 →
    hostAccess s (.read (BitVec.ofNat 16 (0x2000 + 4 * k)) .w32) =
      { s with
        rdata := some
          ((s.dmem.read (4 * k)).setWidth 32 ||| (s.dmem.read (4 * k + 1)).setWidth 32 <<< 8 |||
            (s.dmem.read (4 * k + 2)).setWidth 32 <<< 16 ||| (s.dmem.read (4 * k + 3)).setWidth 32 <<< 24) } ∧
    ∃ m : Memory,
      hostAccess s (.write (BitVec.ofNat 16 (0x2000 + 4 * k)) .w32 w) = { s with dmem := m } ∧
      ∀ a, m.read a = if 4 * k ≤ a ∧ a < 4 * k + 4 then w.extractLsb' (8 * (a - 4 * k)) 8 else s.dmem.read a

/-- 20_memory R63: the PR windows. Word j of register k holds coefficient 2j in the low half and 2j+1 in the high half; a
half that names an index from NMAX up reads 0 and ignores writes; nothing else changes. -/
def Obligations.PrWindowLittleEndian : Prop :=
  ∀ (s : State) (k : PReg) (j : Nat) (w : Word), s.phase = .idle → j < 1024 →
    hostAccess s (.read (BitVec.ofNat 16 (0x4000 + 0x1000 * k.val + 4 * j)) .w32) =
      { s with
        rdata := some
          ((BitVec.ofInt 16 (s.pr[k].coeff (2 * j))).setWidth 32 |||
            (BitVec.ofInt 16 (s.pr[k].coeff (2 * j + 1))).setWidth 32 <<< 16) } ∧
    (∀ i, 1499 ≤ i → s.pr[k].coeff i = 0) ∧
    ∃ p : Poly,
      hostAccess s (.write (BitVec.ofNat 16 (0x4000 + 0x1000 * k.val + 4 * j)) .w32 w) = s.setPr k p ∧
      ∀ i, p.coeff i =
        if i = 2 * j ∧ i < 1499 then (w.extractLsb' 0 16).toInt
        else if i = 2 * j + 1 ∧ i < 1499 then (w.extractLsb' 16 16).toInt
        else s.pr[k].coeff i

/-- 20_memory R64: while busy a window access is refused, whatever its width: a read returns 0, a write has no effect,
ACCERR is set; an aligned 32-bit register access is not refused. -/
def Obligations.WindowsRefusedWhileBusy : Prop :=
  ∀ (s : State) (off : BitVec 16) (wd : Width) (w : Word), s.phase = .busy →
    (0x2000 ≤ off.toNat ∧ off.toNat < 0xC000 →
      hostAccess s (.read off wd) = { s with rdata := some 0#32, status := { s.status with accerr := true } } ∧
      hostAccess s (.write off wd w) = { s with status := { s.status with accerr := true } }) ∧
    (off.toNat < 0x2000 → off.toNat % 4 = 0 →
      hostAccess s (.read off .w32) = { s with rdata := some (regRead s off.toNat) } ∧
      hostAccess s (.write off .w32 w) = regWrite s off.toNat w)

/-- An access that is not an aligned 32-bit access is refused, in either phase: a read returns 0, a write has no effect,
ACCERR is set (20_memory R66; that this holds at reserved offsets too is the model's choice, log 13). -/
def Obligations.NarrowOrMisalignedRefused : Prop :=
  ∀ (s : State) (off : BitVec 16) (wd : Width) (w : Word), (wd ≠ .w32 ∨ off.toNat % 4 ≠ 0) →
    hostAccess s (.read off wd) = { s with rdata := some 0#32, status := { s.status with accerr := true } } ∧
    hostAccess s (.write off wd w) = { s with status := { s.status with accerr := true } }

/-- No host access but a soft reset touches a running command: the context, what the command works on and what it writes
at completion stay (40_command R113, 70_reset R351 to R354). -/
def Obligations.HostAccessesLeaveRunningCommand : Prop :=
  ∀ (s : State) (a : Access), s.phase = .busy → (∀ w, a = .write 0x004 .w32 w → w.getLsbD 0 = false) →
    let t := hostAccess s a
    t.phase = .busy ∧ t.ctx = s.ctx ∧ t.cmd = s.cmd ∧ t.res0 = s.res0 ∧ t.res1 = s.res1 ∧
    t.iterCnt = s.iterCnt ∧ t.rngCnt = s.rngCnt ∧ t.pr = s.pr ∧ t.key = s.key ∧ t.su = s.su ∧ t.dmem = s.dmem ∧
    t.params = s.params ∧ t.rng = s.rng ∧ t.inflight = s.inflight ∧ t.turns = s.turns ∧ t.inbox = s.inbox ∧
    t.status.noinv = s.status.noinv ∧ t.status.eq = s.status.eq ∧ t.status.errCode = s.status.errCode ∧
    (s.status.done = false → t.status.done = false) ∧ (s.status.err = false → t.status.err = false)

/-- Soft and hard reset have the same effect, in either phase: every piece of architectural state takes its reset value.
The configuration, the grant, the events to come and the bus are outside the engine, and the RNG producer is not
rewound: the bytes the running command had pulled stay consumed (70_reset R340, R341, R356; log 9, log 23). -/
def Obligations.SoftResetIsHardReset : Prop :=
  ∀ (s : State) (w : Word),
    handle s .hardReset =
      .next { State.reset with
        params := s.params, rng := s.rng.drop s.inflight, turns := s.turns, inbox := s.inbox, rdata := s.rdata } ∧
    (w.getLsbD 0 = true → handle s .hardReset = .next (hostAccess s (.write 0x004 .w32 w))) ∧
    (w.getLsbD 0 = false → hostAccess s (.write 0x004 .w32 w) = s)

/-- 70_reset R342: the reset value of every piece of architectural state. -/
def Obligations.ResetValues : Prop :=
  let s := State.reset
  regRead s 0x000 = 0x4E504531#32 ∧
  (∀ off ∈ [0x004, 0x008, 0x00C, 0x010, 0x014, 0x018, 0x01C, 0x020, 0x024, 0x028, 0x02C, 0x030, 0x034, 0x038, 0x03C,
      0x040, 0x044, 0x048, 0x04C, 0x050], regRead s off = 0#32) ∧
  (∀ (k : PReg) (i : Nat), s.pr[k].coeff i = 0) ∧
  (∀ i, s.key.h.coeff i = 0 ∧ s.key.f.coeff i = 0) ∧ s.key.kps = 0 ∧ s.key.kstate = .empty ∧
  s.su.src = .none ∧
  s.su.mgf.hash = .sha1 ∧ s.su.mgf.seed = [] ∧ s.su.mgf.ctr = 0#32 ∧ s.su.mgf.buf = [] ∧ s.su.mgf.runs = 0 ∧
  s.su.mgf.minRuns = 0 ∧ s.su.mcur = 0 ∧ s.su.mend = 0 ∧
  s.su.igf.act = false ∧ s.su.igf.m = 0 ∧ s.su.igf.b = 0 ∧ s.su.igf.cut = 0 ∧ s.su.igf.buf = 0 ∧
  s.su.igf.nbits = 0 ∧ s.phase = .idle ∧ (∀ a, s.dmem.read a = 0#8) ∧ s.irq = false

/-- 60_exceptions R310: IRQ is DONE and DONEIE. Every completion of a running command asserts it where it is enabled;
clearing DONE, a new acceptance, DONEIE = 0 and a reset deassert it, and while no command runs nothing else does. -/
def Obligations.IrqFollowsDone : Prop :=
  (∀ s : State, s.irq = true ↔ s.status.done = true ∧ s.doneIE = true) ∧
  (∀ (i : Instr) (s t : State), s.phase = .busy → exec i s = .next t → t.phase = .idle → t.irq = s.doneIE) ∧
  (∀ (s : State) (w : Word),
    (w.getLsbD 1 = true → (hostAccess s (.write 0x008 .w32 w)).irq = false) ∧
    (s.phase = .idle → (hostAccess s (.write 0x00C .w32 w)).irq = false) ∧
    (w.getLsbD 0 = false → (hostAccess s (.write 0x038 .w32 w)).irq = false) ∧
    (w.getLsbD 0 = true → (hostAccess s (.write 0x004 .w32 w)).irq = false)) ∧
  (∀ s t : State, handle s .hardReset = .next t → t.irq = false) ∧
  ∀ (s t : State) (e : Event), s.phase = .idle → s.irq = true → handle s e = .next t → t.irq = false →
    e = .hardReset ∨
      ∃ (a : Access) (w : Word), (e = .access a ∨ e = .together a) ∧
        (a = .write 0x008 .w32 w ∧ w.getLsbD 1 = true ∨ a = .write 0x00C .w32 w ∨
          a = .write 0x038 .w32 w ∧ w.getLsbD 0 = false ∨ a = .write 0x004 .w32 w ∧ w.getLsbD 0 = true)

/-- 60_exceptions R312: when a command completes and a host access arrives in the same step, the completion comes first;
so a DONE write clears the new DONE, a CMD write is accepted, and a soft reset resets what the completion left. -/
def Obligations.CompletionBeforeAccess : Prop :=
  ∀ (s t : State) (a : Access) (rest : List Event), s.inbox = .together a :: rest →
    sequencerTurn { s with inbox := rest } = .next t →
    step s = .next (hostAccess t a) ∧
    (t.phase = .idle →
      (∀ w, a = .write 0x008 .w32 w → w.getLsbD 1 = true → (hostAccess t a).status.done = false) ∧
      (∀ w, a = .write 0x00C .w32 w → hostAccess t a = accept t w) ∧
      (∀ w, a = .write 0x004 .w32 w → w.getLsbD 0 = true → hostAccess t a = resetEngine t))

/-! ### Commands of the families 0x0x to 0x2x -/

/-- NOP: `complete` (40_command R120): its word is 0, and it changes nothing but what acceptance and completion change. -/
def Obligations.NopOnlyCompletes : Prop :=
  encode .nop = 0x00000000#32 ∧ ∀ s : State, exec .nop s = .next s.finished

/-- 41_poly_arith R133, R134: PADD and PSUB. Under the checks of R130, D[i] = out(A[i] ± B[i]) for i < N and 0 above, and
nothing else changes but the completion; otherwise PRECONDITION and nothing is written. wrap16(v) is the 16-bit
two's-complement value congruent to v (00_scope R15). -/
def Obligations.AddAndSubtract : Prop :=
  (∀ v : Int, -32768 ≤ wrap16 v ∧ wrap16 v ≤ 32767 ∧ (65536 : Int) ∣ wrap16 v - v) ∧
  ∀ (rd rs1 rs2 : PReg) (red' : Bool) (s : State),
    (s.RingPre red' →
      (∃ p : Poly, exec (.padd rd rs1 rs2 red') s = .next (s.finished.setPr rd p) ∧
        p.Holds s.ctx.cfgN.toNat fun i =>
          if red' then red (s.pr[rs1].coeff i + s.pr[rs2].coeff i) s.ctx.cfgMod.toNat s.ctx.cfgLow.toInt
          else wrap16 (s.pr[rs1].coeff i + s.pr[rs2].coeff i)) ∧
      (∃ p : Poly, exec (.psub rd rs1 rs2 red') s = .next (s.finished.setPr rd p) ∧
        p.Holds s.ctx.cfgN.toNat fun i =>
          if red' then red (s.pr[rs1].coeff i - s.pr[rs2].coeff i) s.ctx.cfgMod.toNat s.ctx.cfgLow.toInt
          else wrap16 (s.pr[rs1].coeff i - s.pr[rs2].coeff i))) ∧
    (¬ s.RingPre red' →
      exec (.padd rd rs1 rs2 red') s = .next (s.failedWith .precondition) ∧
      exec (.psub rd rs1 rs2 red') s = .next (s.failedWith .precondition))

/-- 41_poly_arith R135: PCONV. D[k] = out(the exact sum over i < N of A[i] · B[mod(k - i, N)]), under the same checks; and
swapping RS1 and RS2 gives the same outcome ("the product is commutative"). -/
def Obligations.CyclicConvolution : Prop :=
  ∀ (rd rs1 rs2 : PReg) (red' : Bool) (s : State),
    (s.RingPre red' → ∃ p : Poly,
      exec (.pconv rd rs1 rs2 red') s = .next (s.finished.setPr rd p) ∧
      p.Holds s.ctx.cfgN.toNat fun k =>
        let v : Int := ∑ i ∈ Finset.range s.ctx.cfgN.toNat,
          s.pr[rs1].coeff i * s.pr[rs2].coeff (((k : Int) - i) % (s.ctx.cfgN.toNat : Int)).toNat
        if red' then red v s.ctx.cfgMod.toNat s.ctx.cfgLow.toInt else wrap16 v) ∧
    (¬ s.RingPre red' → exec (.pconv rd rs1 rs2 red') s = .next (s.failedWith .precondition)) ∧
    exec (.pconv rd rs1 rs2 red') s = exec (.pconv rd rs2 rs1 red') s

/-- 41_poly_arith R136: PRED. D[i] = red(A[i], MOD, LOW) for i < N and 0 above; PRED always reduces. red(v, m, low) is the
value in [low, low + m) congruent to v (00_scope R15). -/
def Obligations.Recentring : Prop :=
  (∀ v m low : Int, 1 ≤ m → low ≤ red v m low ∧ red v m low < low + m ∧ m ∣ red v m low - v) ∧
  ∀ (rd rs1 : PReg) (s : State),
    (s.RingPre true → ∃ p : Poly,
      exec (.pred rd rs1) s = .next (s.finished.setPr rd p) ∧
      p.Holds s.ctx.cfgN.toNat fun i => red (s.pr[rs1].coeff i) s.ctx.cfgMod.toNat s.ctx.cfgLow.toInt) ∧
    (¬ s.RingPre true → exec (.pred rd rs1) s = .next (s.failedWith .precondition))

/-- 41_poly_arith R137: PEQ. EQ and RES0 say whether the operands agree below N; no other state changes but the
completion; N out of range is a PRECONDITION. -/
def Obligations.CoefficientwiseEquality : Prop :=
  ∀ (rs1 rs2 : PReg) (s : State),
    (s.DimPre → (∀ i, i < s.ctx.cfgN.toNat → s.pr[rs1].coeff i = s.pr[rs2].coeff i) →
      exec (.peq rs1 rs2) s =
        .next { s.finished with res0 := 1#32, status := { s.status with done := true, eq := true } }) ∧
    (s.DimPre → (¬ ∀ i, i < s.ctx.cfgN.toNat → s.pr[rs1].coeff i = s.pr[rs2].coeff i) →
      exec (.peq rs1 rs2) s =
        .next { s.finished with res0 := 0#32, status := { s.status with done := true, eq := false } }) ∧
    (¬ s.DimPre → exec (.peq rs1 rs2) s = .next (s.failedWith .precondition))

/-- 42_inversion R151: PINVP. Where A mod 2 has an inverse in R_2, D is that inverse and NOINV is 0; where it has none, D
is unchanged and NOINV is 1, without error; N out of range is a PRECONDITION. -/
def Obligations.InverseModTwo : Prop :=
  ∀ (rd rs1 : PReg) (s : State),
    (s.DimPre →
      (∀ b : Nat → Int, InverseIn s.ctx.cfgN.toNat 2 (fun i => s.pr[rs1].coeff i % 2) b → ∃ p : Poly,
        exec (.pinvp rd rs1) s =
          .next { s.finished.setPr rd p with status := { s.status with done := true, noinv := false } } ∧
        p.Holds s.ctx.cfgN.toNat b) ∧
      ((¬ ∃ b : Nat → Int, InverseIn s.ctx.cfgN.toNat 2 (fun i => s.pr[rs1].coeff i % 2) b) →
        exec (.pinvp rd rs1) s = .next { s.finished with status := { s.status with done := true, noinv := true } })) ∧
    (¬ s.DimPre → exec (.pinvp rd rs1) s = .next (s.failedWith .precondition))

/-- 42_inversion R153: PINVQ. The same in R_2048, the inverse's coefficients in [0, 2048). -/
def Obligations.InverseModTarget : Prop :=
  ∀ (rd rs1 : PReg) (s : State),
    (s.DimPre →
      (∀ b : Nat → Int, InverseIn s.ctx.cfgN.toNat 2048 (fun i => s.pr[rs1].coeff i % 2048) b → ∃ p : Poly,
        exec (.pinvq rd rs1) s =
          .next { s.finished.setPr rd p with status := { s.status with done := true, noinv := false } } ∧
        p.Holds s.ctx.cfgN.toNat b) ∧
      ((¬ ∃ b : Nat → Int, InverseIn s.ctx.cfgN.toNat 2048 (fun i => s.pr[rs1].coeff i % 2048) b) →
        exec (.pinvq rd rs1) s = .next { s.finished with status := { s.status with done := true, noinv := true } })) ∧
    (¬ s.DimPre → exec (.pinvq rd rs1) s = .next (s.failedWith .precondition))

/-! ### The bit packer -/

/-- 43_bitpack R174: BPACK. With b the least k with 2^k ≥ maxEltValue and L = ceil(n·b/8): under the checks it writes the
len bytes of R171's layout at ARG0 and RES0 ← len, nothing else changing but the completion; with DRY it only sizes,
checking n, maxEltValue and the cap; every other operand is a PRECONDITION with nothing written. The packing the
protocol commands call has the same bits. -/
def Obligations.PackedBytesAndLength : Prop :=
  (∀ (x : List Nat) (n mx c b len : Nat), IsLeast { k : Nat | mx ≤ 2 ^ k } b →
    len = (if c = 0 then (n * b + 7) / 8 else c) → c ≤ (n * b + 7) / 8 →
    (pack x n mx c).length = len ∧
    ∀ g j, g < len → j < 8 →
      ((pack x n mx c).getD g 0#8).getLsbD (7 - j) =
        (decide (8 * g + j < n * b) && (x.getD ((8 * g + j) / b) 0).testBit (b - 1 - (8 * g + j) % b))) ∧
  ∀ (rs1 : PReg) (s : State) (n mx c b len : Nat),
    n = s.ctx.arg1.toNat → mx = s.ctx.arg2.toNat → c = s.ctx.arg3.toNat → IsLeast { k : Nat | mx ≤ 2 ^ k } b →
    len = (if c = 0 then (n * b + 7) / 8 else c) →
    (n ≤ 1499 ∧ 2 ≤ mx ∧ mx ≤ 32768 ∧ c ≤ (n * b + 7) / 8 →
      exec (.bpack rs1 true) s = .next { s.finished with res0 := BitVec.ofNat 32 len } ∧
      (RangePre s.ctx.arg0.toNat len ∧ (∀ i, i < n → 0 ≤ s.pr[rs1].coeff i ∧ s.pr[rs1].coeff i < mx) →
        ∃ m : Memory,
          exec (.bpack rs1 false) s = .next { s.finished with dmem := m, res0 := BitVec.ofNat 32 len } ∧
          (∀ a, ¬ (s.ctx.arg0.toNat ≤ a ∧ a < s.ctx.arg0.toNat + len) → m.read a = s.dmem.read a) ∧
          ∀ g j, g < len → j < 8 →
            (m.read (s.ctx.arg0.toNat + g)).getLsbD (7 - j) =
              (decide (8 * g + j < n * b) &&
                (s.pr[rs1].coeff ((8 * g + j) / b)).toNat.testBit (b - 1 - (8 * g + j) % b))) ∧
      (¬ (RangePre s.ctx.arg0.toNat len ∧ ∀ i, i < n → 0 ≤ s.pr[rs1].coeff i ∧ s.pr[rs1].coeff i < mx) →
        exec (.bpack rs1 false) s = .next (s.failedWith .precondition))) ∧
    (¬ (n ≤ 1499 ∧ 2 ≤ mx ∧ mx ≤ 32768 ∧ c ≤ (n * b + 7) / 8) →
      ∀ dry, exec (.bpack rs1 dry) s = .next (s.failedWith .precondition))

/-- 43_bitpack R175: BUNPACK. Element i is the value of stream bits i·b to i·b+b-1, most significant first, stored as read;
RES0 ← L; RES1 ← the number of elements at or above the bound, with bit 16 for a nonzero pad bit; other operands are a
PRECONDITION with nothing written. The unpacking and the pad check the protocol commands call read the same bits. -/
def Obligations.UnpackedElementsAndReport : Prop :=
  (∀ (bytes : List Byte) (n mx b : Nat) (bit : Nat → Bool), IsLeast { k : Nat | mx ≤ 2 ^ k } b →
    (∀ k, bit k = (bytes.getD (k / 8) 0#8).getLsbD (7 - k % 8)) →
    (∀ i, unpackAt bytes mx i < 2 ^ b ∧ ∀ j, j < b → (unpackAt bytes mx i).testBit (b - 1 - j) = bit (i * b + j)) ∧
    (padnz bytes n mx = true ↔ ∃ k, n * b ≤ k ∧ k < 8 * ((n * b + 7) / 8) ∧ bit k = true)) ∧
  ∀ (rd : PReg) (s : State) (n mx b len : Nat) (bit : Nat → Bool),
    n = s.ctx.arg1.toNat → mx = s.ctx.arg2.toNat → IsLeast { k : Nat | mx ≤ 2 ^ k } b → len = (n * b + 7) / 8 →
    (∀ k, bit k = (s.dmem.read (s.ctx.arg0.toNat + k / 8)).getLsbD (7 - k % 8)) →
    (n ≤ 1499 ∧ 2 ≤ mx ∧ mx ≤ 32768 ∧ RangePre s.ctx.arg0.toNat len →
      ∃ (p : Poly) (y : Nat → Nat) (above : Nat) (pad : Bool),
        exec (.bunpack rd) s =
          .next { s.finished.setPr rd p with
            res0 := BitVec.ofNat 32 len
            res1 := BitVec.ofNat 32 above ||| (if pad then 0x00010000#32 else 0#32) } ∧
        p.Holds n (fun i => (y i : Int)) ∧
        (∀ i, i < n → y i < 2 ^ b ∧ ∀ j, j < b → (y i).testBit (b - 1 - j) = bit (i * b + j)) ∧
        above = ((Finset.range n).filter fun i => mx ≤ y i).card ∧
        (pad = true ↔ ∃ k, n * b ≤ k ∧ k < 8 * len ∧ bit k = true)) ∧
    (¬ (n ≤ 1499 ∧ 2 ≤ mx ∧ mx ≤ 32768 ∧ RangePre s.ctx.arg0.toNat len) →
      exec (.bunpack rd) s = .next (s.failedWith .precondition))

/-- 43_bitpack R176: BPACK without a cap, then BUNPACK with the same operands, gives every element back, the same RES0, and
RES1 = 0; and packing what was unpacked from L bytes gives the bytes back where no pad bit is set and every element is
in bound. -/
def Obligations.PackThenUnpackReturns : Prop :=
  (∀ (rs1 rd : PReg) (s t : State), exec (.bpack rs1 false) s = .next t → s.ctx.arg3 = 0#32 →
    s.ctx.arg1.toNat ≤ 1499 → 2 ≤ s.ctx.arg2.toNat → s.ctx.arg2.toNat ≤ 32768 →
    RangePre s.ctx.arg0.toNat (packedLen s.ctx.arg1.toNat s.ctx.arg2.toNat) →
    (∀ i, i < s.ctx.arg1.toNat → 0 ≤ s.pr[rs1].coeff i ∧ s.pr[rs1].coeff i < s.ctx.arg2.toNat) →
    ∃ u, exec (.bunpack rd) { t with ctx := s.ctx } = .next u ∧
      (∀ i, i < s.ctx.arg1.toNat → u.pr[rd].coeff i = s.pr[rs1].coeff i) ∧ u.res0 = t.res0 ∧ u.res1 = 0#32) ∧
  ∀ (bytes : List Byte) (n mx : Nat), n ≤ 1499 → 2 ≤ mx → mx ≤ 32768 → bytes.length = packedLen n mx →
    padnz bytes n mx = false → (∀ y ∈ unpack bytes n mx, y < mx) → pack (unpack bytes n mx) n mx 0 = bytes

/-! ### Byte sources -/

/-- 44_streams R194, R195, R196, R198: the source commands. Each closes the open source first: padding runs up to the
minimum and the final count kept for an MGF1 stream, the cursor and the IGF2 state cleared. SRCMGF and SRCMEM check
their range before closing anything. Nothing but the stream unit changes. -/
def Obligations.SourceCommands : Prop :=
  ∀ (s : State) (closed : StreamUnit),
    closed =
      { src := .none
        mgf := if s.su.src = .mgf then ⟨.sha1, [], 0#32, [], 0, 0⟩ else s.su.mgf
        lastRuns := if s.su.src = .mgf then max s.su.mgf.runs s.su.mgf.minRuns else s.su.lastRuns
        mcur := 0, mend := 0, igf := ⟨false, 0, 0, 0, 0, 0⟩ } →
    exec .srcclose s = .next { s.finished with su := closed } ∧
    exec .srcrng s = .next { s.finished with su := { closed with src := .rng } } ∧
    (RangePre s.ctx.arg0.toNat s.ctx.arg1.toNat →
      exec .srcmem s =
        .next { s.finished with
          su := { closed with src := .mem, mcur := s.ctx.arg0.toNat, mend := s.ctx.arg0.toNat + s.ctx.arg1.toNat } } ∧
      ∀ sha256 ph : Bool, ∃ (hash : HashAlg) (bytes : List Byte),
        hash = (if sha256 then .sha256 else .sha1) ∧ bytes.length = s.ctx.arg1.toNat ∧
        (∀ i, i < s.ctx.arg1.toNat → bytes.getD i 0 = s.dmem.read (s.ctx.arg0.toNat + i)) ∧
        exec (.srcmgf sha256 ph) s =
          .next { s.finished with
            su := { closed with
              src := .mgf, lastRuns := 0
              mgf := ⟨hash, if ph then digest s.params.digest hash bytes else bytes, 0#32, [], 0,
                s.ctx.arg2.toNat⟩ } }) ∧
    (¬ RangePre s.ctx.arg0.toNat s.ctx.arg1.toNat →
      exec .srcmem s = .next (s.failedWith .precondition) ∧
      ∀ sha256 ph : Bool, exec (.srcmgf sha256 ph) s = .next (s.failedWith .precondition))

/-- 44_streams R199 (and R193): an MGF1 stream of which k bytes were pulled gives at its next pull byte k mod d of the
digest of seed ‖ BE32(k div d), with d the digest length; closed then, it has run max(minRuns, ceil(k/d)) times. And the
sampling commands take these bytes (R192): IGFNEXT, TRISMP and TRIMGF with SRC = MGF do what they do from a memory source
that holds the next bytes of the stream and suffices, the stream having been pulled as often as that cursor moved, and
nothing else differing. -/
def Obligations.MgfStreamAndRunCount : Prop :=
  (∀ (impl : DigestImpl) (hash : HashAlg) (bytes : List Byte) (ph : Bool) (minRuns k : Nat),
      let m := (fun x => (mgfPull impl x).2)^[k] (mgfOpen impl hash bytes ph minRuns)
      let seed := if ph then digest impl hash bytes else bytes
      let d := hash.digestLen
      mgfCloseRuns m = max minRuns ((k + d - 1) / d) ∧
      (mgfPull impl m).1 = (digest impl hash (seed ++ be32 (BitVec.ofNat 32 (k / d)))).getD (k % d) 0#8) ∧
  ∀ (i : Instr) (s t : State) (m : Memory) (a n : Nat), (i = .igfnext ∨ ∃ rd, i = .trismp rd ∨ i = .trimgf rd) →
    s.phase = .busy → s.su.src = .mgf →
    let after := fun k : Nat => (fun x => (mgfPull s.params.digest x).2)^[k] s.su.mgf
    (∀ k, k < n → m.read (a + k) = (mgfPull s.params.digest (after k)).1) →
    exec i { s with dmem := m, su := { s.su with src := .mem, mcur := a, mend := a + n } } = .next t →
    t.phase = .idle → t.status.err = false →
    t.su.mcur ≤ a + n ∧
    exec i s =
      .next { t with
        dmem := s.dmem
        su := { t.su with src := .mgf, mcur := s.su.mcur, mend := s.su.mend, mgf := after (t.su.mcur - a) } }

/-! ### Index generation and sampling -/

/-- 44_streams R201: IGFINIT. 1 ≤ b ≤ 16, then 1 ≤ M ≤ 2^b; the cutoff is 2^b - (2^b mod M); SRC and every other state stay;
otherwise PRECONDITION. -/
def Obligations.IndexGeneratorInit : Prop :=
  ∀ (s : State) (m b : Nat), m = s.ctx.arg0.toNat → b = s.ctx.arg1.toNat →
    (1 ≤ b ∧ b ≤ 16 ∧ 1 ≤ m ∧ m ≤ 2 ^ b →
      exec .igfinit s =
        .next { s.finished with su := { s.su with igf := ⟨true, m, b, 2 ^ b - 2 ^ b % m, 0, 0⟩ } }) ∧
    (¬ (1 ≤ b ∧ b ≤ 16 ∧ 1 ≤ m ∧ m ≤ 2 ^ b) → exec .igfinit s = .next (s.failedWith .precondition))

/-- IGFNEXT, TRISMP and TRIMGF end as their draws end (44_streams R202, R203, R205): where the draw succeeds, the results
are written and the consumption committed; where a pull raises, that error with the consumption so far; where a check
fails, PRECONDITION with nothing consumed. The draws are of one step's grant (log 8); a count past 32 bits is a free
value (log 11), any other count is shown as it is. A pull (R192) with SRC = NONE raises NO_SOURCE, a memory pull with
MCUR = MEND raises SRC_EXHAUSTED, each changing nothing; a memory pull takes the byte at the cursor, an MGF1 pull that of
`mgfPull`, an RNG pull the first offered byte, or it waits. So where the n bytes left (none for SRC = NONE) do not
complete the draw, the command ends with that error: they stay consumed, and for IGFNEXT and TRISMP the bits after the
last whole group stay buffered (40_command R115), up to 15 of them (log 12). -/
def Obligations.SamplingCommandsEndAsTheirDraws : Prop :=
  (∀ n : Nat, n < 2 ^ 32 → countWord n = BitVec.ofNat 32 n) ∧
  (∀ s : State, s.su.igf.act = true →
    (∀ d f, drawIndex s = .ok d f → (1 ≤ s.su.igf.m → d.1 < s.su.igf.m) ∧
      exec .igfnext s =
        .next { (s.consume f).finished with res0 := BitVec.ofNat 32 d.1, res1 := countWord d.2 }) ∧
    (∀ e f, drawIndex s = .err e f → exec .igfnext s = .next ((s.consume f).failedWith e))) ∧
  (∀ s : State, s.su.igf.act = false → exec .igfnext s = .next (s.failedWith .precondition)) ∧
  (∀ (s : State) (rd : PReg), s.DimPre → s.su.igf.act = true → s.su.igf.m = s.ctx.cfgN.toNat →
      s.ctx.arg0.toNat + s.ctx.arg1.toNat ≤ s.ctx.cfgN.toNat →
    (∀ r f, drawTrinomial s = .ok r f → ∃ p : Poly, p.Holds s.ctx.cfgN.toNat (fun i => at' r.t i) ∧
      exec (.trismp rd) s =
        .next { (s.consume f).finished.setPr rd p with res0 := countWord r.draws, res1 := countWord r.rej }) ∧
    (∀ e f, drawTrinomial s = .err e f → exec (.trismp rd) s = .next ((s.consume f).failedWith e))) ∧
  (∀ (s : State) (rd : PReg),
    ¬ (s.DimPre ∧ s.su.igf.act = true ∧ s.su.igf.m = s.ctx.cfgN.toNat ∧
      s.ctx.arg0.toNat + s.ctx.arg1.toNat ≤ s.ctx.cfgN.toNat) →
    exec (.trismp rd) s = .next (s.failedWith .precondition)) ∧
  (∀ (s : State) (rd : PReg), s.DimPre →
    (∀ r f, decodeTrits s = .ok r f → ∃ p : Poly, p.Holds s.ctx.cfgN.toNat (fun i => at' r.t i) ∧
      exec (.trimgf rd) s =
        .next { (s.consume f).finished.setPr rd p with res0 := countWord r.used, res1 := countWord r.rej }) ∧
    (∀ e f, decodeTrits s = .err e f → exec (.trimgf rd) s = .next ((s.consume f).failedWith e))) ∧
  (∀ (s : State) (rd : PReg), ¬ s.DimPre → exec (.trimgf rd) s = .next (s.failedWith .precondition)) ∧
  (∀ (s : State) (f : Feed),
    (f.su.src = .none → s.pull f = .err .noSource f) ∧
    (f.su.src = .mem → f.su.mcur = f.su.mend → s.pull f = .err .srcExhausted f) ∧
    (f.su.src = .mem → f.su.mcur ≠ f.su.mend →
      s.pull f = .ok (s.dmem.read f.su.mcur) { f with su := { f.su with mcur := f.su.mcur + 1 } }) ∧
    (f.su.src = .mgf →
      s.pull f =
        .ok (mgfPull s.params.digest f.su.mgf).1
          { f with su := { f.su with mgf := (mgfPull s.params.digest f.su.mgf).2 } }) ∧
    (f.su.src = .rng → f.rng = [] → s.pull f = .starved f) ∧
    ∀ v rest, f.su.src = .rng → f.rng = v :: rest →
      s.pull f = .ok v { f with rng := rest, pulled := f.pulled + 1 }) ∧
  ∀ (s : State) (rd : PReg) (e : Err) (n : Nat),
    (s.su.src = .none ∧ e = .noSource ∧ n = 0 ∨
      s.su.src = .mem ∧ e = .srcExhausted ∧ s.su.mcur + n = s.su.mend) →
    (s.DimPre → n < s.turns →
      ((s.dmem.readBytes s.su.mcur n).filter fun v => v.toNat < 243).length < (s.ctx.cfgN.toNat + 4) / 5 →
      exec (.trimgf rd) s = .next (State.failedWith { s with su := { s.su with mcur := s.su.mcur + n } } e)) ∧
    ∀ (g : Igf) (total bits G : Nat) (v : Nat → Nat) (fresh : Nat → Bool) (u : State),
      g = s.su.igf → g.act = true → g.Ok → bits = g.nbits + 8 * n → G = bits / g.b → G < s.turns →
      total = (List.range n).foldl (fun acc i => acc * 256 + (s.dmem.read (s.su.mcur + i)).toNat) g.buf →
      (∀ j, j < G → v j = total / 2 ^ (bits - (j + 1) * g.b) % 2 ^ g.b) →
      u =
        { s with
          su :=
            { s.su with
              mcur := s.su.mcur + n
              igf := { g with buf := total % 2 ^ (bits % g.b), nbits := bits % g.b } } } →
      ((∀ j, j < G → g.cut ≤ v j) → exec .igfnext s = .next (u.failedWith e)) ∧
      (s.DimPre → g.m = s.ctx.cfgN.toNat → s.ctx.arg0.toNat + s.ctx.arg1.toNat ≤ s.ctx.cfgN.toNat →
        (∀ j, j < G → (fresh j = true ↔ v j < g.cut ∧ ∀ i, i < j → v i < g.cut → v i % g.m ≠ v j % g.m)) →
        ((Finset.range G).filter fun j => fresh j = true).card < s.ctx.arg0.toNat + s.ctx.arg1.toNat →
        exec (.trismp rd) s = .next (u.failedWith e))

/-- IGFNEXT from a memory source (44_streams R192, R200, R202). The groups are the buffered bits, the oldest first,
followed by the bytes at the cursor, cut into b bits each. Where R groups at or above the cutoff come first and a group
below it follows, those R are discarded and counted in RES1; RES0 is the residue mod M of the accepted one; the bytes
the R + 1 groups need are pulled, no more, and the rest of the bits stays buffered. -/
def Obligations.IndexFromMemorySource : Prop :=
  ∀ (s : State) (g : Igf) (R n bits left total : Nat) (v : Nat → Nat),
    g = s.su.igf → g.act = true → g.Ok → s.su.src = .mem → R < s.turns →
    n = ((R + 1) * g.b - g.nbits + 7) / 8 → s.su.mcur + n ≤ s.su.mend →
    total = (List.range n).foldl (fun acc i => acc * 256 + (s.dmem.read (s.su.mcur + i)).toNat) g.buf →
    bits = g.nbits + 8 * n → left = bits - (R + 1) * g.b →
    (∀ j, j ≤ R → v j = total / 2 ^ (bits - (j + 1) * g.b) % 2 ^ g.b) →
    (∀ j, j < R → g.cut ≤ v j) → v R < g.cut →
    exec .igfnext s =
      .next { s.finished with
        su := { s.su with mcur := s.su.mcur + n, igf := { g with buf := total % 2 ^ left, nbits := left } }
        res0 := BitVec.ofNat 32 (v R % g.m)
        res1 := countWord R }

/-- TRISMP places exactly ARG0 coefficients +1 and ARG1 coefficients -1, all others 0, in at least ARG0 + ARG1 draws
(44_streams R203 "Must loop until exactly the requested counts are placed"). -/
def Obligations.SampledWeights : Prop :=
  ∀ (s : State) (r : Bpgm) (f : Feed), s.DimPre → s.su.igf.m = s.ctx.cfgN.toNat →
    drawTrinomial s = .ok r f →
    r.t.length = s.ctx.cfgN.toNat ∧
    countSym s.ctx.cfgN.toNat r.t 1 = s.ctx.arg0.toNat ∧ countSym s.ctx.cfgN.toNat r.t (-1) = s.ctx.arg1.toNat ∧
    countSym s.ctx.cfgN.toNat r.t 0 + s.ctx.arg0.toNat + s.ctx.arg1.toNat = s.ctx.cfgN.toNat ∧
    s.ctx.arg0.toNat + s.ctx.arg1.toNat ≤ r.draws

/-- TRISMP from a memory source, with no bit buffered (44_streams R192, R200, R203). Group j is stream bits j·b to
j·b+b-1, the first the most significant. A group at or above the cutoff is rejected; an accepted one whose index, its
residue mod N, an earlier accepted one gave is a collision; every other one is new. Where the last of G groups is the
(ARG0 + ARG1)-th new one, the indices of the first ARG0 new groups hold +1, those of the others -1 and every other
coefficient 0; RES0 is the number of accepted groups, RES1 of the rejected ones; ceil(G·b/8) bytes are pulled and the
rest of the last one stays buffered. -/
def Obligations.TrinomialFromMemorySource : Prop :=
  ∀ (s : State) (rd : PReg) (g : Igf) (K G len left : Nat) (bit : Nat → Bool) (v : Nat → Nat) (fresh : Nat → Bool)
    (rank : Nat → Nat),
    s.DimPre → g = s.su.igf → g.act = true → g.Ok → g.m = s.ctx.cfgN.toNat → g.nbits = 0 → s.su.src = .mem →
    K = s.ctx.arg0.toNat + s.ctx.arg1.toNat → K ≤ s.ctx.cfgN.toNat → G ≤ s.turns →
    len = (G * g.b + 7) / 8 → left = 8 * len - G * g.b → s.su.mcur + len ≤ s.su.mend →
    (∀ k, bit k = (s.dmem.read (s.su.mcur + k / 8)).getLsbD (7 - k % 8)) →
    (∀ j, j < G → v j < 2 ^ g.b ∧ ∀ i, i < g.b → (v j).testBit (g.b - 1 - i) = bit (j * g.b + i)) →
    (∀ j, j < G → (fresh j = true ↔ v j < g.cut ∧ ∀ i, i < j → v i < g.cut → v i % g.m ≠ v j % g.m)) →
    (∀ j, j ≤ G → rank j = ((Finset.range j).filter fun i => fresh i = true).card) →
    rank G = K → (G = 0 ∨ fresh (G - 1) = true) →
    ∃ p : Poly,
      exec (.trismp rd) s =
        .next { s.finished.setPr rd p with
          su :=
            { s.su with
              mcur := s.su.mcur + len
              igf := { g with buf := (s.dmem.read (s.su.mcur + len - 1)).toNat % 2 ^ left, nbits := left } }
          res0 := countWord ((Finset.range G).filter fun j => v j < g.cut).card
          res1 := countWord ((Finset.range G).filter fun j => g.cut ≤ v j).card } ∧
      p.Holds s.ctx.cfgN.toNat fun i =>
        if ∃ j, j < G ∧ fresh j = true ∧ v j % g.m = i ∧ rank j < s.ctx.arg0.toNat then 1
        else if ∃ j, j < G ∧ fresh j = true ∧ v j % g.m = i then -1
        else 0

/-- TRIMGF from a memory source (44_streams R192, R204, R205). Of the `used` bytes at the cursor those from 243 up are
rejected; where the others are ceil(N/5) and the last byte is one of them, coefficient i is the trit of base-3 digit
i mod 5 of accepted byte i div 5, RES0 is `used`, RES1 the number of rejected bytes, the cursor passes the bytes, and
the IGF2 state stays. -/
def Obligations.TritsFromMemorySource : Prop :=
  ∀ (s : State) (rd : PReg) (used : Nat) (bytes accepted : List Byte), s.DimPre → s.su.src = .mem → 1 ≤ used →
    s.su.mcur + used ≤ s.su.mend → used ≤ s.turns → bytes.length = used →
    (∀ i, i < used → bytes.getD i 0#8 = s.dmem.read (s.su.mcur + i)) →
    accepted = bytes.filter (fun v => v.toNat < 243) →
    accepted.length = (s.ctx.cfgN.toNat + 4) / 5 → (bytes.getD (used - 1) 0#8).toNat < 243 →
    ∃ p : Poly,
      exec (.trimgf rd) s =
        .next { s.finished.setPr rd p with
          su := { s.su with mcur := s.su.mcur + used }
          res0 := countWord used
          res1 := countWord (used - accepted.length) } ∧
      p.Holds s.ctx.cfgN.toNat fun i =>
        match (accepted.getD (i / 5) 0#8).toNat / 3 ^ (i % 5) % 3 with
        | 0 => 0
        | 1 => 1
        | _ => -1

/-- 44_streams R207, R206: TRIENC. Byte g is the sum over j of dig(A[5g+j])·3^j, digits beyond N missing; RES0 ← ceil(N/5);
nothing but those bytes, RES0 and the completion changes; N, range or a coefficient that is no trit is a PRECONDITION.
Decoding the bytes gives the trinomial back, every byte being at most 242. -/
def Obligations.TritsEncoded : Prop :=
  (∀ (rs1 : PReg) (s : State) (N len : Nat), N = s.ctx.cfgN.toNat → len = (N + 4) / 5 →
    (s.DimPre ∧ RangePre s.ctx.arg0.toNat len ∧
        (∀ i, i < N → s.pr[rs1].coeff i = 0 ∨ s.pr[rs1].coeff i = 1 ∨ s.pr[rs1].coeff i = -1) →
      ∃ m : Memory,
        exec (.trienc rs1) s = .next { s.finished with dmem := m, res0 := BitVec.ofNat 32 len } ∧
        (∀ a, ¬ (s.ctx.arg0.toNat ≤ a ∧ a < s.ctx.arg0.toNat + len) → m.read a = s.dmem.read a) ∧
        ∀ g, g < len →
          (m.read (s.ctx.arg0.toNat + g)).toNat =
            ∑ j ∈ Finset.range 5,
              if 5 * g + j < N then (s.pr[rs1].coeff (5 * g + j) % 3).toNat * 3 ^ j else 0) ∧
    (¬ (s.DimPre ∧ RangePre s.ctx.arg0.toNat len ∧
        ∀ i, i < N → s.pr[rs1].coeff i = 0 ∨ s.pr[rs1].coeff i = 1 ∨ s.pr[rs1].coeff i = -1) →
      exec (.trienc rs1) s = .next (s.failedWith .precondition))) ∧
  ∀ (N : Nat) (t : Vec), isTrinomial N t = true →
    (∀ v ∈ tpEncode t N, v.toNat ≤ 242) ∧ ((tpEncode t N).flatMap tritsOfByte).take N = t

/-! ### The protocol -/

/-- 45_ntru R251, R255: KEYGEN. An index from 12 up, or a table entry that breaks a constraint (R244; those of 00_scope R7 and
45_ntru R281 too, log 15), is a PRECONDITION with nothing touched. Where the two loops find g and F, the key object holds
h, F, the index and PRIVATE, RES0 and RES1 the attempts, the stream unit is closed; where a loop reaches the ceiling,
ITER_LIMIT with the key object and the results unchanged. ITER_CNT is the sum of the attempts of both loops, ITER_CAP
where the g loop reached the ceiling, the g loop's attempts and ITER_CAP where the F loop did (R243; a sum past 32 bits
is a free value, log 11). The loops are of one step's grant (log 8). -/
def Obligations.KeyGeneration : Prop :=
  ∀ (s : State),
    ((¬ ∃ ps : Fin 12, s.ctx.arg0.toNat = ps.val ∧ s.params.setOk ps = true) →
      exec .keygen s = .next (s.failedWith .precondition)) ∧
    ∀ (ps : Fin 12) (P : ParamSet), s.ctx.arg0.toNat = ps.val → s.params.setOk ps = true → P = s.params.table[ps] →
      (∀ k f, generateKey s.turns s.ctx.iterCap.toNat P s.closedFeed = .ok k f → ∃ h F : Poly,
        h.Holds P.N (fun i => at' k.h i) ∧ F.Holds P.N (fun i => at' k.F i) ∧
        1 ≤ k.ga ∧ 1 ≤ k.fa ∧ (s.ctx.iterCap ≠ 0#32 → k.ga ≤ s.ctx.iterCap.toNat ∧ k.fa ≤ s.ctx.iterCap.toNat) ∧
        f.iterCnt = countWord (k.ga + k.fa) ∧ f.su = closeSource s.su ∧
        exec .keygen s =
          .next { (s.consume f).finished with
            key := ⟨ps, h, F, .priv⟩, res0 := countWord k.ga, res1 := countWord k.fa }) ∧
      ∀ e f, generateKey s.turns s.ctx.iterCap.toNat P s.closedFeed = .err e f →
        e = .iterLimit ∧ f.su = closeSource s.su ∧ s.ctx.iterCap ≠ 0#32 ∧
        ((gLoop s.turns s.ctx.iterCap.toNat P s.turns 0 s.closedFeed = .err .iterLimit f ∧
            f.iterCnt = s.ctx.iterCap) ∨
          ∃ g f1, gLoop s.turns s.ctx.iterCap.toNat P s.turns 0 s.closedFeed = .ok g f1 ∧
            1 ≤ g.2 ∧ g.2 ≤ s.ctx.iterCap.toNat ∧ f.iterCnt = countWord (g.2 + s.ctx.iterCap.toNat)) ∧
        exec .keygen s = .next ((s.consume f).failedWith .iterLimit)

/-- What KEYGEN generates (45_ntru R252, R253, R254): F has df coefficients +1 and df coefficients -1; h is in [0, 2048) and
f·h = 3·g mod 2048 for f = 1 + 3F and a trinomial g with dg+1 coefficients +1 and dg coefficients -1; f and g are
invertible in R_2048. Its private blob is LenPriv bytes long (R279). -/
def Obligations.GeneratedKeyIsAKeyPair : Prop :=
  ∀ (turns cap : Nat) (P : ParamSet) (f0 f : Feed) (k : KeyPair), P.wf = true →
    generateKey turns cap P f0 = .ok k f →
    k.F.length = P.N ∧ k.h.length = P.N ∧
    (privBlob P k.h k.F).length = 4 + P.lenH + min P.lenTrit P.lenIndex ∧
    countSym P.N k.F 1 = P.df ∧ countSym P.N k.F (-1) = P.df ∧
    (∀ i, i < P.N → 0 ≤ at' k.h i ∧ at' k.h i < 2048) ∧
    (∃ b, InverseIn P.N 2048 (at' (privPoly P.N k.F)) b) ∧
    ∃ g : Vec, g.length = P.N ∧ countSym P.N g 1 = P.dg + 1 ∧ countSym P.N g (-1) = P.dg ∧
      (∃ b, InverseIn P.N 2048 (at' g) b) ∧ KeyRelation P.N k.F g k.h

/-- 45_ntru R257: ENCRYPT. The checks in order: key state, message length, ranges (then the table constraints of R244,
log 14), each failing with its code and nothing touched. Where the loop finds a passing attempt, the packed ciphertext
is written at ARG2, RES0 ← Lh, and nothing else changes but the consumption and the completion; at the ceiling,
ITER_LIMIT with no byte written. Each attempt pulls db RNG bytes, its b; ITER_CNT is the number of attempts, ITER_CAP at
the ceiling (R243, R262). The attempts before the passing one fail the dm0 check; the passing one gives
e = R + mp mod 2048 for the R and mp of `AttemptOf` (R245, R246, R248 to R250, R258). The loop is of one step's grant
(log 8). -/
def Obligations.Encryption : Prop :=
  ∀ (s : State) (P : ParamSet), P = s.params.table[s.key.kps] →
    ((s.key.kstate = .empty ∨ s.key.kstate = .closed) → exec .encrypt s = .next (s.failedWith .keyClosed)) ∧
    ((s.key.kstate = .pub ∨ s.key.kstate = .priv) →
      (P.maxMsgLenBytes < s.ctx.arg1.toNat → exec .encrypt s = .next (s.failedWith .msgTooLong)) ∧
      (s.ctx.arg1.toNat ≤ P.maxMsgLenBytes →
        ¬ (RangePre s.ctx.arg0.toNat s.ctx.arg1.toNat ∧ RangePre s.ctx.arg2.toNat P.lenH ∧ P.samplingOk = true) →
        exec .encrypt s = .next (s.failedWith .precondition)) ∧
      (s.ctx.arg1.toNat ≤ P.maxMsgLenBytes → RangePre s.ctx.arg0.toNat s.ctx.arg1.toNat →
        RangePre s.ctx.arg2.toNat P.lenH → P.samplingOk = true →
        let run := encLoop s.params.digest s.turns s.ctx.iterCap.toNat P
          (s.dmem.readBytes s.ctx.arg0.toNat s.ctx.arg1.toNat) s.keyH s.turns 0 s.closedFeed
        let msg := s.dmem.readBytes s.ctx.arg0.toNat s.ctx.arg1.toNat
        let attempt := fun (k : Nat) (R mp : Vec) =>
          AttemptOf s.params.digest s.turns P msg ((s.rng.drop (P.db * k)).take P.db) s.keyH R mp
        let passes := fun mp : Vec => ∀ v ∈ [(1 : Int), 0, -1], P.dm0 ≤ countSym P.N mp v
        (∀ e f, run = .ok e f → ∃ (att : Nat) (R mp : Vec) (m : Memory),
          1 ≤ att ∧ (s.ctx.iterCap ≠ 0#32 → att ≤ s.ctx.iterCap.toNat) ∧ P.db * att ≤ s.rng.length ∧
          f = ⟨closeSource s.su, s.rng.drop (P.db * att), P.db * att, countWord att⟩ ∧
          (∀ k, k + 1 < att → ∃ R' mp', attempt k R' mp' ∧ ¬ passes mp') ∧
          attempt (att - 1) R mp ∧ passes mp ∧
          e.length = P.N ∧ (∀ i, i < P.N → at' e i = (at' R i + at' mp i) % 2048) ∧
          (∀ a, m.read a =
            if s.ctx.arg2.toNat ≤ a ∧ a < s.ctx.arg2.toNat + P.lenH then
              (pack (natVec e) P.N 2048 0).getD (a - s.ctx.arg2.toNat) 0#8
            else s.dmem.read a) ∧
          exec .encrypt s =
            .next { (s.consume f).finished with dmem := m, res0 := BitVec.ofNat 32 P.lenH }) ∧
        ∀ c f, run = .err c f →
          c = .iterLimit ∧ s.ctx.iterCap ≠ 0#32 ∧ P.db * s.ctx.iterCap.toNat ≤ s.rng.length ∧
          f = ⟨closeSource s.su, s.rng.drop (P.db * s.ctx.iterCap.toNat), P.db * s.ctx.iterCap.toNat, s.ctx.iterCap⟩ ∧
          (∀ k, k < s.ctx.iterCap.toNat → ∃ R mp, attempt k R mp ∧ ¬ passes mp) ∧
          exec .encrypt s = .next ((s.consume f).failedWith .iterLimit)))

/-- 45_ntru R264 to R271, R273: DECRYPT. The checks in order, each failing with its code and nothing touched (the table
constraints of R244 last, log 14). Then the values of `RecoveryOf` are computed, and where every check of
`Recovery.Passes` passes (pad bits R267, dm0 of ci R249, TriToBin R247, length byte and zero-pad R270, R2 = cR R271) the
message is written at ARG2 in exactly its length, RES0 ← the length, which is the length byte where the buffer holds
a whole message (00_scope R7; else log 25); where one fails, the one error DECRYPT_FAIL with only the stream unit closed,
no byte written. No RNG byte is pulled. Where a draw uses up one step's grant the command goes on (log 8; which bytes the
draw of r runs on after a refused trinomial is the model's choice, log 27). -/
def Obligations.Decryption : Prop :=
  ∀ (s : State) (P : ParamSet), P = s.params.table[s.key.kps] →
    ((s.key.kstate = .empty ∨ s.key.kstate = .closed) → exec .decrypt s = .next (s.failedWith .keyClosed)) ∧
    (s.key.kstate = .pub → exec .decrypt s = .next (s.failedWith .noPrivkey)) ∧
    (s.key.kstate = .priv →
      (s.ctx.arg1.toNat ≠ P.lenH → exec .decrypt s = .next (s.failedWith .fmtLen)) ∧
      (s.ctx.arg1.toNat = P.lenH →
        ¬ (RangePre s.ctx.arg0.toNat P.lenH ∧ RangePre s.ctx.arg2.toNat P.maxMsgLenBytes ∧ P.samplingOk = true) →
        exec .decrypt s = .next (s.failedWith .precondition)) ∧
      (s.ctx.arg1.toNat = P.lenH → RangePre s.ctx.arg0.toNat P.lenH →
        RangePre s.ctx.arg2.toNat P.maxMsgLenBytes → P.samplingOk = true →
        let ct := s.dmem.readBytes s.ctx.arg0.toNat P.lenH
        let recovers := RecoveryOf s.params.digest s.turns P s.keyF s.keyH ct
        (∀ v, recovers v → v.Passes P ct → ∃ m : Memory,
          v.cm.length ≤ P.maxMsgLenBytes ∧
          (P.db + 1 + P.maxMsgLenBytes ≤ P.mBufLen → v.cm.length = v.lengthByte P) ∧
          (∀ a, m.read a =
            if s.ctx.arg2.toNat ≤ a ∧ a < s.ctx.arg2.toNat + v.cm.length then
              v.cm.getD (a - s.ctx.arg2.toNat) 0#8
            else s.dmem.read a) ∧
          exec .decrypt s =
            .next { s.finished with
              su := closeSource s.su, dmem := m, res0 := BitVec.ofNat 32 v.cm.length }) ∧
        (∀ v, recovers v → ¬ v.Passes P ct →
          exec .decrypt s = .next (State.failedWith { s with su := closeSource s.su } .decryptFail)) ∧
        ((¬ ∃ v, recovers v) → exec .decrypt s = .next (s.goesOn 0 (2 * s.turns + 1)))))

/-- 45_ntru R274: DECRYPT of a ciphertext ENCRYPT produced under the same key, where decryption does not wrap (R268),
returns the message. The second state has the same key, configuration and grant, holds the ciphertext at its ARG0, and
has room at its ARG2; the key satisfies f·h = 3·g, the set its constraints, and the map its laws (R247). -/
def Obligations.DecryptionReturnsEncrypted : Prop :=
  ∀ (s t s' : State) (P : ParamSet) (g : Vec),
    P = s.params.table[s.key.kps] → P.wf = true → binTriLawful P →
    s.key.kstate = .priv → s.key.Ok s.params → g.length = P.N → KeyRelation P.N s.keyF g s.keyH →
    s.ctx.arg1.toNat ≤ P.maxMsgLenBytes →
    NeverWraps s.params.digest s.turns P s.keyF g s.keyH (s.dmem.readBytes s.ctx.arg0.toNat s.ctx.arg1.toNat) →
    s.status.err = false → exec .encrypt s = .next t → t.phase = .idle → s.phase = .busy → t.status.err = false →
    s'.key = s.key → s'.params = s.params → s'.turns = s.turns →
    s'.ctx.arg1.toNat = P.lenH → RangePre s'.ctx.arg0.toNat P.lenH → RangePre s'.ctx.arg2.toNat P.maxMsgLenBytes →
    (∀ i, i < P.lenH → s'.dmem.read (s'.ctx.arg0.toNat + i) = t.dmem.read (s.ctx.arg2.toNat + i)) →
    ∃ m : Memory,
      exec .decrypt s' =
        .next { s'.finished with su := closeSource s'.su, dmem := m, res0 := s.ctx.arg1 } ∧
      ∀ a, m.read a =
        if s'.ctx.arg2.toNat ≤ a ∧ a < s'.ctx.arg2.toNat + s.ctx.arg1.toNat then
          s.dmem.read (s.ctx.arg0.toNat + (a - s'.ctx.arg2.toNat))
        else s'.dmem.read a

/-- 45_ntru R276: KEYCLOSE zeroes the key and marks it CLOSED, from any state; nothing else changes but the completion. -/
def Obligations.KeyClosing : Prop :=
  ∀ s : State, exec .keyclose s = .next { s.finished with key := ⟨0, [], [], .closed⟩ }

/-- 45_ntru R280: KEYLOAD. The range, then the blob's decoding; an error leaves everything but the completion; a decoded
blob becomes the key object, with RES0 ← n and RES1 ← the index. The decoding's checks are in R280's order: empty,
tag, header, OID, and for the public form the exact length and the pad bits of h; the private form's length is that
of the trit form, looked at first, or of the index form. The trit form is refused for a byte from 243 up or, with
r = N mod 5 not 0, a last byte from 3^r up (R282); the index form for an index from N up, two equal indices or a pad bit
(R283); the F of each is given coefficient by coefficient. The set is the first whose OID is the blob's: for the
distinct OIDs R281 demands it is the only one, and for others the lowest index is the model's choice (log 28). -/
def Obligations.KeyLoading : Prop :=
  ∀ (s : State) (n : Nat) (blob : List Byte), n = s.ctx.arg1.toNat →
    blob = s.dmem.readBytes s.ctx.arg0.toNat n →
    (¬ RangePre s.ctx.arg0.toNat n → exec .keyload s = .next (s.failedWith .precondition)) ∧
    (RangePre s.ctx.arg0.toNat n →
      (n < 1 → exec .keyload s = .next (s.failedWith .fmtLen)) ∧
      (1 ≤ n → blob.getD 0 0 ≠ 0x01#8 → blob.getD 0 0 ≠ 0x02#8 →
        exec .keyload s = .next (s.failedWith .fmtTag)) ∧
      (1 ≤ n → (blob.getD 0 0 = 0x01#8 ∨ blob.getD 0 0 = 0x02#8) → n < 4 →
        exec .keyload s = .next (s.failedWith .fmtLen)) ∧
      (4 ≤ n → (blob.getD 0 0 = 0x01#8 ∨ blob.getD 0 0 = 0x02#8) →
        (∀ ps : Fin 12, s.params.table[ps].oidBytes ≠ (blob.drop 1).take 3) →
        exec .keyload s = .next (s.failedWith .fmtOid)) ∧
      (4 ≤ n → ∀ ps : Fin 12, s.params.table[ps].oidBytes = (blob.drop 1).take 3 →
        (∀ j : Fin 12, j < ps → s.params.table[j].oidBytes ≠ (blob.drop 1).take 3) →
        let P := s.params.table[ps]
        let packed := (blob.drop 4).take P.lenH
        (blob.getD 0 0 = 0x01#8 →
          (n ≠ 4 + P.lenH → exec .keyload s = .next (s.failedWith .fmtLen)) ∧
          (n = 4 + P.lenH → padnz packed P.N 2048 = true → exec .keyload s = .next (s.failedWith .fmtData)) ∧
          (n = 4 + P.lenH → P.N ≤ 1499 → padnz packed P.N 2048 = false → ∃ h : Poly,
            h.Holds P.N (fun i => (unpackAt packed 2048 i : Int)) ∧
            exec .keyload s =
              .next { s.finished with
                key := ⟨ps, h, [], .pub⟩, res0 := s.ctx.arg1, res1 := BitVec.ofNat 32 ps.val })) ∧
        (blob.getD 0 0 = 0x02#8 →
          (n ≠ 4 + P.lenH + P.lenTrit → n ≠ 4 + P.lenH + P.lenIndex →
            exec .keyload s = .next (s.failedWith .fmtLen)) ∧
          ((n = 4 + P.lenH + P.lenTrit ∨ n = 4 + P.lenH + P.lenIndex) → padnz packed P.N 2048 = true →
            exec .keyload s = .next (s.failedWith .fmtData)) ∧
          (padnz packed P.N 2048 = false →
            let u := blob.drop (4 + P.lenH)
            let byte := fun g : Nat => (u.getD g 0#8).toNat
            let idx := unpackAt u P.N
            let badTrits := (∃ g, g < P.lenTrit ∧ 243 ≤ byte g) ∨
              P.N % 5 ≠ 0 ∧ 3 ^ (P.N % 5) ≤ byte (P.lenTrit - 1)
            let badIndices := (∃ j, j < 2 * P.df ∧ P.N ≤ idx j) ∨
              (∃ i j, i < j ∧ j < 2 * P.df ∧ idx i = idx j) ∨ padnz u (2 * P.df) P.N = true
            let loads := fun F : Nat → Int => ∃ h p : Poly,
              h.Holds P.N (fun i => (unpackAt packed 2048 i : Int)) ∧ p.Holds P.N F ∧
              exec .keyload s =
                .next { s.finished with
                  key := ⟨ps, h, p, .priv⟩, res0 := s.ctx.arg1, res1 := BitVec.ofNat 32 ps.val }
            (n = 4 + P.lenH + P.lenTrit →
              (badTrits → exec .keyload s = .next (s.failedWith .fmtData)) ∧
              (¬ badTrits → P.N ≤ 1499 → loads fun i =>
                match byte (i / 5) / 3 ^ (i % 5) % 3 with
                | 0 => 0
                | 1 => 1
                | _ => -1)) ∧
            (n ≠ 4 + P.lenH + P.lenTrit → n = 4 + P.lenH + P.lenIndex →
              (badIndices → exec .keyload s = .next (s.failedWith .fmtData)) ∧
              (¬ badIndices → P.N ≤ 1499 → loads fun i =>
                if ∃ j, j < P.df ∧ idx j = i then 1
                else if ∃ j, j < 2 * P.df ∧ idx j = i then -1
                else 0))))))

/-- 45_ntru R290 (with R277, R278): KEYEXPORT. The key-state errors, then the range; the blob is tag ‖ OID ‖ pack(h, N, 2048),
for the private form followed by F as two index lists where that is shorter and F has the weights, else as trits; RES0 ←
its length; nothing else changes but the completion. -/
def Obligations.KeyExporting : Prop :=
  ∀ (s : State) (priv : Bool) (P : ParamSet) (F h blob : List Byte),
    P = s.params.table[s.key.kps] →
    F = (if P.lenIndex < P.lenTrit ∧ countSym P.N s.keyF 1 = P.df ∧ countSym P.N s.keyF (-1) = P.df then
        pack (((List.range P.N).filter fun i => at' s.keyF i = 1) ++
          (List.range P.N).filter fun i => at' s.keyF i = -1) (2 * P.df) P.N 0
      else tpEncode s.keyF P.N) →
    h = pack (s.keyH.map Int.toNat) P.N 2048 0 →
    blob = [if priv then 0x02#8 else 0x01#8, P.oid.1, P.oid.2.1, P.oid.2.2] ++ h ++ (if priv then F else []) →
    ((s.key.kstate = .empty ∨ s.key.kstate = .closed) → exec (.keyexport priv) s = .next (s.failedWith .keyClosed)) ∧
    (s.key.kstate = .pub → priv = true → exec (.keyexport priv) s = .next (s.failedWith .noPrivkey)) ∧
    (s.key.kstate = .priv ∨ s.key.kstate = .pub ∧ priv = false →
      (¬ RangePre s.ctx.arg0.toNat blob.length → exec (.keyexport priv) s = .next (s.failedWith .precondition)) ∧
      (RangePre s.ctx.arg0.toNat blob.length → ∃ m : Memory,
        exec (.keyexport priv) s =
          .next { s.finished with dmem := m, res0 := BitVec.ofNat 32 blob.length } ∧
        ∀ a, m.read a =
          if s.ctx.arg0.toNat ≤ a ∧ a < s.ctx.arg0.toNat + blob.length then blob.getD (a - s.ctx.arg0.toNat) 0#8
          else s.dmem.read a))

/-- 45_ntru R296 (a): KEYEXPORT to an address, then KEYLOAD from it with the RES0 length, restores the key: all of it with
PRIVATE for the private blob, h and the set with PUBLIC for the public blob, for a key that meets the key object's
invariant and a set that meets its constraints. -/
def Obligations.KeyBlobRoundTrip : Prop :=
  ∀ (s t u : State) (priv : Bool) (P : ParamSet), P = s.params.table[s.key.kps] →
    s.params.setOk s.key.kps = true → s.key.Ok s.params →
    (s.key.kstate = .priv ∨ s.key.kstate = .pub ∧ priv = false) →
    RangePre s.ctx.arg0.toNat (exportBlob s priv).length →
    exec (.keyexport priv) s = .next t →
    u.dmem = t.dmem → u.params = s.params → u.ctx.arg0 = s.ctx.arg0 → u.ctx.arg1 = t.res0 →
    ∃ v, exec .keyload u = .next v ∧ v.status.errCode = u.status.errCode ∧ v.status.err = u.status.err ∧
      v.key = (if priv then s.key else { s.key with f := [], kstate := .pub }) ∧
      v.res0 = t.res0 ∧ v.res1 = BitVec.ofNat 32 s.key.kps.val

/-- 10_state R42: the key object changes only by KEYGEN, KEYLOAD (each without error) and KEYCLOSE, each setting its
states, and by a reset; no other command, no error and no other event changes it. -/
def Obligations.KeyObjectChanges : Prop :=
  (∀ (i : Instr) (s t : State), exec i s = .next t →
    t.key = s.key ∨
    (t.status = { s.status with done := true } ∧ t.phase = .idle ∧
      ((i = .keygen ∧ t.key.kstate = .priv) ∨ (i = .keyload ∧ (t.key.kstate = .pub ∨ t.key.kstate = .priv)) ∨
        (i = .keyclose ∧ t.key.kstate = .closed)))) ∧
  (∀ (s : State) (a : Access),
    (hostAccess s a).key = s.key ∨
      (∃ w, a = .write 0x004 .w32 w ∧ w.getLsbD 0 = true) ∧ (hostAccess s a).key = ⟨0, [], [], .empty⟩) ∧
  (∀ (s t : State) (v : Byte), handle s (.rngByte v) = .next t → t.key = s.key) ∧
  ∀ s t : State, handle s .hardReset = .next t → t.key = ⟨0, [], [], .empty⟩

/-- KEY_F leaves the engine only by KEYEXPORT.PRIV (20_memory R71, 60_exceptions R316) and is used only by DECRYPT: states
that differ in KEY_F at most stay so under every other command, and under those two where the key is not PRIVATE; under
every host access, which so reads the same word of both, an offered byte and a reset; and under every step that runs no
such command. ENCRYPT needs no private key (45_ntru R260): with PUBLIC for PRIVATE too it makes the same state up to the
key object. -/
def Obligations.EncryptionIgnoresPrivateKey : Prop :=
  (∀ (s t : State) (f : Poly) (k : KState), (s.key.kstate = .pub ∨ s.key.kstate = .priv) → (k = .pub ∨ k = .priv) →
    exec .encrypt s = .next t →
    exec .encrypt { s with key := { s.key with f := f, kstate := k } } =
      .next { t with key := { s.key with f := f, kstate := k } }) ∧
  (∀ (i : Instr) (s s' t : State), SameButF s s' →
    (s.key.kstate = .priv → i ≠ .decrypt ∧ i ≠ .keyexport true) → exec i s = .next t →
    ∃ t', exec i s' = .next t' ∧ SameButF t t') ∧
  (∀ (s s' : State) (a : Access), SameButF s s' → SameButF (hostAccess s a) (hostAccess s' a)) ∧
  ∀ s s' t : State, SameButF s s' →
    (s.key.kstate = .priv → s.phase = .busy →
      decode s.ctx.word ≠ some .decrypt ∧ decode s.ctx.word ≠ some (.keyexport true)) →
    step s = .next t → ∃ t', step s' = .next t' ∧ SameButF t t'

/-! ### Invariants -/

/-- Every step keeps the canonical form of DMEM and of the polynomial registers (20_memory R61, 10_state R40), and the
configuration (00_scope R9, 70_reset R344 (1); log 3). -/
def Obligations.StepKeepsStorage : Prop :=
  ∀ s t : State, step s = .next t →
    (s.MemoryOk → t.MemoryOk) ∧ (s.PolysOk → t.PolysOk) ∧ t.params = s.params

/-- Every step keeps the key object as 10_state R41 says it is. -/
def Obligations.StepKeepsKeyObject : Prop :=
  ∀ s t : State, step s = .next t → s.key.Ok s.params → t.key.Ok t.params

/-- Every step keeps the stream unit as 10_state R43 to R46 say it is; that up to 15 bits, not 7, may stay buffered (after
SRC_EXHAUSTED) is the model's choice (log 12). -/
def Obligations.StepKeepsStreamUnit : Prop :=
  ∀ s t : State, step s = .next t → s.su.Ok → t.su.Ok

/-- Every step keeps the sequencer as 10_state R47 and 40_command R110, R113 say it is. That the context is all zero while
idle (log 10), and that the bytes in flight are none while idle and never more than were offered (log 9), are the
model's choices. -/
def Obligations.StepKeepsSequencer : Prop :=
  ∀ s t : State, step s = .next t → s.SequencerOk → t.SequencerOk

/-- The state after reset meets every invariant, and its table the lengths the spec publishes for entries 0 and 11
(00_scope R9, 45_ntru R279): N, the ciphertext, public-key and private-key lengths, and the form of F, trits for entry 0
and indices for entry 11. It rests on df = 79 for entry 11 and df from 36 up for entry 0, which the spec derives
(log 4). -/
def Obligations.ResetIsSafe : Prop :=
  State.reset.Safe ∧
  (let P := State.reset.params.table[(0 : Fin 12)];
    P.N = 401 ∧ P.lenCt = 552 ∧ P.lenPub = 556 ∧ P.lenPriv = 637 ∧ P.lenTrit ≤ P.lenIndex) ∧
  let P := State.reset.params.table[(11 : Fin 12)]
  P.N = 1499 ∧ P.lenCt = 2062 ∧ P.lenPub = 2066 ∧ P.lenPriv = 2284 ∧ P.lenIndex < P.lenTrit
end

