-- ==== Sys2Proof/Laws/Poly.lean ====
section
/-! SUPPORT. Coefficient arrays: what a coefficient reads after each update, and the canonical form, which every
update keeps (10_state R40). -/

namespace Sys2Proof.Machine

/-! ### Lists without trailing zeros -/

/-- Trimming changes no entry. -/
theorem trimZeros_getD (l : List Coeff) (i : Nat) : (trimZeros l).getD i 0 = l.getD i 0 := by
  induction l generalizing i with
  | nil => rfl
  | cons c rest ih =>
    have key : ∀ j, (trimZeros rest).getD j 0 = rest.getD j 0 := ih
    unfold trimZeros
    split
    · next h =>
      rw [h] at key
      split
      · next hc =>
        cases i with
        | zero => simpa using hc.symm
        | succ j => simpa using key j
      · cases i with
        | zero => simp
        | succ j => simpa using key j
    · next d more h =>
      cases i with
      | zero => simp
      | succ j => rw [List.getD_cons_succ, List.getD_cons_succ, ← h]; exact key j

theorem trimZeros_length (l : List Coeff) : (trimZeros l).length ≤ l.length := by
  induction l with
  | nil => simp [trimZeros]
  | cons c rest ih =>
    unfold trimZeros
    split
    · split <;> simp
    · next d more h => rw [h] at ih; simpa using ih

/-- After trimming the last entry, if any, is not 0. -/
theorem trimZeros_last (l : List Coeff) : (trimZeros l).getLast? ≠ some 0#16 := by
  induction l with
  | nil => simp [trimZeros]
  | cons c rest ih =>
    unfold trimZeros
    split
    · split
      · simp
      · next hc => simpa using hc
    · next d more h => rw [h] at ih; simpa [List.getLast?_cons_cons] using ih

theorem mem_trimZeros {l : List Coeff} {c : Coeff} (h : c ∈ trimZeros l) : c ∈ l := by
  induction l with
  | nil => simp [trimZeros] at h
  | cons d rest ih =>
    unfold trimZeros at h
    split at h
    · split at h
      · simp at h
      · simp at h; simp [h]
    · next e more he =>
      rcases List.mem_cons.mp h with h | h
      · simp [h]
      · exact List.mem_cons_of_mem _ (ih (he ▸ h))

@[simp] theorem Poly.wf_nil : Poly.wf [] = true := by decide

theorem Poly.wf_iff (p : Poly) : p.wf = true ↔ p.length ≤ 1499 ∧ p.getLast? ≠ some 0#16 := by
  simp [Poly.wf]

theorem Poly.wf_trimZeros {l : List Coeff} (h : l.length ≤ 1499) : Poly.wf (trimZeros l) = true :=
  (Poly.wf_iff _).mpr ⟨(trimZeros_length l).trans h, trimZeros_last l⟩

/-! ### Destinations -/

theorem Poly.wf_ofFn (N : Nat) (f : Nat → Int) : (Poly.ofFn N f).wf = true :=
  Poly.wf_trimZeros (by simp)

theorem Poly.length_ofFn (N : Nat) (f : Nat → Int) : (Poly.ofFn N f).length ≤ N :=
  (trimZeros_length _).trans (by simp)

theorem Poly.mem_ofFn {N : Nat} {f : Nat → Int} {c : Coeff} (h : c ∈ Poly.ofFn N f) :
    ∃ i, i < N ∧ c = BitVec.ofInt 16 (f i) := by
  have := mem_trimZeros h
  simp only [List.mem_map, List.mem_range] at this
  obtain ⟨i, hi, rfl⟩ := this
  exact ⟨i, by omega, rfl⟩

/-- A 16-bit value survives the register's width. -/
theorem toInt_ofInt_of_range {v : Int} (h1 : -32768 ≤ v) (h2 : v ≤ 32767) : (BitVec.ofInt 16 v).toInt = v := by
  rw [BitVec.toInt_ofInt, Int.bmod_def]
  split <;> omega

/-- Every destination coefficient: f i below N, 0 from N up, taken to 16 bits. -/
theorem Poly.coeff_ofFn_raw (N : Nat) (f : Nat → Int) (i : Nat) :
    (Poly.ofFn N f).coeff i = if i < N ∧ i < 1499 then (BitVec.ofInt 16 (f i)).toInt else 0 := by
  simp only [Poly.coeff, Config.nmax]
  by_cases h : i < 1499
  · rw [if_pos h, Poly.ofFn, trimZeros_getD]
    by_cases h2 : i < N
    · rw [if_pos ⟨h2, h⟩, List.getD_eq_getElem?_getD, List.getElem?_map, List.getElem?_range (by simp [Config.nmax]; omega)]
      rfl
    · rw [if_neg (by tauto), List.getD_eq_getElem?_getD, List.getElem?_eq_none (by simp; omega)]
      rfl
  · rw [if_neg h, if_neg (by tauto)]

/-- The destination rule of 10_state R40 for values that fit 16 bits. -/
theorem Poly.coeff_ofFn {N : Nat} {f : Nat → Int} (hN : N ≤ 1499)
    (hf : ∀ i, i < N → -32768 ≤ f i ∧ f i ≤ 32767) (i : Nat) :
    (Poly.ofFn N f).coeff i = if i < N then f i else 0 := by
  rw [Poly.coeff_ofFn_raw]
  by_cases h : i < N
  · rw [if_pos ⟨h, by omega⟩, if_pos h, toInt_ofInt_of_range (hf i h).1 (hf i h).2]
  · rw [if_neg (by tauto), if_neg h]

theorem Poly.holds_ofFn {N : Nat} {f : Nat → Int} (hN : N ≤ 1499)
    (hf : ∀ i, i < N → -32768 ≤ f i ∧ f i ≤ 32767) : (Poly.ofFn N f).Holds N f :=
  ⟨Poly.wf_ofFn N f, Poly.coeff_ofFn hN hf⟩

/-! ### Host writes -/

theorem setEntry_getD (l : List Coeff) (i j : Nat) (c : Coeff) :
    (setEntry l i c).getD j 0 = if j = i then c else l.getD j 0 := by
  induction l generalizing i j with
  | nil =>
    induction i generalizing j with
    | zero => cases j <;> simp [setEntry]
    | succ i ih => cases j <;> simp_all [setEntry]
  | cons d rest ih =>
    cases i with
    | zero => cases j <;> simp [setEntry]
    | succ i => cases j <;> simp_all [setEntry]

theorem setEntry_length (l : List Coeff) (i : Nat) (c : Coeff) :
    (setEntry l i c).length = max l.length (i + 1) := by
  induction l generalizing i with
  | nil =>
    induction i with
    | zero => simp [setEntry]
    | succ i ih => simp [setEntry, ih]
  | cons d rest ih =>
    cases i with
    | zero => simp [setEntry]
    | succ i => simp [setEntry, ih]

/-- Reading the bits of a coefficient after one is set. -/
theorem coeffBits_setCoeff (p : Poly) (i j : Nat) (c : Coeff) :
    coeffBits (p.setCoeff i c) j = if j = i ∧ i < 1499 then c else coeffBits p j := by
  simp only [coeffBits, Poly.setCoeff, Config.nmax]
  by_cases hj : j < 1499
  · rw [if_pos hj, if_pos hj]
    by_cases hi : i < 1499
    · rw [if_pos hi, trimZeros_getD, setEntry_getD]
      simp [hi]
    · rw [if_neg hi, if_neg (by tauto)]
  · rw [if_neg hj, if_neg hj, if_neg (by omega)]

theorem Poly.coeff_eq_toInt (p : Poly) (i : Nat) : p.coeff i = (coeffBits p i).toInt := by
  simp only [Poly.coeff, coeffBits]
  split <;> rfl

theorem Poly.wf_setCoeff (p : Poly) (i : Nat) (c : Coeff) (h : p.wf = true) : (p.setCoeff i c).wf = true := by
  simp only [Poly.setCoeff, Config.nmax]
  split
  · next hi =>
    refine Poly.wf_trimZeros ?_
    rw [setEntry_length]
    have := ((Poly.wf_iff p).mp h).1
    omega
  · exact h

/-- A host write of a PR window word keeps the canonical form. -/
theorem Poly.wf_setPrWord (p : Poly) (j : Nat) (w : Word) (h : p.wf = true) : (setPrWord p j w).wf = true :=
  Poly.wf_setCoeff _ _ _ (Poly.wf_setCoeff _ _ _ h)

/-! ### Sources -/

/-- Coefficients of a register are 16-bit signed integers. -/
theorem Poly.coeff_range (p : Poly) (i : Nat) : -32768 ≤ p.coeff i ∧ p.coeff i ≤ 32767 := by
  rw [Poly.coeff_eq_toInt]
  have h1 := BitVec.le_toInt (coeffBits p i)
  have h2 := BitVec.toInt_lt (x := coeffBits p i)
  norm_num at h1 h2
  omega

@[simp] theorem tab_length (N : Nat) (f : Nat → Int) : (tab N f).length = N := by simp [tab]

theorem at'_tab {N i : Nat} (f : Nat → Int) (h : i < N) : at' (tab N f) i = f i := by
  simp [at', tab, List.getD_eq_getElem?_getD, h]

theorem at'_tab_ge {N i : Nat} (f : Nat → Int) (h : N ≤ i) : at' (tab N f) i = 0 := by
  simp [at', tab, List.getD_eq_getElem?_getD, h]

/-- The source polynomial's coefficients below N. -/
theorem at'_source (s : State) (k : PReg) {i : Nat} (h : i < s.dim) : at' (s.source k) i = (s.pr[k]).coeff i :=
  at'_tab _ h

/-- red(v, m, low) lies in [low, low + m) (00_scope R15). -/
theorem red_range {v m low : Int} (hm : 1 ≤ m) : low ≤ red v m low ∧ red v m low < low + m := by
  have h1 := Int.emod_nonneg (v - low) (show m ≠ 0 by omega)
  have h2 := Int.emod_lt_of_pos (v - low) (show 0 < m by omega)
  simp only [red]
  omega

/-- wrap16(v) is a 16-bit value (00_scope R15). -/
theorem wrap16_range (v : Int) : -32768 ≤ wrap16 v ∧ wrap16 v ≤ 32767 := by
  simp only [wrap16]
  omega

end Sys2Proof.Machine
end

