-- ==== Sys2Proof/Laws/State.lean ====
section
/-! SUPPORT. One lemma per field and update of State, each true by rfl, so that no proof unfolds a record update. -/

namespace Sys2Proof.Machine

/-! ### State.consume: the commit of input consumption (40_command R115) -/

@[simp] theorem State.consume_cmd (s : State) (f : Feed) : (s.consume f).cmd = s.cmd := rfl
@[simp] theorem State.consume_arg0 (s : State) (f : Feed) : (s.consume f).arg0 = s.arg0 := rfl
@[simp] theorem State.consume_arg1 (s : State) (f : Feed) : (s.consume f).arg1 = s.arg1 := rfl
@[simp] theorem State.consume_arg2 (s : State) (f : Feed) : (s.consume f).arg2 = s.arg2 := rfl
@[simp] theorem State.consume_arg3 (s : State) (f : Feed) : (s.consume f).arg3 = s.arg3 := rfl
@[simp] theorem State.consume_res0 (s : State) (f : Feed) : (s.consume f).res0 = s.res0 := rfl
@[simp] theorem State.consume_res1 (s : State) (f : Feed) : (s.consume f).res1 = s.res1 := rfl
@[simp] theorem State.consume_cfgN (s : State) (f : Feed) : (s.consume f).cfgN = s.cfgN := rfl
@[simp] theorem State.consume_cfgMod (s : State) (f : Feed) : (s.consume f).cfgMod = s.cfgMod := rfl
@[simp] theorem State.consume_cfgLow (s : State) (f : Feed) : (s.consume f).cfgLow = s.cfgLow := rfl
@[simp] theorem State.consume_doneIE (s : State) (f : Feed) : (s.consume f).doneIE = s.doneIE := rfl
@[simp] theorem State.consume_iterCap (s : State) (f : Feed) : (s.consume f).iterCap = s.iterCap := rfl
@[simp] theorem State.consume_iterCnt (s : State) (f : Feed) : (s.consume f).iterCnt = f.iterCnt := rfl
@[simp] theorem State.consume_rngCnt (s : State) (f : Feed) : (s.consume f).rngCnt = s.rngCnt + BitVec.ofNat 32 f.pulled := rfl
@[simp] theorem State.consume_status (s : State) (f : Feed) : (s.consume f).status = s.status := rfl
@[simp] theorem State.consume_pr (s : State) (f : Feed) : (s.consume f).pr = s.pr := rfl
@[simp] theorem State.consume_key (s : State) (f : Feed) : (s.consume f).key = s.key := rfl
@[simp] theorem State.consume_su (s : State) (f : Feed) : (s.consume f).su = f.su := rfl
@[simp] theorem State.consume_dmem (s : State) (f : Feed) : (s.consume f).dmem = s.dmem := rfl
@[simp] theorem State.consume_phase (s : State) (f : Feed) : (s.consume f).phase = s.phase := rfl
@[simp] theorem State.consume_ctx (s : State) (f : Feed) : (s.consume f).ctx = s.ctx := rfl
@[simp] theorem State.consume_params (s : State) (f : Feed) : (s.consume f).params = s.params := rfl
@[simp] theorem State.consume_rng (s : State) (f : Feed) : (s.consume f).rng = f.rng := rfl
@[simp] theorem State.consume_inflight (s : State) (f : Feed) : (s.consume f).inflight = s.inflight := rfl
@[simp] theorem State.consume_turns (s : State) (f : Feed) : (s.consume f).turns = s.turns := rfl
@[simp] theorem State.consume_inbox (s : State) (f : Feed) : (s.consume f).inbox = s.inbox := rfl
@[simp] theorem State.consume_rdata (s : State) (f : Feed) : (s.consume f).rdata = s.rdata := rfl

/-! ### State.write: the commit of output writes (40_command R113) -/

@[simp] theorem State.write_cmd (s : State) (w : Writes) : (s.write w).cmd = s.cmd := rfl
@[simp] theorem State.write_arg0 (s : State) (w : Writes) : (s.write w).arg0 = s.arg0 := rfl
@[simp] theorem State.write_arg1 (s : State) (w : Writes) : (s.write w).arg1 = s.arg1 := rfl
@[simp] theorem State.write_arg2 (s : State) (w : Writes) : (s.write w).arg2 = s.arg2 := rfl
@[simp] theorem State.write_arg3 (s : State) (w : Writes) : (s.write w).arg3 = s.arg3 := rfl
@[simp] theorem State.write_res0 (s : State) (w : Writes) : (s.write w).res0 = w.res0.getD s.res0 := rfl
@[simp] theorem State.write_res1 (s : State) (w : Writes) : (s.write w).res1 = w.res1.getD s.res1 := rfl
@[simp] theorem State.write_cfgN (s : State) (w : Writes) : (s.write w).cfgN = s.cfgN := rfl
@[simp] theorem State.write_cfgMod (s : State) (w : Writes) : (s.write w).cfgMod = s.cfgMod := rfl
@[simp] theorem State.write_cfgLow (s : State) (w : Writes) : (s.write w).cfgLow = s.cfgLow := rfl
@[simp] theorem State.write_doneIE (s : State) (w : Writes) : (s.write w).doneIE = s.doneIE := rfl
@[simp] theorem State.write_iterCap (s : State) (w : Writes) : (s.write w).iterCap = s.iterCap := rfl
@[simp] theorem State.write_iterCnt (s : State) (w : Writes) : (s.write w).iterCnt = s.iterCnt := rfl
@[simp] theorem State.write_rngCnt (s : State) (w : Writes) : (s.write w).rngCnt = s.rngCnt := rfl
@[simp] theorem State.write_status (s : State) (w : Writes) : (s.write w).status = { s.status with noinv := w.noinv.getD s.status.noinv, eq := w.eq.getD s.status.eq } := rfl
@[simp] theorem State.write_pr (s : State) (w : Writes) : (s.write w).pr = (match w.pr with | none => s.pr | some (k, p) => s.pr.set k p) := rfl
@[simp] theorem State.write_key (s : State) (w : Writes) : (s.write w).key = w.key.getD s.key := rfl
@[simp] theorem State.write_su (s : State) (w : Writes) : (s.write w).su = s.su := rfl
@[simp] theorem State.write_dmem (s : State) (w : Writes) : (s.write w).dmem = (match w.mem with | none => s.dmem | some (a, bytes) => s.dmem.writeBytes a bytes) := rfl
@[simp] theorem State.write_phase (s : State) (w : Writes) : (s.write w).phase = s.phase := rfl
@[simp] theorem State.write_ctx (s : State) (w : Writes) : (s.write w).ctx = s.ctx := rfl
@[simp] theorem State.write_params (s : State) (w : Writes) : (s.write w).params = s.params := rfl
@[simp] theorem State.write_rng (s : State) (w : Writes) : (s.write w).rng = s.rng := rfl
@[simp] theorem State.write_inflight (s : State) (w : Writes) : (s.write w).inflight = s.inflight := rfl
@[simp] theorem State.write_turns (s : State) (w : Writes) : (s.write w).turns = s.turns := rfl
@[simp] theorem State.write_inbox (s : State) (w : Writes) : (s.write w).inbox = s.inbox := rfl
@[simp] theorem State.write_rdata (s : State) (w : Writes) : (s.write w).rdata = s.rdata := rfl

/-! ### State.toIdle: the end of a command -/

@[simp] theorem State.toIdle_cmd (s : State) : (s.toIdle).cmd = s.cmd := rfl
@[simp] theorem State.toIdle_arg0 (s : State) : (s.toIdle).arg0 = s.arg0 := rfl
@[simp] theorem State.toIdle_arg1 (s : State) : (s.toIdle).arg1 = s.arg1 := rfl
@[simp] theorem State.toIdle_arg2 (s : State) : (s.toIdle).arg2 = s.arg2 := rfl
@[simp] theorem State.toIdle_arg3 (s : State) : (s.toIdle).arg3 = s.arg3 := rfl
@[simp] theorem State.toIdle_res0 (s : State) : (s.toIdle).res0 = s.res0 := rfl
@[simp] theorem State.toIdle_res1 (s : State) : (s.toIdle).res1 = s.res1 := rfl
@[simp] theorem State.toIdle_cfgN (s : State) : (s.toIdle).cfgN = s.cfgN := rfl
@[simp] theorem State.toIdle_cfgMod (s : State) : (s.toIdle).cfgMod = s.cfgMod := rfl
@[simp] theorem State.toIdle_cfgLow (s : State) : (s.toIdle).cfgLow = s.cfgLow := rfl
@[simp] theorem State.toIdle_doneIE (s : State) : (s.toIdle).doneIE = s.doneIE := rfl
@[simp] theorem State.toIdle_iterCap (s : State) : (s.toIdle).iterCap = s.iterCap := rfl
@[simp] theorem State.toIdle_iterCnt (s : State) : (s.toIdle).iterCnt = s.iterCnt := rfl
@[simp] theorem State.toIdle_rngCnt (s : State) : (s.toIdle).rngCnt = s.rngCnt := rfl
@[simp] theorem State.toIdle_status (s : State) : (s.toIdle).status = s.status := rfl
@[simp] theorem State.toIdle_pr (s : State) : (s.toIdle).pr = s.pr := rfl
@[simp] theorem State.toIdle_key (s : State) : (s.toIdle).key = s.key := rfl
@[simp] theorem State.toIdle_su (s : State) : (s.toIdle).su = s.su := rfl
@[simp] theorem State.toIdle_dmem (s : State) : (s.toIdle).dmem = s.dmem := rfl
@[simp] theorem State.toIdle_phase (s : State) : (s.toIdle).phase = .idle := rfl
@[simp] theorem State.toIdle_ctx (s : State) : (s.toIdle).ctx = Context.empty := rfl
@[simp] theorem State.toIdle_params (s : State) : (s.toIdle).params = s.params := rfl
@[simp] theorem State.toIdle_rng (s : State) : (s.toIdle).rng = s.rng := rfl
@[simp] theorem State.toIdle_inflight (s : State) : (s.toIdle).inflight = 0 := rfl
@[simp] theorem State.toIdle_turns (s : State) : (s.toIdle).turns = s.turns := rfl
@[simp] theorem State.toIdle_inbox (s : State) : (s.toIdle).inbox = s.inbox := rfl
@[simp] theorem State.toIdle_rdata (s : State) : (s.toIdle).rdata = s.rdata := rfl

/-! ### accept: acceptance (40_command R110) -/

@[simp] theorem accept_cmd (s : State) (w : Word) : (accept s w).cmd = w := rfl
@[simp] theorem accept_arg0 (s : State) (w : Word) : (accept s w).arg0 = s.arg0 := rfl
@[simp] theorem accept_arg1 (s : State) (w : Word) : (accept s w).arg1 = s.arg1 := rfl
@[simp] theorem accept_arg2 (s : State) (w : Word) : (accept s w).arg2 = s.arg2 := rfl
@[simp] theorem accept_arg3 (s : State) (w : Word) : (accept s w).arg3 = s.arg3 := rfl
@[simp] theorem accept_res0 (s : State) (w : Word) : (accept s w).res0 = s.res0 := rfl
@[simp] theorem accept_res1 (s : State) (w : Word) : (accept s w).res1 = s.res1 := rfl
@[simp] theorem accept_cfgN (s : State) (w : Word) : (accept s w).cfgN = s.cfgN := rfl
@[simp] theorem accept_cfgMod (s : State) (w : Word) : (accept s w).cfgMod = s.cfgMod := rfl
@[simp] theorem accept_cfgLow (s : State) (w : Word) : (accept s w).cfgLow = s.cfgLow := rfl
@[simp] theorem accept_doneIE (s : State) (w : Word) : (accept s w).doneIE = s.doneIE := rfl
@[simp] theorem accept_iterCap (s : State) (w : Word) : (accept s w).iterCap = s.iterCap := rfl
@[simp] theorem accept_iterCnt (s : State) (w : Word) : (accept s w).iterCnt = 0#32 := rfl
@[simp] theorem accept_rngCnt (s : State) (w : Word) : (accept s w).rngCnt = s.rngCnt := rfl
@[simp] theorem accept_status (s : State) (w : Word) : (accept s w).status = s.status.accepted := rfl
@[simp] theorem accept_pr (s : State) (w : Word) : (accept s w).pr = s.pr := rfl
@[simp] theorem accept_key (s : State) (w : Word) : (accept s w).key = s.key := rfl
@[simp] theorem accept_su (s : State) (w : Word) : (accept s w).su = s.su := rfl
@[simp] theorem accept_dmem (s : State) (w : Word) : (accept s w).dmem = s.dmem := rfl
@[simp] theorem accept_phase (s : State) (w : Word) : (accept s w).phase = .busy := rfl
@[simp] theorem accept_ctx (s : State) (w : Word) : (accept s w).ctx = s.latch w := rfl
@[simp] theorem accept_params (s : State) (w : Word) : (accept s w).params = s.params := rfl
@[simp] theorem accept_rng (s : State) (w : Word) : (accept s w).rng = s.rng := rfl
@[simp] theorem accept_inflight (s : State) (w : Word) : (accept s w).inflight = 0 := rfl
@[simp] theorem accept_turns (s : State) (w : Word) : (accept s w).turns = s.turns := rfl
@[simp] theorem accept_inbox (s : State) (w : Word) : (accept s w).inbox = s.inbox := rfl
@[simp] theorem accept_rdata (s : State) (w : Word) : (accept s w).rdata = s.rdata := rfl

/-! ### raiseErr: completion with an error (40_command R115) -/

@[simp] theorem raiseErr_cmd (s : State) (f : Feed) (e : Err) : (raiseErr s f e).cmd = s.cmd := rfl
@[simp] theorem raiseErr_arg0 (s : State) (f : Feed) (e : Err) : (raiseErr s f e).arg0 = s.arg0 := rfl
@[simp] theorem raiseErr_arg1 (s : State) (f : Feed) (e : Err) : (raiseErr s f e).arg1 = s.arg1 := rfl
@[simp] theorem raiseErr_arg2 (s : State) (f : Feed) (e : Err) : (raiseErr s f e).arg2 = s.arg2 := rfl
@[simp] theorem raiseErr_arg3 (s : State) (f : Feed) (e : Err) : (raiseErr s f e).arg3 = s.arg3 := rfl
@[simp] theorem raiseErr_res0 (s : State) (f : Feed) (e : Err) : (raiseErr s f e).res0 = s.res0 := rfl
@[simp] theorem raiseErr_res1 (s : State) (f : Feed) (e : Err) : (raiseErr s f e).res1 = s.res1 := rfl
@[simp] theorem raiseErr_cfgN (s : State) (f : Feed) (e : Err) : (raiseErr s f e).cfgN = s.cfgN := rfl
@[simp] theorem raiseErr_cfgMod (s : State) (f : Feed) (e : Err) : (raiseErr s f e).cfgMod = s.cfgMod := rfl
@[simp] theorem raiseErr_cfgLow (s : State) (f : Feed) (e : Err) : (raiseErr s f e).cfgLow = s.cfgLow := rfl
@[simp] theorem raiseErr_doneIE (s : State) (f : Feed) (e : Err) : (raiseErr s f e).doneIE = s.doneIE := rfl
@[simp] theorem raiseErr_iterCap (s : State) (f : Feed) (e : Err) : (raiseErr s f e).iterCap = s.iterCap := rfl
@[simp] theorem raiseErr_iterCnt (s : State) (f : Feed) (e : Err) : (raiseErr s f e).iterCnt = f.iterCnt := rfl
@[simp] theorem raiseErr_rngCnt (s : State) (f : Feed) (e : Err) : (raiseErr s f e).rngCnt = s.rngCnt + BitVec.ofNat 32 f.pulled := rfl
@[simp] theorem raiseErr_status (s : State) (f : Feed) (e : Err) : (raiseErr s f e).status = s.status.failed e := rfl
@[simp] theorem raiseErr_pr (s : State) (f : Feed) (e : Err) : (raiseErr s f e).pr = s.pr := rfl
@[simp] theorem raiseErr_key (s : State) (f : Feed) (e : Err) : (raiseErr s f e).key = s.key := rfl
@[simp] theorem raiseErr_su (s : State) (f : Feed) (e : Err) : (raiseErr s f e).su = f.su := rfl
@[simp] theorem raiseErr_dmem (s : State) (f : Feed) (e : Err) : (raiseErr s f e).dmem = s.dmem := rfl
@[simp] theorem raiseErr_phase (s : State) (f : Feed) (e : Err) : (raiseErr s f e).phase = .idle := rfl
@[simp] theorem raiseErr_ctx (s : State) (f : Feed) (e : Err) : (raiseErr s f e).ctx = Context.empty := rfl
@[simp] theorem raiseErr_params (s : State) (f : Feed) (e : Err) : (raiseErr s f e).params = s.params := rfl
@[simp] theorem raiseErr_rng (s : State) (f : Feed) (e : Err) : (raiseErr s f e).rng = f.rng := rfl
@[simp] theorem raiseErr_inflight (s : State) (f : Feed) (e : Err) : (raiseErr s f e).inflight = 0 := rfl
@[simp] theorem raiseErr_turns (s : State) (f : Feed) (e : Err) : (raiseErr s f e).turns = s.turns := rfl
@[simp] theorem raiseErr_inbox (s : State) (f : Feed) (e : Err) : (raiseErr s f e).inbox = s.inbox := rfl
@[simp] theorem raiseErr_rdata (s : State) (f : Feed) (e : Err) : (raiseErr s f e).rdata = s.rdata := rfl

/-! ### starve: the wait for an RNG byte (40_command R116) -/

@[simp] theorem starve_cmd (s : State) (f : Feed) : (starve s f).cmd = s.cmd := rfl
@[simp] theorem starve_arg0 (s : State) (f : Feed) : (starve s f).arg0 = s.arg0 := rfl
@[simp] theorem starve_arg1 (s : State) (f : Feed) : (starve s f).arg1 = s.arg1 := rfl
@[simp] theorem starve_arg2 (s : State) (f : Feed) : (starve s f).arg2 = s.arg2 := rfl
@[simp] theorem starve_arg3 (s : State) (f : Feed) : (starve s f).arg3 = s.arg3 := rfl
@[simp] theorem starve_res0 (s : State) (f : Feed) : (starve s f).res0 = s.res0 := rfl
@[simp] theorem starve_res1 (s : State) (f : Feed) : (starve s f).res1 = s.res1 := rfl
@[simp] theorem starve_cfgN (s : State) (f : Feed) : (starve s f).cfgN = s.cfgN := rfl
@[simp] theorem starve_cfgMod (s : State) (f : Feed) : (starve s f).cfgMod = s.cfgMod := rfl
@[simp] theorem starve_cfgLow (s : State) (f : Feed) : (starve s f).cfgLow = s.cfgLow := rfl
@[simp] theorem starve_doneIE (s : State) (f : Feed) : (starve s f).doneIE = s.doneIE := rfl
@[simp] theorem starve_iterCap (s : State) (f : Feed) : (starve s f).iterCap = s.iterCap := rfl
@[simp] theorem starve_iterCnt (s : State) (f : Feed) : (starve s f).iterCnt = s.iterCnt := rfl
@[simp] theorem starve_rngCnt (s : State) (f : Feed) : (starve s f).rngCnt = s.rngCnt := rfl
@[simp] theorem starve_status (s : State) (f : Feed) : (starve s f).status = s.status := rfl
@[simp] theorem starve_pr (s : State) (f : Feed) : (starve s f).pr = s.pr := rfl
@[simp] theorem starve_key (s : State) (f : Feed) : (starve s f).key = s.key := rfl
@[simp] theorem starve_su (s : State) (f : Feed) : (starve s f).su = s.su := rfl
@[simp] theorem starve_dmem (s : State) (f : Feed) : (starve s f).dmem = s.dmem := rfl
@[simp] theorem starve_phase (s : State) (f : Feed) : (starve s f).phase = s.phase := rfl
@[simp] theorem starve_ctx (s : State) (f : Feed) : (starve s f).ctx = s.ctx := rfl
@[simp] theorem starve_params (s : State) (f : Feed) : (starve s f).params = s.params := rfl
@[simp] theorem starve_rng (s : State) (f : Feed) : (starve s f).rng = s.rng := rfl
@[simp] theorem starve_inflight (s : State) (f : Feed) : (starve s f).inflight = f.pulled := rfl
@[simp] theorem starve_turns (s : State) (f : Feed) : (starve s f).turns = s.turns := rfl
@[simp] theorem starve_inbox (s : State) (f : Feed) : (starve s f).inbox = s.inbox := rfl
@[simp] theorem starve_rdata (s : State) (f : Feed) : (starve s f).rdata = s.rdata := rfl

/-! ### pause: a command that goes on (40_command R117) -/

@[simp] theorem pause_cmd (s : State) (f : Feed) : (pause s f).cmd = s.cmd := rfl
@[simp] theorem pause_arg0 (s : State) (f : Feed) : (pause s f).arg0 = s.arg0 := rfl
@[simp] theorem pause_arg1 (s : State) (f : Feed) : (pause s f).arg1 = s.arg1 := rfl
@[simp] theorem pause_arg2 (s : State) (f : Feed) : (pause s f).arg2 = s.arg2 := rfl
@[simp] theorem pause_arg3 (s : State) (f : Feed) : (pause s f).arg3 = s.arg3 := rfl
@[simp] theorem pause_res0 (s : State) (f : Feed) : (pause s f).res0 = s.res0 := rfl
@[simp] theorem pause_res1 (s : State) (f : Feed) : (pause s f).res1 = s.res1 := rfl
@[simp] theorem pause_cfgN (s : State) (f : Feed) : (pause s f).cfgN = s.cfgN := rfl
@[simp] theorem pause_cfgMod (s : State) (f : Feed) : (pause s f).cfgMod = s.cfgMod := rfl
@[simp] theorem pause_cfgLow (s : State) (f : Feed) : (pause s f).cfgLow = s.cfgLow := rfl
@[simp] theorem pause_doneIE (s : State) (f : Feed) : (pause s f).doneIE = s.doneIE := rfl
@[simp] theorem pause_iterCap (s : State) (f : Feed) : (pause s f).iterCap = s.iterCap := rfl
@[simp] theorem pause_iterCnt (s : State) (f : Feed) : (pause s f).iterCnt = s.iterCnt := rfl
@[simp] theorem pause_rngCnt (s : State) (f : Feed) : (pause s f).rngCnt = s.rngCnt := rfl
@[simp] theorem pause_status (s : State) (f : Feed) : (pause s f).status = s.status := rfl
@[simp] theorem pause_pr (s : State) (f : Feed) : (pause s f).pr = s.pr := rfl
@[simp] theorem pause_key (s : State) (f : Feed) : (pause s f).key = s.key := rfl
@[simp] theorem pause_su (s : State) (f : Feed) : (pause s f).su = s.su := rfl
@[simp] theorem pause_dmem (s : State) (f : Feed) : (pause s f).dmem = s.dmem := rfl
@[simp] theorem pause_phase (s : State) (f : Feed) : (pause s f).phase = s.phase := rfl
@[simp] theorem pause_ctx (s : State) (f : Feed) : (pause s f).ctx = s.ctx := rfl
@[simp] theorem pause_params (s : State) (f : Feed) : (pause s f).params = s.params := rfl
@[simp] theorem pause_rng (s : State) (f : Feed) : (pause s f).rng = s.rng := rfl
@[simp] theorem pause_inflight (s : State) (f : Feed) : (pause s f).inflight = f.pulled := rfl
@[simp] theorem pause_turns (s : State) (f : Feed) : (pause s f).turns = 2 * s.turns + 1 := rfl
@[simp] theorem pause_inbox (s : State) (f : Feed) : (pause s f).inbox = s.inbox := rfl
@[simp] theorem pause_rdata (s : State) (f : Feed) : (pause s f).rdata = s.rdata := rfl

/-! ### setAccerr: a refused access (20_memory R64, R66) -/

@[simp] theorem setAccerr_cmd (s : State) : (setAccerr s).cmd = s.cmd := rfl
@[simp] theorem setAccerr_arg0 (s : State) : (setAccerr s).arg0 = s.arg0 := rfl
@[simp] theorem setAccerr_arg1 (s : State) : (setAccerr s).arg1 = s.arg1 := rfl
@[simp] theorem setAccerr_arg2 (s : State) : (setAccerr s).arg2 = s.arg2 := rfl
@[simp] theorem setAccerr_arg3 (s : State) : (setAccerr s).arg3 = s.arg3 := rfl
@[simp] theorem setAccerr_res0 (s : State) : (setAccerr s).res0 = s.res0 := rfl
@[simp] theorem setAccerr_res1 (s : State) : (setAccerr s).res1 = s.res1 := rfl
@[simp] theorem setAccerr_cfgN (s : State) : (setAccerr s).cfgN = s.cfgN := rfl
@[simp] theorem setAccerr_cfgMod (s : State) : (setAccerr s).cfgMod = s.cfgMod := rfl
@[simp] theorem setAccerr_cfgLow (s : State) : (setAccerr s).cfgLow = s.cfgLow := rfl
@[simp] theorem setAccerr_doneIE (s : State) : (setAccerr s).doneIE = s.doneIE := rfl
@[simp] theorem setAccerr_iterCap (s : State) : (setAccerr s).iterCap = s.iterCap := rfl
@[simp] theorem setAccerr_iterCnt (s : State) : (setAccerr s).iterCnt = s.iterCnt := rfl
@[simp] theorem setAccerr_rngCnt (s : State) : (setAccerr s).rngCnt = s.rngCnt := rfl
@[simp] theorem setAccerr_status (s : State) : (setAccerr s).status = { s.status with accerr := true } := rfl
@[simp] theorem setAccerr_pr (s : State) : (setAccerr s).pr = s.pr := rfl
@[simp] theorem setAccerr_key (s : State) : (setAccerr s).key = s.key := rfl
@[simp] theorem setAccerr_su (s : State) : (setAccerr s).su = s.su := rfl
@[simp] theorem setAccerr_dmem (s : State) : (setAccerr s).dmem = s.dmem := rfl
@[simp] theorem setAccerr_phase (s : State) : (setAccerr s).phase = s.phase := rfl
@[simp] theorem setAccerr_ctx (s : State) : (setAccerr s).ctx = s.ctx := rfl
@[simp] theorem setAccerr_params (s : State) : (setAccerr s).params = s.params := rfl
@[simp] theorem setAccerr_rng (s : State) : (setAccerr s).rng = s.rng := rfl
@[simp] theorem setAccerr_inflight (s : State) : (setAccerr s).inflight = s.inflight := rfl
@[simp] theorem setAccerr_turns (s : State) : (setAccerr s).turns = s.turns := rfl
@[simp] theorem setAccerr_inbox (s : State) : (setAccerr s).inbox = s.inbox := rfl
@[simp] theorem setAccerr_rdata (s : State) : (setAccerr s).rdata = s.rdata := rfl

/-! ### offerByte: a byte offered by the RNG port -/

@[simp] theorem offerByte_cmd (s : State) (v : Byte) : (offerByte s v).cmd = s.cmd := rfl
@[simp] theorem offerByte_arg0 (s : State) (v : Byte) : (offerByte s v).arg0 = s.arg0 := rfl
@[simp] theorem offerByte_arg1 (s : State) (v : Byte) : (offerByte s v).arg1 = s.arg1 := rfl
@[simp] theorem offerByte_arg2 (s : State) (v : Byte) : (offerByte s v).arg2 = s.arg2 := rfl
@[simp] theorem offerByte_arg3 (s : State) (v : Byte) : (offerByte s v).arg3 = s.arg3 := rfl
@[simp] theorem offerByte_res0 (s : State) (v : Byte) : (offerByte s v).res0 = s.res0 := rfl
@[simp] theorem offerByte_res1 (s : State) (v : Byte) : (offerByte s v).res1 = s.res1 := rfl
@[simp] theorem offerByte_cfgN (s : State) (v : Byte) : (offerByte s v).cfgN = s.cfgN := rfl
@[simp] theorem offerByte_cfgMod (s : State) (v : Byte) : (offerByte s v).cfgMod = s.cfgMod := rfl
@[simp] theorem offerByte_cfgLow (s : State) (v : Byte) : (offerByte s v).cfgLow = s.cfgLow := rfl
@[simp] theorem offerByte_doneIE (s : State) (v : Byte) : (offerByte s v).doneIE = s.doneIE := rfl
@[simp] theorem offerByte_iterCap (s : State) (v : Byte) : (offerByte s v).iterCap = s.iterCap := rfl
@[simp] theorem offerByte_iterCnt (s : State) (v : Byte) : (offerByte s v).iterCnt = s.iterCnt := rfl
@[simp] theorem offerByte_rngCnt (s : State) (v : Byte) : (offerByte s v).rngCnt = s.rngCnt := rfl
@[simp] theorem offerByte_status (s : State) (v : Byte) : (offerByte s v).status = s.status := rfl
@[simp] theorem offerByte_pr (s : State) (v : Byte) : (offerByte s v).pr = s.pr := rfl
@[simp] theorem offerByte_key (s : State) (v : Byte) : (offerByte s v).key = s.key := rfl
@[simp] theorem offerByte_su (s : State) (v : Byte) : (offerByte s v).su = s.su := rfl
@[simp] theorem offerByte_dmem (s : State) (v : Byte) : (offerByte s v).dmem = s.dmem := rfl
@[simp] theorem offerByte_phase (s : State) (v : Byte) : (offerByte s v).phase = s.phase := rfl
@[simp] theorem offerByte_ctx (s : State) (v : Byte) : (offerByte s v).ctx = s.ctx := rfl
@[simp] theorem offerByte_params (s : State) (v : Byte) : (offerByte s v).params = s.params := rfl
@[simp] theorem offerByte_rng (s : State) (v : Byte) : (offerByte s v).rng = s.rng ++ [v] := rfl
@[simp] theorem offerByte_inflight (s : State) (v : Byte) : (offerByte s v).inflight = s.inflight := rfl
@[simp] theorem offerByte_turns (s : State) (v : Byte) : (offerByte s v).turns = s.turns := rfl
@[simp] theorem offerByte_inbox (s : State) (v : Byte) : (offerByte s v).inbox = s.inbox := rfl
@[simp] theorem offerByte_rdata (s : State) (v : Byte) : (offerByte s v).rdata = s.rdata := rfl

/-! ### State.finished: a completion that wrote nothing -/

@[simp] theorem State.finished_cmd (s : State) : (s.finished).cmd = s.cmd := rfl
@[simp] theorem State.finished_arg0 (s : State) : (s.finished).arg0 = s.arg0 := rfl
@[simp] theorem State.finished_arg1 (s : State) : (s.finished).arg1 = s.arg1 := rfl
@[simp] theorem State.finished_arg2 (s : State) : (s.finished).arg2 = s.arg2 := rfl
@[simp] theorem State.finished_arg3 (s : State) : (s.finished).arg3 = s.arg3 := rfl
@[simp] theorem State.finished_res0 (s : State) : (s.finished).res0 = s.res0 := rfl
@[simp] theorem State.finished_res1 (s : State) : (s.finished).res1 = s.res1 := rfl
@[simp] theorem State.finished_cfgN (s : State) : (s.finished).cfgN = s.cfgN := rfl
@[simp] theorem State.finished_cfgMod (s : State) : (s.finished).cfgMod = s.cfgMod := rfl
@[simp] theorem State.finished_cfgLow (s : State) : (s.finished).cfgLow = s.cfgLow := rfl
@[simp] theorem State.finished_doneIE (s : State) : (s.finished).doneIE = s.doneIE := rfl
@[simp] theorem State.finished_iterCap (s : State) : (s.finished).iterCap = s.iterCap := rfl
@[simp] theorem State.finished_iterCnt (s : State) : (s.finished).iterCnt = s.iterCnt := rfl
@[simp] theorem State.finished_rngCnt (s : State) : (s.finished).rngCnt = s.rngCnt := rfl
@[simp] theorem State.finished_status (s : State) : (s.finished).status = { s.status with done := true } := rfl
@[simp] theorem State.finished_pr (s : State) : (s.finished).pr = s.pr := rfl
@[simp] theorem State.finished_key (s : State) : (s.finished).key = s.key := rfl
@[simp] theorem State.finished_su (s : State) : (s.finished).su = s.su := rfl
@[simp] theorem State.finished_dmem (s : State) : (s.finished).dmem = s.dmem := rfl
@[simp] theorem State.finished_phase (s : State) : (s.finished).phase = .idle := rfl
@[simp] theorem State.finished_ctx (s : State) : (s.finished).ctx = Context.empty := rfl
@[simp] theorem State.finished_params (s : State) : (s.finished).params = s.params := rfl
@[simp] theorem State.finished_rng (s : State) : (s.finished).rng = s.rng := rfl
@[simp] theorem State.finished_inflight (s : State) : (s.finished).inflight = 0 := rfl
@[simp] theorem State.finished_turns (s : State) : (s.finished).turns = s.turns := rfl
@[simp] theorem State.finished_inbox (s : State) : (s.finished).inbox = s.inbox := rfl
@[simp] theorem State.finished_rdata (s : State) : (s.finished).rdata = s.rdata := rfl

/-! ### State.failedWith: an error that consumed nothing -/

@[simp] theorem State.failedWith_cmd (s : State) (e : Err) : (s.failedWith e).cmd = s.cmd := rfl
@[simp] theorem State.failedWith_arg0 (s : State) (e : Err) : (s.failedWith e).arg0 = s.arg0 := rfl
@[simp] theorem State.failedWith_arg1 (s : State) (e : Err) : (s.failedWith e).arg1 = s.arg1 := rfl
@[simp] theorem State.failedWith_arg2 (s : State) (e : Err) : (s.failedWith e).arg2 = s.arg2 := rfl
@[simp] theorem State.failedWith_arg3 (s : State) (e : Err) : (s.failedWith e).arg3 = s.arg3 := rfl
@[simp] theorem State.failedWith_res0 (s : State) (e : Err) : (s.failedWith e).res0 = s.res0 := rfl
@[simp] theorem State.failedWith_res1 (s : State) (e : Err) : (s.failedWith e).res1 = s.res1 := rfl
@[simp] theorem State.failedWith_cfgN (s : State) (e : Err) : (s.failedWith e).cfgN = s.cfgN := rfl
@[simp] theorem State.failedWith_cfgMod (s : State) (e : Err) : (s.failedWith e).cfgMod = s.cfgMod := rfl
@[simp] theorem State.failedWith_cfgLow (s : State) (e : Err) : (s.failedWith e).cfgLow = s.cfgLow := rfl
@[simp] theorem State.failedWith_doneIE (s : State) (e : Err) : (s.failedWith e).doneIE = s.doneIE := rfl
@[simp] theorem State.failedWith_iterCap (s : State) (e : Err) : (s.failedWith e).iterCap = s.iterCap := rfl
@[simp] theorem State.failedWith_iterCnt (s : State) (e : Err) : (s.failedWith e).iterCnt = s.iterCnt := rfl
@[simp] theorem State.failedWith_rngCnt (s : State) (e : Err) : (s.failedWith e).rngCnt = s.rngCnt := rfl
@[simp] theorem State.failedWith_status (s : State) (e : Err) : (s.failedWith e).status = { s.status with done := true, err := true, errCode := some e } := rfl
@[simp] theorem State.failedWith_pr (s : State) (e : Err) : (s.failedWith e).pr = s.pr := rfl
@[simp] theorem State.failedWith_key (s : State) (e : Err) : (s.failedWith e).key = s.key := rfl
@[simp] theorem State.failedWith_su (s : State) (e : Err) : (s.failedWith e).su = s.su := rfl
@[simp] theorem State.failedWith_dmem (s : State) (e : Err) : (s.failedWith e).dmem = s.dmem := rfl
@[simp] theorem State.failedWith_phase (s : State) (e : Err) : (s.failedWith e).phase = .idle := rfl
@[simp] theorem State.failedWith_ctx (s : State) (e : Err) : (s.failedWith e).ctx = Context.empty := rfl
@[simp] theorem State.failedWith_params (s : State) (e : Err) : (s.failedWith e).params = s.params := rfl
@[simp] theorem State.failedWith_rng (s : State) (e : Err) : (s.failedWith e).rng = s.rng := rfl
@[simp] theorem State.failedWith_inflight (s : State) (e : Err) : (s.failedWith e).inflight = 0 := rfl
@[simp] theorem State.failedWith_turns (s : State) (e : Err) : (s.failedWith e).turns = s.turns := rfl
@[simp] theorem State.failedWith_inbox (s : State) (e : Err) : (s.failedWith e).inbox = s.inbox := rfl
@[simp] theorem State.failedWith_rdata (s : State) (e : Err) : (s.failedWith e).rdata = s.rdata := rfl

end Sys2Proof.Machine
end

