-- ==== Sys2Proof/Laws/Commit.lean ====
section
/-! SUPPORT. Everything the end of a command can do, said once: completion, completion with an error, and a command that
goes on (40_command R113 to R117), with the equations of `Res.bind`. -/

namespace Sys2Proof.Machine

/-! ### Parts of a command in sequence -/

@[simp] theorem Res.bind_ok {σ α β : Type} (a : α) (s : σ) (k : α → σ → Res σ β) : (Res.ok a s).bind k = k a s := rfl
@[simp] theorem Res.bind_err {σ α β : Type} (e : Err) (s : σ) (k : α → σ → Res σ β) :
    (Res.err e s).bind k = .err e s := rfl
@[simp] theorem Res.bind_starved {σ α β : Type} (s : σ) (k : α → σ → Res σ β) :
    (Res.starved s).bind k = .starved s := rfl
@[simp] theorem Res.bind_paused {σ α β : Type} (s : σ) (k : α → σ → Res σ β) :
    (Res.paused s).bind k = .paused s := rfl
@[simp] theorem Res.mapState_ok {σ τ α : Type} (a : α) (s : σ) (f : σ → τ) :
    (Res.ok a s).mapState f = .ok a (f s) := rfl
@[simp] theorem Res.mapState_err {σ τ α : Type} (e : Err) (s : σ) (f : σ → τ) :
    (Res.err e s : Res σ α).mapState f = .err e (f s) := rfl
@[simp] theorem Res.mapState_starved {σ τ α : Type} (s : σ) (f : σ → τ) :
    (Res.starved s : Res σ α).mapState f = .starved (f s) := rfl
@[simp] theorem Res.mapState_paused {σ τ α : Type} (s : σ) (f : σ → τ) :
    (Res.paused s : Res σ α).mapState f = .paused (f s) := rfl

/-- A sequence succeeds exactly where both parts do. -/
theorem Res.bind_eq_ok {σ α β : Type} {r : Res σ α} {k : α → σ → Res σ β} {b : β} {u : σ} :
    r.bind k = .ok b u ↔ ∃ a t, r = .ok a t ∧ k a t = .ok b u := by
  cases r <;> simp

/-- A sequence ends with an error where one of its parts does. -/
theorem Res.bind_eq_err {σ α β : Type} {r : Res σ α} {k : α → σ → Res σ β} {e : Err} {u : σ} :
    r.bind k = .err e u ↔ r = .err e u ∨ ∃ a t, r = .ok a t ∧ k a t = .err e u := by
  cases r <;> simp

theorem Res.mapState_eq_ok {σ τ α : Type} {r : Res σ α} {f : σ → τ} {a : α} {u : τ} :
    r.mapState f = .ok a u ↔ ∃ t, r = .ok a t ∧ f t = u := by
  cases r <;> simp

/-! ### The end of a command -/

@[simp] theorem feed_su (s : State) : s.feed.su = s.su := rfl
@[simp] theorem feed_rng (s : State) : s.feed.rng = s.rng := rfl
@[simp] theorem feed_pulled (s : State) : s.feed.pulled = 0 := rfl
@[simp] theorem feed_iterCnt (s : State) : s.feed.iterCnt = s.iterCnt := rfl

/-- A command that consumed nothing commits no consumption. -/
@[simp] theorem consume_feed (s : State) : s.consume s.feed = s := by
  simp [State.consume, State.feed]

/-- Writing nothing. -/
@[simp] theorem write_nothing (s : State) : s.write {} = s := rfl

/-- Completion is the commit of the consumption, then of the writes, then PHASE IDLE with DONE (40_command R114). -/
theorem complete_eq (s : State) (f : Feed) (w : Writes) : complete s f w = ((s.consume f).write w).finished := rfl

/-- An error is the commit of the consumption, then PHASE IDLE with DONE, ERR and the code (40_command R115). -/
theorem raiseErr_eq (s : State) (f : Feed) (e : Err) : raiseErr s f e = (s.consume f).failedWith e := rfl

theorem starve_eq (s : State) (f : Feed) : starve s f = s.goesOn f.pulled s.turns := rfl
theorem pause_eq (s : State) (f : Feed) : pause s f = s.goesOn f.pulled (2 * s.turns + 1) := rfl

@[simp] theorem conclude_ok (s : State) (w : Writes) (f : Feed) :
    conclude s (.ok w f) = .next ((s.consume f).write w).finished := rfl
@[simp] theorem conclude_err (s : State) (e : Err) (f : Feed) :
    conclude s (.err e f) = .next ((s.consume f).failedWith e) := rfl
@[simp] theorem conclude_starved (s : State) (f : Feed) :
    conclude s (.starved f) = .next (s.goesOn f.pulled s.turns) := rfl
@[simp] theorem conclude_paused (s : State) (f : Feed) :
    conclude s (.paused f) = .next (s.goesOn f.pulled (2 * s.turns + 1)) := rfl
@[simp] theorem ofExcept_ok (f : Feed) (w : Writes) : ofExcept f (.ok w) = .ok w f := rfl
@[simp] theorem ofExcept_error (f : Feed) (e : Err) : ofExcept f (.error e) = .err e f := rfl

/-- Everything a command's end can be: success, one error, or going on with nothing committed. -/
theorem conclude_cases (s : State) (r : Res Feed Writes) :
    (∃ f w, r = .ok w f ∧ conclude s r = .next ((s.consume f).write w).finished) ∨
    (∃ f e, r = .err e f ∧ conclude s r = .next ((s.consume f).failedWith e)) ∨
    (∃ f, r = .starved f ∧ conclude s r = .next (s.goesOn f.pulled s.turns)) ∨
    (∃ f, r = .paused f ∧ conclude s r = .next (s.goesOn f.pulled (2 * s.turns + 1))) := by
  cases r with
  | ok w f => exact .inl ⟨f, w, rfl, rfl⟩
  | err e f => exact .inr (.inl ⟨f, e, rfl, rfl⟩)
  | starved f => exact .inr (.inr (.inl ⟨f, rfl, rfl⟩))
  | paused f => exact .inr (.inr (.inr ⟨f, rfl, rfl⟩))

/-! ### Isolation of KEY_F (20_memory R71) -/

theorem SameButF.refl (s : State) : SameButF s s := rfl

/-- The other state is the first one with another KEY_F. -/
theorem sameButF_iff (s s' : State) : SameButF s s' ↔ ∃ f : Poly, s' = { s with key := { s.key with f := f } } := by
  refine ⟨fun h => ⟨_, h⟩, ?_⟩
  rintro ⟨f, rfl⟩
  rfl

/-- One run ends two states that differ in KEY_F at most in two such states. -/
theorem afterRun_sameButF {s s' : State} (h : SameButF s s') (r : Res Feed Writes) :
    SameButF (afterRun s r) (afterRun s' r) := by
  obtain ⟨f, rfl⟩ := (sameButF_iff s s').mp h
  cases r with
  | ok w g =>
    cases hk : w.key <;> simp [afterRun, complete, State.consume, State.write, State.toIdle, hk, SameButF]
  | err e g => rfl
  | starved g => rfl
  | paused g => rfl

/-- Every meaning is the end of one run of the command. -/
theorem exec_is_conclude (i : Instr) (s : State) : ∃ r, exec i s = conclude s r := by
  cases i <;> exact ⟨_, rfl⟩

end Sys2Proof.Machine
end

