-- ==== Sys2Proof/Laws/Streams.lean ====
section
/-! SUPPORT. What the stream functions can do, said once: pulls, index draws, trinomial sampling, trit decoding. A property
of the consumption state that every pull keeps is kept by every loop over pulls, whatever its outcome. -/

namespace Sys2Proof.Machine

/-! ### Outcomes -/

/-- The consumption state an outcome carries meets Q. -/
def Res.All {σ α : Type} (Q : σ → Prop) : Res σ α → Prop
  | .ok _ s => Q s
  | .err _ s => Q s
  | .starved s => Q s
  | .paused s => Q s

theorem Res.All.bind {σ α β : Type} {Q R : σ → Prop} {r : Res σ α} {k : α → σ → Res σ β} (hr : r.All Q)
    (hok : ∀ a s, r = .ok a s → Q s → (k a s).All R) (hQR : ∀ s, Q s → R s) : (r.bind k).All R := by
  cases r with
  | ok a s => exact hok a s rfl hr
  | err e s => exact hQR s hr
  | starved s => exact hQR s hr
  | paused s => exact hQR s hr

theorem Res.All.mapState {σ τ α : Type} {Q : σ → Prop} {R : τ → Prop} {r : Res σ α} {f : σ → τ} (hr : r.All Q)
    (h : ∀ s, Q s → R (f s)) : (r.mapState f).All R := by
  cases r <;> exact h _ hr

theorem Res.All.imp {σ α : Type} {Q R : σ → Prop} {r : Res σ α} (hr : r.All Q) (h : ∀ s, Q s → R s) : r.All R := by
  cases r <;> exact h _ hr

theorem Res.All.ok {σ α : Type} {Q : σ → Prop} {r : Res σ α} {a : α} {s : σ} (hr : r.All Q) (h : r = .ok a s) : Q s := by
  subst h; exact hr

theorem Res.All.err {σ α : Type} {Q : σ → Prop} {r : Res σ α} {e : Err} {s : σ} (hr : r.All Q) (h : r = .err e s) :
    Q s := by
  subst h; exact hr

/-! ### Pulls -/

/-- Everything a pull from the RNG port can be (44_streams R191). -/
theorem rngPull_cases (f : Feed) :
    (f.rng = [] ∧ rngPull f = .starved f) ∨
    (∃ v rest, f.rng = v :: rest ∧ rngPull f = .ok v { f with rng := rest, pulled := f.pulled + 1 }) := by
  unfold rngPull
  split
  · next h => exact .inl ⟨h, rfl⟩
  · next v rest h => exact .inr ⟨v, rest, h, rfl⟩

/-- An RNG pull touches neither the stream unit nor ITER_CNT, and the bytes it counts are the first of those offered. -/
theorem rngPull_keeps (u : StreamUnit) (it : Word) (base : List Byte) (f : Feed)
    (h : f.su = u ∧ f.iterCnt = it ∧ f.pulled ≤ base.length ∧ f.rng = base.drop f.pulled) :
    (rngPull f).All fun g => g.su = u ∧ g.iterCnt = it ∧ g.pulled ≤ base.length ∧ g.rng = base.drop g.pulled := by
  rcases rngPull_cases f with ⟨-, hq⟩ | ⟨v, rest, hr, hq⟩ <;> rw [hq]
  · exact h
  · have hd : base.drop f.pulled = v :: rest := h.2.2.2 ▸ hr
    have hl := congrArg List.length hd
    rw [List.length_drop, List.length_cons] at hl
    refine ⟨h.1, h.2.1, show f.pulled + 1 ≤ base.length by omega, show rest = base.drop (f.pulled + 1) from ?_⟩
    rw [← List.drop_drop, hd, List.drop_one, List.tail_cons]

/-- An RNG pull never ends with an error and never pauses. -/
theorem rngPull_ne_err (f g : Feed) (e : Err) : rngPull f ≠ .err e g := by
  rcases rngPull_cases f with ⟨-, hq⟩ | ⟨v, rest, -, hq⟩ <;> rw [hq] <;> simp

/-- Everything a pull from the current source can be (44_streams R192). -/
theorem pull_cases (mem : Memory) (impl : DigestImpl) (f : Feed) :
    (f.su.src = .none ∧ pull mem impl f = .err .noSource f) ∨
    (f.su.src = .rng ∧ pull mem impl f = rngPull f) ∨
    (f.su.src = .mem ∧ f.su.mcur = f.su.mend ∧ pull mem impl f = .err .srcExhausted f) ∨
    (f.su.src = .mem ∧ f.su.mcur ≠ f.su.mend ∧
      pull mem impl f = .ok (mem.read f.su.mcur) { f with su := { f.su with mcur := f.su.mcur + 1 } }) ∨
    (f.su.src = .mgf ∧
      pull mem impl f =
        .ok (mgfPull impl f.su.mgf).1 { f with su := { f.su with mgf := (mgfPull impl f.su.mgf).2 } }) := by
  unfold pull
  cases hs : f.su.src with
  | none => simp
  | rng => simp
  | mem =>
    by_cases hm : f.su.mcur = f.su.mend
    · simp [hm]
    · simp [hm]
  | mgf => simp

/-- A pull keeps the IGF2 state, ITER_CNT and the source, and the RNG bytes it counts are the first of those offered. -/
theorem pull_keeps (mem : Memory) (impl : DigestImpl) (igf : Igf) (src : Source) (it : Word) (base : List Byte) (f : Feed)
    (h : f.su.igf = igf ∧ f.su.src = src ∧ f.iterCnt = it ∧ f.pulled ≤ base.length ∧ f.rng = base.drop f.pulled) :
    (pull mem impl f).All fun g =>
      g.su.igf = igf ∧ g.su.src = src ∧ g.iterCnt = it ∧ g.pulled ≤ base.length ∧ g.rng = base.drop g.pulled := by
  rcases pull_cases mem impl f with ⟨-, hq⟩ | ⟨-, hq⟩ | ⟨-, -, hq⟩ | ⟨-, -, hq⟩ | ⟨-, hq⟩ <;> rw [hq]
  · exact h
  · exact (rngPull_keeps f.su it base f ⟨rfl, h.2.2⟩).imp fun g hg => by rw [hg.1]; exact ⟨h.1, h.2.1, hg.2⟩
  · exact h
  · exact h
  · exact h

/-- A pull of a scratch MGF1 stream always answers (44_streams R193). -/
theorem mgfPullRes_ok (impl : DigestImpl) (m : Mgf) : mgfPullRes impl m = .ok (mgfPull impl m).1 (mgfPull impl m).2 := rfl

/-! ### IGF2 -/

section Loops

variable {σ : Type} {pull : σ → Res σ Byte} {Q : σ → Prop}

theorem igfFill_keeps (hp : ∀ s, Q s → (pull s).All Q) (n : Nat) (g : Igf) (s : σ) (h : Q s) :
    (igfFill pull n g s).All fun x => Q x.2 := by
  induction n generalizing g s with
  | zero => exact h
  | succ n ih =>
    have hq := hp s h
    unfold igfFill
    cases hr : pull s with
    | ok v t => rw [hr] at hq; exact ih _ _ hq
    | err e t => rw [hr] at hq; exact hq
    | starved t => rw [hr] at hq; exact hq
    | paused t => rw [hr] at hq; exact hq

/-- Filling changes only the buffer and the bit count (44_streams R200). -/
theorem igfFill_igf (n : Nat) (g : Igf) (s : σ) :
    (igfFill pull n g s).All fun x =>
      x.1.act = g.act ∧ x.1.m = g.m ∧ x.1.b = g.b ∧ x.1.cut = g.cut ∧
        (g.buf < 2 ^ g.nbits → x.1.buf < 2 ^ x.1.nbits) ∧ g.nbits ≤ x.1.nbits ∧ x.1.nbits ≤ g.nbits + 8 * n := by
  induction n generalizing g s with
  | zero => exact ⟨rfl, rfl, rfl, rfl, id, le_refl _, by show g.nbits ≤ _; omega⟩
  | succ n ih =>
    have here : g.act = g.act ∧ g.m = g.m ∧ g.b = g.b ∧ g.cut = g.cut ∧
        (g.buf < 2 ^ g.nbits → g.buf < 2 ^ g.nbits) ∧ g.nbits ≤ g.nbits ∧ g.nbits ≤ g.nbits + 8 * (n + 1) :=
      ⟨rfl, rfl, rfl, rfl, id, le_refl _, by omega⟩
    unfold igfFill
    cases hr : pull s with
    | ok v t =>
      refine (ih (igfPush g v) t).imp fun x hx => ⟨hx.1, hx.2.1, hx.2.2.1, hx.2.2.2.1, fun hb => hx.2.2.2.2.1 ?_, ?_, ?_⟩
      · show g.buf * 256 + v.toNat < 2 ^ (g.nbits + 8)
        have hv : v.toNat < 256 := v.isLt
        rw [pow_add]
        omega
      · have h1 : g.nbits + 8 ≤ x.1.nbits := hx.2.2.2.2.2.1
        omega
      · have h2 : x.1.nbits ≤ g.nbits + 8 + 8 * n := hx.2.2.2.2.2.2
        omega
    | err e t => exact here
    | starved t => exact here
    | paused t => exact here

/-- Filling to the end adds exactly 8 bits a byte. -/
theorem igfFill_ok {n : Nat} {g : Igf} {s : σ} {u : Unit} {x : Igf × σ} (h : igfFill pull n g s = .ok u x) :
    x.1.nbits = g.nbits + 8 * n := by
  induction n generalizing g s with
  | zero => simp only [igfFill, Res.ok.injEq] at h; rw [← h.2]; rfl
  | succ n ih =>
    unfold igfFill at h
    cases hr : pull s with
    | ok v t =>
      rw [hr] at h
      have := ih h
      simp only [igfPush] at this
      omega
    | err e t => rw [hr] at h; simp at h
    | starved t => rw [hr] at h; simp at h
    | paused t => rw [hr] at h; simp at h

/-- A fill that stops early has taken fewer bytes than it wanted. -/
theorem igfFill_stops (n : Nat) (g : Igf) (s : σ) (h : ∀ u x, igfFill pull n g s ≠ .ok u x) :
    (igfFill pull n g s).All fun x => x.1.nbits + 8 ≤ g.nbits + 8 * n := by
  induction n generalizing g s with
  | zero => exact absurd rfl (h () (g, s))
  | succ n ih =>
    have here : g.nbits + 8 ≤ g.nbits + 8 * (n + 1) := by omega
    unfold igfFill at h ⊢
    cases hr : pull s with
    | ok v t =>
      rw [hr] at h
      refine (ih (igfPush g v) t h).imp fun x hx => ?_
      have : x.1.nbits + 8 ≤ g.nbits + 8 + 8 * n := hx
      omega
    | err e t => exact here
    | starved t => exact here
    | paused t => exact here

theorem igfNext_keeps (hp : ∀ s, Q s → (pull s).All Q) (turns rej : Nat) (g : Igf) (s : σ) (h : Q s) :
    (igfNext pull turns rej g s).All fun x => Q x.2 := by
  induction turns generalizing rej g s with
  | zero => exact h
  | succ n ih =>
    unfold igfNext
    refine (igfFill_keeps hp _ g s h).bind (fun u x _ hx => ?_) fun x hx => hx
    split
    · exact hx
    · exact ih _ _ _ hx

/-- A draw keeps the IGF2 state as 10_state R46 says it is. -/
theorem igfNext_igf (turns rej : Nat) (g : Igf) (s : σ) (h : g.Ok) (ha : g.act = true) :
    (igfNext pull turns rej g s).All fun x =>
      x.1.Ok ∧ x.1.act = true ∧ x.1.m = g.m ∧ x.1.b = g.b ∧ x.1.cut = g.cut := by
  induction turns generalizing rej g s with
  | zero => exact ⟨h, ha, rfl, rfl, rfl⟩
  | succ n ih =>
    unfold igfNext
    have hg := h.2 ha
    have hfill := igfFill_igf (pull := pull) (igfNeed g) g s
    have short : (∀ u x, igfFill pull (igfNeed g) g s ≠ .ok u x) →
        (igfFill pull (igfNeed g) g s).All fun x =>
          x.1.Ok ∧ x.1.act = true ∧ x.1.m = g.m ∧ x.1.b = g.b ∧ x.1.cut = g.cut := by
      intro hne
      have hstop := igfFill_stops (pull := pull) (igfNeed g) g s hne
      revert hfill hstop
      cases igfFill pull (igfNeed g) g s <;> intro hfill hstop <;>
      · obtain ⟨h1, h2, h3, h4, h5, h6, h7⟩ := hfill
        refine ⟨⟨fun hf => absurd (h1.trans ha) (by rw [hf]; simp), fun _ => ?_⟩, h1.trans ha, h2, h3, h4⟩
        rw [h2, h3, h4]
        refine ⟨hg.1, hg.2.1, hg.2.2.1, hg.2.2.2.1, hg.2.2.2.2.1, h5 hg.2.2.2.2.2.1, ?_⟩
        simp only [Res.All, igfNeed] at hstop
        omega
    cases hr : igfFill pull (igfNeed g) g s with
    | ok u x =>
      rw [hr] at hfill
      obtain ⟨h1, h2, h3, h4, h5, -, -⟩ := hfill
      have h6 := igfFill_ok hr
      have hb : g.b ≤ x.1.nbits := by rw [h6, igfNeed]; omega
      have hlt : x.1.nbits - g.b < 16 := by
        rw [h6, igfNeed]
        have := hg.2.2.2.2.2.2
        omega
      have hrest : (igfRest x.1).Ok := by
        refine ⟨fun hf => absurd (h1.trans ha) (by rw [show x.1.act = false from hf]; simp), fun _ => ?_⟩
        simp only [igfRest]
        rw [h2, h3, h4]
        exact ⟨hg.1, hg.2.1, hg.2.2.1, hg.2.2.2.1, hg.2.2.2.2.1, Nat.mod_lt _ (by positivity), hlt⟩
      have hact : (igfRest x.1).act = true := h1.trans ha
      simp only [Res.bind_ok]
      split
      · exact ⟨hrest, hact, h2, h3, h4⟩
      · refine (ih _ (igfRest x.1) x.2 hrest hact).imp fun y hy => ?_
        exact ⟨hy.1, hy.2.1, hy.2.2.1.trans h2, hy.2.2.2.1.trans h3, hy.2.2.2.2.trans h4⟩
    | err e x => rw [hr] at short; exact short (by simp)
    | starved x => rw [hr] at short; exact short (by simp)
    | paused x => rw [hr] at short; exact short (by simp)

/-- A drawn index lies in [0, M) (44_streams R200). -/
theorem igfNext_lt (turns rej : Nat) (g : Igf) (s : σ) {d : Nat × Nat} {x : Igf × σ} (hm : 1 ≤ g.m)
    (h : igfNext pull turns rej g s = .ok d x) : d.1 < g.m := by
  induction turns generalizing rej g s with
  | zero => simp [igfNext] at h
  | succ n ih =>
    unfold igfNext at h
    obtain ⟨u, y, hy, h⟩ := Res.bind_eq_ok.mp h
    have hfill := (igfFill_igf (pull := pull) (igfNeed g) g s).ok hy
    split at h
    · simp only [Res.ok.injEq] at h
      rw [← h.1, hfill.2.1]
      exact Nat.mod_lt _ hm
    · have hm' : (igfRest y.1).m = g.m := hfill.2.1
      rw [← hm']
      exact ih _ _ _ (by omega) h

/-- Every outcome of a draw keeps M (44_streams R200). -/
theorem igfNext_m (turns rej : Nat) (g : Igf) (s : σ) : (igfNext pull turns rej g s).All fun x => x.1.m = g.m := by
  induction turns generalizing rej g s with
  | zero => rfl
  | succ n ih =>
    unfold igfNext
    refine ((igfFill_igf (pull := pull) (igfNeed g) g s).imp fun x hx => hx.2.1).bind (fun u x _ hx => ?_) fun x hx => hx
    split
    · exact hx
    · exact (ih _ (igfRest x.1) x.2).imp fun y hy => hy.trans hx

/-! ### BPGM3 -/

theorem bpgmPlace_keeps (hp : ∀ s, Q s → (pull s).All Q) (turns : Nat) (val : Int) (left need : Nat) (acc : Bpgm)
    (s : Igf × σ) (h : Q s.2) : (bpgmPlace pull turns val left need acc s).All fun x => Q x.2 := by
  induction left generalizing need acc s with
  | zero => cases need <;> exact h
  | succ n ih =>
    cases need with
    | zero => exact h
    | succ k =>
      unfold bpgmPlace
      exact (igfNext_keeps hp _ _ _ _ h).bind (fun d x _ hx => ih _ _ _ hx) fun x hx => hx

/-- The draws of BPGM3 keep the IGF2 state as 10_state R46 says it is. -/
theorem bpgmPlace_igf (turns : Nat) (val : Int) (left need : Nat) (acc : Bpgm) (s : Igf × σ) (h : s.1.Ok)
    (ha : s.1.act = true) :
    (bpgmPlace pull turns val left need acc s).All fun x => x.1.Ok ∧ x.1.act = true ∧ x.1.m = s.1.m := by
  induction left generalizing need acc s with
  | zero => cases need <;> exact ⟨h, ha, rfl⟩
  | succ n ih =>
    cases need with
    | zero => exact ⟨h, ha, rfl⟩
    | succ k =>
      unfold bpgmPlace
      refine (igfNext_igf (pull := pull) turns 0 s.1 s.2 h ha).bind (fun d x _ hx => ?_) fun x hx => ⟨hx.1, hx.2.1, hx.2.2.1⟩
      exact (ih _ _ _ hx.1 hx.2.1).imp fun y hy => ⟨hy.1, hy.2.1, hy.2.2.trans hx.2.2.1⟩

/-- Setting a free coefficient: one more of the new value, one fewer 0, every other count as before. -/
theorem countSym_set {N i : Nat} {t : Vec} {val : Int} (hl : t.length = N) (hi : i < N) (h0 : at' t i = 0)
    (hv : val ≠ 0) :
    countSym N (t.set i val) val = countSym N t val + 1 ∧
      countSym N t 0 = countSym N (t.set i val) 0 + 1 ∧
      ∀ s, s ≠ val → s ≠ 0 → countSym N (t.set i val) s = countSym N t s := by
  have hset : ∀ j, at' (t.set i val) j = if j = i then val else at' t j := by
    intro j
    simp only [at', List.getD_eq_getElem?_getD, List.getElem?_set]
    by_cases hj : i = j
    · subst hj; simp [hl, hi]
    · simp [hj, Ne.symm hj]
  have hperm : (List.range N).Perm (i :: (List.range N).erase i) :=
    List.perm_cons_erase (List.mem_range.mpr hi)
  have hnot : ∀ j ∈ (List.range N).erase i, j ≠ i := fun j hj hji => by
    subst hji; exact (List.nodup_range.not_mem_erase) hj
  have split : ∀ (u : Vec) (s : Int), countSym N u s =
      ((List.range N).erase i).countP (fun j => at' u j == s) + if at' u i = s then 1 else 0 := by
    intro u s
    rw [countSym, hperm.countP_eq, List.countP_cons]
    simp
  have same : ∀ s, ((List.range N).erase i).countP (fun j => at' (t.set i val) j == s) =
      ((List.range N).erase i).countP (fun j => at' t j == s) := by
    intro s
    refine List.countP_congr fun j hj => ?_
    rw [hset, if_neg (hnot j hj)]
  refine ⟨?_, ?_, fun s hs hs0 => ?_⟩
  · rw [split, split, same, hset, if_pos rfl, if_pos rfl, h0, if_neg (Ne.symm hv)]
  · rw [split, split, same, hset, if_pos rfl, if_neg hv, h0, if_pos rfl]
  · rw [split, split, same, hset, if_pos rfl, if_neg (Ne.symm hs), h0, if_neg (Ne.symm hs0)]

/-- Everything the placing of one value does (44_streams R203): exactly `need` free coefficients take the value, in at
least as many draws. -/
theorem bpgmPlace_ok {turns : Nat} {val : Int} {N left need : Nat} {acc acc' : Bpgm} {s x : Igf × σ} (hN : 1 ≤ N)
    (hm : s.1.m = N) (hl : acc.t.length = N) (hv : val ≠ 0)
    (h : bpgmPlace pull turns val left need acc s = .ok acc' x) :
    acc'.t.length = N ∧ x.1.m = N ∧ countSym N acc'.t val = countSym N acc.t val + need ∧
      countSym N acc.t 0 = countSym N acc'.t 0 + need ∧
      (∀ u, u ≠ val → u ≠ 0 → countSym N acc'.t u = countSym N acc.t u) ∧
      acc.draws + need ≤ acc'.draws ∧ ∀ i, at' acc'.t i = at' acc.t i ∨ at' acc'.t i = val := by
  induction left generalizing need acc s with
  | zero =>
    cases need with
    | zero =>
      simp only [bpgmPlace, Res.ok.injEq] at h
      obtain ⟨rfl, rfl⟩ := h
      exact ⟨hl, hm, rfl, rfl, fun u _ _ => rfl, le_refl _, fun i => .inl rfl⟩
    | succ k => simp [bpgmPlace] at h
  | succ n ih =>
    cases need with
    | zero =>
      simp only [bpgmPlace, Res.ok.injEq] at h
      obtain ⟨rfl, rfl⟩ := h
      exact ⟨hl, hm, rfl, rfl, fun u _ _ => rfl, le_refl _, fun i => .inl rfl⟩
    | succ k =>
      unfold bpgmPlace at h
      obtain ⟨d, y, hy, h⟩ := Res.bind_eq_ok.mp h
      have hd : d.1 < N := hm ▸ igfNext_lt _ _ _ _ (by omega) hy
      have hym : y.1.m = N := ((igfNext_m (pull := pull) turns 0 s.1 s.2).ok hy).trans hm
      by_cases h0 : at' acc.t d.1 = 0
      · rw [if_pos h0] at h
        have hlen : (bpgmDraw acc val d.1 d.2).t.length = N := by simp [bpgmDraw, h0, hl]
        obtain ⟨r1, r2, r3, r4, r5, r6, r7⟩ := ih hym hlen h
        have ht : (bpgmDraw acc val d.1 d.2).t = acc.t.set d.1 val := by simp [bpgmDraw, h0]
        rw [ht] at r3 r4 r5 r7
        obtain ⟨c1, c2, c3⟩ := countSym_set hl hd h0 hv
        refine ⟨r1, r2, by omega, by omega, fun u hu hu0 => (r5 u hu hu0).trans (c3 u hu hu0), ?_, fun i => ?_⟩
        · simp only [bpgmDraw] at r6; omega
        · rcases r7 i with h7 | h7
          · rw [h7]
            simp only [at', List.getD_eq_getElem?_getD, List.getElem?_set]
            by_cases hj : d.1 = i
            · subst hj; simp [hl, hd]
            · simp [hj]
          · exact .inr h7
      · rw [if_neg h0] at h
        have ht : (bpgmDraw acc val d.1 d.2).t = acc.t := by simp [bpgmDraw, h0]
        obtain ⟨r1, r2, r3, r4, r5, r6, r7⟩ := ih hym (by rw [ht]; exact hl) h
        rw [ht] at r3 r4 r5 r7
        refine ⟨r1, r2, r3, r4, r5, ?_, r7⟩
        simp only [bpgmDraw] at r6; omega

theorem countSym_zeros (N : Nat) (s : Int) : countSym N (tab N fun _ => 0) s = if s = 0 then N else 0 := by
  have h : countSym N (tab N fun _ => 0) s = (List.range N).countP fun _ => (0 : Int) == s := by
    refine List.countP_congr fun i hi => ?_
    rw [at'_tab _ (List.mem_range.mp hi)]
  rw [h]
  by_cases hs : s = 0
  · subst hs; simp
  · simp [hs, Ne.symm hs]

/-- Everything BPGM3 does (44_streams R203): a trinomial with exactly the two weights, in at least as many draws. -/
theorem bpgm3_ok {turns N ones negs : Nat} {s x : Igf × σ} {r : Bpgm} (hN : 1 ≤ N) (hm : s.1.m = N)
    (h : bpgm3 pull turns N ones negs s = .ok r x) :
    r.t.length = N ∧ countSym N r.t 1 = ones ∧ countSym N r.t (-1) = negs ∧
      countSym N r.t 0 + ones + negs = N ∧ ones + negs ≤ r.draws ∧
      ∀ i, at' r.t i = 0 ∨ at' r.t i = 1 ∨ at' r.t i = -1 := by
  unfold bpgm3 at h
  obtain ⟨acc, y, hy, h⟩ := Res.bind_eq_ok.mp h
  obtain ⟨a1, a2, a3, a4, a5, a6, a7⟩ := bpgmPlace_ok hN hm (by simp) (by decide) hy
  obtain ⟨b1, -, b3, b4, b5, b6, b7⟩ := bpgmPlace_ok hN a2 a1 (by decide) h
  have c1 := countSym_zeros N 1
  have c2 := countSym_zeros N (-1)
  have c3 := countSym_zeros N 0
  have d1 := a5 (-1) (by decide) (by decide)
  dsimp only at a3 a4 a6 d1
  have d2 := b5 1 (by decide) (by decide)
  simp only [show ((1 : Int) = 0) = False by simp, show ((-1 : Int) = 0) = False by simp, if_false, if_true] at c1 c2 c3
  refine ⟨b1, by omega, by omega, by omega, by omega, fun i => ?_⟩
  have hz : at' (tab N fun _ => 0) i = 0 := by
    by_cases hi : i < N
    · exact at'_tab _ hi
    · exact at'_tab_ge _ (by omega)
  rcases b7 i with h7 | h7
  · rcases a7 i with h8 | h8
    · exact .inl (h7.trans (h8.trans hz))
    · exact .inr (.inl (h7.trans h8))
  · exact .inr (.inr h7)

theorem bpgm3_keeps (hp : ∀ s, Q s → (pull s).All Q) (turns N ones negs : Nat) (s : Igf × σ) (h : Q s.2) :
    (bpgm3 pull turns N ones negs s).All fun x => Q x.2 :=
  (bpgmPlace_keeps hp turns 1 turns ones _ s h).bind (fun acc x _ hx => bpgmPlace_keeps hp turns (-1) turns negs acc x hx)
    fun _ hx => hx

theorem bpgm3_igf (turns N ones negs : Nat) (s : Igf × σ) (h : s.1.Ok) (ha : s.1.act = true) :
    (bpgm3 pull turns N ones negs s).All fun x => x.1.Ok ∧ x.1.act = true ∧ x.1.m = s.1.m :=
  (bpgmPlace_igf turns 1 turns ones _ s h ha).bind
    (fun acc x _ hx => (bpgmPlace_igf turns (-1) turns negs acc x hx.1 hx.2.1).imp
      fun _ hy => ⟨hy.1, hy.2.1, hy.2.2.trans hx.2.2⟩) fun _ hx => hx

/-! ### MGF_TP_1 -/

theorem tpDecode_keeps (hp : ∀ s, Q s → (pull s).All Q) (N turns : Nat) (acc : TpAcc) (s : σ) (h : Q s) :
    (tpDecode pull N turns acc s).All Q := by
  induction turns generalizing acc s with
  | zero => unfold tpDecode; split <;> exact h
  | succ n ih =>
    unfold tpDecode
    split
    · exact h
    · exact (hp s h).bind (fun v x _ hx => ih _ _ hx) fun x hx => hx

theorem trit_cases (v j : Nat) : trit (v / 3 ^ j % 3) = 0 ∨ trit (v / 3 ^ j % 3) = 1 ∨ trit (v / 3 ^ j % 3) = -1 := by
  have h : v / 3 ^ j % 3 < 3 := Nat.mod_lt _ (by decide)
  generalize v / 3 ^ j % 3 = d at h
  interval_cases d <;> decide

/-- Every decoded symbol is a trit (44_streams R204). -/
theorem tritsOfByte_trits (v : Byte) : ∀ t ∈ tritsOfByte v, t = 0 ∨ t = 1 ∨ t = -1 := by
  intro t ht
  simp only [tritsOfByte, List.mem_map] at ht
  obtain ⟨j, -, rfl⟩ := ht
  exact trit_cases _ _

@[simp] theorem tritsOfByte_length (v : Byte) : (tritsOfByte v).length = 5 := by simp [tritsOfByte]

/-- Everything the decoder does (44_streams R204): exactly N trits. -/
theorem tpDecode_ok {N turns : Nat} {acc r : TpAcc} {s x : σ} (hl : acc.t.length ≤ N)
    (ht : ∀ t ∈ acc.t, t = 0 ∨ t = 1 ∨ t = -1) (h : tpDecode pull N turns acc s = .ok r x) :
    r.t.length = N ∧ ∀ t ∈ r.t, t = 0 ∨ t = 1 ∨ t = -1 := by
  induction turns generalizing acc s with
  | zero =>
    unfold tpDecode at h
    split at h
    · simp only [Res.ok.injEq] at h; rw [← h.1]; exact ⟨by omega, ht⟩
    · simp at h
  | succ n ih =>
    unfold tpDecode at h
    split at h
    · simp only [Res.ok.injEq] at h; rw [← h.1]; exact ⟨by omega, ht⟩
    · next hlt =>
      obtain ⟨v, y, -, h⟩ := Res.bind_eq_ok.mp h
      refine ih ?_ ?_ h
      · unfold tpByte
        split
        · exact hl
        · simp only [List.length_append, List.length_take, tritsOfByte_length]; omega
      · unfold tpByte
        split
        · exact ht
        · intro t htm
          rcases List.mem_append.mp htm with htm | htm
          · exact ht t htm
          · exact tritsOfByte_trits v t (List.mem_of_mem_take htm)

end Loops

end Sys2Proof.Machine
end

