-- ==== Sys2Proof/Laws/Protocol.lean ====
section
/-! SUPPORT. What the shared parts of the protocol answer (45_ntru R244 to R250, R258), and a bound under which
decryption does not wrap (R268). -/

namespace Sys2Proof.Machine

/-! ### Sums and convolutions -/

/-- The sum of 41_poly_arith R135 as a sum over a range. -/
theorem sumTo_eq_sum (n : Nat) (f : Nat → Int) : sumTo n f = ∑ i ∈ Finset.range n, f i := by
  induction n with
  | zero => rfl
  | succ n ih => rw [sumTo, ih, Finset.sum_range_succ]

theorem sumTo_congr {n : Nat} {f g : Nat → Int} (h : ∀ i, i < n → f i = g i) : sumTo n f = sumTo n g := by
  rw [sumTo_eq_sum, sumTo_eq_sum]
  exact Finset.sum_congr rfl fun i hi => h i (Finset.mem_range.mp hi)

/-- A convolution depends on the coefficients below N alone. -/
theorem convAt_congr {N k : Nat} {a a' b b' : Vec} (hN : 1 ≤ N) (ha : ∀ i, i < N → at' a i = at' a' i)
    (hb : ∀ i, i < N → at' b i = at' b' i) : convAt N a b k = convAt N a' b' k :=
  sumTo_congr fun i hi => by rw [ha i hi, hb _ (Nat.mod_lt _ hN)]

/-- Coefficients of size A and B give a convolution of size N·A·B. -/
theorem abs_convAt_le {N k : Nat} {a b : Vec} {A B : Int} (hN : 1 ≤ N) (hA : 0 ≤ A)
    (ha : ∀ i, i < N → |at' a i| ≤ A) (hb : ∀ i, i < N → |at' b i| ≤ B) : |convAt N a b k| ≤ N * (A * B) := by
  rw [convAt, sumTo_eq_sum]
  refine (Finset.abs_sum_le_sum_abs _ _).trans ?_
  calc ∑ i ∈ Finset.range N, |at' a i * at' b ((k + N - i) % N)|
      ≤ ∑ _i ∈ Finset.range N, A * B := Finset.sum_le_sum fun i hi => by
        rw [abs_mul]
        exact mul_le_mul (ha i (Finset.mem_range.mp hi)) (hb _ (Nat.mod_lt _ hN)) (abs_nonneg _) hA
    _ = N * (A * B) := by simp

/-! ### Trinomials -/

/-- A trit has size at most 1. -/
theorem abs_trit_le {v : Int} (h : v = 0 ∨ v = 1 ∨ v = -1) : |v| ≤ 1 := by
  rcases h with rfl | rfl | rfl <;> decide

/-- `GenR` answers a trinomial of dimension N with dr ones and dr negative ones (45_ntru R246). -/
theorem genR_ok {impl : DigestImpl} {turns : Nat} {P : ParamSet} {s : List Byte} {r : Bpgm} {x : Igf × Mgf}
    (hN : 1 ≤ P.N) (h : genR impl turns P s = .ok r x) :
    r.t.length = P.N ∧ countSym P.N r.t 1 = P.dr ∧ countSym P.N r.t (-1) = P.dr ∧
      ∀ i, at' r.t i = 0 ∨ at' r.t i = 1 ∨ at' r.t i = -1 := by
  have h' := bpgm3_ok hN rfl h
  exact ⟨h'.1, h'.2.1, h'.2.2.1, h'.2.2.2.2.2⟩

/-- `GenMask` answers a trinomial of dimension N (45_ntru R248). -/
theorem genMask_ok {impl : DigestImpl} {turns : Nat} {P : ParamSet} {R : Vec} {m : TpAcc} {x : Mgf}
    (h : genMask impl turns P R = .ok m x) : m.t.length = P.N ∧ ∀ t ∈ m.t, t = 0 ∨ t = 1 ∨ t = -1 :=
  tpDecode_ok (Nat.zero_le _) (by simp) h

/-- Every coefficient of a message representative is a trit (45_ntru R258). -/
theorem abs_messageRep_le (P : ParamSet) (b m : List Byte) (mask : Vec) (i : Nat) (hi : i < P.N) :
    |at' (messageRep P b m mask) i| ≤ 1 := by
  rw [messageRep, at'_tab _ hi]
  have h := red_range (v := at' (binToTri P (msgBuf P b m)) i + at' mask i) (m := 3) (low := -1) (by decide)
  rw [abs_le]
  omega

/-- The size of the private polynomial of a trinomial F (45_ntru R240). -/
theorem abs_privPoly_le {N : Nat} {F : Vec} (hF : ∀ i, i < N → |at' F i| ≤ 1) (i : Nat) (hi : i < N) :
    |at' (privPoly N F) i| ≤ 4 := by
  rw [privPoly, at'_tab _ hi]
  have := abs_le.mp (hF i hi)
  rw [abs_le]
  simp only [Config.p]
  split <;> push_cast <;> omega

/-- Trinomials F and g of a dimension below 146 never wrap: 3·N + 4·N < 1024. -/
theorem neverWraps_of_small {impl : DigestImpl} {turns : Nat} {P : ParamSet} {F g h : Vec} {m : List Byte}
    (hN : 1 ≤ P.N) (hN' : 7 * P.N < 1024) (hF : ∀ i, i < P.N → |at' F i| ≤ 1) (hg : ∀ i, i < P.N → |at' g i| ≤ 1) :
    NeverWraps impl turns P F g h m := by
  intro b r x mask y _ hr _ i _
  have h1 := abs_le.mp (abs_convAt_le (k := i) hN (by decide : (0 : Int) ≤ 1)
    (fun j _ => abs_trit_le ((genR_ok hN hr).2.2.2 j)) hg)
  have h2 := abs_le.mp (abs_convAt_le (k := i) hN (by decide : (0 : Int) ≤ 4) (abs_privPoly_le hF)
    (abs_messageRep_le P b m mask.t))
  omega

end Sys2Proof.Machine
end

