-- ==== Sys2Proof/Laws/Attempts.lean ====
section
/-! SUPPORT. What the attempt loops of key generation and encryption answer (45_ntru R243, R252, R253, R257, R258): the
bytes they take from the RNG port, their attempts, and that ITER_LIMIT is the one error they raise. -/

namespace Sys2Proof.Machine

/-! ### A draw raises no error of its own -/

section Loops

variable {σ : Type} {pull : σ → Res σ Byte}

theorem igfFill_ne_err (hp : ∀ s e t, pull s ≠ .err e t) (n : Nat) (g : Igf) (s : σ) (e : Err) (x : Igf × σ) :
    igfFill pull n g s ≠ .err e x := by
  induction n generalizing g s with
  | zero => simp [igfFill]
  | succ n ih =>
    unfold igfFill
    cases hr : pull s with
    | ok v t => exact ih _ _
    | err e' t => exact absurd hr (hp s e' t)
    | starved t => simp
    | paused t => simp

theorem igfNext_ne_err (hp : ∀ s e t, pull s ≠ .err e t) (turns rej : Nat) (g : Igf) (s : σ) (e : Err) (x : Igf × σ) :
    igfNext pull turns rej g s ≠ .err e x := by
  induction turns generalizing rej g s with
  | zero => simp [igfNext]
  | succ n ih =>
    unfold igfNext
    rw [Ne, Res.bind_eq_err, not_or]
    refine ⟨igfFill_ne_err hp _ _ _ _ _, ?_⟩
    rintro ⟨u, t, -, h⟩
    split at h
    · simp at h
    · exact ih _ _ _ h

theorem bpgmPlace_ne_err (hp : ∀ s e t, pull s ≠ .err e t) (turns : Nat) (val : Int) (left need : Nat) (acc : Bpgm)
    (s : Igf × σ) (e : Err) (x : Igf × σ) : bpgmPlace pull turns val left need acc s ≠ .err e x := by
  induction left generalizing need acc s with
  | zero => cases need <;> simp [bpgmPlace]
  | succ n ih =>
    cases need with
    | zero => simp [bpgmPlace]
    | succ k =>
      unfold bpgmPlace
      rw [Ne, Res.bind_eq_err, not_or]
      exact ⟨igfNext_ne_err hp _ _ _ _ _ _, fun ⟨d, t, _, h⟩ => ih _ _ _ h⟩

/-- BPGM3 raises no error but one of its pulls (44_streams R203). -/
theorem bpgm3_ne_err (hp : ∀ s e t, pull s ≠ .err e t) (turns N ones negs : Nat) (s : Igf × σ) (e : Err) (x : Igf × σ) :
    bpgm3 pull turns N ones negs s ≠ .err e x := by
  unfold bpgm3
  rw [Ne, Res.bind_eq_err, not_or]
  exact ⟨bpgmPlace_ne_err hp _ _ _ _ _ _ _ _, fun ⟨acc, t, _, h⟩ => bpgmPlace_ne_err hp _ _ _ _ _ _ _ _ h⟩

/-- The trit decoder raises no error but one of its pulls (44_streams R204). -/
theorem tpDecode_ne_err (hp : ∀ s e t, pull s ≠ .err e t) (N turns : Nat) (acc : TpAcc) (s : σ) (e : Err) (x : σ) :
    tpDecode pull N turns acc s ≠ .err e x := by
  induction turns generalizing acc s with
  | zero => unfold tpDecode; split <;> simp
  | succ n ih =>
    unfold tpDecode
    split
    · simp
    · rw [Ne, Res.bind_eq_err, not_or]
      exact ⟨hp _ _ _, fun ⟨v, t, _, h⟩ => ih _ _ h⟩

end Loops

theorem mgfPullRes_ne_err (impl : DigestImpl) (m : Mgf) (e : Err) (t : Mgf) : mgfPullRes impl m ≠ .err e t := by
  simp [mgfPullRes]

theorem scratch_eq_ok {τ α : Type} {r : Res τ α} {f g : Feed} {a : α} :
    scratch r f = .ok a g ↔ (∃ t, r = .ok a t) ∧ f = g := by
  cases r <;> simp [scratch]

theorem scratch_ne_err {τ α : Type} {r : Res τ α} (hr : ∀ e t, r ≠ .err e t) (f g : Feed) (e : Err) :
    scratch r f ≠ .err e g := by
  cases r with
  | err e' t => exact absurd rfl (hr e' t)
  | ok a t => simp [scratch]
  | starved t => simp [scratch]
  | paused t => simp [scratch]

/-! ### Counts -/

/-- A count that fits is shown as it is (log 11). -/
theorem countWord_of_lt {n : Nat} (h : n < 2 ^ 32) : countWord n = BitVec.ofNat 32 n := if_pos h

/-- The count of a ceiling's worth of attempts is the ceiling's register (45_ntru R243). -/
theorem countWord_toNat (w : Word) : countWord w.toNat = w := by
  rw [countWord_of_lt w.isLt, BitVec.ofNat_toNat, BitVec.setWidth_eq]

/-! ### Trinomials from the RNG port -/

/-- The stream unit is u, and the bytes taken are the first of those `base` offers (00_scope R11, 10_state R35). -/
def Feed.Took (u : StreamUnit) (base : List Byte) (f : Feed) : Prop :=
  f.su = u ∧ f.pulled ≤ base.length ∧ f.rng = base.drop f.pulled

theorem closedFeed_took (s : State) : s.closedFeed.Took (closeSource s.su) s.rng := ⟨rfl, Nat.zero_le _, rfl⟩

/-- Setting ITER_CNT takes nothing. -/
theorem Feed.Took.withIterCnt {u : StreamUnit} {base : List Byte} {f : Feed} (h : f.Took u base) (w : Word) :
    ({ f with iterCnt := w } : Feed).Took u base := h

/-- A property of the consumption that an RNG pull keeps is kept by a generated trinomial (45_ntru R244). -/
theorem genTri_keeps {Q : Feed → Prop} (hp : ∀ f, Q f → (rngPull f).All Q) (turns N ones negs c : Nat) (f : Feed)
    (h : Q f) : (genTri turns N ones negs c f).All Q :=
  ((bpgm3_keeps hp turns N ones negs (igfInit N c, f) h).mapState (f := Prod.snd) fun _ hx => hx).bind
    (fun _ _ _ hx => hx) fun _ hx => hx

theorem rngPull_took (u : StreamUnit) (base : List Byte) (f : Feed) (h : f.Took u base) : (rngPull f).All (Feed.Took u base) :=
  (rngPull_keeps u f.iterCnt base f ⟨h.1, rfl, h.2⟩).imp fun _ hg => ⟨hg.1, hg.2.2⟩

theorem genTri_took {u : StreamUnit} {base : List Byte} (turns N ones negs c : Nat) (f : Feed) (h : f.Took u base) :
    (genTri turns N ones negs c f).All (Feed.Took u base) :=
  genTri_keeps (rngPull_took u base) turns N ones negs c f h

theorem genTri_iterCnt (turns N ones negs c : Nat) (f : Feed) :
    (genTri turns N ones negs c f).All fun g => g.iterCnt = f.iterCnt := by
  refine genTri_keeps (fun g hg => ?_) turns N ones negs c f rfl
  rcases rngPull_cases g with ⟨-, hq⟩ | ⟨v, rest, -, hq⟩ <;> rw [hq] <;> exact hg

/-- A generated trinomial has dimension N and exactly the two weights (45_ntru R244). -/
theorem genTri_ok {turns N ones negs c : Nat} {f f' : Feed} {g : Vec} (hN : 1 ≤ N)
    (h : genTri turns N ones negs c f = .ok g f') :
    g.length = N ∧ countSym N g 1 = ones ∧ countSym N g (-1) = negs ∧ ∀ i, at' g i = 0 ∨ at' g i = 1 ∨ at' g i = -1 := by
  unfold genTri at h
  obtain ⟨r, t, hr, h⟩ := Res.bind_eq_ok.mp h
  obtain ⟨x, hx, -⟩ := Res.mapState_eq_ok.mp hr
  simp only [Res.ok.injEq] at h
  obtain ⟨rfl, -⟩ := h
  have h' := bpgm3_ok hN rfl hx
  exact ⟨h'.1, h'.2.1, h'.2.2.1, h'.2.2.2.2.2⟩

theorem genTri_ne_err (turns N ones negs c : Nat) (f g : Feed) (e : Err) : genTri turns N ones negs c f ≠ .err e g := by
  unfold genTri
  rw [Ne, Res.bind_eq_err, not_or]
  refine ⟨fun h => ?_, by simp⟩
  cases hb : bpgm3 rngPull turns N ones negs (igfInit N c, f) with
  | err e' x => exact bpgm3_ne_err (fun s e t => rngPull_ne_err s t e) _ _ _ _ _ _ _ hb
  | ok r x => rw [hb] at h; simp at h
  | starved x => rw [hb] at h; simp at h
  | paused x => rw [hb] at h; simp at h

/-! ### The loops of key generation -/

/-- Everything the g loop answers with a trinomial (45_ntru R252, R243): it is invertible and has the weights; the attempts
are at most the ceiling where there is one, and ITER_CNT is their number. -/
theorem gLoop_ok {turns cap : Nat} {P : ParamSet} {left ga : Nat} {f f' : Feed} {r : Vec × Nat}
    (h : gLoop turns cap P left ga f = .ok r f') (hga : cap ≠ 0 → ga ≤ cap) :
    ga + 1 ≤ r.2 ∧ (cap ≠ 0 → r.2 ≤ cap) ∧ (invertQ P.N r.1).isSome ∧ f'.iterCnt = countWord r.2 ∧
      ∃ k k', genTri turns P.N (P.dg + 1) P.dg P.c k = .ok r.1 k' := by
  induction left generalizing ga f with
  | zero => simp [gLoop] at h
  | succ n ih =>
    unfold gLoop at h
    split at h
    · simp at h
    · next hc =>
      obtain ⟨g, t, hg, h⟩ := Res.bind_eq_ok.mp h
      have hle : cap ≠ 0 → ga + 1 ≤ cap := fun h0 => by
        have := hga h0
        by_contra hn
        exact hc ⟨h0, by omega⟩
      split at h
      · next hi =>
        simp only [Res.ok.injEq] at h
        obtain ⟨rfl, rfl⟩ := h
        exact ⟨le_refl _, hle, hi, (genTri_iterCnt _ _ _ _ _ _).ok hg, _, _, hg⟩
      · obtain ⟨h1, h2, h3⟩ := ih h hle
        exact ⟨by omega, h2, h3⟩

/-- The one error of the g loop: ITER_LIMIT at the ceiling, with ITER_CNT the ceiling (45_ntru R243, R252). -/
theorem gLoop_err {turns cap : Nat} {P : ParamSet} {left ga : Nat} {f f' : Feed} {e : Err}
    (h : gLoop turns cap P left ga f = .err e f') (hf : ga = 0 ∨ f.iterCnt = countWord ga) :
    e = .iterLimit ∧ cap ≠ 0 ∧ f'.iterCnt = countWord cap := by
  induction left generalizing ga f with
  | zero => simp [gLoop] at h
  | succ n ih =>
    unfold gLoop at h
    split at h
    · next hc =>
      simp only [Res.err.injEq] at h
      obtain ⟨rfl, rfl⟩ := h
      obtain ⟨h0, rfl⟩ := hc
      exact ⟨rfl, h0, hf.resolve_left h0⟩
    · rcases Res.bind_eq_err.mp h with h | ⟨g, t, hg, h⟩
      · exact absurd h (genTri_ne_err _ _ _ _ _ _ _ _)
      · split at h
        · simp at h
        · exact ih h (.inr ((genTri_iterCnt _ _ _ _ _ _).ok hg))

/-- The g loop changes only what it takes from the RNG port and ITER_CNT (45_ntru R252). -/
theorem gLoop_took {u : StreamUnit} {base : List Byte} (turns cap : Nat) (P : ParamSet) (left ga : Nat) (f : Feed)
    (h : f.Took u base) : (gLoop turns cap P left ga f).All (Feed.Took u base) := by
  induction left generalizing ga f with
  | zero => exact h
  | succ n ih =>
    unfold gLoop
    split
    · exact h
    · refine (genTri_took _ _ _ _ _ _ (h.withIterCnt _)).bind (fun g t _ ht => ?_) fun _ ht => ht
      split
      · exact ht
      · exact ih _ _ ht

/-- Everything the F loop answers with an F (45_ntru R253, R243): F has the weights and fq is the inverse of 1 + 3F; ITER_CNT
is the sum of the attempts of both loops. -/
theorem fLoop_ok {turns cap : Nat} {P : ParamSet} {ga left fa : Nat} {f f' : Feed} {r : FFound}
    (h : fLoop turns cap P ga left fa f = .ok r f') (hfa : cap ≠ 0 → fa ≤ cap) :
    fa + 1 ≤ r.fa ∧ (cap ≠ 0 → r.fa ≤ cap) ∧ invertQ P.N (privPoly P.N r.F) = some r.fq ∧
      f'.iterCnt = countWord (ga + r.fa) ∧ ∃ k k', genTri turns P.N P.df P.df P.c k = .ok r.F k' := by
  induction left generalizing fa f with
  | zero => simp [fLoop] at h
  | succ n ih =>
    unfold fLoop at h
    split at h
    · simp at h
    · next hc =>
      obtain ⟨F, t, hF, h⟩ := Res.bind_eq_ok.mp h
      have hle : cap ≠ 0 → fa + 1 ≤ cap := fun h0 => by
        have := hfa h0
        by_contra hn
        exact hc ⟨h0, by omega⟩
      split at h
      · next fq hi =>
        simp only [Res.ok.injEq] at h
        obtain ⟨rfl, rfl⟩ := h
        exact ⟨le_refl _, hle, hi, (genTri_iterCnt _ _ _ _ _ _).ok hF, _, _, hF⟩
      · obtain ⟨h1, h2, h3⟩ := ih h hle
        exact ⟨by omega, h2, h3⟩

/-- The one error of the F loop: ITER_LIMIT at the ceiling, with the g loop's attempts in ITER_CNT (45_ntru R243, R253). -/
theorem fLoop_err {turns cap : Nat} {P : ParamSet} {ga left fa : Nat} {f f' : Feed} {e : Err}
    (h : fLoop turns cap P ga left fa f = .err e f') (hf : fa = 0 ∨ f.iterCnt = countWord (ga + fa)) :
    e = .iterLimit ∧ cap ≠ 0 ∧ f'.iterCnt = countWord (ga + cap) := by
  induction left generalizing fa f with
  | zero => simp [fLoop] at h
  | succ n ih =>
    unfold fLoop at h
    split at h
    · next hc =>
      simp only [Res.err.injEq] at h
      obtain ⟨rfl, rfl⟩ := h
      obtain ⟨h0, rfl⟩ := hc
      exact ⟨rfl, h0, hf.resolve_left h0⟩
    · rcases Res.bind_eq_err.mp h with h | ⟨F, t, hF, h⟩
      · exact absurd h (genTri_ne_err _ _ _ _ _ _ _ _)
      · split at h
        · simp at h
        · exact ih h (.inr ((genTri_iterCnt _ _ _ _ _ _).ok hF))

/-- The F loop changes only what it takes from the RNG port and ITER_CNT (45_ntru R253). -/
theorem fLoop_took {u : StreamUnit} {base : List Byte} (turns cap : Nat) (P : ParamSet) (ga left fa : Nat) (f : Feed)
    (h : f.Took u base) : (fLoop turns cap P ga left fa f).All (Feed.Took u base) := by
  induction left generalizing fa f with
  | zero => exact h
  | succ n ih =>
    unfold fLoop
    split
    · exact h
    · refine (genTri_took _ _ _ _ _ _ (h.withIterCnt _)).bind (fun F t _ ht => ?_) fun _ ht => ht
      split
      · exact ht
      · exact ih _ _ ht

/-! ### Encryption -/

/-- Everything n pulls from the RNG port answer (45_ntru R258): the first n offered bytes. -/
theorem rngTake_ok {n : Nat} {f g : Feed} {b : List Byte} (h : rngTake n f = .ok b g) :
    b = f.rng.take n ∧ n ≤ f.rng.length ∧ g = { f with rng := f.rng.drop n, pulled := f.pulled + n } := by
  induction n generalizing f b with
  | zero =>
    simp only [rngTake, Res.ok.injEq] at h
    obtain ⟨rfl, rfl⟩ := h
    exact ⟨rfl, Nat.zero_le _, rfl⟩
  | succ n ih =>
    unfold rngTake at h
    obtain ⟨v, t, hv, h⟩ := Res.bind_eq_ok.mp h
    obtain ⟨rest, t', hr, h⟩ := Res.bind_eq_ok.mp h
    simp only [Res.ok.injEq] at h
    obtain ⟨rfl, rfl⟩ := h
    rcases rngPull_cases f with ⟨-, hq⟩ | ⟨v', rest', hf, hq⟩
    · rw [hq] at hv; simp at hv
    · rw [hq] at hv
      simp only [Res.ok.injEq] at hv
      obtain ⟨rfl, rfl⟩ := hv
      obtain ⟨rfl, hl, rfl⟩ := ih hr
      refine ⟨by simp [hf], by simpa [hf] using hl, ?_⟩
      simp only [hf, List.drop_succ_cons, Feed.mk.injEq, true_and, and_true]
      omega

theorem rngTake_ne_err (n : Nat) (f g : Feed) (e : Err) : rngTake n f ≠ .err e g := by
  induction n generalizing f with
  | zero => simp [rngTake]
  | succ n ih =>
    unfold rngTake
    rw [Ne, Res.bind_eq_err, not_or]
    refine ⟨rngPull_ne_err _ _ _, ?_⟩
    rintro ⟨v, t, -, h⟩
    rcases Res.bind_eq_err.mp h with h | ⟨rest, t', -, h⟩
    · exact ih _ h
    · simp at h

/-- The dm0 check, symbol by symbol (45_ntru R249). -/
theorem dm0ok_iff (P : ParamSet) (t : Vec) :
    dm0ok P t = true ↔ ∀ v ∈ [(1 : Int), 0, -1], P.dm0 ≤ countSym P.N t v := by
  simp [dm0ok, and_assoc]

/-! ### The blinding polynomial and the mask -/

/-- A polynomial of dimension N is given by its N coefficients. -/
theorem eq_tab_iff {N : Nat} {a : Vec} {f : Nat → Int} : a = tab N f ↔ a.length = N ∧ ∀ i, i < N → at' a i = f i := by
  refine ⟨?_, fun ⟨hl, h⟩ => ?_⟩
  · rintro rfl
    exact ⟨tab_length N f, fun i hi => at'_tab f hi⟩
  · refine List.ext_getElem (by rw [hl, tab_length]) fun i h1 h2 => ?_
    have := h i (hl ▸ h1)
    rw [at', List.getD_eq_getElem _ _ h1] at this
    simpa [tab] using this

/-- `BlindOf` is GenR, then the product with h mod 2048 (45_ntru R246, R258). -/
theorem blindOf_iff {impl : DigestImpl} {turns : Nat} {P : ParamSet} {m b : List Byte} {h R : Vec} :
    BlindOf impl turns P m b h R ↔ ∃ r x, genR impl turns P (sData P m b h) = .ok r x ∧ R = blindPoly P.N r.t h := by
  have hsum : ∀ r : Bpgm, R = blindPoly P.N r.t h ↔ R.length = P.N ∧ ∀ k, k < P.N →
      at' R k = (∑ i ∈ Finset.range P.N, at' r.t i * at' h ((k + P.N - i) % P.N)) % 2048 := by
    intro r
    rw [blindPoly, modVec, eq_tab_iff]
    refine and_congr_right fun _ => forall_congr' fun k => imp_congr_right fun hk => ?_
    rw [conv, at'_tab _ hk, convAt, sumTo_eq_sum]
    rfl
  have hdata : sData P m b h = [P.oid.1, P.oid.2.1, P.oid.2.2] ++ m ++ b ++
      (if P.hTruncBytes = 0 then pack (h.map Int.toNat) P.N 2048 0
        else (pack (h.map Int.toNat) P.N 2048 0).take P.hTruncBytes) := by
    simp [sData, hTrunc, pack, natVec, ParamSet.oidBytes]
  simp only [BlindOf, genR, hdata, hsum]

/-- The packed seed of `MaskOf` is that of `GenMask` (45_ntru R248). -/
theorem maskOf_iff {impl : DigestImpl} {turns : Nat} {P : ParamSet} {R mask : Vec} (hR : R.length = P.N) :
    MaskOf impl turns P R mask ↔ ∃ x y, genMask impl turns P R = .ok x y ∧ mask = x.t := by
  have hv : R.map (fun v => (v % 4).toNat) = natVec (modVec P.N 4 R) := by
    have h : R.map (fun v => v % 4) = modVec P.N 4 R := eq_tab_iff.mpr ⟨by simpa using hR, fun i hi => by
      have hi' : i < R.length := hR ▸ hi
      simp [at', hi']⟩
    rw [← h, natVec, List.map_map]
    rfl
  simp only [MaskOf, hv, genMask, maskSeed]

/-- Everything an attempt answers (45_ntru R258): the db bytes it took, and e = R + mp where mp passes the dm0 check. -/
theorem encAttempt_ok {impl : DigestImpl} {turns : Nat} {P : ParamSet} {m : List Byte} {h : Vec} {f g : Feed}
    {o : Option Vec} (ho : encAttempt impl turns P m h f = .ok o g) :
    P.db ≤ f.rng.length ∧ g = { f with rng := f.rng.drop P.db, pulled := f.pulled + P.db } ∧
      ∃ R mp, AttemptOf impl turns P m (f.rng.take P.db) h R mp ∧
        o = if dm0ok P mp then some (tab P.N fun i => (at' R i + at' mp i) % 2048) else none := by
  unfold encAttempt at ho
  obtain ⟨b, f1, hb, ho⟩ := Res.bind_eq_ok.mp ho
  obtain ⟨r, f2, hr, ho⟩ := Res.bind_eq_ok.mp ho
  obtain ⟨mask, f3, hm, ho⟩ := Res.bind_eq_ok.mp ho
  obtain ⟨⟨x, hx⟩, rfl⟩ := scratch_eq_ok.mp hr
  obtain ⟨⟨y, hy⟩, rfl⟩ := scratch_eq_ok.mp hm
  obtain ⟨rfl, hl, rfl⟩ := rngTake_ok hb
  have hat : AttemptOf impl turns P m (f.rng.take P.db) h (blindPoly P.N r.t h)
      (tab P.N fun i => red (at' (binToTri P (msgBuf P (f.rng.take P.db) m)) i + at' mask.t i) 3 (-1)) :=
    ⟨blindOf_iff.mpr ⟨r, x, hx, rfl⟩, mask.t, (maskOf_iff (by simp [blindPoly, modVec])).mpr ⟨mask, y, hy, rfl⟩,
      tab_length _ _, fun i hi => at'_tab _ hi⟩
  dsimp only at ho
  split at ho <;> next hd =>
    simp only [Res.ok.injEq] at ho
    obtain ⟨rfl, rfl⟩ := ho
    refine ⟨hl, rfl, _, _, hat, ?_⟩
    simp [hd]

theorem encAttempt_ne_err (impl : DigestImpl) (turns : Nat) (P : ParamSet) (m : List Byte) (h : Vec) (f g : Feed) (e : Err) :
    encAttempt impl turns P m h f ≠ .err e g := by
  unfold encAttempt
  rw [Ne, Res.bind_eq_err, not_or]
  refine ⟨rngTake_ne_err _ _ _ _, ?_⟩
  rintro ⟨b, f1, -, h1⟩
  rcases Res.bind_eq_err.mp h1 with h1 | ⟨r, f2, -, h1⟩
  · exact scratch_ne_err (fun e t => bpgm3_ne_err (mgfPullRes_ne_err impl) _ _ _ _ _ _ _) _ _ _ h1
  · rcases Res.bind_eq_err.mp h1 with h1 | ⟨mask, f3, -, h1⟩
    · exact scratch_ne_err (fun e t => tpDecode_ne_err (mgfPullRes_ne_err impl) _ _ _ _ _ _) _ _ _ h1
    · dsimp only at h1
      split at h1 <;> simp at h1

/-- n bytes of `base` have been taken and the stream unit is u. -/
def Feed.After (u : StreamUnit) (base : List Byte) (n : Nat) (f : Feed) : Prop :=
  f.su = u ∧ f.rng = base.drop n ∧ f.pulled = n ∧ n ≤ base.length

theorem closedFeed_after (s : State) : s.closedFeed.After (closeSource s.su) s.rng 0 := ⟨rfl, rfl, rfl, Nat.zero_le _⟩

/-- One attempt of the loop, after `att` earlier ones (45_ntru R257, R258). -/
theorem encAttempt_step {impl : DigestImpl} {turns att : Nat} {P : ParamSet} {m : List Byte} {h : Vec} {u : StreamUnit}
    {base : List Byte} {f t : Feed} {w : Word} {o : Option Vec} (hf : f.After u base (P.db * att))
    (ho : encAttempt impl turns P m h { f with iterCnt := w } = .ok o t) :
    P.db * (att + 1) ≤ base.length ∧ t = ⟨u, base.drop (P.db * (att + 1)), P.db * (att + 1), w⟩ ∧
      ∃ R mp, AttemptOf impl turns P m ((base.drop (P.db * att)).take P.db) h R mp ∧
        o = if dm0ok P mp then some (tab P.N fun i => (at' R i + at' mp i) % 2048) else none := by
  obtain ⟨f1, f2, f3, f4⟩ := hf
  obtain ⟨h1, h2, R, mp, hA, h3⟩ := encAttempt_ok ho
  rw [f2] at h1 h2 hA
  rw [List.length_drop] at h1
  refine ⟨by rw [Nat.mul_succ]; omega, ?_, R, mp, hA, h3⟩
  rw [h2]
  simp [f1, f3, Nat.mul_succ]

/-- Everything the encryption loop answers with a ciphertext (45_ntru R257, R243, R262): the attempts before the last one
fail the dm0 check, the last one passes it and gives e = R + mp; each took db bytes, and ITER_CNT is their number. -/
theorem encLoop_ok {impl : DigestImpl} {turns cap : Nat} {P : ParamSet} {m : List Byte} {h : Vec} {u : StreamUnit}
    {base : List Byte} {left att : Nat} {f f' : Feed} {e : Vec} (hf : f.After u base (P.db * att))
    (hcap : cap ≠ 0 → att ≤ cap) (hr : encLoop impl turns cap P m h left att f = .ok e f') :
    ∃ (n : Nat) (R mp : Vec), att + 1 ≤ n ∧ (cap ≠ 0 → n ≤ cap) ∧ P.db * n ≤ base.length ∧
      f' = ⟨u, base.drop (P.db * n), P.db * n, countWord n⟩ ∧
      (∀ k, att ≤ k → k + 1 < n → ∃ R' mp',
        AttemptOf impl turns P m ((base.drop (P.db * k)).take P.db) h R' mp' ∧ dm0ok P mp' = false) ∧
      AttemptOf impl turns P m ((base.drop (P.db * (n - 1))).take P.db) h R mp ∧ dm0ok P mp = true ∧
      e = tab P.N fun i => (at' R i + at' mp i) % 2048 := by
  induction left generalizing att f with
  | zero => simp [encLoop] at hr
  | succ left ih =>
    unfold encLoop at hr
    split at hr
    · simp at hr
    · next hc =>
      obtain ⟨o, t, ho, hr⟩ := Res.bind_eq_ok.mp hr
      obtain ⟨hl, ht, R, mp, hA, h3⟩ := encAttempt_step hf ho
      have hle : cap ≠ 0 → att + 1 ≤ cap := fun h0 => by
        have := hcap h0
        by_contra hn
        exact hc ⟨h0, by omega⟩
      cases hd : dm0ok P mp with
      | true =>
        rw [hd, if_pos rfl] at h3
        subst h3
        simp only [Res.ok.injEq] at hr
        obtain ⟨rfl, rfl⟩ := hr
        exact ⟨att + 1, R, mp, le_refl _, hle, hl, ht, fun k _ _ => by omega, hA, hd, rfl⟩
      | false =>
        rw [hd, if_neg (by simp)] at h3
        subst h3
        obtain ⟨n, R2, mp2, g1, g2, g3, g4, g5, g6⟩ := ih (f := t) (by rw [ht]; exact ⟨rfl, rfl, rfl, hl⟩) hle hr
        refine ⟨n, R2, mp2, by omega, g2, g3, g4, fun k hk hk' => ?_, g6⟩
        rcases Nat.eq_or_lt_of_le hk with rfl | hk
        · exact ⟨R, mp, hA, hd⟩
        · exact g5 k hk hk'

/-- The one error of the encryption loop: ITER_LIMIT after a ceiling's worth of attempts that all fail the dm0 check
(45_ntru R243, R257). -/
theorem encLoop_err {impl : DigestImpl} {turns cap : Nat} {P : ParamSet} {m : List Byte} {h : Vec} {u : StreamUnit}
    {base : List Byte} {left att : Nat} {f f' : Feed} {e : Err} (hf : f.After u base (P.db * att))
    (hi : att = 0 ∨ f.iterCnt = countWord att) (hcap : cap ≠ 0 → att ≤ cap)
    (hr : encLoop impl turns cap P m h left att f = .err e f') :
    e = .iterLimit ∧ cap ≠ 0 ∧ P.db * cap ≤ base.length ∧
      f' = ⟨u, base.drop (P.db * cap), P.db * cap, countWord cap⟩ ∧
      ∀ k, att ≤ k → k < cap → ∃ R' mp',
        AttemptOf impl turns P m ((base.drop (P.db * k)).take P.db) h R' mp' ∧ dm0ok P mp' = false := by
  induction left generalizing att f with
  | zero => simp [encLoop] at hr
  | succ left ih =>
    unfold encLoop at hr
    split at hr
    · next hc =>
      simp only [Res.err.injEq] at hr
      obtain ⟨rfl, rfl⟩ := hr
      obtain ⟨h0, rfl⟩ := hc
      obtain ⟨f1, f2, f3, f4⟩ := hf
      refine ⟨rfl, h0, f4, ?_, fun k _ _ => by omega⟩
      rw [← hi.resolve_left h0, ← f1, ← f2, ← f3]
    · next hc =>
      rcases Res.bind_eq_err.mp hr with hr | ⟨o, t, ho, hr⟩
      · exact absurd hr (encAttempt_ne_err _ _ _ _ _ _ _ _)
      · obtain ⟨hl, ht, R, mp, hA, h3⟩ := encAttempt_step hf ho
        have hle : cap ≠ 0 → att + 1 ≤ cap := fun h0 => by
          have := hcap h0
          by_contra hn
          exact hc ⟨h0, by omega⟩
        cases hd : dm0ok P mp with
        | true => rw [hd, if_pos rfl] at h3; subst h3; simp at hr
        | false =>
          rw [hd, if_neg (by simp)] at h3
          subst h3
          obtain ⟨g1, g2, g3, g4, g5⟩ :=
            ih (f := t) (by rw [ht]; exact ⟨rfl, rfl, rfl, hl⟩) (.inr (by rw [ht])) hle hr
          refine ⟨g1, g2, g3, g4, fun k hk hk' => ?_⟩
          rcases Nat.eq_or_lt_of_le hk with rfl | hk
          · exact ⟨R, mp, hA, hd⟩
          · exact g5 k hk hk'

end Sys2Proof.Machine
end

