-- ==== Sys2Proof/Laws/BinTri.lean ====
section
/-! SUPPORT. The suggested binary-to-trinary map meets laws (a) and (b) of 45_ntru R247 wherever its trits fit the
dimension. -/

namespace Sys2Proof.Machine

/-! ### Bits and bytes -/

@[simp] theorem bitsOfBytes_cons (v : Byte) (m : List Byte) :
    bitsOfBytes (v :: m) =
      [v.getLsbD 7, v.getLsbD 6, v.getLsbD 5, v.getLsbD 4, v.getLsbD 3, v.getLsbD 2, v.getLsbD 1, v.getLsbD 0] ++
        bitsOfBytes m := rfl

@[simp] theorem length_bitsOfBytes (m : List Byte) : (bitsOfBytes m).length = 8 * m.length := by
  induction m with
  | nil => rfl
  | cons v m ih => simp [ih]; omega

theorem byteOfBits_bits (v : Byte) :
    BitVec.ofNat 8 ([v.getLsbD 7, v.getLsbD 6, v.getLsbD 5, v.getLsbD 4, v.getLsbD 3, v.getLsbD 2, v.getLsbD 1,
      v.getLsbD 0].foldl (fun v b => 2 * v + b.toNat) 0) = v := by
  revert v
  decide +kernel

theorem bitsOfByte_ofBits (b7 b6 b5 b4 b3 b2 b1 b0 : Bool) :
    let v := BitVec.ofNat 8 ([b7, b6, b5, b4, b3, b2, b1, b0].foldl (fun v b => 2 * v + b.toNat) 0)
    [v.getLsbD 7, v.getLsbD 6, v.getLsbD 5, v.getLsbD 4, v.getLsbD 3, v.getLsbD 2, v.getLsbD 1, v.getLsbD 0] =
      [b7, b6, b5, b4, b3, b2, b1, b0] := by
  revert b7 b6 b5 b4 b3 b2 b1 b0
  decide +kernel

theorem bytesOfBits_bitsOfBytes (m : List Byte) : bytesOfBits (bitsOfBytes m) = m := by
  induction m with
  | nil => rfl
  | cons v m ih =>
    rw [bitsOfBytes_cons]
    simp only [List.cons_append, List.nil_append, bytesOfBits, ih, byteOfBits_bits]

theorem bitsOfBytes_bytesOfBits (n : Nat) :
    ∀ l : List Bool, l.length = 8 * n → bitsOfBytes (bytesOfBits l) = l ∧ (bytesOfBits l).length = n := by
  induction n with
  | zero => intro l h; obtain rfl := List.length_eq_zero_iff.mp (h.trans (Nat.mul_zero 8)); exact ⟨rfl, rfl⟩
  | succ n ih =>
    intro l h
    match l, h with
    | b7 :: b6 :: b5 :: b4 :: b3 :: b2 :: b1 :: b0 :: rest, h =>
      obtain ⟨h1, h2⟩ := ih rest (by simp at h; omega)
      refine ⟨?_, by simp [bytesOfBits, h2]⟩
      rw [bytesOfBits, bitsOfBytes_cons, h1, bitsOfByte_ofBits]
      rfl
    | [], h | [_], h | [_, _], h | [_, _, _], h | [_, _, _, _], h | [_, _, _, _, _], h | [_, _, _, _, _, _], h
    | [_, _, _, _, _, _, _], h => simp at h <;> omega

/-! ### Bits and trits -/

theorem tritPair_shape (x y z : Bool) : ∃ a b, tritPair x y z = [a, b] ∧ bitsOfPair a b = some [x, y, z] := by
  cases x <;> cases y <;> cases z <;> exact ⟨_, _, rfl, rfl⟩

theorem bitsOfPair_some {a b : Int} {bits : List Bool} (h : bitsOfPair a b = some bits) :
    ∃ x y z, bits = [x, y, z] ∧ tritPair x y z = [a, b] := by
  simp only [bitsOfPair] at h
  split_ifs at h with h1 h2 h3 h4 h5 h6 h7 h8 <;>
    (obtain rfl := Option.some.inj h; refine ⟨_, _, _, rfl, ?_⟩; simp_all [tritPair])

/-- The bits padded with 0 to whole groups of three. -/
theorem length_tritsOfBits : ∀ l : List Bool, (tritsOfBits l).length = 2 * ((l.length + 2) / 3)
  | [] => rfl
  | [x] => by obtain ⟨a, b, h, -⟩ := tritPair_shape x false false; simp [tritsOfBits, h]
  | [x, y] => by obtain ⟨a, b, h, -⟩ := tritPair_shape x y false; simp [tritsOfBits, h]
  | x :: y :: z :: rest => by
    obtain ⟨a, b, h, -⟩ := tritPair_shape x y z
    simp only [tritsOfBits, h, List.cons_append, List.nil_append, List.length_cons, length_tritsOfBits rest]
    omega

/-- Reading the trits of a bit string back, whatever follows them, gives the bits and the pad. -/
theorem bitsOfTrits_tritsOfBits : ∀ (l : List Bool) (more : List Int),
    bitsOfTrits ((l.length + 2) / 3) (tritsOfBits l ++ more) =
      (l ++ List.replicate (3 * ((l.length + 2) / 3) - l.length) false, true)
  | [], more => rfl
  | [x], more => by
    obtain ⟨a, b, h, h'⟩ := tritPair_shape x false false
    simp [tritsOfBits, h, bitsOfTrits, h']
  | [x, y], more => by
    obtain ⟨a, b, h, h'⟩ := tritPair_shape x y false
    simp [tritsOfBits, h, bitsOfTrits, h']
  | x :: y :: z :: rest, more => by
    obtain ⟨a, b, h, h'⟩ := tritPair_shape x y z
    have hn : ((x :: y :: z :: rest).length + 2) / 3 = (rest.length + 2) / 3 + 1 := by
      simp only [List.length_cons]; omega
    have hk : 3 * ((rest.length + 2) / 3 + 1) - (x :: y :: z :: rest).length =
        3 * ((rest.length + 2) / 3) - rest.length := by simp only [List.length_cons]; omega
    rw [hn, hk]
    simp [tritsOfBits, h, bitsOfTrits, h', bitsOfTrits_tritsOfBits rest more]

/-- Where every pair stands for a group, the bits read are those the pairs were made of. -/
theorem tritsOfBits_bitsOfTrits (n : Nat) : ∀ t : List Int, 2 * n ≤ t.length → (bitsOfTrits n t).2 = true →
    tritsOfBits (bitsOfTrits n t).1 = t.take (2 * n) ∧ (bitsOfTrits n t).1.length = 3 * n := by
  induction n with
  | zero => intro t _ _; exact ⟨by simp [bitsOfTrits, tritsOfBits], rfl⟩
  | succ n ih =>
    intro t hlen ht
    match t, hlen with
    | a :: b :: rest, hlen =>
      simp only [bitsOfTrits, List.drop_succ_cons, List.drop_zero, List.getD_cons_zero, List.getD_cons_succ] at ht ⊢
      split at ht
      · next bits hb =>
        obtain ⟨x, y, z, rfl, hp⟩ := bitsOfPair_some hb
        obtain ⟨h1, h2⟩ := ih rest (by simp at hlen; omega) ht
        simp only [List.cons_append, List.nil_append, tritsOfBits, hp, h1, List.length_cons, h2]
        refine ⟨?_, by omega⟩
        rw [show 2 * (n + 1) = 2 * n + 1 + 1 by omega, List.take_succ_cons, List.take_succ_cons]
      · simp at ht
    | [], hlen => simp at hlen
    | [_], hlen => simp at hlen; omega

/-- Dropping the 0 bits that only fill the last group changes no trit. -/
theorem tritsOfBits_padded : ∀ (l : List Bool) (k : Nat), k = 3 * ((l.length + 2) / 3) - l.length →
    tritsOfBits (l ++ List.replicate k false) = tritsOfBits l
  | [], k, h => by subst h; rfl
  | [x], k, h => by subst h; simp [List.replicate, tritsOfBits]
  | [x, y], k, h => by subst h; simp [tritsOfBits]
  | x :: y :: z :: rest, k, h => by
    simp only [List.cons_append, tritsOfBits]
    rw [tritsOfBits_padded rest k (by simp only [List.length_cons] at h; omega)]

/-! ### The laws -/

theorem fitTo_of_length {α : Type} {n : Nat} {z : α} {l : List α} (h : l.length ≤ n) :
    fitTo n z l = l ++ List.replicate (n - l.length) z := by
  rw [fitTo, List.take_of_length_le h]

theorem length_fitTo {α : Type} (n : Nat) (z : α) (l : List α) : (fitTo n z l).length = n := by
  simp [fitTo]; omega

theorem pairCount_eq (L : Nat) : pairCount L = (8 * L + 2) / 3 := rfl

theorem suggested_binToTri {P : ParamSet} (hP : P.binTri = .suggested) (hN : 2 * pairCount P.mBufLen ≤ P.N)
    {m : List Byte} (hm : m.length = P.mBufLen) :
    binToTri P m =
      tritsOfBits (bitsOfBytes m) ++ List.replicate (P.N - 2 * pairCount P.mBufLen) 0 := by
  have hl : (tritsOfBits (bitsOfBytes m)).length = 2 * pairCount P.mBufLen := by
    rw [length_tritsOfBits, length_bitsOfBytes, hm, pairCount_eq]
  simp only [binToTri, hP]
  rw [fitTo_of_length (by omega), hl]

/-- Law (a) of 45_ntru R247. -/
theorem suggested_returns {P : ParamSet} (hP : P.binTri = .suggested) (hN : 2 * pairCount P.mBufLen ≤ P.N)
    {m : List Byte} (hm : m.length = P.mBufLen) : triToBin P (binToTri P m) = (m, true) := by
  have hb : (bitsOfBytes m).length = 8 * P.mBufLen := by rw [length_bitsOfBytes, hm]
  have hl : (tritsOfBits (bitsOfBytes m)).length = 2 * pairCount P.mBufLen := by
    rw [length_tritsOfBits, hb, pairCount_eq]
  have hr := bitsOfTrits_tritsOfBits (bitsOfBytes m) (List.replicate (P.N - 2 * pairCount P.mBufLen) 0)
  rw [hb, ← pairCount_eq] at hr
  rw [suggested_binToTri hP hN hm]
  simp only [triToBin, hP, hr, Prod.mk.injEq]
  refine ⟨?_, ?_⟩
  · rw [List.take_left' hb, bytesOfBits_bitsOfBytes, fitTo_of_length hm.le, hm]
    simp
  · rw [List.drop_left' hb, List.drop_left' hl]
    simp

/-- Law (b) of 45_ntru R247, the half that is not (a). -/
theorem suggested_inverse {P : ParamSet} (hP : P.binTri = .suggested) (hN : 2 * pairCount P.mBufLen ≤ P.N)
    {t : List Int} (ht : t.length = P.N) (h : (triToBin P t).2 = true) :
    ∃ m : List Byte, m.length = P.mBufLen ∧ binToTri P m = t := by
  simp only [triToBin, hP, Bool.and_eq_true, List.all_eq_true, Bool.not_eq_true', beq_iff_eq] at h
  obtain ⟨⟨h1, h2⟩, h3⟩ := h
  obtain ⟨h4, h5⟩ := tritsOfBits_bitsOfTrits _ t (by omega) h1
  set r := (bitsOfTrits (pairCount P.mBufLen) t).1
  have hle : 8 * P.mBufLen ≤ r.length := by rw [h5, pairCount_eq]; omega
  obtain ⟨h6, h7⟩ := bitsOfBytes_bytesOfBits P.mBufLen (r.take (8 * P.mBufLen)) (by simp; omega)
  refine ⟨bytesOfBits (r.take (8 * P.mBufLen)), h7, ?_⟩
  rw [suggested_binToTri hP hN h7, h6]
  have hpad : r.take (8 * P.mBufLen) ++ List.replicate (r.length - 8 * P.mBufLen) false = r := by
    conv_rhs => rw [← List.take_append_drop (8 * P.mBufLen) r]
    congr 1
    exact (List.eq_replicate_iff.mpr ⟨by simp, h2⟩).symm
  have hp := tritsOfBits_padded (r.take (8 * P.mBufLen)) (r.length - 8 * P.mBufLen) (by
    rw [h5, pairCount_eq, List.length_take, h5, pairCount_eq]; omega)
  rw [hpad, h4] at hp
  rw [← hp]
  conv_rhs => rw [← List.take_append_drop (2 * pairCount P.mBufLen) t]
  congr 1
  exact (List.eq_replicate_iff.mpr ⟨by simp [ht], h3⟩).symm

/-- 45_ntru R247: the suggested map meets laws (a) and (b) where its trits fit the dimension. -/
theorem suggested_lawful {P : ParamSet} (hP : P.binTri = .suggested) (hN : 2 * pairCount P.mBufLen ≤ P.N) :
    binTriLawful P := by
  refine ⟨fun m hm => suggested_returns hP hN hm, fun t ht => ⟨fun h m hm he => ?_, fun h => ?_⟩⟩
  · rw [← he, suggested_returns hP hN hm] at h
    simp at h
  · by_contra hne
    obtain ⟨m, hm, he⟩ := suggested_inverse hP hN
      (by simp only [isTrinomial, Bool.and_eq_true, decide_eq_true_eq] at ht; exact ht.1) (by simpa using hne)
    exact h m hm he

/-- Every coefficient of the suggested map's trinomial is a trit. -/
theorem toTrit_range (v : Int) : toTrit v = 0 ∨ toTrit v = 1 ∨ toTrit v = -1 := by
  simp only [toTrit]; split_ifs with h <;> omega

/-- The map's answer has the dimension's length, whichever map it is. -/
theorem length_binToTri (P : ParamSet) (m : List Byte) : (binToTri P m).length = P.N := by
  simp only [binToTri]; split <;> simp [length_fitTo]

end Sys2Proof.Machine
end

