-- ==== Sys2Proof/Laws/BitPack.lean ====
section
/-! SUPPORT. The bit packer: the value of a run of bits and its bits, the bits of a packing, the elements of an unpacking
(43_bitpack R170 to R173). -/

namespace Sys2Proof.Machine

/-! ### Bits per element -/

/-- `bw` is the least k with 2^k ≥ maxEltValue (43_bitpack R170, 00_scope R15). -/
theorem ceilLog2_le_iff (x k : Nat) : ceilLog2 x ≤ k ↔ x ≤ 2 ^ k := by
  unfold ceilLog2
  split
  · next h => simp only [Nat.zero_le, true_iff]; exact h.trans Nat.one_le_two_pow
  · next h =>
    rw [Nat.succ_le_iff, Nat.log2_lt (by omega)]
    omega

theorem bw_isLeast (mx : Nat) : IsLeast { k : Nat | mx ≤ 2 ^ k } (bw mx) :=
  ⟨(ceilLog2_le_iff mx _).mp (le_refl _), fun k hk => (ceilLog2_le_iff mx k).mpr hk⟩

theorem bw_eq {mx b : Nat} (h : IsLeast { k : Nat | mx ≤ 2 ^ k } b) : bw mx = b := (bw_isLeast mx).unique h

theorem le_two_pow_bw (mx : Nat) : mx ≤ 2 ^ bw mx := (bw_isLeast mx).1

theorem bw_pos {mx : Nat} (h : 2 ≤ mx) : 1 ≤ bw mx := by
  by_contra hb
  have := le_two_pow_bw mx
  rw [show bw mx = 0 by omega] at this
  omega

theorem bw_le {mx k : Nat} (h : mx ≤ 2 ^ k) : bw mx ≤ k := (bw_isLeast mx).2 h

theorem bw_two_pow (k : Nat) : bw (2 ^ k) = k :=
  bw_eq ⟨show 2 ^ k ≤ 2 ^ k from le_refl _, fun j hj => (Nat.pow_le_pow_iff_right (by decide)).mp hj⟩

@[simp] theorem bw_q : bw 2048 = 11 := bw_two_pow 11

/-! ### A run of bits -/

theorem bitsValue_lt (bit : Nat → Bool) (len : Nat) : bitsValue bit len < 2 ^ len := by
  induction len with
  | zero => simp [bitsValue]
  | succ n ih =>
    simp only [bitsValue, pow_succ]
    split <;> omega

/-- Bit len-1-j of the value is the j-th bit of the run: the first is the most significant. -/
theorem bitsValue_testBit (bit : Nat → Bool) (len j : Nat) (h : j < len) :
    (bitsValue bit len).testBit (len - 1 - j) = bit j := by
  induction len with
  | zero => omega
  | succ n ih =>
    simp only [bitsValue]
    by_cases hj : j = n
    · subst hj
      rw [show j + 1 - 1 - j = 0 by omega, Nat.testBit_zero]
      cases bit j <;> simp
    · have hlt : j < n := by omega
      rw [show n + 1 - 1 - j = (n - 1 - j) + 1 by omega, Nat.testBit_succ, ← ih hlt]
      congr 1
      split <;> omega

/-- A value below 2^len is the value of its own bits. -/
theorem bitsValue_of_testBit {v len : Nat} (hv : v < 2 ^ len) {bit : Nat → Bool}
    (h : ∀ j, j < len → bit j = v.testBit (len - 1 - j)) : bitsValue bit len = v := by
  refine Nat.eq_of_testBit_eq fun k => ?_
  by_cases hk : k < len
  · have := bitsValue_testBit bit len (len - 1 - k) (by omega)
    rw [show len - 1 - (len - 1 - k) = k by omega] at this
    rw [this, h _ (by omega), show len - 1 - (len - 1 - k) = k by omega]
  · have h1 : bitsValue bit len < 2 ^ k :=
      (bitsValue_lt bit len).trans_le (Nat.pow_le_pow_right (by decide) (by omega))
    have h2 : v < 2 ^ k := hv.trans_le (Nat.pow_le_pow_right (by decide) (by omega))
    rw [Nat.testBit_lt_two_pow h1, Nat.testBit_lt_two_pow h2]

theorem bitsValue_congr {bit bit' : Nat → Bool} {len : Nat} (h : ∀ j, j < len → bit j = bit' j) :
    bitsValue bit len = bitsValue bit' len := by
  induction len with
  | zero => rfl
  | succ n ih =>
    simp only [bitsValue]
    rw [ih fun j hj => h j (by omega), h n (by omega)]

/-! ### Packing -/

@[simp] theorem packAll_length (x : List Nat) (n mx : Nat) : (packAll x n mx).length = packedLen n mx := by
  simp [packAll]

/-- Stream bit k of a packing is bit k of the layout, the pad bits included (43_bitpack R171). -/
theorem streamBit_packAll (x : List Nat) (n mx k : Nat) (h : k < 8 * packedLen n mx) :
    streamBit (packAll x n mx) k = packBit x n mx k := by
  have hg : k / 8 < packedLen n mx := by omega
  have hget : (packAll x n mx).getD (k / 8) 0 =
      BitVec.ofNat 8 (bitsValue (fun j => packBit x n mx (8 * (k / 8) + j)) 8) := by
    simp [packAll, List.getD_eq_getElem?_getD, hg]
  rw [streamBit, hget, BitVec.getLsbD_ofNat]
  have := bitsValue_testBit (fun j => packBit x n mx (8 * (k / 8) + j)) 8 (k % 8) (by omega)
  rw [show 8 - 1 - k % 8 = 7 - k % 8 by omega] at this
  rw [this]
  simp only [show 8 * (k / 8) + k % 8 = k by omega]
  have : 7 - k % 8 < 8 := by omega
  simp [this]

/-- The stream bit of element i at j (43_bitpack R171). -/
theorem packBit_element (x : List Nat) (n mx i j : Nat) (hi : i < n) (hj : j < bw mx) :
    packBit x n mx (i * bw mx + j) = (x.getD i 0).testBit (bw mx - 1 - j) := by
  have h1 : i * bw mx + j < n * bw mx := by
    calc i * bw mx + j < i * bw mx + bw mx := by omega
      _ = (i + 1) * bw mx := by ring
      _ ≤ n * bw mx := Nat.mul_le_mul_right _ hi
  have h2 : (i * bw mx + j) / bw mx = i := by
    rw [Nat.mul_comm, Nat.mul_add_div (by omega), Nat.div_eq_of_lt hj]; simp
  have h3 : (i * bw mx + j) % bw mx = j := by
    rw [Nat.mul_comm, Nat.mul_add_mod, Nat.mod_eq_of_lt hj]
  simp only [packBit, h1, h2, h3, decide_true, Bool.true_and]

theorem packedLen_bits (n mx : Nat) : n * bw mx ≤ 8 * packedLen n mx := by
  unfold packedLen; omega

/-- Pad bits are 0 in a packing (43_bitpack R171). -/
theorem padnz_packAll (x : List Nat) (n mx : Nat) : padnz (packAll x n mx) n mx = false := by
  have hb := packedLen_bits n mx
  simp only [padnz, List.any_eq_false, List.mem_range]
  intro j hj
  rw [streamBit_packAll _ _ _ _ (by omega)]
  simp [packBit]

/-- An element in bound is read back from its packing (43_bitpack R173, R176). -/
theorem unpackAt_packAll (x : List Nat) (n mx i : Nat) (hi : i < n) (hx : x.getD i 0 < mx) :
    unpackAt (packAll x n mx) mx i = x.getD i 0 := by
  have hb := packedLen_bits n mx
  refine bitsValue_of_testBit (hx.trans_le (le_two_pow_bw mx)) fun j hj => ?_
  have h1 : i * bw mx + j < n * bw mx := by
    calc i * bw mx + j < i * bw mx + bw mx := by omega
      _ = (i + 1) * bw mx := by ring
      _ ≤ n * bw mx := Nat.mul_le_mul_right _ hi
  rw [streamBit_packAll _ _ _ _ (by omega), packBit_element _ _ _ _ _ hi hj]

/-- Only the first L bytes are read (43_bitpack R173). -/
theorem unpackAt_lt (s : List Byte) (mx i : Nat) : unpackAt s mx i < 2 ^ bw mx := bitsValue_lt _ _

@[simp] theorem unpack_length (s : List Byte) (n mx : Nat) : (unpack s n mx).length = n := by simp [unpack]

theorem unpack_getD (s : List Byte) (n mx i : Nat) (h : i < n) : (unpack s n mx).getD i 0 = unpackAt s mx i := by
  simp [unpack, List.getD_eq_getElem?_getD, h]

/-- Unpacking a packing of in-bound elements (43_bitpack R176). -/
theorem unpack_packAll (x : List Nat) (n mx : Nat) (hl : x.length = n) (hx : ∀ v ∈ x, v < mx) :
    unpack (packAll x n mx) n mx = x := by
  refine List.ext_getElem (by simp [hl]) fun i h1 h2 => ?_
  have hi : i < n := by simpa using h1
  have hg : x.getD i 0 = x[i] := by simp [List.getD_eq_getElem?_getD, h2]
  simp only [unpack, List.getElem_map, List.getElem_range]
  rw [unpackAt_packAll x n mx i hi (by rw [hg]; exact hx _ (List.getElem_mem h2)), hg]

end Sys2Proof.Machine
end

