-- ==== Sys2Proof/Laws/Boot.lean ====
section
/-! SUPPORT. What the table at reset meets of the lengths 00_scope R9 pins (45_ntru R279, 95_test_vectors L1), whatever
the free fields are. -/

namespace Sys2Proof.Machine

@[simp] theorem bootParams_table_zero : bootParams.table[(0 : Fin 12)] = bootSet 0 := rfl

@[simp] theorem bootParams_table_eleven : bootParams.table[(11 : Fin 12)] = bootSet 11 := rfl

@[simp] theorem bootSet_zero_N : (bootSet 0).N = 401 := rfl

@[simp] theorem bootSet_eleven_N : (bootSet 11).N = 1499 := rfl

@[simp] theorem bootSet_eleven_df : (bootSet 11).df = 79 := rfl

theorem bootSet_zero_df : 36 ≤ (bootSet 0).df := Nat.le_add_right 36 _

/-- The trit form of entry 0 is the shorter one: with df = 36 the two lengths tie (95_test_vectors L1.1). -/
theorem bootSet_zero_lenTrit_le : (bootSet 0).lenTrit ≤ (bootSet 0).lenIndex := by
  have hnb : (bootSet 0).nb = 9 := by decide +kernel
  have := bootSet_zero_df
  simp only [ParamSet.lenTrit, ParamSet.lenIndex, hnb, bootSet_zero_N]
  omega

/-- The table of `State.reset` has the private-key lengths 00_scope R9 publishes. -/
theorem bootParams_pinned : bootParams.pinned = true := by
  have h0 : bootParams.table[(0 : Fin 12)].lenPriv = 637 := by
    have h := bootSet_zero_lenTrit_le
    rw [bootParams_table_zero, ParamSet.lenPriv, Nat.min_eq_left h]
    decide +kernel
  have h11 : bootParams.table[(11 : Fin 12)].lenPriv = 2284 := by decide +kernel
  simp only [Params.pinned, Bool.and_eq_true, decide_eq_true_eq]
  exact ⟨⟨⟨rfl, h0⟩, rfl⟩, h11⟩

end Sys2Proof.Machine
end

