-- ==== Sys2Proof/Laws/Checks.lean ====
section
/-! SUPPORT. The checks of the command rules, as the statements say them (41_poly_arith R130, 00_scope R18, 44_streams R201,
R203, 43_bitpack R174). -/

namespace Sys2Proof.Machine

theorem dimOk_iff (s : State) : s.dimOk = true ↔ s.DimPre := by
  simp only [State.dimOk, Bool.and_eq_true, decide_eq_true_eq]
  exact Iff.rfl

theorem modOk_iff (s : State) : s.modOk = true ↔ 1 ≤ s.ctx.cfgMod.toNat ∧ s.ctx.cfgMod.toNat ≤ 65536 := by
  simp only [State.modOk, Bool.and_eq_true, decide_eq_true_eq]
  simp only [State.modulus]
  omega

theorem lowOk_iff (s : State) :
    s.lowOk = true ↔
      -32768 ≤ s.ctx.cfgLow.toInt ∧ s.ctx.cfgLow.toInt + (s.ctx.cfgMod.toNat : Int) - 1 ≤ 32767 := by
  simp only [State.lowOk, Bool.and_eq_true, decide_eq_true_eq]
  exact Iff.rfl

theorem ringOk_iff (s : State) (reduces : Bool) : s.ringOk reduces = true ↔ s.RingPre reduces := by
  simp only [State.ringOk, State.RingPre, Bool.and_eq_true, Bool.or_eq_true, dimOk_iff, modOk_iff, lowOk_iff]
  cases reduces <;> simp [and_assoc]

theorem inRange_iff (a n : Nat) : inRange a n = true ↔ RangePre a n := by
  simp [inRange, RangePre, Config.dmemSize]

theorem dimOk_eq_false (s : State) : s.dimOk = false ↔ ¬ s.DimPre := by
  rw [← dimOk_iff, Bool.not_eq_true]

theorem ringOk_eq_false (s : State) (reduces : Bool) : s.ringOk reduces = false ↔ ¬ s.RingPre reduces := by
  rw [← ringOk_iff, Bool.not_eq_true]

theorem inRange_eq_false (a n : Nat) : inRange a n = false ↔ ¬ RangePre a n := by
  rw [← inRange_iff, Bool.not_eq_true]

theorem igfBoundsOk_iff (m b : Nat) : igfBoundsOk m b = true ↔ 1 ≤ b ∧ b ≤ 16 ∧ 1 ≤ m ∧ m ≤ 2 ^ b := by
  simp [igfBoundsOk, and_assoc]

theorem trismpOk_iff (s : State) :
    trismpOk s = true ↔
      s.DimPre ∧ s.su.igf.act = true ∧ s.su.igf.m = s.ctx.cfgN.toNat ∧
        s.ctx.arg0.toNat + s.ctx.arg1.toNat ≤ s.ctx.cfgN.toNat := by
  simp only [trismpOk, Bool.and_eq_true, decide_eq_true_eq, dimOk_iff, and_assoc]
  exact Iff.rfl

theorem packShapeOk_iff (n mx : Nat) : packShapeOk n mx = true ↔ n ≤ 1499 ∧ 2 ≤ mx ∧ mx ≤ 32768 := by
  simp [packShapeOk, Config.nmax, and_assoc]

theorem elementsOk_iff (p : Poly) (n mx : Nat) :
    elementsOk p n mx = true ↔ ∀ i, i < n → 0 ≤ p.coeff i ∧ p.coeff i < mx := by
  simp [elementsOk]

end Sys2Proof.Machine
end

