-- ==== Sys2Proof/Laws/Memory.lean ====
section
/-! SUPPORT. DMEM: a read after a write, and the canonical form, which every memory operation keeps (20_memory R61). -/

namespace Sys2Proof.Machine

/-! ### Reads -/

@[simp] theorem Memory.read_nil (a : Nat) : Memory.read [] a = 0#8 := rfl

/-- Erasing an address makes it read 0 and leaves every other address. -/
theorem Memory.read_erase (m : Memory) (a b : Nat) :
    (m.erase a).read b = if b = a then 0#8 else m.read b := by
  induction m with
  | nil => simp [Memory.erase]
  | cons c rest ih =>
    obtain ⟨x, v⟩ := c
    by_cases h : x = a
    · subst h
      have : Memory.erase ((x, v) :: rest) x = Memory.erase rest x := by simp [Memory.erase]
      rw [this, ih]
      by_cases hb : b = x <;> simp [Memory.read, hb]
    · have : Memory.erase ((x, v) :: rest) a = (x, v) :: Memory.erase rest a := by
        simp [Memory.erase, h]
      rw [this]
      simp only [Memory.read, ih]
      by_cases hb : b = x
      · subst hb; simp [h]
      · simp [hb]

/-- Putting a byte at an address makes it read that byte and leaves every other address. -/
theorem Memory.read_put (m : Memory) (a b : Nat) (v : Byte) :
    (m.put a v).read b = if b = a then v else m.read b := by
  induction m with
  | nil => simp [Memory.put, Memory.read]
  | cons c rest ih =>
    obtain ⟨x, w⟩ := c
    simp only [Memory.put]
    split
    · simp [Memory.read]
    · split
      · next h => subst h; simp [Memory.read]; split <;> simp_all
      · simp only [Memory.read, ih]
        split <;> split <;> simp_all

/-- A read after a write of one byte. -/
theorem Memory.read_write (m : Memory) (a b : Nat) (v : Byte) :
    (m.write a v).read b = if b = a ∧ a < 8192 then v else m.read b := by
  simp only [Memory.write, Config.dmemSize]
  split
  · next h =>
    split
    · next hv => subst hv; simp [Memory.read_erase, h]
    · simp [Memory.read_put, h]
  · next h => simp [h]

/-- A read after a write of a byte string that lies in DMEM. -/
theorem Memory.read_writeBytes (bytes : List Byte) (m : Memory) (a b : Nat) (h : a + bytes.length ≤ 8192) :
    (m.writeBytes a bytes).read b = if a ≤ b ∧ b < a + bytes.length then bytes.getD (b - a) 0#8 else m.read b := by
  induction bytes generalizing m a with
  | nil =>
    have : ¬ (a ≤ b ∧ b < a + ([] : List Byte).length) := by simp
    rw [if_neg this]; rfl
  | cons v rest ih =>
    simp only [List.length_cons] at h
    simp only [Memory.writeBytes]
    rw [ih _ _ (by omega), Memory.read_write]
    by_cases h1 : b = a
    · subst h1
      rw [if_neg (by omega), if_pos ⟨rfl, by omega⟩, if_pos ⟨le_refl _, by simp⟩]
      simp
    · by_cases h2 : a ≤ b ∧ b < a + (v :: rest).length
      · simp only [List.length_cons] at h2
        rw [if_pos (by omega), if_pos (by simpa using h2)]
        obtain ⟨k, hk⟩ : ∃ k, b - a = k + 1 := ⟨b - a - 1, by omega⟩
        rw [hk, List.getD_cons_succ]
        congr 1
        omega
      · simp only [List.length_cons] at h2
        rw [if_neg (by omega), if_neg (by tauto), if_neg (by simpa using h2)]

@[simp] theorem Memory.length_readBytes (m : Memory) (a n : Nat) : (m.readBytes a n).length = n := by
  simp [Memory.readBytes]

/-- The bytes just written are the bytes read back. -/
theorem Memory.readBytes_writeBytes (bytes : List Byte) (m : Memory) (a : Nat) (h : a + bytes.length ≤ 8192) :
    (m.writeBytes a bytes).readBytes a bytes.length = bytes := by
  apply List.ext_getElem (by simp)
  intro i h1 h2
  simp only [Memory.readBytes, List.getElem_map, List.getElem_range]
  rw [Memory.read_writeBytes _ _ _ _ h, if_pos ⟨by omega, by omega⟩]
  simp [List.getD_eq_getElem?_getD, h2]

/-! ### The canonical form -/

theorem Memory.wf_iff (m : Memory) :
    m.wf = true ↔ m.Pairwise (fun c d => c.1 < d.1) ∧ ∀ c ∈ m, c.1 < 8192 ∧ c.2 ≠ 0#8 := by
  simp [Memory.wf]

@[simp] theorem Memory.wf_nil : Memory.wf [] = true := by decide

theorem Memory.mem_put {m : Memory} {a : Nat} {v : Byte} {c : Host.Cell} (h : c ∈ m.put a v) :
    c = (a, v) ∨ c ∈ m := by
  induction m with
  | nil => simpa [Memory.put] using h
  | cons d rest ih =>
    obtain ⟨x, w⟩ := d
    simp only [Memory.put] at h
    split at h
    · simpa using h
    · split at h
      · simp only [List.mem_cons] at h ⊢; tauto
      · simp only [List.mem_cons] at h ⊢
        rcases h with h | h
        · tauto
        · have := ih h; tauto

theorem Memory.wf_put (m : Memory) (a : Nat) (v : Byte) (ha : a < 8192) (hv : v ≠ 0#8) (h : m.wf = true) :
    (m.put a v).wf = true := by
  rw [Memory.wf_iff] at h ⊢
  refine ⟨?_, fun c hc => ?_⟩
  · obtain ⟨hp, -⟩ := h
    induction m with
    | nil => simp [Memory.put]
    | cons d rest ih =>
      obtain ⟨x, w⟩ := d
      simp only [Memory.put]
      rw [List.pairwise_cons] at hp
      split
      · next hlt =>
        rw [List.pairwise_cons]
        refine ⟨fun c hc => ?_, List.pairwise_cons.mpr hp⟩
        rcases List.mem_cons.mp hc with rfl | hc
        · exact hlt
        · exact lt_trans hlt (hp.1 c hc)
      · split
        · next he => subst he; exact List.pairwise_cons.mpr hp
        · next h1 h2 =>
          rw [List.pairwise_cons]
          refine ⟨fun c hc => ?_, ih hp.2⟩
          rcases Memory.mem_put hc with rfl | hc
          · show x < a; omega
          · exact hp.1 c hc
  · rcases Memory.mem_put hc with rfl | hc
    · exact ⟨ha, hv⟩
    · exact h.2 c hc

theorem Memory.wf_erase (m : Memory) (a : Nat) (h : m.wf = true) : (m.erase a).wf = true := by
  rw [Memory.wf_iff] at h ⊢
  exact ⟨h.1.filter _, fun c hc => h.2 c (List.mem_of_mem_filter hc)⟩

/-- A write keeps the canonical form. -/
theorem Memory.wf_write (m : Memory) (a : Nat) (v : Byte) (h : m.wf = true) : (m.write a v).wf = true := by
  simp only [Memory.write, Config.dmemSize]
  split
  · next ha =>
    split
    · exact Memory.wf_erase m a h
    · next hv => exact Memory.wf_put m a v ha hv h
  · exact h

/-- A write of a byte string keeps the canonical form. -/
theorem Memory.wf_writeBytes (bytes : List Byte) (m : Memory) (a : Nat) (h : m.wf = true) :
    (m.writeBytes a bytes).wf = true := by
  induction bytes generalizing m a with
  | nil => exact h
  | cons v rest ih => exact ih _ _ (Memory.wf_write m a v h)

/-- A host write of a DMEM window word keeps the canonical form. -/
theorem Memory.wf_setDmemWord (m : Memory) (k : Nat) (w : Word) (h : m.wf = true) : (setDmemWord m k w).wf = true :=
  Memory.wf_writeBytes _ _ _ h

/-- In canonical form equal reads mean equal memories. -/
theorem Memory.read_eq_zero_of_lt {m : Memory} {a : Nat} (h : ∀ c ∈ m, a < c.1) : m.read a = 0#8 := by
  induction m with
  | nil => rfl
  | cons c rest ih =>
    obtain ⟨x, v⟩ := c
    have hx : a < x := h (x, v) (by simp)
    simp only [Memory.read, if_neg (Nat.ne_of_lt hx)]
    exact ih fun c hc => h c (by simp [hc])

end Sys2Proof.Machine
end

