-- ==== Sys2Proof/Laws/PerInstr.lean ====
section
/-! SUPPORT. Statements about every command as syntax, one lemma per constructor (30_encoding R91, R94). -/

namespace Sys2Proof.Laws

/-- The low byte of a command's word is its opcode and its reserved bits [31:20] are 0 (30_encoding R91, R94). -/
def OpcodeByte.Statement (i : Instr) : Prop :=
  (encode i).extractLsb' 0 8 = i.opcode ∧ (encode i).extractLsb' 20 12 = 0#12

/-- Decided over the values of the fields. -/
theorem OpcodeByte.assembled : ∀ (rd rs1 rs2 : PReg) (red f1 f2 : Bool),
    (assemble 0#8 rd rs1 rs2 red f1 f2).extractLsb' 0 8 = 0#8 ∧
      (assemble 0#8 rd rs1 rs2 red f1 f2).extractLsb' 20 12 = 0#12 := by decide +kernel

theorem OpcodeByte.of_assemble (op : BitVec 8) (rd rs1 rs2 : PReg) (red f1 f2 : Bool) :
    (assemble op rd rs1 rs2 red f1 f2).extractLsb' 0 8 = op ∧
      (assemble op rd rs1 rs2 red f1 f2).extractLsb' 20 12 = 0#12 := by
  have split : assemble op rd rs1 rs2 red f1 f2 = op.setWidth 32 ||| assemble 0#8 rd rs1 rs2 red f1 f2 := by
    simp only [assemble, BitVec.or_assoc]
    simp
  obtain ⟨h1, h2⟩ := OpcodeByte.assembled rd rs1 rs2 red f1 f2
  rw [split, BitVec.extractLsb'_or, BitVec.extractLsb'_or, h1, h2]
  constructor
  · ext k hk
    have : k < 32 := by omega
    simp [this, hk]
  · ext k hk
    simp only [BitVec.getElem_or, BitVec.getElem_extractLsb', BitVec.getLsbD_setWidth]
    simp [BitVec.getLsbD_of_ge op (20 + k) (by omega)]

theorem OpcodeByte.nop : OpcodeByte.Statement (.nop) := OpcodeByte.of_assemble _ _ _ _ _ _ _

theorem OpcodeByte.padd (rd rs1 rs2 : PReg) (red : Bool) : OpcodeByte.Statement (.padd rd rs1 rs2 red) := OpcodeByte.of_assemble _ _ _ _ _ _ _

theorem OpcodeByte.psub (rd rs1 rs2 : PReg) (red : Bool) : OpcodeByte.Statement (.psub rd rs1 rs2 red) := OpcodeByte.of_assemble _ _ _ _ _ _ _

theorem OpcodeByte.pconv (rd rs1 rs2 : PReg) (red : Bool) : OpcodeByte.Statement (.pconv rd rs1 rs2 red) := OpcodeByte.of_assemble _ _ _ _ _ _ _

theorem OpcodeByte.pred (rd rs1 : PReg) : OpcodeByte.Statement (.pred rd rs1) := OpcodeByte.of_assemble _ _ _ _ _ _ _

theorem OpcodeByte.peq (rs1 rs2 : PReg) : OpcodeByte.Statement (.peq rs1 rs2) := OpcodeByte.of_assemble _ _ _ _ _ _ _

theorem OpcodeByte.pinvp (rd rs1 : PReg) : OpcodeByte.Statement (.pinvp rd rs1) := OpcodeByte.of_assemble _ _ _ _ _ _ _

theorem OpcodeByte.pinvq (rd rs1 : PReg) : OpcodeByte.Statement (.pinvq rd rs1) := OpcodeByte.of_assemble _ _ _ _ _ _ _

theorem OpcodeByte.bpack (rs1 : PReg) (dry : Bool) : OpcodeByte.Statement (.bpack rs1 dry) := OpcodeByte.of_assemble _ _ _ _ _ _ _

theorem OpcodeByte.bunpack (rd : PReg) : OpcodeByte.Statement (.bunpack rd) := OpcodeByte.of_assemble _ _ _ _ _ _ _

theorem OpcodeByte.srcrng : OpcodeByte.Statement (.srcrng) := OpcodeByte.of_assemble _ _ _ _ _ _ _

theorem OpcodeByte.srcmgf (sha256 ph : Bool) : OpcodeByte.Statement (.srcmgf sha256 ph) := OpcodeByte.of_assemble _ _ _ _ _ _ _

theorem OpcodeByte.srcmem : OpcodeByte.Statement (.srcmem) := OpcodeByte.of_assemble _ _ _ _ _ _ _

theorem OpcodeByte.srcclose : OpcodeByte.Statement (.srcclose) := OpcodeByte.of_assemble _ _ _ _ _ _ _

theorem OpcodeByte.igfinit : OpcodeByte.Statement (.igfinit) := OpcodeByte.of_assemble _ _ _ _ _ _ _

theorem OpcodeByte.igfnext : OpcodeByte.Statement (.igfnext) := OpcodeByte.of_assemble _ _ _ _ _ _ _

theorem OpcodeByte.trismp (rd : PReg) : OpcodeByte.Statement (.trismp rd) := OpcodeByte.of_assemble _ _ _ _ _ _ _

theorem OpcodeByte.trimgf (rd : PReg) : OpcodeByte.Statement (.trimgf rd) := OpcodeByte.of_assemble _ _ _ _ _ _ _

theorem OpcodeByte.trienc (rs1 : PReg) : OpcodeByte.Statement (.trienc rs1) := OpcodeByte.of_assemble _ _ _ _ _ _ _

theorem OpcodeByte.keygen : OpcodeByte.Statement (.keygen) := OpcodeByte.of_assemble _ _ _ _ _ _ _

theorem OpcodeByte.encrypt : OpcodeByte.Statement (.encrypt) := OpcodeByte.of_assemble _ _ _ _ _ _ _

theorem OpcodeByte.decrypt : OpcodeByte.Statement (.decrypt) := OpcodeByte.of_assemble _ _ _ _ _ _ _

theorem OpcodeByte.keyclose : OpcodeByte.Statement (.keyclose) := OpcodeByte.of_assemble _ _ _ _ _ _ _

theorem OpcodeByte.keyload : OpcodeByte.Statement (.keyload) := OpcodeByte.of_assemble _ _ _ _ _ _ _

theorem OpcodeByte.keyexport (priv : Bool) : OpcodeByte.Statement (.keyexport priv) := OpcodeByte.of_assemble _ _ _ _ _ _ _

end Sys2Proof.Laws
end

