-- ==== Sys2Proof/Laws/Recovery.lean ====
section
/-! SUPPORT. What the decryption computation answers, said once (45_ntru R265 to R271): the values of `RecoveryOf` where both
draws end, the message where every check of `Recovery.Passes` passes, and the need to go on where a draw does not end. -/

namespace Sys2Proof.Machine

/-! ### A draw over a source that always answers ends or pauses -/

section Draws

variable {σ : Type} {pull : σ → Res σ Byte}

theorem igfFill_total (hp : ∀ s, ∃ v t, pull s = .ok v t) (n : Nat) (g : Igf) (s : σ) : ∃ x, igfFill pull n g s = .ok () x := by
  induction n generalizing g s with
  | zero => exact ⟨_, rfl⟩
  | succ n ih =>
    obtain ⟨v, t, h⟩ := hp s
    obtain ⟨x, hx⟩ := ih (igfPush g v) t
    exact ⟨x, by rw [igfFill, h]; exact hx⟩

theorem igfNext_total (hp : ∀ s, ∃ v t, pull s = .ok v t) (turns rej : Nat) (g : Igf) (s : σ) :
    (∃ d x, igfNext pull turns rej g s = .ok d x) ∨ ∃ x, igfNext pull turns rej g s = .paused x := by
  induction turns generalizing rej g s with
  | zero => exact .inr ⟨_, rfl⟩
  | succ n ih =>
    obtain ⟨x, hx⟩ := igfFill_total hp (igfNeed g) g s
    rw [igfNext, hx, Res.bind_ok]
    split
    · exact .inl ⟨_, _, rfl⟩
    · exact ih _ _ _

theorem bpgmPlace_total (hp : ∀ s, ∃ v t, pull s = .ok v t) (turns : Nat) (val : Int) (left need : Nat) (acc : Bpgm)
    (s : Igf × σ) :
    (∃ r x, bpgmPlace pull turns val left need acc s = .ok r x) ∨
      ∃ x, bpgmPlace pull turns val left need acc s = .paused x := by
  induction left generalizing need acc s with
  | zero =>
    cases need with
    | zero => exact .inl ⟨_, _, rfl⟩
    | succ k => exact .inr ⟨_, rfl⟩
  | succ n ih =>
    cases need with
    | zero => exact .inl ⟨_, _, rfl⟩
    | succ k =>
      rw [bpgmPlace]
      rcases igfNext_total hp turns 0 s.1 s.2 with ⟨d, x, hx⟩ | ⟨x, hx⟩ <;> rw [hx]
      · exact ih _ _ _
      · exact .inr ⟨_, rfl⟩

theorem bpgm3_total (hp : ∀ s, ∃ v t, pull s = .ok v t) (turns N ones negs : Nat) (s : Igf × σ) :
    (∃ r x, bpgm3 pull turns N ones negs s = .ok r x) ∨ ∃ x, bpgm3 pull turns N ones negs s = .paused x := by
  rw [bpgm3]
  rcases bpgmPlace_total hp turns 1 turns ones _ s with ⟨r, x, hx⟩ | ⟨x, hx⟩ <;> rw [hx]
  · exact bpgmPlace_total hp _ _ _ _ _ _
  · exact .inr ⟨_, rfl⟩

theorem tpDecode_total (hp : ∀ s, ∃ v t, pull s = .ok v t) (N turns : Nat) (acc : TpAcc) (s : σ) :
    (∃ r x, tpDecode pull N turns acc s = .ok r x) ∨ ∃ x, tpDecode pull N turns acc s = .paused x := by
  induction turns generalizing acc s with
  | zero =>
    unfold tpDecode
    split
    · exact .inl ⟨_, _, rfl⟩
    · exact .inr ⟨_, rfl⟩
  | succ n ih =>
    unfold tpDecode
    split
    · exact .inl ⟨_, _, rfl⟩
    · obtain ⟨v, t, h⟩ := hp s
      rw [h]
      exact ih _ _

end Draws

theorem mgfPullRes_total (impl : DigestImpl) (m : Mgf) : ∃ v t, mgfPullRes impl m = .ok v t := ⟨_, _, rfl⟩

/-- GenR ends or goes on (45_ntru R246). -/
theorem genR_total (impl : DigestImpl) (turns : Nat) (P : ParamSet) (s : List Byte) :
    (∃ r x, genR impl turns P s = .ok r x) ∨ ∃ x, genR impl turns P s = .paused x :=
  bpgm3_total (mgfPullRes_total impl) _ _ _ _ _

/-- GenMask ends or goes on (45_ntru R248). -/
theorem genMask_total (impl : DigestImpl) (turns : Nat) (P : ParamSet) (R : Vec) :
    (∃ r x, genMask impl turns P R = .ok r x) ∨ ∃ x, genMask impl turns P R = .paused x :=
  tpDecode_total (mgfPullRes_total impl) _ _ _ _

/-! ### The values and the checks -/

theorem fitTo_length {α : Type} (n : Nat) (z : α) (l : List α) : (fitTo n z l).length = n := by
  simp only [fitTo, List.length_append, List.length_take, List.length_replicate]
  omega

/-- The recovered buffer has mBufLen bytes (45_ntru R247). -/
theorem triToBin_length (P : ParamSet) (t : Vec) : (triToBin P t).1.length = P.mBufLen := by
  unfold triToBin
  split <;> exact fitTo_length _ _ _

/-- The pad bits of a ciphertext, one by one (45_ntru R267). -/
theorem padnz_eq_false_iff (ct : List Byte) (n : Nat) :
    padnz ct n 2048 = false ↔
      ∀ k, n * 11 ≤ k → k < 8 * ((n * 11 + 7) / 8) → (ct.getD (k / 8) 0#8).getLsbD (7 - k % 8) = false := by
  simp only [padnz, packedLen, bw_q, List.any_eq_false, List.mem_range, streamBit, Bool.not_eq_true]
  refine ⟨fun h k h1 h2 => ?_, fun h j hj => h _ (by omega) (by omega)⟩
  have := h (k - n * 11) (by omega)
  rwa [show n * 11 + (k - n * 11) = k by omega] at this

/-- The bytes from an index on are 0, one by one. -/
theorem all_zero_drop_iff (l : List Byte) (n : Nat) :
    ((l.drop n).all fun v => v == 0#8) = true ↔ ∀ i, n ≤ i → i < l.length → l.getD i 0#8 = 0#8 := by
  rw [List.all_eq_true]
  refine ⟨fun h i h1 h2 => ?_, fun h v hv => ?_⟩
  · have hm : l[i] ∈ l.drop n := List.mem_drop_iff_getElem.mpr ⟨i - n, by omega, by congr 1; omega⟩
    rw [List.getD_eq_getElem _ _ h2]
    simpa using h _ hm
  · obtain ⟨i, hi, rfl⟩ := List.mem_drop_iff_getElem.mp hv
    have := h (n + i) (by omega) (by omega)
    rw [List.getD_eq_getElem _ _ (by omega)] at this
    simpa [Nat.add_comm] using this

/-- The unpacked ciphertext (45_ntru R267). -/
def ctVec (P : ParamSet) (ct : List Byte) : Vec := intVec (unpack ct P.N Config.q)

theorem at'_ctVec {P : ParamSet} {ct : List Byte} {i : Nat} (hi : i < P.N) :
    at' (ctVec P ct) i = (unpackAt ct 2048 i : Int) := by
  simp [at', ctVec, intVec, unpack, hi, Config.q]

/-- The values of a decryption, from its mask and its r (45_ntru R266 to R271). -/
def recoveryFrom (P : ParamSet) (F h : Vec) (ct : List Byte) (mask : TpAcc) (r : Bpgm) : Recovery :=
  let ci := candidateMsg P.N F (ctVec P ct)
  let M := triToBin P (tab P.N fun i => red (at' ci i - at' mask.t i) 3 (-1))
  ⟨ci, candidateR P.N (ctVec P ct) ci, M.1, M.2, (parseBuf P M.1).cb, (parseBuf P M.1).cm, blindPoly P.N r.t h⟩

/-- The message Parse cuts (45_ntru R270). -/
theorem parseBuf_cm (P : ParamSet) (cM : List Byte) :
    (parseBuf P cM).cm = (cM.drop (P.db + 1)).take (min (cM.getD P.db 0#8).toNat P.maxMsgLenBytes) := by
  simp only [parseBuf, decide_eq_true_eq]
  split <;> next h => congr 1; omega

/-- `RecoveryOf` holds of exactly the values of the two draws, where both end. -/
theorem recoveryOf_iff {impl : DigestImpl} {turns : Nat} {P : ParamSet} {F h : Vec} {ct : List Byte} {v : Recovery} :
    RecoveryOf impl turns P F h ct v ↔ ∃ mask y r x,
      v = recoveryFrom P F h ct mask r ∧ genMask impl turns P v.cR = .ok mask y ∧
        genR impl turns P (sData P v.cm v.cb h) = .ok r x := by
  have hf : ∀ i, i < P.N → at' (privPoly P.N F) i = (if i = 0 then 1 else 0) + 3 * at' F i := fun i hi => at'_tab _ hi
  have hci : ∀ a : Vec, a = candidateMsg P.N F (ctVec P ct) ↔
      a.length = P.N ∧ ∀ k, k < P.N → at' a k =
        red (red (∑ i ∈ Finset.range P.N, ((if i = 0 then 1 else 0) + 3 * at' F i) *
          (unpackAt ct 2048 ((k + P.N - i) % P.N) : Int)) 2048 (-1024)) 3 (-1) := by
    intro a
    rw [candidateMsg, eq_tab_iff]
    refine and_congr_right fun _ => forall_congr' fun k => imp_congr_right fun hk => ?_
    rw [convAt, sumTo_eq_sum, Finset.sum_congr rfl fun i hi => by
      rw [hf i (Finset.mem_range.mp hi), at'_ctVec (Nat.mod_lt _ (by omega))]]
  have hcR : ∀ a ci : Vec, a = candidateR P.N (ctVec P ct) ci ↔
      a.length = P.N ∧ ∀ i, i < P.N → at' a i = ((unpackAt ct 2048 i : Int) - at' ci i) % 2048 := by
    intro a ci
    rw [candidateR, eq_tab_iff]
    refine and_congr_right fun _ => forall_congr' fun k => imp_congr_right fun hk => ?_
    rw [at'_ctVec hk]
    rfl
  obtain ⟨ci, cR, cM, ok, cb, cm, R2⟩ := v
  simp only [RecoveryOf, Recovery.lengthByte]
  constructor
  · rintro ⟨h1, h2, h3, h4, ⟨mask, cMt, hm, h5, h6, h7⟩, rfl, rfl, hb⟩
    obtain rfl := (hci ci).mpr ⟨h1, h2⟩
    obtain rfl := (hcR cR _).mpr ⟨h3, h4⟩
    obtain ⟨x, y, hx, rfl⟩ := (maskOf_iff h3).mp hm
    obtain ⟨r, z, hz, rfl⟩ := blindOf_iff.mp hb
    obtain rfl := eq_tab_iff.mpr ⟨h5, h6⟩
    refine ⟨x, y, r, z, ?_, hx, hz⟩
    simp only [recoveryFrom, h7, parseBuf_cm]
    rfl
  · rintro ⟨mask, y, r, x, hv, hx, hz⟩
    simp only [recoveryFrom, Recovery.mk.injEq] at hv
    obtain ⟨rfl, rfl, rfl, rfl, rfl, rfl, rfl⟩ := hv
    have h1 := (hci _).mp rfl
    have h3 := (hcR _ (candidateMsg P.N F (ctVec P ct))).mp rfl
    exact ⟨h1.1, h1.2, h3.1, h3.2, ⟨mask.t, _, (maskOf_iff h3.1).mpr ⟨mask, y, hx, rfl⟩, tab_length _ _,
      fun i hi => at'_tab _ hi, rfl⟩, rfl, parseBuf_cm _ _, blindOf_iff.mpr ⟨r, x, hz, rfl⟩⟩

/-- The checks of the model are those of `Recovery.Passes` (45_ntru R266, R267, R249, R247, R270, R271). -/
theorem passes_iff (P : ParamSet) (F h : Vec) (ct : List Byte) (mask : TpAcc) (r : Bpgm) :
    (recoveryFrom P F h ct mask r).Passes P ct ↔
      (!padnz ct P.N Config.q && dm0ok P (recoveryFrom P F h ct mask r).ci && (recoveryFrom P F h ct mask r).ok &&
        (parseBuf P (recoveryFrom P F h ct mask r).cM).padok &&
        decide ((recoveryFrom P F h ct mask r).R2 = (recoveryFrom P F h ct mask r).cR)) = true := by
  generalize hv : recoveryFrom P F h ct mask r = v
  have hM : v.cM.length = P.mBufLen := by rw [← hv]; exact triToBin_length _ _
  have hR2 : v.R2.length = P.N := by rw [← hv]; simp [recoveryFrom, blindPoly, modVec]
  have hcR : v.cR.length = P.N := by rw [← hv]; simp [recoveryFrom, candidateR]
  have hpad : (parseBuf P v.cM).padok = true ↔ v.lengthByte P ≤ P.maxMsgLenBytes ∧
      ∀ i, P.db + 1 + v.lengthByte P ≤ i → i < P.mBufLen → v.cM.getD i 0#8 = 0#8 := by
    simp only [parseBuf, Bool.and_eq_true, decide_eq_true_eq, Recovery.lengthByte]
    refine and_congr_right fun hle => ?_
    rw [if_pos hle, all_zero_drop_iff, hM]
  have hEq : v.R2 = v.cR ↔ ∀ i, i < P.N → at' v.R2 i = at' v.cR i := by
    refine ⟨fun h i _ => by rw [h], fun h => ?_⟩
    rw [eq_tab_iff.mpr ⟨hR2, h⟩, ← eq_tab_iff.mpr ⟨hcR, fun i _ => rfl⟩]
  simp only [Recovery.Passes, Bool.and_eq_true, Bool.not_eq_true', decide_eq_true_eq, hpad, hEq, dm0ok_iff,
    show Config.q = 2048 from rfl, padnz_eq_false_iff, ParamSet.lenH, and_assoc]

/-- Everything the decryption computation answers (45_ntru R265, R266): where the two draws end with the values v, the message
of v or none as the checks decide; else it goes on. -/
theorem decryptMsg_cases (impl : DigestImpl) (turns : Nat) (P : ParamSet) (F h : Vec) (ct : List Byte) (f : Feed) :
    (∃ v, RecoveryOf impl turns P F h ct v ∧ (∀ w, RecoveryOf impl turns P F h ct w → w = v) ∧
      ((v.Passes P ct ∧ decryptMsg impl turns P F h ct f = .ok (some v.cm) f) ∨
        (¬ v.Passes P ct ∧ decryptMsg impl turns P F h ct f = .ok none f))) ∨
    (¬ ∃ v, RecoveryOf impl turns P F h ct v) ∧ decryptMsg impl turns P F h ct f = .paused f := by
  have hunfold : decryptMsg impl turns P F h ct f =
      (scratch (genMask impl turns P (candidateR P.N (ctVec P ct) (candidateMsg P.N F (ctVec P ct)))) f).bind fun mask f1 =>
        (scratch (genR impl turns P (sData P (recoveryFrom P F h ct mask ⟨[], 0, 0⟩).cm
          (recoveryFrom P F h ct mask ⟨[], 0, 0⟩).cb h)) f1).bind fun r f2 =>
        .ok (if !padnz ct P.N Config.q && dm0ok P (recoveryFrom P F h ct mask r).ci && (recoveryFrom P F h ct mask r).ok &&
            (parseBuf P (recoveryFrom P F h ct mask r).cM).padok &&
            decide ((recoveryFrom P F h ct mask r).R2 = (recoveryFrom P F h ct mask r).cR) then
          some (recoveryFrom P F h ct mask r).cm else none) f2 := rfl
  rw [hunfold]
  rcases genMask_total impl turns P (candidateR P.N (ctVec P ct) (candidateMsg P.N F (ctVec P ct))) with
    ⟨mask, y, hm⟩ | ⟨y, hm⟩
  · rw [hm]
    rcases genR_total impl turns P (sData P (recoveryFrom P F h ct mask ⟨[], 0, 0⟩).cm
        (recoveryFrom P F h ct mask ⟨[], 0, 0⟩).cb h) with ⟨r, x, hr⟩ | ⟨x, hr⟩
    · refine .inl ⟨recoveryFrom P F h ct mask r, recoveryOf_iff.mpr ⟨mask, y, r, x, rfl, hm, hr⟩, fun w hw => ?_, ?_⟩
      · obtain ⟨mask', y', r', x', rfl, hm', hr'⟩ := recoveryOf_iff.mp hw
        obtain ⟨rfl, -⟩ := Res.ok.inj (hm.symm.trans hm')
        obtain ⟨rfl, -⟩ := Res.ok.inj (hr.symm.trans hr')
        rfl
      · have hp := passes_iff P F h ct mask r
        simp only [scratch, Res.mapState_ok, Res.bind_ok, hr]
        by_cases hv : (recoveryFrom P F h ct mask r).Passes P ct
        · exact .inl ⟨hv, by rw [if_pos (hp.mp hv)]⟩
        · exact .inr ⟨hv, by rw [if_neg fun hc => hv (hp.mpr hc)]⟩
    · refine .inr ⟨fun ⟨w, hw⟩ => ?_, ?_⟩
      · obtain ⟨mask', y', r', x', rfl, hm', hr'⟩ := recoveryOf_iff.mp hw
        obtain ⟨rfl, -⟩ := Res.ok.inj (hm.symm.trans hm')
        have := hr.symm.trans hr'
        simp at this
      · simp only [scratch, Res.mapState_ok, Res.bind_ok, hr, Res.mapState_paused, Res.bind_paused]
  · refine .inr ⟨fun ⟨w, hw⟩ => ?_, ?_⟩
    · obtain ⟨mask', y', r', x', rfl, hm', hr'⟩ := recoveryOf_iff.mp hw
      have : genMask impl turns P (candidateR P.N (ctVec P ct) (candidateMsg P.N F (ctVec P ct))) = .ok mask' y' := hm'
      rw [hm] at this
      simp at this
    · rw [hm]
      rfl

end Sys2Proof.Machine
end

