-- ==== Sys2Proof/Laws/Sources.lean ====
section
/-! SUPPORT. A draw depends on its source through the bytes alone (44_streams R192): where one source gives the bytes of
another, the draws over them end alike. -/

namespace Sys2Proof.Machine

section Simulation

variable {σ τ : Type} {p : σ → Res σ Byte} {q : τ → Res τ Byte} {Rel : σ → τ → Prop}

/-- Wherever p answers a byte in related states, q answers the same one and the states stay related. -/
def PullFollows (p : σ → Res σ Byte) (q : τ → Res τ Byte) (Rel : σ → τ → Prop) : Prop :=
  ∀ s t v s', Rel s t → p s = .ok v s' → ∃ t', q t = .ok v t' ∧ Rel s' t'

theorem igfFill_follows (hq : PullFollows p q Rel) {n : Nat} {g : Igf} {s : σ} {t : τ} {x : Igf × σ} (h : Rel s t)
    (hx : igfFill p n g s = .ok () x) : ∃ t', igfFill q n g t = .ok () (x.1, t') ∧ Rel x.2 t' := by
  induction n generalizing g s t with
  | zero =>
    simp only [igfFill, Res.ok.injEq, true_and] at hx
    subst hx
    exact ⟨t, rfl, h⟩
  | succ n ih =>
    unfold igfFill at hx
    cases hr : p s with
    | ok v s' =>
      rw [hr] at hx
      obtain ⟨t', ht, h'⟩ := hq s t v s' h hr
      rw [igfFill, ht]
      exact ih h' hx
    | err e s' => rw [hr] at hx; simp at hx
    | starved s' => rw [hr] at hx; simp at hx
    | paused s' => rw [hr] at hx; simp at hx

theorem igfNext_follows (hq : PullFollows p q Rel) {turns rej : Nat} {g : Igf} {s : σ} {t : τ} {d : Nat × Nat}
    {x : Igf × σ} (h : Rel s t) (hx : igfNext p turns rej g s = .ok d x) :
    ∃ t', igfNext q turns rej g t = .ok d (x.1, t') ∧ Rel x.2 t' := by
  induction turns generalizing rej g s t with
  | zero => simp [igfNext] at hx
  | succ n ih =>
    unfold igfNext at hx
    obtain ⟨u, y, hy, hx⟩ := Res.bind_eq_ok.mp hx
    obtain ⟨t', ht, h'⟩ := igfFill_follows hq h hy
    rw [igfNext, ht, Res.bind_ok]
    split at hx <;> next hc =>
      simp only [hc, if_true, if_false]
      first
      | exact ih h' hx
      | (simp only [Res.ok.injEq] at hx
         obtain ⟨rfl, rfl⟩ := hx
         exact ⟨t', rfl, h'⟩)

theorem bpgmPlace_follows (hq : PullFollows p q Rel) {turns left need : Nat} {val : Int} {acc r : Bpgm} {g : Igf} {s : σ}
    {t : τ} {x : Igf × σ} (h : Rel s t) (hx : bpgmPlace p turns val left need acc (g, s) = .ok r x) :
    ∃ t', bpgmPlace q turns val left need acc (g, t) = .ok r (x.1, t') ∧ Rel x.2 t' := by
  induction left generalizing need acc g s t with
  | zero =>
    cases need with
    | zero =>
      simp only [bpgmPlace, Res.ok.injEq] at hx
      obtain ⟨rfl, rfl⟩ := hx
      exact ⟨t, rfl, h⟩
    | succ k => simp [bpgmPlace] at hx
  | succ n ih =>
    cases need with
    | zero =>
      simp only [bpgmPlace, Res.ok.injEq] at hx
      obtain ⟨rfl, rfl⟩ := hx
      exact ⟨t, rfl, h⟩
    | succ k =>
      unfold bpgmPlace at hx
      obtain ⟨d, y, hy, hx⟩ := Res.bind_eq_ok.mp hx
      obtain ⟨t', ht, h'⟩ := igfNext_follows hq h hy
      rw [bpgmPlace, ht, Res.bind_ok]
      exact ih h' hx

/-- BPGM3 over a source that follows another one ends with the same trinomial (44_streams R203). -/
theorem bpgm3_follows (hq : PullFollows p q Rel) {turns N ones negs : Nat} {r : Bpgm} {g : Igf} {s : σ} {t : τ}
    {x : Igf × σ} (h : Rel s t) (hx : bpgm3 p turns N ones negs (g, s) = .ok r x) :
    ∃ t', bpgm3 q turns N ones negs (g, t) = .ok r (x.1, t') ∧ Rel x.2 t' := by
  unfold bpgm3 at hx
  obtain ⟨acc, y, hy, hx⟩ := Res.bind_eq_ok.mp hx
  obtain ⟨t', ht, h'⟩ := bpgmPlace_follows hq h hy
  rw [bpgm3, ht, Res.bind_ok]
  exact bpgmPlace_follows hq h' hx

/-- The trit decoder over a source that follows another one ends with the same trits (44_streams R204). -/
theorem tpDecode_follows (hq : PullFollows p q Rel) {N turns : Nat} {acc r : TpAcc} {s s' : σ} {t : τ} (h : Rel s t)
    (hx : tpDecode p N turns acc s = .ok r s') : ∃ t', tpDecode q N turns acc t = .ok r t' ∧ Rel s' t' := by
  induction turns generalizing acc s t with
  | zero =>
    unfold tpDecode at hx ⊢
    split at hx <;> next hc =>
      simp only [hc, if_true, if_false]
      first
      | (simp at hx; done)
      | (simp only [Res.ok.injEq] at hx
         obtain ⟨rfl, rfl⟩ := hx
         exact ⟨t, rfl, h⟩)
  | succ n ih =>
    unfold tpDecode at hx ⊢
    split at hx
    · next hc =>
      simp only [Res.ok.injEq] at hx
      obtain ⟨rfl, rfl⟩ := hx
      exact ⟨t, by simp [hc], h⟩
    · next hc =>
      obtain ⟨v, y, hy, hx⟩ := Res.bind_eq_ok.mp hx
      obtain ⟨t', ht, h'⟩ := hq _ _ _ _ h hy
      rw [if_neg hc, ht, Res.bind_ok]
      exact ih h' hx

end Simulation

/-- The consumption of a memory source that has given k bytes, beside that of the MGF1 stream pulled k times. -/
def MemBesideMgf (impl : DigestImpl) (n a : Nat) (f0 : Feed) (f g : Feed) : Prop :=
  ∃ k, k ≤ n ∧ f.su.src = .mem ∧ f.su.mcur = a + k ∧ f.su.mend = a + n ∧ g.rng = f.rng ∧ g.pulled = f.pulled ∧
    g.iterCnt = f.iterCnt ∧
    g.su = { f.su with
      src := .mgf, mcur := f0.su.mcur, mend := f0.su.mend, mgf := (fun x => (mgfPull impl x).2)^[k] f0.su.mgf }

/-- An MGF1 stream follows a memory source that holds its next bytes (44_streams R192, R193). -/
theorem mgf_follows_mem {impl : DigestImpl} {mem mem' : Memory} {n a : Nat} {f0 : Feed}
    (hm : ∀ k, k < n → mem'.read (a + k) = (mgfPull impl ((fun x => (mgfPull impl x).2)^[k] f0.su.mgf)).1) :
    PullFollows (pull mem' impl) (pull mem impl) (MemBesideMgf impl n a f0) := by
  rintro f g v f' ⟨k, hk, h1, h2, h3, h4, h5, h6, h7⟩ hp
  simp only [pull, h1] at hp
  split at hp
  · simp at hp
  · next hne =>
    simp only [Res.ok.injEq] at hp
    obtain ⟨rfl, rfl⟩ := hp
    have hlt : k < n := by omega
    refine ⟨{ g with su := { g.su with mgf := (mgfPull impl g.su.mgf).2 } }, ?_, k + 1, hlt, rfl, ?_, h3, h4, h5, h6, ?_⟩
    · simp only [pull, h7, h2, hm k hlt]
    · simp only [h2]; omega
    · simp only [h7, Function.iterate_succ_apply']

/-- The consumption of a memory source that has given k bytes, beside that of the RNG port that has. -/
def MemBesideRng (n a : Nat) (f0 : Feed) (f g : Feed) : Prop :=
  ∃ k, k ≤ n ∧ f.su.src = .mem ∧ f.su.mcur = a + k ∧ f.su.mend = a + n ∧ g.rng = f0.rng.drop k ∧ f.rng = f0.rng ∧
    f.pulled = f0.pulled ∧ g.pulled = f0.pulled + k ∧ g.iterCnt = f.iterCnt ∧
    g.su = { f.su with src := .rng, mcur := f0.su.mcur, mend := f0.su.mend }

/-- The RNG port follows a memory source that holds the offered bytes (44_streams R191, R192). -/
theorem rng_follows_mem {impl : DigestImpl} {mem mem' : Memory} {n a : Nat} {f0 : Feed} (hn : n ≤ f0.rng.length)
    (hm : ∀ k, k < n → mem'.read (a + k) = f0.rng.getD k 0#8) :
    PullFollows (pull mem' impl) (pull mem impl) (MemBesideRng n a f0) := by
  rintro f g v f' ⟨k, hk, h1, h2, h3, h4, h5, h6, h7, h8, h9⟩ hp
  simp only [pull, h1] at hp
  split at hp
  · simp at hp
  · next hne =>
    simp only [Res.ok.injEq] at hp
    obtain ⟨rfl, rfl⟩ := hp
    have hlt : k < n := by omega
    have hl : k < f0.rng.length := by omega
    have hd : g.rng = f0.rng[k] :: f0.rng.drop (k + 1) := by rw [h4, List.drop_eq_getElem_cons hl]
    refine ⟨{ g with rng := f0.rng.drop (k + 1), pulled := g.pulled + 1 }, ?_, k + 1, hlt, rfl, ?_, h3, rfl, h5, h6, ?_, h8,
      h9⟩
    · have hs : g.su.src = .rng := by rw [h9]
      simp only [pull, hs, rngPull, hd, h2, hm k hlt, List.getD_eq_getElem _ _ hl]
    · simp only [h2]; omega
    · simp only [h7]; omega

end Sys2Proof.Machine
end

