-- ==== Sys2Proof/Laws/Step.lean ====
section
/-! SUPPORT. Everything a step can do, said once: which event it takes, what a host access makes of a state, and the
principle by which an invariant is proved of every step. -/

namespace Sys2Proof.Machine

/-! ### The sequencer's turn -/

theorem sequencerTurn_idle {s : State} (h : s.phase = .idle) : sequencerTurn s = .next s := by
  simp [sequencerTurn, h]

theorem sequencerTurn_command {s : State} {i : Instr} (h : s.phase = .busy) (hd : decode s.ctx.word = some i) :
    sequencerTurn s = exec i s := by
  simp [sequencerTurn, h, currentCommand, hd]

theorem sequencerTurn_illegal {s : State} (h : s.phase = .busy) (hd : decode s.ctx.word = none) :
    sequencerTurn s = .next (s.failedWith .illegalCmd) := by
  simp [sequencerTurn, h, currentCommand, hd, illegalCommand, raiseErr_eq]

theorem step_no_event {s : State} (h : s.inbox = []) : step s = sequencerTurn s := by
  unfold step; rw [h]

theorem step_event {s : State} {e : Event} {rest : List Event} (h : s.inbox = e :: rest) :
    step s = handle { s with inbox := rest } e := by
  unfold step; rw [h]

/-- Everything the sequencer's turn can be. -/
theorem sequencerTurn_cases (s : State) :
    (s.phase = .idle ∧ sequencerTurn s = .next s) ∨
    (s.phase = .busy ∧ decode s.ctx.word = none ∧ sequencerTurn s = .next (s.failedWith .illegalCmd)) ∨
    (∃ i, s.phase = .busy ∧ decode s.ctx.word = some i ∧ sequencerTurn s = exec i s) := by
  cases hp : s.phase with
  | idle => exact .inl ⟨rfl, sequencerTurn_idle hp⟩
  | busy =>
    cases hd : decode s.ctx.word with
    | none => exact .inr (.inl ⟨rfl, rfl, sequencerTurn_illegal hp hd⟩)
    | some i => exact .inr (.inr ⟨i, rfl, rfl, sequencerTurn_command hp hd⟩)

/-! ### Host accesses -/

/-- Everything a host access can make of a state (10_state section 1.2, 20_memory R62 to R66, 40_command R110, R111,
70_reset R341). -/
inductive AccessEffect (s : State) : State → Prop
  | nothing : AccessEffect s s
  | read (v : Word) : AccessEffect s { s with rdata := some v }
  | refusedRead : AccessEffect s { s with rdata := some 0#32, status := { s.status with accerr := true } }
  | refusedWrite : AccessEffect s { s with status := { s.status with accerr := true } }
  | reset : AccessEffect s (resetEngine s)
  | clear (w : Word) : AccessEffect s { s with status := s.status.writeOneToClear w }
  | accepted (w : Word) (h : s.phase = .idle) : AccessEffect s (accept s w)
  | dropped (h : s.phase = .busy) : AccessEffect s { s with status := { s.status with ovr := true } }
  | register (a0 a1 a2 a3 n m l c : Word) (e : Bool) :
      AccessEffect s { s with
        arg0 := a0, arg1 := a1, arg2 := a2, arg3 := a3, cfgN := n, cfgMod := m, cfgLow := l, iterCap := c
        doneIE := e }
  | dmem (k : Nat) (w : Word) (h : s.phase = .idle) : AccessEffect s { s with dmem := setDmemWord s.dmem k w }
  | pr (k : PReg) (j : Nat) (w : Word) (h : s.phase = .idle) :
      AccessEffect s { s with pr := s.pr.set k (setPrWord s.pr[k] j w) }

theorem AccessEffect.ite {s t u : State} {c : Prop} [Decidable c] (ht : AccessEffect s t) (hu : AccessEffect s u) :
    AccessEffect s (if c then t else u) := by
  split
  · exact ht
  · exact hu

theorem issue_effect (s : State) (w : Word) : AccessEffect s (issue s w) := by
  cases h : s.phase with
  | idle => simpa [issue, h] using AccessEffect.accepted w h
  | busy =>
    have : issue s w = { s with status := { s.status with ovr := true } } := by simp [issue, h]
    exact this ▸ .dropped h

theorem regWrite_effect (s : State) (off : Nat) (w : Word) : AccessEffect s (regWrite s off w) := by
  unfold regWrite
  refine .ite (.ite .reset .nothing) (.ite (.clear w) (.ite (issue_effect s w) ?_))
  refine .ite (.register w s.arg1 s.arg2 s.arg3 s.cfgN s.cfgMod s.cfgLow s.iterCap s.doneIE) ?_
  refine .ite (.register s.arg0 w s.arg2 s.arg3 s.cfgN s.cfgMod s.cfgLow s.iterCap s.doneIE) ?_
  refine .ite (.register s.arg0 s.arg1 w s.arg3 s.cfgN s.cfgMod s.cfgLow s.iterCap s.doneIE) ?_
  refine .ite (.register s.arg0 s.arg1 s.arg2 w s.cfgN s.cfgMod s.cfgLow s.iterCap s.doneIE) ?_
  refine .ite (.register s.arg0 s.arg1 s.arg2 s.arg3 w s.cfgMod s.cfgLow s.iterCap s.doneIE) ?_
  refine .ite (.register s.arg0 s.arg1 s.arg2 s.arg3 s.cfgN w s.cfgLow s.iterCap s.doneIE) ?_
  refine .ite (.register s.arg0 s.arg1 s.arg2 s.arg3 s.cfgN s.cfgMod w s.iterCap s.doneIE) ?_
  refine .ite (.register s.arg0 s.arg1 s.arg2 s.arg3 s.cfgN s.cfgMod s.cfgLow s.iterCap (w.getLsbD 0)) ?_
  refine .ite (.register s.arg0 s.arg1 s.arg2 s.arg3 s.cfgN s.cfgMod s.cfgLow w s.doneIE) ?_
  exact .nothing

/-- Not refused, a window access comes while idle. -/
theorem idle_of_window {s : State} {off : Nat} {wd : Width} (h : refusedAccess s off wd = false) (h1 : 0x2000 ≤ off)
    (h2 : off < 0xC000) : s.phase = .idle := by
  cases hp : s.phase with
  | idle => rfl
  | busy =>
    have : inWindow off = true := by simp [inWindow, h1, h2]
    simp [refusedAccess, State.busy, hp, this] at h

theorem hostAccess_effect (s : State) (a : Access) : AccessEffect s (hostAccess s a) := by
  cases a with
  | read off wd => exact .ite .refusedRead (.read _)
  | write off wd w =>
    show AccessEffect s (if refusedAccess s off.toNat wd then setAccerr s else writeWord s off.toNat w)
    cases hr : refusedAccess s off.toNat wd with
    | true => rw [if_pos rfl]; exact .refusedWrite
    | false =>
      rw [if_neg Bool.false_ne_true]
      by_cases h1 : off.toNat < 0x2000
      · rw [writeWord, if_pos h1]; exact regWrite_effect s _ w
      by_cases h2 : off.toNat < 0x4000
      · rw [writeWord, if_neg h1, if_pos h2]
        exact .dmem _ w (idle_of_window hr (by omega) (by omega))
      by_cases h3 : off.toNat < 0xC000
      · rw [writeWord, if_neg h1, if_neg h2, if_pos h3]
        exact .pr _ _ w (idle_of_window hr (by omega) (by omega))
      · rw [writeWord, if_neg h1, if_neg h2, if_neg h3]; exact .nothing

/-! ### Invariants -/

/-- How an invariant is proved of every step: it does not look at the events to come; every command, an illegal word, every
host access, an offered byte and a reset keep it. -/
theorem step_keeps (P : State → Prop)
    (hinbox : ∀ s rest, P s → P { s with inbox := rest })
    (hexec : ∀ i s t, s.phase = .busy → P s → exec i s = .next t → P t)
    (hillegal : ∀ s, s.phase = .busy → P s → P (s.failedWith .illegalCmd))
    (haccess : ∀ s t, P s → AccessEffect s t → P t)
    (hbyte : ∀ s v, P s → P (offerByte s v))
    (hreset : ∀ s, P s → P (resetEngine s)) {s t : State} (h : step s = .next t) (hs : P s) : P t := by
  have turn : ∀ u v, P u → sequencerTurn u = .next v → P v := by
    intro u v hu huv
    rcases sequencerTurn_cases u with ⟨-, hq⟩ | ⟨hp, -, hq⟩ | ⟨i, hp, -, hq⟩
    · rw [hq] at huv; cases huv; exact hu
    · rw [hq] at huv; cases huv; exact hillegal u hp hu
    · exact hexec i u v hp hu (hq ▸ huv)
  cases hi : s.inbox with
  | nil => exact turn s t hs (step_no_event hi ▸ h)
  | cons e rest =>
    rw [step_event hi] at h
    have hs' := hinbox s rest hs
    cases e with
    | turn => exact turn _ t hs' h
    | access a => cases h; exact haccess _ _ hs' (hostAccess_effect _ a)
    | together a =>
      simp only [handle] at h
      cases hq : sequencerTurn { s with inbox := rest } with
      | next v =>
        rw [hq] at h; cases h
        exact haccess _ _ (turn _ v hs' hq) (hostAccess_effect v a)
      | fault r => rw [hq] at h; cases h
      | refused r => rw [hq] at h; cases h
    | rngByte v => cases h; exact hbyte _ v hs'
    | hardReset => cases h; exact hreset _ hs'

end Sys2Proof.Machine
end

