-- ==== Sys2Proof/Machine/Program.lean ====
section
/-! DEFINITION. The notation of host programs: each host operation and pseudo-instruction as the events it expands to
(30_encoding R99, R100). Control flow (`if`, `goto`) is the host's own and has no event. -/

namespace Sys2Proof.Machine

/-- `wr REG, v` (30_encoding R99). -/
def hostWrite (off : Nat) (v : Word) : Event := .access (.write (BitVec.ofNat 16 off) .w32 v)

/-- `rd REG` (30_encoding R99). -/
def hostRead (off : Nat) : Event := .access (.read (BitVec.ofNat 16 off) .w32)

/-- The offset `DMEM+a` (30_encoding R99). -/
def offDMEM (a : Nat) : Nat := 0x2000 + a

/-- The offset `PRk+4j` (30_encoding R99). -/
def offPR (k j : Nat) : Nat := 0x4000 + 0x1000 * k + 4 * j

/-- `issue <command>` (30_encoding R99). -/
def issueCmd (i : Instr) : Event := hostWrite offCMD (encode i)

/-- `call <command>`: issue, then wait; the sequencer's turn and the STATUS read that ends the wait (30_encoding
R99). -/
def callCmd (i : Instr) : List Event := [issueCmd i, .turn, hostRead offSTATUS]

/-- `setring n, m, low` (30_encoding R100). -/
def setring (n m low : Word) : List Event := [hostWrite offCFGN n, hostWrite offCFGMOD m, hostWrite offCFGLOW low]

/-- `pmod pD, pA, m` (30_encoding R100). -/
def pmod (rd rs1 : PReg) (m : Word) : List Event :=
  [hostWrite offCFGMOD m, hostWrite offCFGLOW 0#32] ++ callCmd (.pred rd rs1)

/-- `pcenter pD, pA, m` (30_encoding R100). -/
def pcenter (rd rs1 : PReg) (m : Word) : List Event :=
  [hostWrite offCFGMOD m, hostWrite offCFGLOW (-(m / 2#32))] ++ callCmd (.pred rd rs1)

/-- `pclr pD` (30_encoding R100). -/
def pclr (rd : PReg) : List Event :=
  [hostWrite offCFGMOD 1#32, hostWrite offCFGLOW 0#32] ++ callCmd (.pred rd rd)

/-- `args a0, a1, a2, a3` (30_encoding R100). -/
def args (a0 a1 a2 a3 : Word) : List Event :=
  [hostWrite offARG0 a0, hostWrite offARG1 a1, hostWrite offARG2 a2, hostWrite offARG3 a3]

end Sys2Proof.Machine
end

