-- ==== Sys2Proof/Tests/Slice0.lean ====
section
/-! SUPPORT. Tests. Every expected value is one of 95_test_vectors (the vector's number stands beside it), of a rule's own
example, or of a word written out from 30_encoding R91, R94. The toy parameter set T17 is 95_test_vectors L2.8. -/

namespace Sys2Proof.Tests

open Sys2Proof Sys2Proof.Machine

/-! ### Small states -/

/-- T17 (95_test_vectors L2.8). -/
def t17 : ParamSet :=
  { name := "toy17", oid := (0xFF, 0x00, 0x11), N := 17, df := 3, dg := 4, dr := 3, db := 1, maxMsgLenBytes := 1
    dm0 := 1, c := 5, minCallsR := 2, minCallsMask := 1, hashAlg := .sha1, hTruncBytes := 4, mBufLen := 3
    prehashR := false, prehashMask := false, binTri := .suggested }

/-- T17i (95_test_vectors L2.9). -/
def t17i : ParamSet := { t17 with oid := (0xFF, 0x00, 0x12), df := 1 }

/-- A filler entry with an OID of its own and no sets of indices that fit N. -/
def filler (k : Nat) : ParamSet := { t17 with oid := (0x00, 0x00, BitVec.ofNat 8 k), dg := 9 }

/-- A table with T17 at index 1 and T17i at index 2. -/
def toyParams : Params :=
  { table := #v[filler 0, t17, t17i, filler 3, filler 4, filler 5, filler 6, filler 7, filler 8, filler 9, filler 10,
      filler 11]
    digest := .fips }

/-- The state after reset under the toy table. -/
def toy : State := { State.reset with params := toyParams }

def withArgs (s : State) (a0 a1 a2 a3 : Word) : State := { s with arg0 := a0, arg1 := a1, arg2 := a2, arg3 := a3 }

def withRing (s : State) (n m low : Word) : State := { s with cfgN := n, cfgMod := m, cfgLow := low }

def poly (a : List Int) : Poly := trimZeros (a.map (BitVec.ofInt 16))

def withPoly (s : State) (k : PReg) (a : List Int) : State := s.setPr k (poly a)

def withBytes (s : State) (a : Nat) (l : List Nat) : State :=
  { s with dmem := s.dmem.writeBytes a (l.map (BitVec.ofNat 8)) }

/-- The command accepted, about to execute. -/
def issued (i : Instr) (s : State) : State := accept s (encode i)

/-- The state a step's outcome answers; the given one for a fault or a refusal. -/
def outcome (s : State) : Host.Outcome State Fault Refusal → State
  | .next t => t
  | .fault _ => s
  | .refused _ => s

/-- The state after the command, issued from the given one. -/
def ran (i : Instr) (s : State) : State := outcome s (exec i (issued i s))

/-- Coefficients 0 to n-1 of PR[k]. -/
def coeffs (s : State) (k : PReg) (n : Nat) : List Int := tab n s.pr[k].coeff

/-- n bytes of DMEM. -/
def bytesAt (s : State) (a n : Nat) : List Nat := (s.dmem.readBytes a n).map BitVec.toNat

/-! ### Well-formedness: each check refuses an ill-formed term -/

theorem test_toy_set_ok : toyParams.setOk 1 = true ∧ toyParams.setOk 2 = true := by decide
theorem test_ill_dimension_zero : ParamSet.rangeOk { t17 with N := 0 } = false := by decide
theorem test_ill_dimension_large : ParamSet.rangeOk { t17 with N := 1500 } = false := by decide
theorem test_ill_index_bits_zero : ParamSet.rangeOk { t17 with c := 0 } = false := by decide
theorem test_ill_index_bits_large : ParamSet.rangeOk { t17 with c := 17 } = false := by decide
theorem test_ill_message_length : ParamSet.bufferOk { t17 with maxMsgLenBytes := 256, mBufLen := 300 } = false := by decide
theorem test_ill_truncation : ParamSet.bufferOk { t17 with hTruncBytes := 25 } = false := by decide
theorem test_ill_buffer : ParamSet.bufferOk { t17 with mBufLen := 2 } = false := by decide
theorem test_ill_weight_g : ParamSet.samplingOk { t17 with dg := 9 } = false := by decide
theorem test_ill_weight_f : ParamSet.samplingOk { t17 with df := 9 } = false := by decide
theorem test_ill_weight_r : ParamSet.samplingOk { t17 with dr := 9 } = false := by decide
theorem test_ill_index_bits_short : ParamSet.samplingOk { t17 with c := 4 } = false := by decide
theorem test_ill_index_bits_wide : ParamSet.samplingOk { t17 with c := 17 } = false := by decide
theorem test_ill_set : toyParams.setOk 3 = false := by decide
theorem test_ill_oid : Params.oidUnique { toyParams with table := toyParams.table.set 4 t17 } 1 = false := by decide
theorem test_ill_table : toyParams.wf = false ∧ toyParams.pinned = false := by decide

/-- Illegal words (95_test_vectors L2.10): a field bit outside the opcode's fields, a reserved bit, an unlisted opcode. -/
theorem test_ill_words :
    [0x00000100#32, 0x00100010#32, 0x00000015#32, 0x00000114#32, 0x000000FF#32, 0x00080030#32].all
      (fun w => !legalWord w && decide (decode w = none)) = true := by decide

/-! ### Decoding: a word of every opcode, written out from 30_encoding R91, R94 -/

theorem test_decode_arith :
    decode 0x00000000#32 = some .nop ∧ decode 0x00028B10#32 = some (.padd 3 1 2 true) ∧
    decode 0x0001B811#32 = some (.psub 0 7 6 false) ∧ decode 0x00024212#32 = some (.pconv 2 0 1 true) ∧
    decode 0x00002413#32 = some (.pred 4 4) ∧ decode 0x0000D014#32 = some (.peq 2 3) := by decide
theorem test_decode_inversion :
    decode 0x00002E20#32 = some (.pinvp 6 5) ∧ decode 0x00000921#32 = some (.pinvq 1 1) := by decide
theorem test_decode_pack :
    decode 0x00042830#32 = some (.bpack 5 true) ∧ decode 0x00000030#32 = some (.bpack 0 false) ∧
    decode 0x00000731#32 = some (.bunpack 7) := by decide
theorem test_decode_streams :
    decode 0x00000040#32 = some .srcrng ∧ decode 0x00000041#32 = some (.srcmgf false false) ∧
    decode 0x00040041#32 = some (.srcmgf true false) ∧ decode 0x00080041#32 = some (.srcmgf false true) ∧
    decode 0x00000042#32 = some .srcmem ∧ decode 0x00000043#32 = some .srcclose ∧
    decode 0x00000044#32 = some .igfinit ∧ decode 0x00000045#32 = some .igfnext ∧
    decode 0x00000046#32 = some (.trismp 0) ∧ decode 0x00000247#32 = some (.trimgf 2) ∧
    decode 0x00000048#32 = some (.trienc 0) := by decide
theorem test_decode_protocol :
    decode 0x00000050#32 = some .keygen ∧ decode 0x00000051#32 = some .encrypt ∧
    decode 0x00000052#32 = some .decrypt ∧ decode 0x00000053#32 = some .keyclose ∧
    decode 0x00000054#32 = some .keyload ∧ decode 0x00000055#32 = some (.keyexport false) ∧
    decode 0x00040055#32 = some (.keyexport true) := by decide
theorem test_decodeTableWord :
    decodeTableWord 32 0x00028B10 = some (.padd 3 1 2 true) ∧ decodeTableWord 32 0x00000015 = none := by decide
theorem test_withFetchWord :
    (outcome toy (step (toy.withFetchWord 32 0x00000040))).su.src = .rng := by decide

/-! ### One command each: 95_test_vectors L2 -/

/-- V1. -/
theorem test_nop : statusWord (ran .nop toy) = 0x00000002#32 := by decide

def arith (n m low : Word) (a b : List Int) : State := withPoly (withPoly (withRing toy n m low) 0 a) 1 b

/-- A1. -/
theorem test_padd_reduces : coeffs (ran (.padd 2 0 1 true) (arith 3 2048 0 [1, 2047, -5] [1, 1, 2])) 2 3 = [2, 0, 2045] := by
  decide
/-- A7. -/
theorem test_padd_wraps : coeffs (ran (.padd 2 0 1 false) (arith 1 0 0 [32767] [1])) 2 1 = [-32768] := by decide
/-- A2. -/
theorem test_psub : coeffs (ran (.psub 2 0 1 true) (arith 3 2048 0 [0, 5, 1] [1, 2, 1])) 2 3 = [2047, 3, 0] := by decide
/-- A3. -/
theorem test_pconv : coeffs (ran (.pconv 2 0 1 false) (arith 3 0 0 [1, 2, 3] [4, 5, 6])) 2 3 = [31, 31, 28] := by decide
/-- A9. -/
theorem test_pconv_wraps : coeffs (ran (.pconv 2 0 0 false) (arith 2 0 0 [2047, 2047] [])) 2 2 = [-8190, -8190] := by decide
/-- A4. -/
theorem test_pred : coeffs (ran (.pred 1 0) (arith 4 3 (-1) [0, 1, 2, 5] [])) 1 4 = [0, 1, -1, -1] := by decide
/-- A12. -/
theorem test_pred_identity :
    coeffs (ran (.pred 1 0) (arith 3 65536 (-32768) [-32768, 0, 32767] [])) 1 3 = [-32768, 0, 32767] := by decide
/-- A5. -/
theorem test_peq_equal :
    (ran (.peq 0 1) (arith 2 0 0 [1, 2, 9] [1, 2, 7])).res0 = 1#32 ∧
    (ran (.peq 0 1) (arith 2 0 0 [1, 2, 9] [1, 2, 7])).status.eq = true := by decide
/-- A6. -/
theorem test_peq_differs : statusWord (ran (.peq 0 1) (arith 2 0 0 [1, 3] [1, 2])) = 0x00000002#32 := by decide
/-- I1. -/
theorem test_pinvp : coeffs (ran (.pinvp 1 0) (arith 5 0 0 [1, 1, 1] [])) 1 5 = [0, 1, 1, 0, 1] := by decide +kernel
/-- (1, 1, 0, 0, 0) has no inverse: L2.2. -/
theorem test_pinvp_none : statusWord (ran (.pinvp 1 0) (arith 5 0 0 [1, 1] [7])) = 0x0000000A#32 := by decide +kernel
/-- I2. -/
theorem test_pinvq : coeffs (ran (.pinvq 1 0) (arith 5 0 0 [-1, 1, 1] [])) 1 5 = [186, 745, 931, 1676, 559] := by
  decide +kernel
/-- N = 1: (3) has inverse (683). -/
theorem test_pinvq_one : coeffs (ran (.pinvq 1 0) (arith 1 0 0 [3] [])) 1 1 = [683] := by decide +kernel

/-- B2. -/
theorem test_bpack :
    bytesAt (ran (.bpack 0 false) (withArgs (withPoly toy 0 [5, 0, 2047]) 0x300 3 2048 0)) 0x300 5 =
      [0x00, 0xA0, 0x03, 0xFF, 0x80] := by decide +kernel
/-- B8. -/
theorem test_bpack_dry :
    (ran (.bpack 0 true) (withArgs (withPoly toy 0 [5, 0, 2047]) 0x300 3 2048 0)).res0 = 5#32 ∧
    (ran (.bpack 0 true) (withArgs (withPoly toy 0 [5, 0, 2047]) 0x300 3 2048 0)).dmem = [] := by decide +kernel
/-- U5. -/
theorem test_bunpack :
    coeffs (ran (.bunpack 7) (withBytes (withArgs toy 0x10 3 2048 0) 0x10 [0x00, 0xA0, 0x03, 0xFF, 0x81])) 7 3 =
      [5, 0, 2047] := by decide +kernel
/-- U2. -/
theorem test_bunpack_report :
    (ran (.bunpack 7) (withBytes (withArgs toy 0x10 5 3 0) 0x10 [0xFF, 0xFF])).res1 = 0x00010005#32 := by decide +kernel

/-- S6. -/
theorem test_srcrng : srcstatWord (ran .srcrng toy) = 0x00000001#32 := by decide

def seeded : State := withBytes (withArgs toy 0x100 3 3 0) 0x100 [0x00, 0x01, 0x02]

/-- S3: the prehashed seed. -/
theorem test_srcmgf_prehash :
    ((ran (.srcmgf false true) seeded).su.mgf.seed.take 4).map BitVec.toNat = [0x0C, 0x7A, 0x62, 0x3F] := by decide +kernel
/-- S2. -/
theorem test_srcmgf_sha256 : srcstatWord (ran (.srcmgf true false) seeded) = 0x0000000A#32 := by decide
/-- S7. -/
theorem test_srcmem : srcRemWord (ran .srcmem (withArgs toy 0x200 9 0 0)) = 9#32 := by decide
/-- S1: the final count of the padded stream; a stream of minRuns 3 closed with nothing pulled counts 3 (S5). -/
theorem test_srcclose : mgfRunsWord (ran .srcclose (ran (.srcmgf false false) seeded)) = 3#32 := by decide

/-- The nine bytes of L2.5 as the open source, with IGF2 initialised. -/
def crafted (m b : Word) : State :=
  ran .igfinit (withArgs
    (ran .srcmem (withBytes (withArgs toy 0x200 9 0 0) 0x200
      [0x80, 0x81, 0x82, 0x83, 0x84, 0x85, 0x86, 0x87, 0x88])) m b 0 0)

/-- M = 401, b = 9: the cutoff is 401 (L2.5). -/
theorem test_igfinit : (crafted 401 9).su.igf = ⟨true, 401, 9, 401, 0, 0⟩ := by decide
/-- M = 513 exceeds 2^9 (L2.5). -/
theorem test_igfinit_bounds : statusWord (crafted 513 9) = 0x00000206#32 := by decide
/-- b = 12, M = 1499: the first two draws are 557 and 386 (L2.5). -/
theorem test_igfnext :
    (ran .igfnext (crafted 1499 12)).res0 = 557#32 ∧ (ran .igfnext (ran .igfnext (crafted 1499 12))).res0 = 386#32 := by
  decide +kernel
/-- S10: no source is open. -/
theorem test_igfnext_no_source :
    statusWord (ran .igfnext (ran .igfinit (withArgs toy 17 5 0 0))) = 0x00000306#32 := by decide +kernel

/-- The source of T1 (L2.6): 20 45 8C with M = 5, b = 3. -/
def draws : State :=
  ran .igfinit (withArgs
    (ran .srcmem (withBytes (withArgs (withRing toy 5 0 0) 0x300 3 0 0) 0x300 [0x20, 0x45, 0x8C])) 5 3 0 0)

/-- T1. -/
theorem test_trismp :
    coeffs (ran (.trismp 0) (withArgs draws 2 1 0 0)) 0 5 = [1, 1, 0, 0, -1] ∧
    (ran (.trismp 0) (withArgs draws 2 1 0 0)).res0 = 4#32 ∧
    srcstatWord (ran (.trismp 0) (withArgs draws 2 1 0 0)) = 0x00040307#32 := by decide +kernel
/-- T4: 4 + 2 > 5. -/
theorem test_trismp_weights : statusWord (ran (.trismp 0) (withArgs draws 4 2 0 0)) = 0x00000206#32 := by decide +kernel

/-- M2: F3 and FF are rejected, F2 accepted. -/
theorem test_trimgf :
    let s := ran (.trimgf 0) (ran .srcmem
      (withBytes (withArgs (withRing toy 5 0 0) 0x300 4 0 0) 0x300 [0xF3, 0xFF, 0xF2, 0x05]))
    coeffs s 0 5 = [-1, -1, -1, -1, -1] ∧ s.res0 = 3#32 ∧ s.res1 = 2#32 ∧ srcRemWord s = 1#32 := by decide +kernel
/-- M7. -/
theorem test_trienc :
    bytesAt (ran (.trienc 0) (withArgs (withPoly (withRing toy 7 0 0) 0 [1, -1, 0, 0, 1, -1, -1]) 0x300 0 0 0)) 0x300 2 =
      [0x58, 0x08] := by decide +kernel
/-- M9: 2 is no trit. -/
theorem test_trienc_not_trit :
    statusWord (ran (.trienc 0) (withArgs (withPoly (withRing toy 3 0 0) 0 [1, 2, 0]) 0x300 0 0 0)) = 0x00000206#32 := by
  decide

/-! ### The protocol: 95_test_vectors L2.8, L2.9 -/

/-- The RNG stream of L2.8 from index k on. -/
def rngFrom (k n : Nat) : List Byte := (List.range n).map fun j => BitVec.ofNat 8 (37 * (k + j) + 11)

/-- F of L2.8. -/
def toyF : List Int := [0, 0, 1, 0, 0, -1, 0, 1, -1, 0, 0, 0, 0, 0, 0, -1, 1]

/-- h of L2.8. -/
def toyH : List Int := [788, 1888, 1668, 505, 581, 1107, 1313, 1605, 44, 1890, 1082, 468, 2015, 776, 767, 974, 964]

/-- g of L2.8. -/
def toyG : List Int := [-1, 1, 0, 0, 0, 1, -1, 0, 0, 0, 1, 0, 1, -1, 0, -1, 1]

/-- A state that holds the key of L2.8. -/
def keyed : State := { toy with key := ⟨1, poly toyH, poly toyF, .priv⟩ }

/-- The public blob of L2.8. -/
def pubBytes : List Nat :=
  [0x01, 0xFF, 0x00, 0x11, 0x62, 0x9D, 0x83, 0x42, 0x1F, 0x94, 0x8B, 0x14, 0xE9, 0x0E, 0x45, 0x05, 0x9D, 0x8A, 0x1D, 0x1D,
    0x4F, 0xBE, 0xC2, 0x17, 0xFB, 0xCE, 0x78, 0x80]

/-- The private blob of L2.8. -/
def privBytes : List Nat := [0x02] ++ pubBytes.drop 1 ++ [0x09, 0x41, 0x00, 0x05]

/-- The ciphertext of L2.8. -/
def ctBytes : List Nat :=
  [0x3D, 0x2B, 0x1A, 0x92, 0xB5, 0x80, 0xF7, 0x24, 0x2B, 0x33, 0x7F, 0x5A, 0x77, 0x9E, 0x36, 0x67, 0x03, 0x6B, 0x0A, 0x4E,
    0x22, 0x41, 0xED, 0x40]

/-- KEYGEN of L2.8. -/
theorem test_keygen :
    let s := ran .keygen { withArgs toy 1 0 0 0 with rng := rngFrom 0 30 }
    s.key = keyed.key ∧ s.iterCnt = 2#32 ∧ s.rngCnt = 25#32 ∧ s.res0 = 1#32 := by decide +kernel
/-- ITER_LIMIT of L2.8: the second stream, with ITER_CAP = 1. -/
theorem test_keygen_limit :
    let s := ran .keygen
      { withArgs toy 1 0 0 0 with rng := (List.range 30).map fun j => BitVec.ofNat 8 (37 * j + 149), iterCap := 1 }
    statusWord s = 0x00005006#32 ∧ s.rngCnt = 18#32 ∧ s.key = Key.reset := by decide +kernel

/-- The state of L2.8 before ENCRYPT. -/
def sending : State := { withBytes (withArgs keyed 0 1 0x200 0) 0 [0x41] with rng := rngFrom 25 4 }

/-- ENCRYPT of L2.8. -/
theorem test_encrypt :
    let s := ran .encrypt sending
    bytesAt s 0x200 24 = ctBytes ∧ s.res0 = 24#32 ∧ s.iterCnt = 1#32 ∧ s.rngCnt = 1#32 := by decide +kernel
/-- MSG_TOO_LONG of L2.10, before the range check. -/
theorem test_encrypt_long : statusWord (ran .encrypt (withArgs keyed 0x1FFF 2 0 0)) = 0x00001006#32 := by decide

/-- The state of L2.8 before DECRYPT, with a ciphertext. -/
def receiving (ct : List Nat) : State := withBytes (withArgs keyed 0x200 24 0x300 0) 0x200 ct

/-- DECRYPT of L2.8. -/
theorem test_decrypt :
    let s := ran .decrypt (receiving ctBytes)
    bytesAt s 0x300 2 = [0x41, 0x00] ∧ s.res0 = 1#32 ∧ statusWord s = 0x00000002#32 := by decide +kernel
/-- The tampered ciphertext of L2.8: byte 3 is 93. -/
theorem test_decrypt_tampered : statusWord (ran .decrypt (receiving (ctBytes.set 3 0x93))) = 0x00003006#32 := by
  decide +kernel

/-- KEYCLOSE of L2.8. -/
theorem test_keyclose :
    keystatWord (ran .keyclose keyed) = 0x00000003#32 ∧ statusWord (ran .decrypt (ran .keyclose keyed)) = 0x00004006#32 := by
  decide
/-- K3: the index form of F. -/
theorem test_keyload :
    let s := ran .keyload (withBytes (withArgs toy 0x400 30 0 0) 0x400
      ([0x02, 0xFF, 0x00, 0x12] ++ (pubBytes.drop 4) ++ [0x1A, 0x40]))
    keystatWord s = 0x00000202#32 ∧ s.key.f.coeff 3 = 1 ∧ s.key.f.coeff 9 = -1 ∧ s.res1 = 2#32 := by decide +kernel
/-- K8: the last trit byte must be below 9. -/
theorem test_keyload_last_trit :
    statusWord (ran .keyload (withBytes (withArgs toy 0x400 32 0 0) 0x400 (privBytes.set 31 0x09))) = 0x00002306#32 := by
  decide +kernel
/-- KEYEXPORT of L2.8. -/
theorem test_keyexport :
    bytesAt (ran (.keyexport true) (withArgs keyed 0x100 0 0 0)) 0x100 32 = privBytes ∧
    bytesAt (ran (.keyexport false) (withArgs keyed 0x100 0 0 0)) 0x100 28 = pubBytes := by decide +kernel

/-! ### The interface: 95_test_vectors L2.10 -/

/-- V3 to V5: KEYGEN waits for an RNG byte; a CMD write is dropped; a window read is refused; the flags are cleared. -/
theorem test_interface :
    let s3 := hostAccess (ran .keygen (withArgs toy 1 0 0 0)) (.write 0x00C .w32 0)
    let s4 := hostAccess s3 (.read 0x2000 .w32)
    let s5 := hostAccess s4 (.write 0x008 .w32 0x60)
    statusWord s3 = 0x00000021#32 ∧ s3.cmd = 0x50#32 ∧ statusWord s4 = 0x00000061#32 ∧ s4.rdata = some 0#32 ∧
    statusWord s5 = 0x00000001#32 := by decide +kernel
/-- V12, V14. -/
theorem test_windows :
    (hostAccess (hostAccess toy (.write 0x4000 .w32 0x8000FFFF)) (.read 0x4000 .w32)).rdata = some 0x8000FFFF#32 ∧
    coeffs (hostAccess toy (.write 0x4000 .w32 0x8000FFFF)) 0 2 = [-1, -32768] ∧
    bytesAt (hostAccess toy (.write 0x2010 .w32 0x44332211)) 0x10 4 = [0x11, 0x22, 0x33, 0x44] := by decide

/-! ### Witnesses: for each obligation with hypotheses, a state and operands that meet them together -/

theorem exists_ok {σ α : Type} {r : Res σ α} (h : (match r with | .ok _ _ => true | _ => false) = true) :
    ∃ a s, r = .ok a s := by
  cases r <;> simp_all

theorem exists_err {σ α : Type} {r : Res σ α} (h : (match r with | .err _ _ => true | _ => false) = true) :
    ∃ e s, r = .err e s := by
  cases r <;> simp_all

theorem in_range {a n : Nat} (h : inRange a n = true) : RangePre a n := (inRange_iff a n).mp h

theorem not_in_range {a n : Nat} (h : inRange a n = false) : ¬ RangePre a n := (inRange_eq_false a n).mp h

theorem dim_ok {s : State} (h : s.dimOk = true) : s.DimPre := (dimOk_iff s).mp h

theorem not_dim_ok {s : State} (h : s.dimOk = false) : ¬ s.DimPre := (dimOk_eq_false s).mp h

theorem exists_next {o : Host.Outcome State Fault Refusal}
    (h : (match o with | .next _ => true | _ => false) = true) : ∃ t, o = .next t := by
  cases o <;> simp_all

theorem of_all {α : Type} {p : α → Prop} [DecidablePred p] {l : List α} (h : l.all (fun x => decide (p x)) = true) :
    ∀ x ∈ l, p x := by
  simpa using h

theorem witness_EveryWordHasOneMeaning :
    (∃ (w : Word) (r : OpRow), r ∈ opRows ∧ r.matches w = true) ∧
    (∃ w : Word, ∀ r ∈ opRows, r.matches w = false) ∧ ∃ (w : Word) (i : Instr), decode w = some i :=
  ⟨⟨0, _, List.mem_cons_self, by decide⟩, ⟨0x15#32, of_all (by decide)⟩, ⟨0, .nop, by decide⟩⟩

theorem witness_StepRunsDecodedCommand :
    let s := issued .nop toy
    s.phase = .busy ∧ decode s.ctx.word = some .nop ∧ s.inbox = [] ∧
    ({ s with inbox := [.turn] } : State).inbox = .turn :: [] ∧
    ({ s with inbox := [.together (.read 0 .w32)] } : State).inbox = .together (.read 0 .w32) :: [] ∧
    toy.phase = .idle ∧ toy.inbox = [] ∧ ({ toy with inbox := [.turn] } : State).phase = .idle := by decide

/-- A state with the illegal word 0x15 latched. -/
def illegal : State := accept toy 0x15#32

theorem witness_IllegalWordCompletesWithError :
    illegal.phase = .busy ∧ decode illegal.ctx.word = none ∧ illegal.inbox = [] ∧
    ({ illegal with inbox := [.turn] } : State).inbox = .turn :: [] := by decide

theorem witness_IssueAcceptedOrDropped : toy.phase = .idle ∧ (issued .nop toy).phase = .busy := by decide

theorem witness_CommandsLeaveHostRegisters :
    ∃ t, exec (.padd 2 0 1 true) (issued (.padd 2 0 1 true) (arith 3 2048 0 [1, 2047, -5] [1, 1, 2])) = .next t :=
  exists_next (by decide)

theorem witness_CommandsIgnoreHostRegistersAndFlags :
    ∃ t, exec .srcrng (issued .srcrng toy) = .next t := exists_next (by decide)

theorem witness_LargerGrantSameOutcome :
    let s := issued .igfnext (crafted 1499 12)
    ∃ t, exec .igfnext s = .next t ∧ t.turns = s.turns ∧ s.turns ≤ 65537 :=
  ⟨_, rfl, by decide +kernel, by decide⟩

/-- No byte offered; and M2 of 95_test_vectors L2.7 over the RNG port: F3 and FF rejected, F2 accepted, 05 left. -/
theorem witness_RngPullWaits :
    (let s := issued (.trimgf 2) (withRing (ran .srcrng toy) 1499 0 0);
      s.phase = .busy ∧ decode s.ctx.word = some (.trimgf 2) ∧ s.DimPre ∧ s.su.src = .rng ∧ s.rng = [] ∧ 1 ≤ s.turns ∧
      s.inflight = 0 ∧ s.inbox = []) ∧
    (let s := issued (.trimgf 2) { withRing (ran .srcrng toy) 5 0 0 with rng := [0xF3, 0xFF, 0xF2, 0x05] };
      s.DimPre ∧ s.su.src = .rng ∧ 1 ≤ 3 ∧ 3 ≤ s.rng.length ∧ 3 ≤ s.turns ∧
      [0xF2#8] = (s.rng.take 3).filter (fun v => v.toNat < 243) ∧ [0xF2#8].length = (s.ctx.cfgN.toNat + 4) / 5 ∧
      (s.rng.getD (3 - 1) 0#8).toNat < 243) := by
  unfold State.DimPre; decide

/-- The same, for IGFNEXT: the bytes 80 81 of L2.5 at the port, and in DMEM from 0x200. -/
theorem witness_RngPullWaits_index :
    let s := issued .igfnext
      { crafted 401 9 with su := { (crafted 401 9).su with src := .rng, mcur := 0, mend := 0 }, rng := [0x80, 0x81] }
    s.phase = .busy ∧ s.su.src = .rng ∧ 2 ≤ s.rng.length ∧
    (∀ k, k < 2 → s.dmem.read (0x200 + k) = s.rng.getD k 0#8) ∧
    ∃ t, exec .igfnext { s with dmem := s.dmem, su := { s.su with src := .mem, mcur := 0x200, mend := 0x200 + 2 } } = .next t ∧
      t.phase = .idle ∧ t.status.err = false :=
  ⟨by decide, by decide, by decide, by decide, _, rfl, by decide +kernel⟩

/-- The open stream of S1 and the closed one (95_test_vectors L2.4): both counts fit. -/
theorem witness_RegisterMap :
    (let s := ran (.srcmgf false false) seeded; s.su.src = .mgf ∧ s.su.mgf.runs < 2 ^ 32) ∧
    (let s := ran .srcclose (ran (.srcmgf false false) seeded); s.su.src ≠ .mgf ∧ s.su.lastRuns < 2 ^ 32) := by decide

theorem witness_ReservedOffsetsInert :
    ∀ off ∈ [(0x0054 : BitVec 16), 0x1FFC, 0xC000, 0xFFFC],
      off.toNat % 4 = 0 ∧ (0x054 ≤ off.toNat ∧ off.toNat ≤ 0x1FFC ∨ 0xC000 ≤ off.toNat) := of_all (by decide)

theorem witness_KeystatAndSrcstatFields :
    ({ toy with su := { toy.su with igf := ⟨true, 65536, 16, 65536, 0, 7⟩ } } : State).su.igf.nbits ≤ 7 := by decide

theorem witness_DmemWindowLittleEndian : toy.phase = .idle ∧ 0 < 2048 ∧ 2047 < 2048 := by decide

theorem witness_PrWindowLittleEndian : toy.phase = .idle ∧ 0 < 1024 ∧ 749 < 1024 ∧ 1023 < 1024 ∧ 1499 ≤ 1499 := by decide

theorem witness_WindowsRefusedWhileBusy :
    (issued .nop toy).phase = .busy ∧ (0x2000 ≤ (0x2000 : BitVec 16).toNat ∧ (0x2000 : BitVec 16).toNat < 0xC000) ∧
    (0x2000 ≤ (0xBFFF : BitVec 16).toNat ∧ (0xBFFF : BitVec 16).toNat < 0xC000) ∧
    (0x1FFC : BitVec 16).toNat < 0x2000 ∧ (0x1FFC : BitVec 16).toNat % 4 = 0 := by decide

theorem witness_NarrowOrMisalignedRefused :
    (Width.w8 ≠ .w32 ∨ (0 : BitVec 16).toNat % 4 ≠ 0) ∧ (Width.w32 ≠ .w32 ∨ (0x0002 : BitVec 16).toNat % 4 ≠ 0) := by decide

theorem witness_HostAccessesLeaveRunningCommand :
    let s := issued .nop toy
    s.phase = .busy ∧ (∀ w, Access.read 0 .w32 = .write 0x004 .w32 w → w.getLsbD 0 = false) ∧
    (∀ w, Access.write 0x004 .w32 2#32 = .write 0x004 .w32 w → w.getLsbD 0 = false) ∧
    s.status.done = false ∧ s.status.err = false :=
  ⟨rfl, fun w h => by simp at h, fun w h => by simp at h; subst h; decide, rfl, rfl⟩

theorem witness_SoftResetIsHardReset : (1#32).getLsbD 0 = true ∧ (2#32).getLsbD 0 = false := by decide

theorem witness_IrqFollowsDone :
    let s := issued .nop { toy with doneIE := true }
    s.phase = .busy ∧ (∃ t, exec .nop s = .next t ∧ t.phase = .idle) ∧
    (2#32).getLsbD 1 = true ∧ toy.phase = .idle ∧ (0#32).getLsbD 0 = false ∧ (1#32).getLsbD 0 = true ∧
    (∃ t, handle s .hardReset = .next t) ∧
    (let u := { toy with doneIE := true, status := { toy.status with done := true } };
      u.phase = .idle ∧ u.irq = true ∧ ∃ t, handle u (.access (.write 0x038 .w32 0#32)) = .next t ∧ t.irq = false) :=
  ⟨rfl, ⟨_, rfl, rfl⟩, rfl, rfl, rfl, rfl, ⟨_, rfl⟩, rfl, rfl, ⟨_, rfl, rfl⟩⟩

theorem witness_CompletionBeforeAccess :
    let s := { issued .nop toy with inbox := [.together (.write 0x008 .w32 2#32)] }
    s.inbox = .together (.write 0x008 .w32 2#32) :: [] ∧
    (∃ t, sequencerTurn { s with inbox := [] } = .next t ∧ t.phase = .idle) ∧ (2#32).getLsbD 1 = true ∧
    (1#32).getLsbD 0 = true :=
  ⟨rfl, ⟨_, rfl, rfl⟩, rfl, rfl⟩

/-- The ring checks hold at the ends of their ranges, and fail just outside them (41_poly_arith R130). -/
theorem witness_AddAndSubtract :
    (issued .nop (withRing toy 1499 65536 (-32768))).RingPre true ∧ (issued .nop (withRing toy 1 1 32767)).RingPre true ∧
    (issued .nop (withRing toy 1 0 0)).RingPre false ∧ ¬ (issued .nop (withRing toy 0 1 0)).RingPre false ∧
    ¬ (issued .nop (withRing toy 1500 1 0)).RingPre false ∧ ¬ (issued .nop (withRing toy 1 65537 0)).RingPre true ∧
    ¬ (issued .nop (withRing toy 3 2048 32000)).RingPre true := by
  simp only [← ringOk_iff]; decide

theorem witness_CyclicConvolution :
    (issued .nop (withRing toy 1499 65536 (-32768))).RingPre true ∧ (issued .nop (withRing toy 1 0 0)).RingPre false ∧
    ¬ (issued .nop (withRing toy 0 1 0)).RingPre true := by
  simp only [← ringOk_iff]; decide

theorem witness_Recentring :
    (1 : Int) ≤ 1 ∧
    (issued .nop (withRing toy 1499 65536 (-32768))).RingPre true ∧ ¬ (issued .nop (withRing toy 3 0 0)).RingPre true := by
  simp only [← ringOk_iff]; decide

theorem witness_CoefficientwiseEquality :
    let s := issued (.peq 0 1) (arith 2 0 0 [1, 2, 9] [1, 2, 7])
    let u := issued (.peq 0 1) (arith 2 0 0 [1, 3] [1, 2])
    (s.DimPre ∧ ∀ i, i < s.ctx.cfgN.toNat → s.pr[(0 : PReg)].coeff i = s.pr[(1 : PReg)].coeff i) ∧
    (u.DimPre ∧ ¬ ∀ i, i < u.ctx.cfgN.toNat → u.pr[(0 : PReg)].coeff i = u.pr[(1 : PReg)].coeff i) ∧
    ¬ (issued (.peq 0 1) toy).DimPre := by
  unfold State.DimPre; decide

/-- I1 of 95_test_vectors L2.2 has an inverse in R_2; the zero polynomial has none. -/
theorem witness_InverseModTwo :
    let s := issued (.pinvp 1 0) (arith 5 0 0 [1, 1, 1] [])
    let u := issued (.pinvp 1 0) (arith 1 0 0 [] [])
    (s.DimPre ∧ InverseIn s.ctx.cfgN.toNat 2 (fun i => s.pr[(0 : PReg)].coeff i % 2) (at' [0, 1, 1, 0, 1])) ∧
    (u.DimPre ∧ ¬ ∃ b : Nat → Int, InverseIn u.ctx.cfgN.toNat 2 (fun i => u.pr[(0 : PReg)].coeff i % 2) b) ∧
    ¬ (issued (.pinvp 1 0) toy).DimPre := by
  refine ⟨⟨⟨by decide, by decide⟩, by unfold InverseIn; decide⟩, ⟨⟨by decide, by decide⟩, ?_⟩, fun h => absurd h.1 (by decide)⟩
  rintro ⟨b, -, h⟩
  exact absurd (h 0 (by decide)) (by
    rw [show (issued (.pinvp 1 0) (arith 1 0 0 [] [])).ctx.cfgN.toNat = 1 from rfl]
    simp only [sumTo]
    rw [show (issued (.pinvp 1 0) (arith 1 0 0 [] [])).pr[(0 : PReg)].coeff 0 = 0 from rfl]
    simp)

/-- I2 of 95_test_vectors L2.2 has an inverse in R_2048; the zero polynomial has none. -/
theorem witness_InverseModTarget :
    let s := issued (.pinvq 1 0) (arith 5 0 0 [-1, 1, 1] [])
    let u := issued (.pinvq 1 0) (arith 1 0 0 [] [])
    (s.DimPre ∧
      InverseIn s.ctx.cfgN.toNat 2048 (fun i => s.pr[(0 : PReg)].coeff i % 2048) (at' [186, 745, 931, 1676, 559])) ∧
    (u.DimPre ∧ ¬ ∃ b : Nat → Int, InverseIn u.ctx.cfgN.toNat 2048 (fun i => u.pr[(0 : PReg)].coeff i % 2048) b) ∧
    ¬ (issued (.pinvq 1 0) toy).DimPre := by
  refine ⟨⟨⟨by decide, by decide⟩, by unfold InverseIn; decide⟩, ⟨⟨by decide, by decide⟩, ?_⟩, fun h => absurd h.1 (by decide)⟩
  rintro ⟨b, -, h⟩
  exact absurd (h 0 (by decide)) (by
    rw [show (issued (.pinvq 1 0) (arith 1 0 0 [] [])).ctx.cfgN.toNat = 1 from rfl]
    simp only [sumTo]
    rw [show (issued (.pinvq 1 0) (arith 1 0 0 [] [])).pr[(0 : PReg)].coeff 0 = 0 from rfl]
    simp)

theorem least_bits (mx b : Nat) (h : mx ≤ 2 ^ b) (h' : ∀ j, j < b → ¬ mx ≤ 2 ^ j) : IsLeast { k : Nat | mx ≤ 2 ^ k } b :=
  ⟨h, fun j hj => by by_contra hb; exact h' j (by omega) hj⟩

/-- B2 of 95_test_vectors L2.3, at the last address that fits; one address on, an element out of bound, and a cap that is
too large. -/
theorem witness_PackedBytesAndLength :
    let s := issued (.bpack 0 false) (withArgs (withPoly toy 0 [5, 0, 2047]) 0x1FFB 3 2048 0)
    let u := issued (.bpack 0 false) (withArgs (withPoly toy 0 [5, 0, 2048]) 0x1FFB 3 2048 5)
    IsLeast { k : Nat | s.ctx.arg2.toNat ≤ 2 ^ k } 11 ∧
    (3 ≤ 1499 ∧ 2 ≤ 2048 ∧ 2048 ≤ 32768 ∧ s.ctx.arg3.toNat ≤ (3 * 11 + 7) / 8) ∧
    (RangePre s.ctx.arg0.toNat 5 ∧ ∀ i, i < 3 → 0 ≤ s.pr[(0 : PReg)].coeff i ∧ s.pr[(0 : PReg)].coeff i < (2048 : Nat)) ∧
    u.ctx.arg3.toNat ≤ (3 * 11 + 7) / 8 ∧
    ¬ (RangePre u.ctx.arg0.toNat 5 ∧ ∀ i, i < 3 → 0 ≤ u.pr[(0 : PReg)].coeff i ∧ u.pr[(0 : PReg)].coeff i < (2048 : Nat)) ∧
    ¬ RangePre 0x1FFC 5 ∧ IsLeast { k : Nat | 32769 ≤ 2 ^ k } 16 ∧ ¬ (6 ≤ (3 * 11 + 7) / 8) := by
  exact ⟨least_bits _ _ (by decide) (by decide), by decide, ⟨in_range (by decide), by decide⟩, by decide,
    fun h => absurd h.2 (by decide), not_in_range (by decide), least_bits _ _ (by decide) (by decide), by decide⟩

/-- U2 of 95_test_vectors L2.3. -/
theorem witness_UnpackedElementsAndReport :
    let s := issued (.bunpack 7) (withBytes (withArgs toy 0x10 5 3 0) 0x10 [0xFF, 0xFF])
    IsLeast { k : Nat | s.ctx.arg2.toNat ≤ 2 ^ k } 2 ∧
    (∃ bit : Nat → Bool, ∀ k, bit k = (s.dmem.read (s.ctx.arg0.toNat + k / 8)).getLsbD (7 - k % 8)) ∧
    (s.ctx.arg1.toNat ≤ 1499 ∧ 2 ≤ 3 ∧ 3 ≤ 32768 ∧ RangePre s.ctx.arg0.toNat 2) ∧
    ¬ (1500 ≤ 1499 ∧ 2 ≤ 3 ∧ 3 ≤ 32768 ∧ RangePre 0 2) ∧ ¬ RangePre 0x1FFF 2 := by
  exact ⟨least_bits _ _ (by decide) (by decide), ⟨_, fun _ => rfl⟩, ⟨by decide, by decide, by decide, in_range (by decide)⟩,
    fun h => absurd h.1 (by decide), not_in_range (by decide)⟩

theorem witness_PackThenUnpackReturns :
    (let s := issued (.bpack 0 false) (withArgs (withPoly toy 0 [5, 0, 2047]) 0x300 3 2048 0);
      (∃ t, exec (.bpack 0 false) s = .next t) ∧ s.ctx.arg3 = 0#32 ∧ s.ctx.arg1.toNat ≤ 1499 ∧ 2 ≤ s.ctx.arg2.toNat ∧
      s.ctx.arg2.toNat ≤ 32768 ∧ RangePre s.ctx.arg0.toNat (packedLen s.ctx.arg1.toNat s.ctx.arg2.toNat) ∧
      ∀ i, i < s.ctx.arg1.toNat → 0 ≤ s.pr[(0 : PReg)].coeff i ∧ s.pr[(0 : PReg)].coeff i < s.ctx.arg2.toNat) ∧
    (let bytes : List Byte := [0x00, 0xA0, 0x03, 0xFF, 0x80];
      bytes.length = packedLen 3 2048 ∧ padnz bytes 3 2048 = false ∧ ∀ y ∈ unpack bytes 3 2048, y < 2048) :=
  ⟨⟨exists_next (by decide +kernel), by decide, by decide, by decide, by decide, in_range (by decide +kernel),
    by decide⟩, by decide +kernel, by decide +kernel, of_all (by decide +kernel)⟩

theorem witness_SourceCommands :
    let s := issued .srcmem (withArgs (ran (.srcmgf false false) seeded) 0x100 0x1F00 0 0)
    s.su.src = .mgf ∧ RangePre s.ctx.arg0.toNat s.ctx.arg1.toNat ∧ ¬ RangePre 0x1FFE 3 :=
  ⟨by decide, in_range (by decide), not_in_range (by decide)⟩

/-- IGFNEXT over the stream S1 of L2.4 (L2.5): its first bytes are C3 61. -/
theorem witness_MgfStreamAndRunCount :
    let s := issued .igfnext (ran .igfinit (withArgs (ran (.srcmgf false false) seeded) 17 5 0 0))
    let m := s.dmem.writeBytes 0x300 [0xC3, 0x61]
    s.phase = .busy ∧ s.su.src = .mgf ∧
    (∀ k, k < 2 → m.read (0x300 + k) =
      (mgfPull s.params.digest ((fun x => (mgfPull s.params.digest x).2)^[k] s.su.mgf)).1) ∧
    ∃ t, exec .igfnext { s with dmem := m, su := { s.su with src := .mem, mcur := 0x300, mend := 0x300 + 2 } } = .next t ∧
      t.phase = .idle ∧ t.status.err = false :=
  ⟨by decide, by decide, by decide +kernel, _, rfl, by decide +kernel⟩

theorem witness_IndexGeneratorInit :
    (1 ≤ 16 ∧ 16 ≤ 16 ∧ 1 ≤ 65536 ∧ 65536 ≤ 2 ^ 16) ∧ ¬ (1 ≤ 9 ∧ 9 ≤ 16 ∧ 1 ≤ 513 ∧ 513 ≤ 2 ^ 9) ∧
    ¬ (1 ≤ 17 ∧ 17 ≤ 16 ∧ 1 ≤ 401 ∧ 401 ≤ 2 ^ 17) := by decide

/-- Draws that succeed, draws that raise (95_test_vectors L2.4 to L2.7), and checks that fail. -/
theorem witness_SamplingCommandsEndAsTheirDraws :
    (let s := issued .igfnext (crafted 401 9);
      s.su.igf.act = true ∧ (∃ d f, drawIndex s = .ok d f) ∧ 1 ≤ s.su.igf.m) ∧
    (∃ e f, drawIndex (issued .igfnext (ran .igfinit (withArgs toy 17 5 0 0))) = .err e f) ∧
    (issued .igfnext toy).su.igf.act = false ∧
    (let s := issued (.trismp 0) (withArgs draws 2 1 0 0);
      s.DimPre ∧ s.su.igf.act = true ∧ s.su.igf.m = s.ctx.cfgN.toNat ∧
      s.ctx.arg0.toNat + s.ctx.arg1.toNat ≤ s.ctx.cfgN.toNat ∧ ∃ r f, drawTrinomial s = .ok r f) ∧
    (∃ e f, drawTrinomial (issued (.trismp 0) (withArgs { draws with su := { draws.su with mend := 0x301 } } 2 1 0 0)) =
      .err e f) ∧
    ¬ (issued (.trismp 0) toy).DimPre ∧
    (let s := issued (.trimgf 0) (withRing (crafted 401 9) 12 0 0);
      s.DimPre ∧ ∃ r f, decodeTrits s = .ok r f) ∧
    ∃ e f, decodeTrits (issued (.trimgf 0) (withRing toy 1 0 0)) = .err e f := by
  refine ⟨⟨by decide, exists_ok (by decide +kernel), by decide⟩, exists_err (by decide +kernel), by decide,
    ⟨⟨by decide, by decide⟩, by decide, by decide, by decide, exists_ok (by decide +kernel)⟩,
    exists_err (by decide +kernel), fun h => absurd h.1 (by decide),
    ⟨⟨by decide, by decide⟩, exists_ok (by decide +kernel)⟩, exists_err (by decide +kernel)⟩

/-- IGFNEXT without a source (L2.5); two groups 7, both rejected, then none; T5 of L2.6: the groups 1 and 0 of 20, a third
index wanted; nine accepted bytes where ten are wanted. -/
theorem witness_SamplingCommandsEndAsTheirDraws_errors :
    (let s := issued .igfnext (ran .igfinit (withArgs toy 17 5 0 0));
      s.su.src = .none ∧ s.su.igf.act = true ∧ s.su.igf.Ok ∧ 0 = s.su.igf.nbits + 8 * 0 ∧ 0 / s.su.igf.b < s.turns) ∧
    (let s := issued .igfnext (withBytes { draws with su := { draws.su with mend := 0x301 } } 0x300 [0xFC])
      let g := s.su.igf
      let v : Nat → Nat := fun _ => 7
      s.su.src = .mem ∧ s.su.mcur + 1 = s.su.mend ∧ g.act = true ∧ g.Ok ∧ 8 = g.nbits + 8 * 1 ∧ 2 = 8 / g.b ∧ 2 < s.turns ∧
      0xFC = (List.range 1).foldl (fun acc i => acc * 256 + (s.dmem.read (s.su.mcur + i)).toNat) g.buf ∧
      (∀ j, j < 2 → v j = 0xFC / 2 ^ (8 - (j + 1) * g.b) % 2 ^ g.b) ∧ ∀ j, j < 2 → g.cut ≤ v j) ∧
    (let s := issued (.trismp 0) (withArgs { draws with su := { draws.su with mend := 0x301 } } 2 1 0 0)
      let g := s.su.igf
      let v : Nat → Nat := fun j => [1, 0].getD j 0
      let fresh : Nat → Bool := fun _ => true
      s.su.src = .mem ∧ s.su.mcur + 1 = s.su.mend ∧ g.act = true ∧ g.Ok ∧ 8 = g.nbits + 8 * 1 ∧ 2 = 8 / g.b ∧ 2 < s.turns ∧
      0x20 = (List.range 1).foldl (fun acc i => acc * 256 + (s.dmem.read (s.su.mcur + i)).toNat) g.buf ∧
      (∀ j, j < 2 → v j = 0x20 / 2 ^ (8 - (j + 1) * g.b) % 2 ^ g.b) ∧
      s.DimPre ∧ g.m = s.ctx.cfgN.toNat ∧ s.ctx.arg0.toNat + s.ctx.arg1.toNat ≤ s.ctx.cfgN.toNat ∧
      (∀ j, j < 2 → (fresh j = true ↔ v j < g.cut ∧ ∀ i, i < j → v i < g.cut → v i % g.m ≠ v j % g.m)) ∧
      ((Finset.range 2).filter fun j => fresh j = true).card < s.ctx.arg0.toNat + s.ctx.arg1.toNat) ∧
    (let s := issued (.trimgf 0) (withRing (crafted 401 9) 46 0 0);
      s.DimPre ∧ s.su.src = .mem ∧ s.su.mcur + 9 = s.su.mend ∧ 9 < s.turns ∧
      ((s.dmem.readBytes s.su.mcur 9).filter fun v => v.toNat < 243).length < (s.ctx.cfgN.toNat + 4) / 5) := by
  unfold State.DimPre Igf.Ok
  refine ⟨?_, ?_, ?_, ?_⟩ <;> (repeat' apply And.intro) <;> decide +kernel

/-- L2.5: b = 9, M = 401, the first group is 257; and b = 10, M = 601, where the fourth draw rejects 900 and takes 534. -/
theorem witness_IndexFromMemorySource :
    (let s := issued .igfnext (crafted 401 9)
      let g := s.su.igf
      g.act = true ∧ g.Ok ∧ s.su.src = .mem ∧ 0 < s.turns ∧ 2 = ((0 + 1) * g.b - g.nbits + 7) / 8 ∧
      s.su.mcur + 2 ≤ s.su.mend ∧
      32897 = (List.range 2).foldl (fun acc i => acc * 256 + (s.dmem.read (s.su.mcur + i)).toNat) g.buf ∧
      16 = g.nbits + 8 * 2 ∧ 7 = 16 - (0 + 1) * g.b ∧ 257 = 32897 / 2 ^ (16 - (0 + 1) * g.b) % 2 ^ g.b ∧ 257 < g.cut) ∧
    (let s := issued .igfnext (ran .igfnext (ran .igfnext (ran .igfnext (crafted 601 10))))
      let g := s.su.igf
      let v : Nat → Nat := fun j => if j = 0 then 900 else 534
      g.act = true ∧ g.Ok ∧ s.su.src = .mem ∧ 1 < s.turns ∧ 3 = ((1 + 1) * g.b - g.nbits + 7) / 8 ∧
      s.su.mcur + 3 ≤ s.su.mend ∧
      59016582 = (List.range 3).foldl (fun acc i => acc * 256 + (s.dmem.read (s.su.mcur + i)).toNat) g.buf ∧
      26 = g.nbits + 8 * 3 ∧ 6 = 26 - (1 + 1) * g.b ∧
      (∀ j, j ≤ 1 → v j = 59016582 / 2 ^ (26 - (j + 1) * g.b) % 2 ^ g.b) ∧ (∀ j, j < 1 → g.cut ≤ v j) ∧ v 1 < g.cut) := by
  unfold Igf.Ok
  decide +kernel

theorem witness_SampledWeights :
    let s := issued (.trismp 0) (withArgs draws 2 1 0 0)
    s.DimPre ∧ s.su.igf.m = s.ctx.cfgN.toNat ∧ ∃ r f, drawTrinomial s = .ok r f :=
  ⟨⟨by decide, by decide⟩, by decide, exists_ok (by decide +kernel)⟩

/-- T1 of L2.6: the groups 1, 0, 0, 4 of 20 45, the third a collision; and E2, whose groups 7, 0 are one rejected and one
accepted. -/
theorem witness_TrinomialFromMemorySource :
    (let s := issued (.trismp 0) (withArgs draws 2 1 0 0)
      let g := s.su.igf
      let v : Nat → Nat := fun j => [1, 0, 0, 4].getD j 0
      let fresh : Nat → Bool := fun j => [true, true, false, true].getD j false
      let rank : Nat → Nat := fun j => [0, 1, 2, 2, 3].getD j 0
      let bit : Nat → Bool := fun k => (s.dmem.read (s.su.mcur + k / 8)).getLsbD (7 - k % 8)
      s.DimPre ∧ g.act = true ∧ g.Ok ∧ g.m = s.ctx.cfgN.toNat ∧ g.nbits = 0 ∧ s.su.src = .mem ∧
      3 = s.ctx.arg0.toNat + s.ctx.arg1.toNat ∧ 3 ≤ s.ctx.cfgN.toNat ∧ 4 ≤ s.turns ∧ 2 = (4 * g.b + 7) / 8 ∧
      4 = 8 * 2 - 4 * g.b ∧ s.su.mcur + 2 ≤ s.su.mend ∧
      (∀ j, j < 4 → v j < 2 ^ g.b ∧ ∀ i, i < g.b → (v j).testBit (g.b - 1 - i) = bit (j * g.b + i)) ∧
      (∀ j, j < 4 → (fresh j = true ↔ v j < g.cut ∧ ∀ i, i < j → v i < g.cut → v i % g.m ≠ v j % g.m)) ∧
      (∀ j, j ≤ 4 → rank j = ((Finset.range j).filter fun i => fresh i = true).card) ∧ rank 4 = 3 ∧
      (4 = 0 ∨ fresh (4 - 1) = true)) ∧
    (let s := issued (.trismp 0) (withArgs (withBytes draws 0x300 [0xE2]) 1 0 0 0)
      let g := s.su.igf
      let v : Nat → Nat := fun j => [7, 0].getD j 0
      let fresh : Nat → Bool := fun j => [false, true].getD j false
      let rank : Nat → Nat := fun j => [0, 0, 1].getD j 0
      let bit : Nat → Bool := fun k => (s.dmem.read (s.su.mcur + k / 8)).getLsbD (7 - k % 8)
      s.DimPre ∧ g.act = true ∧ g.Ok ∧ g.m = s.ctx.cfgN.toNat ∧ g.nbits = 0 ∧ s.su.src = .mem ∧
      1 = s.ctx.arg0.toNat + s.ctx.arg1.toNat ∧ 1 ≤ s.ctx.cfgN.toNat ∧ 2 ≤ s.turns ∧ 1 = (2 * g.b + 7) / 8 ∧
      2 = 8 * 1 - 2 * g.b ∧ s.su.mcur + 1 ≤ s.su.mend ∧
      (∀ j, j < 2 → v j < 2 ^ g.b ∧ ∀ i, i < g.b → (v j).testBit (g.b - 1 - i) = bit (j * g.b + i)) ∧
      (∀ j, j < 2 → (fresh j = true ↔ v j < g.cut ∧ ∀ i, i < j → v i < g.cut → v i % g.m ≠ v j % g.m)) ∧
      (∀ j, j ≤ 2 → rank j = ((Finset.range j).filter fun i => fresh i = true).card) ∧ rank 2 = 1 ∧
      (2 = 0 ∨ fresh (2 - 1) = true)) := by
  unfold State.DimPre Igf.Ok
  refine ⟨?_, ?_⟩ <;> (repeat' apply And.intro) <;> decide +kernel

/-- M2 of L2.7: F3 and FF are rejected, F2 accepted; and the nine bytes 80 to 88, all accepted, for N = 45. -/
theorem witness_TritsFromMemorySource :
    (let s := issued (.trimgf 0) (ran .srcmem
        (withBytes (withArgs (withRing toy 5 0 0) 0x300 4 0 0) 0x300 [0xF3, 0xFF, 0xF2, 0x05]))
      let bytes : List Byte := [0xF3, 0xFF, 0xF2]
      s.DimPre ∧ s.su.src = .mem ∧ 1 ≤ 3 ∧ s.su.mcur + 3 ≤ s.su.mend ∧ 3 ≤ s.turns ∧ bytes.length = 3 ∧
      (∀ i, i < 3 → bytes.getD i 0#8 = s.dmem.read (s.su.mcur + i)) ∧
      [0xF2#8] = bytes.filter (fun v => v.toNat < 243) ∧ [0xF2#8].length = (s.ctx.cfgN.toNat + 4) / 5 ∧
      (bytes.getD (3 - 1) 0#8).toNat < 243) ∧
    (let s := issued (.trimgf 0) (withRing (crafted 401 9) 45 0 0)
      let bytes : List Byte := [0x80, 0x81, 0x82, 0x83, 0x84, 0x85, 0x86, 0x87, 0x88]
      s.DimPre ∧ s.su.src = .mem ∧ 1 ≤ 9 ∧ s.su.mcur + 9 ≤ s.su.mend ∧ 9 ≤ s.turns ∧ bytes.length = 9 ∧
      (∀ i, i < 9 → bytes.getD i 0#8 = s.dmem.read (s.su.mcur + i)) ∧
      bytes = bytes.filter (fun v => v.toNat < 243) ∧ bytes.length = (s.ctx.cfgN.toNat + 4) / 5 ∧
      (bytes.getD (9 - 1) 0#8).toNat < 243) := by
  unfold State.DimPre
  decide +kernel

theorem witness_TritsEncoded :
    (let s := issued (.trienc 0) (withArgs (withPoly (withRing toy 7 0 0) 0 [1, -1, 0, 0, 1, -1, -1]) 0x1FFE 0 0 0);
      s.DimPre ∧ RangePre s.ctx.arg0.toNat 2 ∧
      ∀ i, i < 7 → s.pr[(0 : PReg)].coeff i = 0 ∨ s.pr[(0 : PReg)].coeff i = 1 ∨ s.pr[(0 : PReg)].coeff i = -1) ∧
    (let s := issued (.trienc 0) (withArgs (withPoly (withRing toy 3 0 0) 0 [1, 2, 0]) 0x300 0 0 0);
      ¬ ∀ i, i < 3 → s.pr[(0 : PReg)].coeff i = 0 ∨ s.pr[(0 : PReg)].coeff i = 1 ∨ s.pr[(0 : PReg)].coeff i = -1) ∧
    isTrinomial 7 [1, -1, 0, 0, 1, -1, -1] = true := by
  exact ⟨⟨dim_ok (by decide), in_range (by decide), by decide⟩, by decide, by decide⟩

/-- The KEYGEN of L2.8, the ITER_LIMIT of L2.8 in the g loop, one in the F loop (another first byte, ITER_CAP = 1), the index
12, and a table entry that breaks a constraint. -/
theorem witness_KeyGeneration :
    (let s := issued .keygen { withArgs toy 1 0 0 0 with rng := rngFrom 0 30 };
      s.ctx.arg0.toNat = (1 : Fin 12).val ∧ s.params.setOk 1 = true ∧
      ∃ k f, generateKey s.turns s.ctx.iterCap.toNat s.params.table[(1 : Fin 12)] s.closedFeed = .ok k f) ∧
    (∀ first ∈ [149, 238],
      let s := issued .keygen
        { withArgs toy 1 0 0 0 with rng := (List.range 60).map fun j => BitVec.ofNat 8 (37 * j + first), iterCap := 1 };
      ∃ e f, generateKey s.turns s.ctx.iterCap.toNat s.params.table[(1 : Fin 12)] s.closedFeed = .err e f) ∧
    (let s := issued .keygen (withArgs toy 12 0 0 0);
      ¬ ∃ ps : Fin 12, s.ctx.arg0.toNat = ps.val ∧ s.params.setOk ps = true) ∧
    (let s := issued .keygen (withArgs toy 3 0 0 0);
      ¬ ∃ ps : Fin 12, s.ctx.arg0.toNat = ps.val ∧ s.params.setOk ps = true) := by
  refine ⟨⟨by decide, by decide, exists_ok (by decide +kernel)⟩, fun first hf => ?_, by decide, by decide⟩
  simp only [List.mem_cons, List.not_mem_nil, or_false] at hf
  rcases hf with rfl | rfl <;> exact exists_err (by decide +kernel)

theorem witness_GeneratedKeyIsAKeyPair :
    t17.wf = true ∧ ∃ k f, generateKey 100 0 t17 ⟨StreamUnit.reset, rngFrom 0 30, 0, 0⟩ = .ok k f :=
  ⟨by decide, exists_ok (by decide +kernel)⟩

/-- The ENCRYPT of L2.8; the errors in their order; ITER_LIMIT where dm0 cannot be met (R262). -/
theorem witness_Encryption :
    ((toy.key.kstate = .empty ∨ toy.key.kstate = .closed) ∧ (keyed.key.kstate = .pub ∨ keyed.key.kstate = .priv)) ∧
    t17.maxMsgLenBytes < 2 ∧
    ¬ (RangePre 0 1 ∧ RangePre 0x1FF0 t17.lenH ∧ t17.samplingOk = true) ∧
    (let s := issued .encrypt sending;
      t17 = s.params.table[s.key.kps] ∧ s.ctx.arg1.toNat ≤ t17.maxMsgLenBytes ∧
      RangePre s.ctx.arg0.toNat s.ctx.arg1.toNat ∧ RangePre s.ctx.arg2.toNat t17.lenH ∧ t17.samplingOk = true ∧
      ∃ e f, encLoop s.params.digest s.turns s.ctx.iterCap.toNat t17
        (s.dmem.readBytes s.ctx.arg0.toNat s.ctx.arg1.toNat) s.keyH s.turns 0 s.closedFeed = .ok e f) ∧
    (let P := { t17 with dm0 := 17 };
      let s := issued .encrypt { sending with iterCap := 1, params := { toyParams with table := toyParams.table.set 1 P } };
      P = s.params.table[s.key.kps] ∧
      ∃ c f, encLoop s.params.digest s.turns s.ctx.iterCap.toNat P
        (s.dmem.readBytes s.ctx.arg0.toNat s.ctx.arg1.toNat) s.keyH s.turns 0 s.closedFeed = .err c f) := by
  exact ⟨by decide, by decide, fun h => absurd h.2.1 (not_in_range (by decide)), ⟨by decide, by decide,
    in_range (by decide), in_range (by decide), by decide, exists_ok (by decide +kernel)⟩, by decide, exists_err (by decide +kernel)⟩

theorem exists_some_ok {σ α : Type} {r : Res σ (Option α)}
    (h : (match r with | .ok (some _) _ => true | _ => false) = true) : ∃ a s, r = .ok (some a) s := by
  match r, h with
  | .ok (some a) s, _ => exact ⟨a, s, rfl⟩
  | .ok none s, h => simp at h
  | .err _ _, h => simp at h
  | .starved _, h => simp at h
  | .paused _, h => simp at h

theorem exists_none_ok {σ α : Type} {r : Res σ (Option α)}
    (h : (match r with | .ok none _ => true | _ => false) = true) : ∃ s, r = .ok none s := by
  match r, h with
  | .ok none s, _ => exact ⟨s, rfl⟩
  | .ok (some _) s, h => simp at h
  | .err _ _, h => simp at h
  | .starved _, h => simp at h
  | .paused _, h => simp at h

theorem is_paused {σ α : Type} {r : Res σ α} (h : (match r with | .paused _ => true | _ => false) = true) :
    ∃ s, r = .paused s := by
  cases r <;> simp_all

/-- A decryption that answers a message has values whose checks all pass. -/
theorem recovered_of_some {impl : DigestImpl} {turns : Nat} {P : ParamSet} {F h : Vec} {ct : List Byte} {f : Feed}
    (hx : ∃ m g, decryptMsg impl turns P F h ct f = .ok (some m) g) :
    ∃ v, RecoveryOf impl turns P F h ct v ∧ v.Passes P ct := by
  obtain ⟨m, g, hx⟩ := hx
  rcases decryptMsg_cases impl turns P F h ct f with ⟨v, hv, -, ⟨hp, -⟩ | ⟨-, hd⟩⟩ | ⟨-, hd⟩
  · exact ⟨v, hv, hp⟩
  · rw [hx] at hd; simp at hd
  · rw [hx] at hd; simp at hd

/-- A decryption that answers none has values of which a check fails. -/
theorem recovered_of_none {impl : DigestImpl} {turns : Nat} {P : ParamSet} {F h : Vec} {ct : List Byte} {f : Feed}
    (hx : ∃ g, decryptMsg impl turns P F h ct f = .ok none g) :
    ∃ v, RecoveryOf impl turns P F h ct v ∧ ¬ v.Passes P ct := by
  obtain ⟨g, hx⟩ := hx
  rcases decryptMsg_cases impl turns P F h ct f with ⟨v, hv, -, ⟨-, hd⟩ | ⟨hp, -⟩⟩ | ⟨-, hd⟩
  · rw [hx] at hd; simp at hd
  · exact ⟨v, hv, hp⟩
  · rw [hx] at hd; simp at hd

/-- A decryption that goes on has no values. -/
theorem unrecovered_of_paused {impl : DigestImpl} {turns : Nat} {P : ParamSet} {F h : Vec} {ct : List Byte} {f : Feed}
    (hx : ∃ g, decryptMsg impl turns P F h ct f = .paused g) : ¬ ∃ v, RecoveryOf impl turns P F h ct v := by
  obtain ⟨g, hx⟩ := hx
  rcases decryptMsg_cases impl turns P F h ct f with ⟨v, -, -, ⟨-, hd⟩ | ⟨-, hd⟩⟩ | ⟨hn, -⟩
  · rw [hx] at hd; simp at hd
  · rw [hx] at hd; simp at hd
  · exact hn

/-- The DECRYPT of L2.8, the tampered ciphertext, one with a grant of no turn, and the errors in their order. -/
theorem witness_Decryption :
    (let s := issued .decrypt (receiving ctBytes);
      t17 = s.params.table[s.key.kps] ∧ s.key.kstate = .priv ∧ s.ctx.arg1.toNat = t17.lenH ∧
      RangePre s.ctx.arg0.toNat t17.lenH ∧ RangePre s.ctx.arg2.toNat t17.maxMsgLenBytes ∧ t17.samplingOk = true ∧
      ∃ v, RecoveryOf s.params.digest s.turns t17 s.keyF s.keyH (s.dmem.readBytes s.ctx.arg0.toNat t17.lenH) v ∧
        v.Passes t17 (s.dmem.readBytes s.ctx.arg0.toNat t17.lenH)) ∧
    (let s := issued .decrypt (receiving (ctBytes.set 3 0x93));
      ∃ v, RecoveryOf s.params.digest s.turns t17 s.keyF s.keyH (s.dmem.readBytes s.ctx.arg0.toNat t17.lenH) v ∧
        ¬ v.Passes t17 (s.dmem.readBytes s.ctx.arg0.toNat t17.lenH)) ∧
    (let s := issued .decrypt { receiving ctBytes with turns := 0 };
      ¬ ∃ v, RecoveryOf s.params.digest s.turns t17 s.keyF s.keyH (s.dmem.readBytes s.ctx.arg0.toNat t17.lenH) v) ∧
    t17.db + 1 + t17.maxMsgLenBytes ≤ t17.mBufLen ∧
    (toy.key.kstate = .empty ∨ toy.key.kstate = .closed) ∧
    ({ keyed with key := { keyed.key with kstate := .pub } } : State).key.kstate = .pub ∧ 23 ≠ t17.lenH ∧
    ¬ (RangePre 0x1FE9 t17.lenH ∧ RangePre 0 t17.maxMsgLenBytes ∧ t17.samplingOk = true) := by
  refine ⟨⟨by decide, by decide, by decide, in_range (by decide), in_range (by decide), by decide, ?_⟩, ?_, ?_, by decide,
    by decide, by decide, by decide, fun h => absurd h.1 (not_in_range (by decide))⟩
  · exact recovered_of_some (f := (issued .decrypt (receiving ctBytes)).closedFeed) (exists_some_ok (by decide +kernel))
  · exact recovered_of_none (f := (issued .decrypt (receiving (ctBytes.set 3 0x93))).closedFeed)
      (exists_none_ok (by decide +kernel))
  · exact unrecovered_of_paused (f := (issued .decrypt (receiving ctBytes)).closedFeed) (is_paused (by decide +kernel))

/-- The key of L2.8 meets the key object's invariant and the key relation with the g of L2.8. -/
theorem witness_toy_key : keyed.key.Ok keyed.params ∧ KeyRelation t17.N keyed.keyF toyG keyed.keyH := by
  refine ⟨⟨by decide, by decide, by decide, by decide, of_all (by decide), of_all (by decide), by decide, by decide⟩, ?_⟩
  unfold KeyRelation
  decide +kernel

theorem small_of_all {a : Vec} (h : a.all (fun v => decide (|v| ≤ 1)) = true) (i : Nat) : |at' a i| ≤ 1 := by
  rw [at', List.getD_eq_getElem?_getD]
  cases hg : a[i]? with
  | none => decide
  | some v => exact of_all (p := fun v : Int => |v| ≤ 1) h v (List.mem_of_getElem? hg)

theorem exec_next (i : Instr) (s : State) : exec i s = .next (outcome s (exec i s)) := by
  obtain ⟨r, h⟩ := exec_is_conclude i s
  rw [h]
  rfl

/-- Encryption and decryption of L2.8: every hypothesis of R274's statement together. -/
theorem witness_DecryptionReturnsEncrypted :
    let s := issued .encrypt sending
    let t := outcome s (exec .encrypt s)
    let s' := issued .decrypt (withArgs t 0x200 24 0x300 0)
    t17 = s.params.table[s.key.kps] ∧ t17.wf = true ∧ binTriLawful t17 ∧ s.key.kstate = .priv ∧ s.key.Ok s.params ∧
    toyG.length = t17.N ∧ KeyRelation t17.N s.keyF toyG s.keyH ∧ s.ctx.arg1.toNat ≤ t17.maxMsgLenBytes ∧
    NeverWraps s.params.digest s.turns t17 s.keyF toyG s.keyH (s.dmem.readBytes s.ctx.arg0.toNat s.ctx.arg1.toNat) ∧
    s.status.err = false ∧ exec .encrypt s = .next t ∧ t.phase = .idle ∧ s.phase = .busy ∧ t.status.err = false ∧
    s'.key = s.key ∧ s'.params = s.params ∧ s'.turns = s.turns ∧ s'.ctx.arg1.toNat = t17.lenH ∧
    RangePre s'.ctx.arg0.toNat t17.lenH ∧ RangePre s'.ctx.arg2.toNat t17.maxMsgLenBytes ∧
    ∀ i, i < t17.lenH → s'.dmem.read (s'.ctx.arg0.toNat + i) = t.dmem.read (s.ctx.arg2.toNat + i) := by
  refine ⟨by decide, by decide, suggested_lawful rfl (by decide), by decide, witness_toy_key.1, by decide,
    witness_toy_key.2, by decide, ?_, by decide, exec_next _ _, ?_, by decide, ?_, ?_, ?_, ?_, by decide,
    in_range (by decide), in_range (by decide), ?_⟩
  · exact neverWraps_of_small (by decide) (by decide) (fun i _ => small_of_all (by decide) i)
      fun i _ => small_of_all (by decide) i
  all_goals decide +kernel

/-- A KEYLOAD of these bytes under the toy table. -/
def loading (l : List Nat) : State :=
  issued .keyload (withBytes (withArgs toy 0x400 (BitVec.ofNat 32 l.length) 0 0) 0x400 l)

/-- The blobs of 95_test_vectors L2.9: one for each clause up to the OID, then the lengths and the pad bits. -/
theorem witness_KeyLoading :
    ¬ RangePre 0x1FF0 28 ∧ RangePre 0x1FE4 28 ∧
    (loading []).ctx.arg1.toNat < 1 ∧ (loading [0x03]).dmem.readBytes 0x400 1 = [0x03#8] ∧
    (loading [0x02, 0xFF, 0x00]).dmem.readBytes 0x400 3 = [0x02#8, 0xFF#8, 0x00#8] ∧
    (∀ ps : Fin 12, toyParams.table[ps].oidBytes ≠ [0xFF#8, 0x00#8, 0x13#8]) ∧
    toyParams.table[(1 : Fin 12)].oidBytes = [0xFF#8, 0x00#8, 0x11#8] ∧
    (∀ j : Fin 12, j < 1 → toyParams.table[j].oidBytes ≠ [0xFF#8, 0x00#8, 0x11#8]) ∧
    28 = 4 + t17.lenH ∧ 27 ≠ 4 + t17.lenH ∧ 32 = 4 + t17.lenH + t17.lenTrit ∧
    31 ≠ 4 + t17.lenH + t17.lenTrit ∧ 31 ≠ 4 + t17.lenH + t17.lenIndex ∧
    30 ≠ 4 + t17i.lenH + t17i.lenTrit ∧ 30 = 4 + t17i.lenH + t17i.lenIndex ∧ t17.N ≤ 1499 ∧
    (let packed : List Byte := (pubBytes.drop 4).map (BitVec.ofNat 8);
      padnz packed t17.N 2048 = false ∧ padnz (packed.set 23 0x81#8) t17.N 2048 = true) := by
  refine ⟨not_in_range (by decide), in_range (by decide), by decide, by decide, by decide, by decide, by decide, by decide,
    by decide, by decide, by decide, by decide, by decide, by decide, by decide, by decide, by decide +kernel⟩

/-- The checks of F (K3, K7 to K9 of 95_test_vectors L2.9): a byte from 243 up, a last byte from 9 up, and trits that pass; an
index from 17 up, two equal ones, a pad bit, and the indices 3 and 9, which pass. -/
theorem witness_KeyLoading_F :
    (let bad := fun u : List Byte =>
        (∃ g, g < t17.lenTrit ∧ 243 ≤ (u.getD g 0#8).toNat) ∨
          t17.N % 5 ≠ 0 ∧ 3 ^ (t17.N % 5) ≤ (u.getD (t17.lenTrit - 1) 0#8).toNat;
      bad [0xF3, 0x41, 0x00, 0x05] ∧ bad [0x09, 0x41, 0x00, 0x09] ∧ ¬ bad [0x09, 0x41, 0x00, 0x05]) ∧
    (let bad := fun u : List Byte =>
        (∃ j, j < 2 * t17i.df ∧ t17i.N ≤ unpackAt u t17i.N j) ∨
          (∃ i, i < 2 * t17i.df ∧ ∃ j, j < 2 * t17i.df ∧ i < j ∧ unpackAt u t17i.N i = unpackAt u t17i.N j) ∨
          padnz u (2 * t17i.df) t17i.N = true;
      bad [0x8A, 0x40] ∧ bad [0x18, 0xC0] ∧ bad [0x1A, 0x41] ∧ ¬ bad [0x1A, 0x40]) := by
  decide +kernel

theorem witness_KeyExporting :
    (toy.key.kstate = .empty ∨ toy.key.kstate = .closed) ∧ keyed.key.kstate = .priv ∧
    ({ keyed with key := { keyed.key with kstate := .pub } } : State).key.kstate = .pub ∧
    t17 = keyed.params.table[keyed.key.kps] ∧ (exportBlob keyed true).length = 32 ∧ RangePre 0x1FE0 32 ∧
    ¬ RangePre 0x1FE1 32 := by
  refine ⟨by decide, by decide, by decide, by decide, by decide +kernel, in_range (by decide), not_in_range (by decide)⟩

theorem witness_KeyBlobRoundTrip :
    let s := issued (.keyexport true) (withArgs keyed 0x100 0 0 0)
    let t := outcome s (exec (.keyexport true) s)
    let u := issued .keyload (withArgs t 0x100 32 0 0)
    t17 = s.params.table[s.key.kps] ∧ s.params.setOk s.key.kps = true ∧ s.key.Ok s.params ∧ s.key.kstate = .priv ∧
    RangePre s.ctx.arg0.toNat (exportBlob s true).length ∧ exec (.keyexport true) s = .next t ∧ u.dmem = t.dmem ∧
    u.params = s.params ∧ u.ctx.arg0 = s.ctx.arg0 ∧ u.ctx.arg1 = t.res0 := by
  refine ⟨by decide, by decide, witness_toy_key.1, by decide, in_range (by decide +kernel), rfl, rfl, rfl, rfl,
    by decide +kernel⟩

theorem witness_KeyObjectChanges :
    (∃ t, exec .keyclose (issued .keyclose keyed) = .next t) ∧ (∃ t, handle keyed (.rngByte 0) = .next t) ∧
    ∃ t, handle keyed .hardReset = .next t := ⟨⟨_, rfl⟩, ⟨_, rfl⟩, ⟨_, rfl⟩⟩

/-- ENCRYPT with the key of L2.8 and with another F; DECRYPT with a PUBLIC key; a host read of each; a step. -/
theorem witness_EncryptionIgnoresPrivateKey :
    (keyed.key.kstate = .pub ∨ keyed.key.kstate = .priv) ∧ (KState.pub = .pub ∨ KState.pub = .priv) ∧
    (let s := issued .encrypt sending
      let s' := { s with key := { s.key with f := poly [1, -1] } }
      SameButF s s' ∧ s.key.f ≠ s'.key.f ∧ (∃ t, exec .encrypt s = .next t) ∧
      (s.key.kstate = .priv → Instr.encrypt ≠ .decrypt ∧ Instr.encrypt ≠ .keyexport true) ∧
      (s.key.kstate = .priv → s.phase = .busy →
        decode s.ctx.word ≠ some .decrypt ∧ decode s.ctx.word ≠ some (.keyexport true)) ∧ ∃ t, step s = .next t) ∧
    (let s := issued .decrypt { keyed with key := { keyed.key with kstate := .pub } }
      ∀ i : Instr, s.key.kstate = .priv → i ≠ .decrypt ∧ i ≠ .keyexport true) :=
  ⟨by decide, by decide, ⟨rfl, by decide, ⟨_, rfl⟩, by decide, by decide, ⟨_, rfl⟩⟩, fun _ h => absurd h (by decide)⟩

theorem witness_StepKeepsStorage :
    ∃ t, step (sending.withFetchWord 32 0x51) = .next t ∧ (sending.withFetchWord 32 0x51).MemoryOk ∧
      (sending.withFetchWord 32 0x51).PolysOk := by
  refine ⟨_, rfl, ?_, ?_⟩ <;> (first | unfold State.MemoryOk | unfold State.PolysOk) <;> decide

theorem witness_StepKeepsKeyObject :
    ∃ t, step (keyed.withFetchWord 32 0x53) = .next t ∧ (keyed.withFetchWord 32 0x53).key.Ok toyParams :=
  ⟨_, rfl, witness_toy_key.1⟩

theorem witness_StepKeepsStreamUnit :
    let s := (crafted 401 9).withFetchWord 32 0x45
    ∃ t, step s = .next t ∧ s.su.Ok := by
  refine ⟨_, rfl, by decide, by decide, by decide, by decide, by decide, by decide, by decide, by decide, by decide⟩

theorem witness_StepKeepsSequencer : ∃ t, step (illegal) = .next t ∧ illegal.SequencerOk := by
  refine ⟨_, rfl, ?_⟩
  unfold State.SequencerOk
  decide

end Sys2Proof.Tests
end

section
/-! PROOFS. How every command ends (40_command R113 to R117), with what it takes from the RNG port (00_scope R11, 44_streams
R191) and the canonical form of what it writes (10_state R40); what every step keeps of storage (20_memory R61); the
state after reset (70_reset R342). -/

namespace Sys2Proof.Machine

/-! ### What a run leaves: a property of the answer and one of the consumption -/

/-- The consumption meets Q whatever the outcome, and a successful answer meets C. -/
def Res.Meets {σ α : Type} (C : α → Prop) (Q : σ → Prop) : Res σ α → Prop
  | .ok a s => C a ∧ Q s
  | .err _ s => Q s
  | .starved s => Q s
  | .paused s => Q s

theorem Res.All.bind_meets {σ α β : Type} {C : β → Prop} {Q : σ → Prop} {r : Res σ α} {k : α → σ → Res σ β}
    (hr : r.All Q) (hk : ∀ a s, Q s → (k a s).Meets C Q) : (r.bind k).Meets C Q := by
  cases r with
  | ok a s => exact hk a s hr
  | err e s => exact hr
  | starved s => exact hr
  | paused s => exact hr

/-- A command that consumes nothing meets Q, and C where its checks pass. -/
theorem ofExcept_meets {C : Writes → Prop} {Q : Feed → Prop} {f : Feed} {x : Except Err Writes}
    (hx : ∀ w, x = .ok w → C w) (hf : Q f) : (ofExcept f x).Meets C Q := by
  cases x with
  | ok w => exact ⟨hx w rfl, hf⟩
  | error e => exact hf

/-! ### The bytes taken from the RNG port (44_streams R191) -/

/-- The bytes taken so far are the first of those `base` offers, in order. -/
def Feed.TookFirst (base : List Byte) (f : Feed) : Prop := f.pulled ≤ base.length ∧ f.rng = base.drop f.pulled

theorem State.feed_tookFirst (s : State) : s.feed.TookFirst s.rng := ⟨Nat.zero_le _, rfl⟩

theorem Feed.Took.tookFirst {u : StreamUnit} {base : List Byte} {f : Feed} (h : f.Took u base) : f.TookFirst base := h.2

theorem State.pull_tookFirst (s : State) {base : List Byte} (f : Feed) (h : f.TookFirst base) :
    (s.pull f).All (Feed.TookFirst base) :=
  (pull_keeps s.dmem s.params.digest f.su.igf f.su.src f.iterCnt base f ⟨rfl, rfl, rfl, h⟩).imp
    fun _ ⟨_, _, _, hg⟩ => hg

theorem drawIndex_tookFirst (s : State) : (drawIndex s).All (Feed.TookFirst s.rng) :=
  (igfNext_keeps s.pull_tookFirst _ _ _ _ s.feed_tookFirst).mapState fun _ hx => hx

theorem drawTrinomial_tookFirst (s : State) : (drawTrinomial s).All (Feed.TookFirst s.rng) :=
  (bpgm3_keeps s.pull_tookFirst _ _ _ _ (s.su.igf, s.feed) s.feed_tookFirst).mapState fun _ hx => hx

theorem decodeTrits_tookFirst (s : State) : (decodeTrits s).All (Feed.TookFirst s.rng) :=
  tpDecode_keeps s.pull_tookFirst _ _ _ _ s.feed_tookFirst

/-- A part on a scratch stream leaves the consumption as it is (45_ntru R241). -/
theorem scratch_keeps {τ α : Type} {Q : Feed → Prop} (r : Res τ α) {f : Feed} (h : Q f) : (scratch r f).All Q := by
  cases r <;> exact h

theorem generateKey_took {u : StreamUnit} {base : List Byte} (turns cap : Nat) (P : ParamSet) (f : Feed)
    (h : f.Took u base) : (generateKey turns cap P f).All (Feed.Took u base) :=
  (gLoop_took turns cap P turns 0 f h).bind
    (fun g f1 _ h1 => (fLoop_took turns cap P g.2 turns 0 f1 h1).bind (fun _ _ _ h2 => h2) fun _ h2 => h2) fun _ h1 => h1

theorem rngTake_took {u : StreamUnit} {base : List Byte} (n : Nat) (f : Feed) (h : f.Took u base) :
    (rngTake n f).All (Feed.Took u base) := by
  induction n generalizing f with
  | zero => exact h
  | succ n ih =>
    exact (rngPull_took u base f h).bind
      (fun _ g _ hg => (ih g hg).bind (fun _ _ _ ht => ht) fun _ ht => ht) fun _ hg => hg

/-- An encryption attempt changes only what it takes from the RNG port (45_ntru R258). -/
theorem encAttempt_took {u : StreamUnit} {base : List Byte} (impl : DigestImpl) (turns : Nat) (P : ParamSet)
    (m : List Byte) (h : Vec) (f : Feed) (hf : f.Took u base) : (encAttempt impl turns P m h f).All (Feed.Took u base) := by
  unfold encAttempt
  refine (rngTake_took P.db f hf).bind (fun b f1 _ h1 => ?_) fun _ h1 => h1
  refine (scratch_keeps (genR impl turns P (sData P m b h)) h1).bind (fun r f2 _ h2 => ?_) fun _ h2 => h2
  refine (scratch_keeps (genMask impl turns P (blindPoly P.N r.t h)) h2).bind (fun mask f3 _ h3 => ?_) fun _ h3 => h3
  dsimp only
  split <;> exact h3

/-- The encryption loop changes only what it takes from the RNG port and ITER_CNT (45_ntru R257). -/
theorem encLoop_took {u : StreamUnit} {base : List Byte} (impl : DigestImpl) (turns cap : Nat) (P : ParamSet)
    (m : List Byte) (h : Vec) (left att : Nat) (f : Feed) (hf : f.Took u base) :
    (encLoop impl turns cap P m h left att f).All (Feed.Took u base) := by
  induction left generalizing att f with
  | zero => exact hf
  | succ n ih =>
    unfold encLoop
    split
    · exact hf
    · refine (encAttempt_took _ _ _ _ _ _ (hf.withIterCnt _)).bind (fun e t _ ht => ?_) fun _ ht => ht
      cases e with
      | some e => exact ht
      | none => exact ih _ _ ht

/-- The decryption computation consumes nothing (45_ntru R265). -/
theorem decryptMsg_keeps {Q : Feed → Prop} (impl : DigestImpl) (turns : Nat) (P : ParamSet) (F h : Vec) (ct : List Byte)
    {f : Feed} (hf : Q f) : (decryptMsg impl turns P F h ct f).All Q := by
  rcases decryptMsg_cases impl turns P F h ct f with ⟨v, -, -, (⟨-, hq⟩ | ⟨-, hq⟩)⟩ | ⟨-, hq⟩ <;>
    exact hq ▸ hf

/-! ### The polynomials written (10_state R40) -/

/-- The polynomial among the writes, if any, is in its canonical form. -/
def Writes.PolyOk (w : Writes) : Prop :=
  match w.pr with
  | none => True
  | some (_, p) => p.wf = true

theorem Writes.polyOk_of_none {w : Writes} (h : w.pr = none) : w.PolyOk := by
  rw [Writes.PolyOk, h]
  trivial

theorem ringCommand_polyOk {s : State} {rd : PReg} {reduces : Bool} {f : Nat → Int} (w : Writes)
    (h : ringCommand s rd reduces f = .ok w) : w.PolyOk := by
  unfold ringCommand at h
  split at h <;> cases h
  exact Poly.wf_ofFn _ _

theorem inversionCommand_polyOk {s : State} {rd : PReg} {inverse : Option Vec} (w : Writes)
    (h : inversionCommand s rd inverse = .ok w) : w.PolyOk := by
  unfold inversionCommand at h
  split at h
  · split at h <;> cases h
    · exact Poly.wf_ofFn _ _
    · trivial
  · cases h

theorem bunpackWrites_polyOk {s : State} {rd : PReg} (w : Writes) (h : bunpackWrites s rd = .ok w) : w.PolyOk := by
  unfold bunpackWrites at h
  split at h <;> cases h
  exact Poly.wf_ofFn _ _

theorem bpackWrites_pr {s : State} {rs1 : PReg} {dry : Bool} {w : Writes} (h : bpackWrites s rs1 dry = .ok w) :
    w.pr = none := by
  unfold bpackWrites at h
  split at h
  · dsimp only at h
    split at h
    · cases h
      rfl
    · split at h <;> cases h
      rfl
  · cases h

theorem triencWrites_pr {s : State} {rs1 : PReg} {w : Writes} (h : triencWrites s rs1 = .ok w) : w.pr = none := by
  unfold triencWrites at h
  split at h <;> cases h
  rfl

theorem keyloadWrites_pr {s : State} {w : Writes} (h : keyloadWrites s = .ok w) : w.pr = none := by
  unfold keyloadWrites at h
  split at h
  · split at h <;> cases h
    rfl
  · cases h

theorem keyexportWrites_pr {s : State} {priv : Bool} {w : Writes} (h : keyexportWrites s priv = .ok w) : w.pr = none := by
  unfold keyexportWrites at h
  split at h
  · cases h
  · split at h <;> cases h
    rfl

/-! ### How a command ends (40_command R113 to R117) -/

/-- Every meaning is the end of one run, which takes the first of the offered bytes and writes canonical polynomials. -/
theorem exec_run (i : Instr) (s : State) :
    ∃ r, exec i s = conclude s r ∧ r.Meets Writes.PolyOk (Feed.TookFirst s.rng) := by
  have h0 := s.feed_tookFirst
  have hc := closedFeed_took s
  cases i with
  | nop | srcrng | srcclose | keyclose => exact ⟨_, rfl, trivial, h0⟩
  | padd | psub | pconv | pred => exact ⟨_, rfl, ofExcept_meets ringCommand_polyOk h0⟩
  | pinvp | pinvq => exact ⟨_, rfl, ofExcept_meets inversionCommand_polyOk h0⟩
  | bunpack => exact ⟨_, rfl, ofExcept_meets bunpackWrites_polyOk h0⟩
  | bpack => exact ⟨_, rfl, ofExcept_meets (fun _ h => Writes.polyOk_of_none (bpackWrites_pr h)) h0⟩
  | trienc => exact ⟨_, rfl, ofExcept_meets (fun _ h => Writes.polyOk_of_none (triencWrites_pr h)) h0⟩
  | keyload => exact ⟨_, rfl, ofExcept_meets (fun _ h => Writes.polyOk_of_none (keyloadWrites_pr h)) h0⟩
  | keyexport => exact ⟨_, rfl, ofExcept_meets (fun _ h => Writes.polyOk_of_none (keyexportWrites_pr h)) h0⟩
  | peq | srcmgf | srcmem | igfinit =>
    refine ⟨_, rfl, ?_⟩
    split
    · exact ⟨trivial, h0⟩
    · exact h0
  | igfnext =>
    refine ⟨_, rfl, ?_⟩
    split
    · exact (drawIndex_tookFirst s).bind_meets fun _ _ hf => ⟨trivial, hf⟩
    · exact h0
  | trismp =>
    refine ⟨_, rfl, ?_⟩
    split
    · exact (drawTrinomial_tookFirst s).bind_meets fun _ _ hf => ⟨Poly.wf_ofFn _ _, hf⟩
    · exact h0
  | trimgf =>
    refine ⟨_, rfl, ?_⟩
    split
    · exact (decodeTrits_tookFirst s).bind_meets fun _ _ hf => ⟨Poly.wf_ofFn _ _, hf⟩
    · exact h0
  | keygen =>
    refine ⟨_, rfl, ?_⟩
    split
    · exact h0
    · exact ((generateKey_took _ _ _ _ hc).imp fun _ h => h.tookFirst).bind_meets fun _ _ hf => ⟨trivial, hf⟩
  | encrypt =>
    refine ⟨_, rfl, ?_⟩
    split
    · exact h0
    · exact ((encLoop_took _ _ _ _ _ _ _ _ _ hc).imp fun _ h => h.tookFirst).bind_meets fun _ _ hf => ⟨trivial, hf⟩
  | decrypt =>
    refine ⟨_, rfl, ?_⟩
    split
    · exact h0
    · refine (decryptMsg_keeps _ _ _ _ _ _ hc.tookFirst).bind_meets fun cm _ hf => ?_
      cases cm with
      | some cm => exact ⟨trivial, hf⟩
      | none => exact hf

/-- Everything a command can do: its consumption and writes committed, its consumption alone committed with one error, or
nothing committed. -/
theorem exec_ends (i : Instr) (s : State) :
    (∃ f w, exec i s = .next ((s.consume f).write w).finished ∧ w.PolyOk ∧ f.TookFirst s.rng) ∨
    (∃ f e, exec i s = .next ((s.consume f).failedWith e) ∧ f.TookFirst s.rng) ∨
    (∃ n k, exec i s = .next (s.goesOn n k) ∧ n ≤ s.rng.length) := by
  obtain ⟨r, hr, hm⟩ := exec_run i s
  rw [hr]
  cases r with
  | ok w f => exact .inl ⟨f, w, rfl, hm⟩
  | err e f => exact .inr (.inl ⟨f, e, rfl, hm⟩)
  | starved f => exact .inr (.inr ⟨f.pulled, s.turns, rfl, hm.1⟩)
  | paused f => exact .inr (.inr ⟨f.pulled, 2 * s.turns + 1, rfl, hm.1⟩)

theorem exec_total (i : Instr) (s : State) : ∃ t, exec i s = .next t := by
  obtain ⟨r, hr⟩ := exec_is_conclude i s
  exact ⟨_, hr⟩

theorem sequencerTurn_total (s : State) : ∃ t, sequencerTurn s = .next t := by
  rcases sequencerTurn_cases s with ⟨-, hq⟩ | ⟨-, -, hq⟩ | ⟨i, -, -, hq⟩
  · exact ⟨_, hq⟩
  · exact ⟨_, hq⟩
  · exact hq ▸ exec_total i s

theorem handle_total (s : State) (e : Event) : ∃ t, handle s e = .next t := by
  cases e with
  | turn => exact sequencerTurn_total s
  | access a => exact ⟨_, rfl⟩
  | together a =>
    obtain ⟨t, ht⟩ := sequencerTurn_total s
    exact ⟨hostAccess t a, by rw [handle, ht, thenAccess]⟩
  | rngByte v => exact ⟨_, rfl⟩
  | hardReset => exact ⟨_, rfl⟩

/-- No step stops with a fault or a refusal (60_exceptions R302, R313). -/
theorem step_total (s : State) : ∃ t, step s = .next t := by
  cases hi : s.inbox with
  | nil => exact step_no_event hi ▸ sequencerTurn_total s
  | cons e rest => exact step_event hi ▸ handle_total _ e

/-! ### Storage -/

theorem State.reset_memoryOk : State.reset.MemoryOk := Memory.wf_nil

theorem State.reset_polysOk : State.reset.PolysOk := by
  intro k
  fin_cases k <;> exact Poly.wf_nil

theorem write_memoryOk {s : State} (w : Writes) (h : s.MemoryOk) : (s.write w).MemoryOk := by
  rw [State.MemoryOk, State.write_dmem]
  split
  · exact h
  · exact Memory.wf_writeBytes _ _ _ h

/-- A canonical polynomial put in a register keeps the canonical form of all eight. -/
theorem setPr_polysOk {s : State} (k : PReg) {p : Poly} (hp : p.wf = true) (h : s.PolysOk) : (s.setPr k p).PolysOk := by
  intro j
  by_cases hj : k = j
  · subst hj
    simpa [State.setPr] using hp
  · have hne : k.val ≠ j.val := fun he => hj (Fin.ext he)
    simpa [State.setPr, hne] using h j

theorem write_polysOk {s : State} {w : Writes} (hw : w.PolyOk) (h : s.PolysOk) : (s.write w).PolysOk := by
  intro j
  rw [State.write_pr]
  cases hp : w.pr with
  | none => exact h j
  | some x =>
    rw [Writes.PolyOk, hp] at hw
    exact setPr_polysOk x.1 hw h j

theorem AccessEffect.memoryOk {s t : State} (ha : AccessEffect s t) (h : s.MemoryOk) : t.MemoryOk := by
  cases ha with
  | reset => exact State.reset_memoryOk
  | dmem k w => exact Memory.wf_setDmemWord _ k w h
  | _ => exact h

theorem AccessEffect.polysOk {s t : State} (ha : AccessEffect s t) (h : s.PolysOk) : t.PolysOk := by
  cases ha with
  | reset => exact State.reset_polysOk
  | pr k j w => exact setPr_polysOk k (Poly.wf_setPrWord _ j w (h k)) h
  | _ => exact h

theorem AccessEffect.params_eq {s t : State} (ha : AccessEffect s t) : t.params = s.params := by
  cases ha <;> rfl

theorem step_memoryOk {s t : State} (h : step s = .next t) (hs : s.MemoryOk) : t.MemoryOk := by
  refine step_keeps State.MemoryOk (fun _ _ hu => hu) (fun i u v _ hu huv => ?_) (fun _ _ hu => hu)
    (fun _ _ hu ha => ha.memoryOk hu) (fun _ _ hu => hu) (fun _ _ => State.reset_memoryOk) h hs
  rcases exec_ends i u with ⟨f, w, hq, -, -⟩ | ⟨f, e, hq, -⟩ | ⟨n, k, hq, -⟩ <;> cases hq.symm.trans huv
  · exact write_memoryOk (s := u.consume f) w hu
  · exact hu
  · exact hu

theorem step_polysOk {s t : State} (h : step s = .next t) (hs : s.PolysOk) : t.PolysOk := by
  refine step_keeps State.PolysOk (fun _ _ hu => hu) (fun i u v _ hu huv => ?_) (fun _ _ hu => hu)
    (fun _ _ hu ha => ha.polysOk hu) (fun _ _ hu => hu) (fun _ _ => State.reset_polysOk) h hs
  rcases exec_ends i u with ⟨f, w, hq, hw, -⟩ | ⟨f, e, hq, -⟩ | ⟨n, k, hq, -⟩ <;> cases hq.symm.trans huv
  · exact write_polysOk (s := u.consume f) hw hu
  · exact hu
  · exact hu

/-- No step writes the configuration (70_reset R344 (1)). -/
theorem step_params {s t : State} (h : step s = .next t) : t.params = s.params := by
  refine step_keeps (fun u => u.params = s.params) (fun _ _ hu => hu) (fun i u v _ hu huv => ?_) (fun _ _ hu => hu)
    (fun _ _ hu ha => ha.params_eq.trans hu) (fun _ _ hu => hu) (fun _ hu => hu) h rfl
  rcases exec_ends i u with ⟨f, w, hq, -, -⟩ | ⟨f, e, hq, -⟩ | ⟨n, k, hq, -⟩ <;> cases hq.symm.trans huv <;> exact hu

/-! ### The state after reset -/

theorem Key.reset_ok (C : Params) : Key.reset.Ok C := by
  simp [Key.Ok, Key.reset]

theorem StreamUnit.reset_ok : StreamUnit.reset.Ok := by
  simp [StreamUnit.Ok, StreamUnit.reset, Igf.Ok, Igf.reset, Mgf.reset]

theorem State.reset_sequencerOk : State.reset.SequencerOk := by
  simp [State.SequencerOk, State.reset]

theorem State.reset_safe : State.reset.Safe where
  memory := State.reset_memoryOk
  polys := State.reset_polysOk
  key := Key.reset_ok _
  unit := StreamUnit.reset_ok
  sequencer := State.reset_sequencerOk

/-- `LenPriv` of entries 0 and 11 as 00_scope R9 publishes it. -/
theorem bootSet_lenPriv : (bootSet 0).lenPriv = 637 ∧ (bootSet 11).lenPriv = 2284 := by
  have h := bootParams_pinned
  simp only [Params.pinned, Bool.and_eq_true, decide_eq_true_eq] at h
  exact ⟨h.1.1.2, h.2⟩

/-- With df = 79 the index form of F is the shorter one of entry 11 (95_test_vectors L1.4). -/
theorem bootSet_eleven_lenIndex_lt : (bootSet 11).lenIndex < (bootSet 11).lenTrit := by
  have hnb : (bootSet 11).nb = 11 := by simp [ParamSet.nb, ceilLog2, Nat.log2_eq_iff]
  simp only [ParamSet.lenIndex, ParamSet.lenTrit, hnb, bootSet_eleven_df, bootSet_eleven_N]
  decide

/-! ### The obligations -/

/-- Settles O8: every meaning is the end of one run, and no pull takes a byte but the next one offered. -/
theorem commandsEndInOneOfThreeWays : Obligations.CommandsEndInOneOfThreeWays := by
  refine ⟨step_total, fun i s => ?_, fun _ _ => rfl, fun _ _ => rfl⟩
  rcases exec_ends i s with ⟨f, w, hq, -, hf⟩ | h | h
  · exact .inl ⟨f, w, hq, hf⟩
  · exact .inr (.inl h)
  · exact .inr (.inr h)

/-- Settles O56, by the step principle for each of the three. -/
theorem stepKeepsStorage : Obligations.StepKeepsStorage :=
  fun _ _ h => ⟨step_memoryOk h, step_polysOk h, step_params h⟩

/-- Settles O60: everything is empty after reset, and the table's lengths follow from N and df of the two entries. -/
theorem resetIsSafe : Obligations.ResetIsSafe :=
  ⟨State.reset_safe, ⟨rfl, rfl, rfl, bootSet_lenPriv.1, bootSet_zero_lenTrit_le⟩,
    rfl, rfl, rfl, bootSet_lenPriv.2, bootSet_eleven_lenIndex_lt⟩

end Sys2Proof.Machine
end

section
/-! PROOFS. The key object (10_state R41, R42): what KEYGEN and KEYLOAD leave in it (45_ntru R251, R280), that no other
command but KEYCLOSE writes it, and that no host access but a soft reset touches it; KEYGEN itself (45_ntru R251 to R255). -/

namespace Sys2Proof.Machine

/-! ### The coefficients of a key -/

/-- Every coefficient is in [0, 2048), as those of KEY_H are (10_state R41). -/
def InQ (a : Vec) : Prop := ∀ i, 0 ≤ at' a i ∧ at' a i < 2048

/-- Every coefficient is a trit, as those of KEY_F are (10_state R41). -/
def IsTrinomial (a : Vec) : Prop := ∀ i, at' a i = 0 ∨ at' a i = 1 ∨ at' a i = -1

theorem at'_mem_or_zero (a : Vec) (i : Nat) : at' a i ∈ a ∨ at' a i = 0 := by
  by_cases h : i < a.length
  · exact .inl (by rw [at', List.getD_eq_getElem _ _ h]; exact List.getElem_mem h)
  · exact .inr (List.getD_eq_default _ _ (by omega))

theorem isTrinomial_of_mem {a : Vec} (h : ∀ v ∈ a, v = 0 ∨ v = 1 ∨ v = -1) : IsTrinomial a := fun i =>
  (at'_mem_or_zero a i).elim (h _) .inl

theorem inQ_of_mem {a : Vec} (h : ∀ v ∈ a, 0 ≤ v ∧ v < 2048) : InQ a := fun i =>
  (at'_mem_or_zero a i).elim (h _) fun h0 => by rw [h0]; decide

theorem InQ.holds {a : Vec} {N : Nat} (h : InQ a) (hN : N ≤ 1499) : (Poly.ofVec N a).Holds N (at' a) :=
  Poly.holds_ofFn hN fun i _ => by have := h i; omega

theorem IsTrinomial.holds {a : Vec} {N : Nat} (h : IsTrinomial a) (hN : N ≤ 1499) : (Poly.ofVec N a).Holds N (at' a) :=
  Poly.holds_ofFn hN fun i _ => by have := h i; omega

/-- The array of no coefficient is empty: its last entry would be a 0. -/
theorem Poly.ofVec_nil (N : Nat) : Poly.ofVec N [] = [] := by
  by_contra hne
  obtain ⟨i, -, hi⟩ := Poly.mem_ofFn (List.getLast_mem hne)
  have hlast := ((Poly.wf_iff _).mp (Poly.wf_ofFn N (at' []))).2
  exact hlast ((List.getLast?_eq_some_getLast hne).trans (congrArg some hi))

/-- A key made of h in [0, 2048) and a trinomial F is as 10_state R41 says, where a PUBLIC key has no F. -/
theorem Key.ofVecs_ok {C : Params} {ps : Fin 12} {h F : Vec} {ks : KState} (hh : InQ h) (hF : IsTrinomial F)
    (hks : ks = .priv ∨ ks = .pub ∧ F = []) :
    Key.Ok C ⟨ps, Poly.ofVec C.table[ps].N h, Poly.ofVec C.table[ps].N F, ks⟩ := by
  refine ⟨Poly.wf_ofFn _ _, Poly.wf_ofFn _ _, Poly.length_ofFn _ _, Poly.length_ofFn _ _, fun c hc => ?_,
    fun c hc => ?_, ?_, ?_⟩
  · obtain ⟨i, -, rfl⟩ := Poly.mem_ofFn hc
    have := hh i
    rw [toInt_ofInt_of_range (by omega) (by omega)]
    exact this
  · obtain ⟨i, -, rfl⟩ := Poly.mem_ofFn hc
    rcases hF i with h0 | h1 | h2
    · exact .inl (by rw [h0]; rfl)
    · exact .inr (.inl (by rw [h1]; rfl))
    · exact .inr (.inr (by rw [h2]; rfl))
  · rcases hks with rfl | ⟨rfl, -⟩ <;> simp
  · rcases hks with rfl | ⟨-, rfl⟩
    · simp
    · exact fun _ => Poly.ofVec_nil _

/-! ### KEYGEN (45_ntru R251 to R255) -/

theorem keyH_inQ (N : Nat) (fq g : Vec) : InQ (keyH N fq g) := by
  refine inQ_of_mem fun v hv => ?_
  simp only [keyH, tab, List.mem_map] at hv
  obtain ⟨k, -, rfl⟩ := hv
  exact ⟨Int.emod_nonneg _ (by decide), Int.emod_lt_of_pos _ (by decide)⟩

/-- A key is generated where both loops end: the g loop with g, then the F loop with F and the inverse of 1 + 3F. -/
theorem generateKey_eq_ok {turns cap : Nat} {P : ParamSet} {f f' : Feed} {k : KeyPair} :
    generateKey turns cap P f = .ok k f' ↔ ∃ g f1 r, gLoop turns cap P turns 0 f = .ok g f1 ∧
      fLoop turns cap P g.2 turns 0 f1 = .ok r f' ∧ k = ⟨r.F, keyH P.N r.fq g.1, g.2, r.fa⟩ := by
  simp only [generateKey, Res.bind_eq_ok, Res.ok.injEq]
  constructor
  · rintro ⟨g, f1, hg, r, f2, hr, rfl, rfl⟩
    exact ⟨g, f1, r, hg, hr, rfl⟩
  · rintro ⟨g, f1, r, hg, hr, rfl⟩
    exact ⟨g, f1, hg, r, f', hr, rfl, rfl⟩

/-- Everything a generated key is: h in [0, 2048), F a trinomial, at least one attempt of each loop and at most the ceiling,
ITER_CNT their sum (45_ntru R243, R251). -/
theorem generateKey_ok {turns cap : Nat} {P : ParamSet} {f f' : Feed} {k : KeyPair} (hN : 1 ≤ P.N)
    (h : generateKey turns cap P f = .ok k f') :
    InQ k.h ∧ IsTrinomial k.F ∧ 1 ≤ k.ga ∧ 1 ≤ k.fa ∧ (cap ≠ 0 → k.ga ≤ cap ∧ k.fa ≤ cap) ∧
      f'.iterCnt = countWord (k.ga + k.fa) := by
  obtain ⟨g, f1, r, hg, hr, rfl⟩ := generateKey_eq_ok.mp h
  obtain ⟨g1, g2, -⟩ := gLoop_ok hg fun _ => Nat.zero_le _
  obtain ⟨r1, r2, -, r3, a, b, hF⟩ := fLoop_ok hr fun _ => Nat.zero_le _
  obtain ⟨-, -, -, htri⟩ := genTri_ok hN hF
  exact ⟨keyH_inQ _ _ _, htri, by simpa using g1, by simpa using r1, fun h0 => ⟨g2 h0, r2 h0⟩, r3⟩

/-- The one error of key generation: ITER_LIMIT, of the g loop or, after it, of the F loop (45_ntru R243). -/
theorem generateKey_err {turns cap : Nat} {P : ParamSet} {f f' : Feed} {e : Err}
    (h : generateKey turns cap P f = .err e f') :
    e = .iterLimit ∧ cap ≠ 0 ∧
      (gLoop turns cap P turns 0 f = .err .iterLimit f' ∧ f'.iterCnt = countWord cap ∨
        ∃ g f1, gLoop turns cap P turns 0 f = .ok g f1 ∧ 1 ≤ g.2 ∧ g.2 ≤ cap ∧
          f'.iterCnt = countWord (g.2 + cap)) := by
  rcases Res.bind_eq_err.mp h with hg | ⟨g, f1, hg, h⟩
  · obtain ⟨rfl, h0, hi⟩ := gLoop_err hg (.inl rfl)
    exact ⟨rfl, h0, .inl ⟨hg, hi⟩⟩
  · rcases Res.bind_eq_err.mp h with hF | ⟨r, f2, -, h⟩
    · obtain ⟨rfl, h0, hi⟩ := fLoop_err hF (.inl rfl)
      obtain ⟨g1, g2, -⟩ := gLoop_ok hg fun _ => Nat.zero_le _
      exact ⟨rfl, h0, .inr ⟨g, f1, hg, by simpa using g1, g2 h0, hi⟩⟩
    · cases h

/-- A ceiling of 0, or one that bounds a loop (45_ntru R243). -/
theorem toNat_ne_zero_iff {w : Word} : w.toNat ≠ 0 ↔ w ≠ 0#32 := BitVec.toNat_ne_iff_ne (y := 0#32)

/-- The index KEYGEN takes: below NPS, of a set that meets the constraints (45_ntru R251, R244; log 15). -/
theorem keygenSet_eq_some {s : State} {ps : Fin 12} :
    keygenSet s = some ps ↔ s.ctx.arg0.toNat = ps.val ∧ s.params.setOk ps = true := by
  unfold keygenSet
  constructor
  · intro h
    split at h
    · split at h <;> cases h
      exact ⟨rfl, ‹_›⟩
    · cases h
  · rintro ⟨ha, hok⟩
    have hlt : s.argA < 12 := ha.trans_lt ps.isLt
    have hps : (⟨s.argA, hlt⟩ : Fin 12) = ps := Fin.ext ha
    rw [dif_pos hlt, hps, if_pos hok]

theorem keygenSet_eq_none {s : State} :
    keygenSet s = none ↔ ¬ ∃ ps : Fin 12, s.ctx.arg0.toNat = ps.val ∧ s.params.setOk ps = true := by
  simp only [← keygenSet_eq_some, Option.eq_none_iff_forall_ne_some, not_exists, ne_eq]

theorem Params.setOk_range {C : Params} {ps : Fin 12} (h : C.setOk ps = true) :
    1 ≤ C.table[ps].N ∧ C.table[ps].N ≤ 1499 := by
  simp only [Params.setOk, ParamSet.wf, ParamSet.rangeOk, Bool.and_eq_true, decide_eq_true_eq] at h
  obtain ⟨⟨⟨⟨⟨⟨h1, h2⟩, -⟩, -⟩, -⟩, -⟩, -⟩ := h
  exact ⟨h1, h2⟩

theorem execKeygen_none {s : State} (h : keygenSet s = none) : exec .keygen s = .next (s.failedWith .precondition) := by
  rw [exec, execKeygen, h, conclude_err, consume_feed]

theorem execKeygen_some {s : State} {ps : Fin 12} (h : keygenSet s = some ps) :
    exec .keygen s = conclude s
      ((generateKey s.turns s.cap s.params.table[ps] s.closedFeed).bind fun k f =>
        .ok { key := some (generatedKey s.params.table[ps] ps k)
              res0 := some (countWord k.ga)
              res1 := some (countWord k.fa) } f) := by
  rw [exec, execKeygen, h]

/-! ### KEYLOAD (45_ntru R280 to R283) -/

/-- Unpacked elements of q are in [0, 2048) (43_bitpack R173). -/
theorem intVec_unpack_inQ (bytes : List Byte) (n : Nat) : InQ (intVec (unpack bytes n Config.q)) := by
  refine inQ_of_mem fun v hv => ?_
  simp only [intVec, unpack, List.map_map, List.mem_map, Function.comp] at hv
  obtain ⟨i, -, rfl⟩ := hv
  have h := unpackAt_lt bytes 2048 i
  rw [bw_q] at h
  show (0 : Int) ≤ (unpackAt bytes 2048 i : Int) ∧ (unpackAt bytes 2048 i : Int) < 2048
  omega

theorem decodeFTrit_isTrinomial {P : ParamSet} {u : List Byte} {F : Vec} (h : decodeFTrit P u = some F) :
    IsTrinomial F := by
  unfold decodeFTrit at h
  split at h <;> cases h
  refine isTrinomial_of_mem fun t ht => ?_
  obtain ⟨v, -, hv⟩ := List.mem_flatMap.mp (List.mem_of_mem_take ht)
  exact tritsOfByte_trits v t hv

theorem decodeFIndex_isTrinomial {P : ParamSet} {u : List Byte} {F : Vec} (h : decodeFIndex P u = some F) :
    IsTrinomial F := by
  unfold decodeFIndex at h
  dsimp only at h
  split at h <;> cases h
  refine isTrinomial_of_mem fun t ht => ?_
  simp only [tab, List.mem_map] at ht
  obtain ⟨i, -, rfl⟩ := ht
  split
  · exact .inr (.inl rfl)
  · split
    · exact .inr (.inr rfl)
    · exact .inl rfl

/-- A decoded blob has h in [0, 2048) and a trinomial F, none where it is PUBLIC (45_ntru R280). -/
def Blob.Good (b : Blob) : Prop := InQ b.h ∧ IsTrinomial b.F ∧ (b.kstate = .priv ∨ b.kstate = .pub ∧ b.F = [])

theorem decodeBody_good {P : ParamSet} {ps : Fin 12} {isPriv : Bool} {s : List Byte} {b : Blob}
    (h : decodeBody P ps isPriv s = .ok b) : b.Good := by
  unfold decodeBody at h
  dsimp only at h
  split at h
  · split at h
    · split at h
      · cases h
      · split at h <;> cases h
        exact ⟨intVec_unpack_inQ _ _, decodeFTrit_isTrinomial ‹_›, .inl rfl⟩
    · split at h
      · split at h
        · cases h
        · split at h <;> cases h
          exact ⟨intVec_unpack_inQ _ _, decodeFIndex_isTrinomial ‹_›, .inl rfl⟩
      · cases h
  · split at h
    · split at h <;> cases h
      exact ⟨intVec_unpack_inQ _ _, isTrinomial_of_mem (by simp), .inr ⟨rfl, rfl⟩⟩
    · cases h

theorem decodeBlob_good {C : Params} {s : List Byte} {b : Blob} (h : decodeBlob C s = .ok b) : b.Good := by
  unfold decodeBlob at h
  dsimp only at h
  split at h
  · cases h
  split at h
  · cases h
  split at h
  · cases h
  split at h
  · cases h
  · exact decodeBody_good h

/-! ### The key among a command's writes (10_state R42) -/

/-- What a command's writes may be of the key object: nothing, or a whole key by KEYGEN, KEYLOAD or KEYCLOSE, each with its
states, and then no flag. -/
def Writes.KeyFor (C : Params) (i : Instr) (w : Writes) : Prop :=
  w.key = none ∨ ∃ k : Key, w.key = some k ∧ k.Ok C ∧ w.noinv = none ∧ w.eq = none ∧
    (i = .keygen ∧ k.kstate = .priv ∨ i = .keyload ∧ (k.kstate = .pub ∨ k.kstate = .priv) ∨
      i = .keyclose ∧ k.kstate = .closed)

theorem Key.closed_ok (C : Params) : Key.closed.Ok C := by simp [Key.Ok, Key.closed]

theorem generatedKey_ok {s : State} {ps : Fin 12} {turns cap : Nat} {f f' : Feed} {k : KeyPair}
    (hps : keygenSet s = some ps) (h : generateKey turns cap s.params.table[ps] f = .ok k f') :
    (generatedKey s.params.table[ps] ps k).Ok s.params := by
  obtain ⟨hN, -⟩ := Params.setOk_range (keygenSet_eq_some.mp hps).2
  obtain ⟨hh, hF, -⟩ := generateKey_ok hN h
  exact Key.ofVecs_ok hh hF (.inl rfl)

theorem keyloadWrites_keyFor {s : State} {w : Writes} (h : keyloadWrites s = .ok w) : w.KeyFor s.params .keyload := by
  unfold keyloadWrites at h
  split at h
  · split at h
    · cases h
    · next b hb =>
      cases h
      obtain ⟨hh, hF, hks⟩ := decodeBlob_good hb
      exact .inr ⟨_, rfl, Key.ofVecs_ok hh hF hks, rfl, rfl, .inr (.inl ⟨rfl, hks.symm.imp And.left id⟩)⟩
  · cases h

theorem ofExcept_eq_ok {f g : Feed} {x : Except Err Writes} {w : Writes} :
    ofExcept f x = .ok w g ↔ x = .ok w ∧ f = g := by
  cases x <;> simp

theorem ringCommand_key {s : State} {rd : PReg} {reduces : Bool} {f : Nat → Int} {w : Writes}
    (h : ringCommand s rd reduces f = .ok w) : w.key = none := by
  unfold ringCommand at h
  split at h <;> cases h
  rfl

theorem inversionCommand_key {s : State} {rd : PReg} {inverse : Option Vec} {w : Writes}
    (h : inversionCommand s rd inverse = .ok w) : w.key = none := by
  unfold inversionCommand at h
  split at h
  · split at h <;> cases h <;> rfl
  · cases h

theorem bunpackWrites_key {s : State} {rd : PReg} {w : Writes} (h : bunpackWrites s rd = .ok w) : w.key = none := by
  unfold bunpackWrites at h
  split at h <;> cases h
  rfl

theorem bpackWrites_key {s : State} {rs1 : PReg} {dry : Bool} {w : Writes} (h : bpackWrites s rs1 dry = .ok w) :
    w.key = none := by
  unfold bpackWrites at h
  split at h
  · dsimp only at h
    split at h
    · cases h
      rfl
    · split at h <;> cases h
      rfl
  · cases h

theorem triencWrites_key {s : State} {rs1 : PReg} {w : Writes} (h : triencWrites s rs1 = .ok w) : w.key = none := by
  unfold triencWrites at h
  split at h <;> cases h
  rfl

theorem keyexportWrites_key {s : State} {priv : Bool} {w : Writes} (h : keyexportWrites s priv = .ok w) :
    w.key = none := by
  unfold keyexportWrites at h
  split at h
  · cases h
  · split at h <;> cases h
    rfl

/-- Every meaning is the end of one run, which writes the key object as 10_state R42 says. -/
theorem exec_keyFor (i : Instr) (s : State) :
    ∃ r, exec i s = conclude s r ∧ ∀ w f, r = .ok w f → w.KeyFor s.params i := by
  cases i with
  | nop | srcrng | srcclose => exact ⟨_, rfl, fun w f h => by cases h; exact .inl rfl⟩
  | keyclose =>
    exact ⟨_, rfl, fun w f h => by cases h; exact .inr ⟨_, rfl, Key.closed_ok _, rfl, rfl, .inr (.inr ⟨rfl, rfl⟩)⟩⟩
  | padd | psub | pconv | pred => exact ⟨_, rfl, fun w f h => .inl (ringCommand_key (ofExcept_eq_ok.mp h).1)⟩
  | pinvp | pinvq => exact ⟨_, rfl, fun w f h => .inl (inversionCommand_key (ofExcept_eq_ok.mp h).1)⟩
  | bunpack => exact ⟨_, rfl, fun w f h => .inl (bunpackWrites_key (ofExcept_eq_ok.mp h).1)⟩
  | bpack => exact ⟨_, rfl, fun w f h => .inl (bpackWrites_key (ofExcept_eq_ok.mp h).1)⟩
  | trienc => exact ⟨_, rfl, fun w f h => .inl (triencWrites_key (ofExcept_eq_ok.mp h).1)⟩
  | keyexport => exact ⟨_, rfl, fun w f h => .inl (keyexportWrites_key (ofExcept_eq_ok.mp h).1)⟩
  | keyload => exact ⟨_, rfl, fun w f h => keyloadWrites_keyFor (ofExcept_eq_ok.mp h).1⟩
  | peq =>
    refine ⟨_, rfl, fun w f h => ?_⟩
    have h := (ofExcept_eq_ok.mp h).1
    split at h <;> cases h
    exact .inl rfl
  | srcmgf | srcmem | igfinit =>
    refine ⟨_, rfl, fun w f h => ?_⟩
    split at h <;> cases h
    exact .inl rfl
  | igfnext | trismp | trimgf =>
    refine ⟨_, rfl, fun w f h => ?_⟩
    split at h
    · obtain ⟨a, g, -, h⟩ := Res.bind_eq_ok.mp h
      cases h
      exact .inl rfl
    · cases h
  | encrypt =>
    refine ⟨_, rfl, fun w f h => ?_⟩
    split at h
    · cases h
    · obtain ⟨a, g, -, h⟩ := Res.bind_eq_ok.mp h
      cases h
      exact .inl rfl
  | decrypt =>
    refine ⟨_, rfl, fun w f h => ?_⟩
    split at h
    · cases h
    · obtain ⟨cm, g, -, h⟩ := Res.bind_eq_ok.mp h
      cases cm <;> cases h
      exact .inl rfl
  | keygen =>
    refine ⟨_, rfl, fun w f h => ?_⟩
    split at h
    · cases h
    · next ps hps =>
      obtain ⟨k, g, hk, h⟩ := Res.bind_eq_ok.mp h
      cases h
      exact .inr ⟨_, rfl, generatedKey_ok hps hk, rfl, rfl, .inl ⟨rfl, rfl⟩⟩

/-- Everything a command can do to the key object: leave it, or complete without error with a whole key in its place. -/
theorem exec_key_cases {i : Instr} {s t : State} (h : exec i s = .next t) :
    t.key = s.key ∨
    t.key.Ok s.params ∧ t.status = { s.status with done := true } ∧ t.phase = .idle ∧
      (i = .keygen ∧ t.key.kstate = .priv ∨ i = .keyload ∧ (t.key.kstate = .pub ∨ t.key.kstate = .priv) ∨
        i = .keyclose ∧ t.key.kstate = .closed) := by
  obtain ⟨r, hr, hw⟩ := exec_keyFor i s
  cases hr.symm.trans h
  cases r with
  | ok w f =>
    have hkey : (afterRun s (.ok w f)).key = w.key.getD s.key := rfl
    rcases hw w f rfl with hk | ⟨k, hk, hok, hn, he, hi⟩ <;> rw [hkey, hk]
    · exact .inl rfl
    · refine .inr ⟨hok, ?_, rfl, hi⟩
      rw [afterRun, complete_eq, State.finished_status, State.write_status, hn, he]
      rfl
  | err e f => exact .inl rfl
  | starved f => exact .inl rfl
  | paused f => exact .inl rfl

/-! ### Host accesses (70_reset R341) -/

theorem issue_key (s : State) (w : Word) : (issue s w).key = s.key := by
  cases h : s.phase <;> simp [issue, h]

/-- Of the register writes a soft reset alone touches the key object. -/
theorem regWrite_key (s : State) (off : Nat) (w : Word) :
    (regWrite s off w).key = s.key ∨ off = offCTRL ∧ w.getLsbD 0 = true ∧ regWrite s off w = resetEngine s := by
  by_cases ho : off = offCTRL
  · cases hw : w.getLsbD 0 with
    | true => exact .inr ⟨ho, rfl, by rw [regWrite, if_pos ho, if_pos hw]⟩
    | false => exact .inl (by rw [regWrite, if_pos ho, if_neg (by rw [hw]; exact Bool.false_ne_true)])
  · exact .inl (by rw [regWrite, if_neg ho]; simp only [apply_ite State.key, issue_key, ite_self])

/-- A host access leaves the key object, or it is a soft reset (10_state R42). -/
theorem hostAccess_key (s : State) (a : Access) :
    (hostAccess s a).key = s.key ∨
      (∃ w, a = .write 0x004 .w32 w ∧ w.getLsbD 0 = true) ∧ hostAccess s a = resetEngine s := by
  cases a with
  | read off wd => exact .inl (by rw [hostAccess]; split <;> rfl)
  | write off wd w =>
    rw [hostAccess]
    cases hr : refusedAccess s off.toNat wd with
    | true => exact .inl rfl
    | false =>
      rw [if_neg Bool.false_ne_true, writeWord]
      by_cases h1 : off.toNat < 0x2000
      · rw [if_pos h1]
        refine (regWrite_key s off.toNat w).imp id fun ⟨ho, hw, hq⟩ => ⟨⟨w, ?_, hw⟩, hq⟩
        have hwd : wd = .w32 := by
          by_contra hne
          simp [refusedAccess, hne] at hr
        rw [hwd, show off = 0x004 from BitVec.eq_of_toNat_eq ho]
      · rw [if_neg h1]
        refine .inl ?_
        split
        · rfl
        · split <;> rfl

/-! ### The obligations -/

theorem AccessEffect.keyOk {s t : State} (ha : AccessEffect s t) (h : s.key.Ok s.params) : t.key.Ok t.params := by
  cases ha with
  | reset => exact Key.reset_ok _
  | _ => exact h

/-- Settles O57, by the step principle: a command leaves the key or puts a whole one in its place. -/
theorem stepKeepsKeyObject : Obligations.StepKeepsKeyObject := by
  intro s t h hs
  refine step_keeps (fun u => u.key.Ok u.params) (fun _ _ hu => hu) (fun i u v _ hu huv => ?_) (fun _ _ hu => hu)
    (fun _ _ hu ha => ha.keyOk hu) (fun _ _ hu => hu) (fun _ _ => Key.reset_ok _) h hs
  have hp : v.params = u.params := by
    rcases exec_ends i u with ⟨f, w, hq, -, -⟩ | ⟨f, e, hq, -⟩ | ⟨n, k, hq, -⟩ <;> cases hq.symm.trans huv <;> rfl
  rw [hp]
  rcases exec_key_cases huv with hk | ⟨hk, -⟩
  · exact hk ▸ hu
  · exact hk

/-- Settles O54, from what a command and a host access can do to the key object. -/
theorem keyObjectChanges : Obligations.KeyObjectChanges := by
  refine ⟨fun i s t h => (exec_key_cases h).imp id And.right, fun s a => ?_, fun s t v h => ?_, fun s t h => ?_⟩
  · exact (hostAccess_key s a).imp id fun ⟨ha, hq⟩ => ⟨ha, by rw [hq]; rfl⟩
  · cases h
    rfl
  · cases h
    rfl

/-- Settles O45: the checks by `keygenSet`, then what the two loops answer. -/
theorem keyGeneration : Obligations.KeyGeneration := by
  refine fun s => ⟨fun h => execKeygen_none (keygenSet_eq_none.mpr h), fun ps P ha hok hP => ?_⟩
  subst hP
  have hset : keygenSet s = some ps := keygenSet_eq_some.mpr ⟨ha, hok⟩
  obtain ⟨hN, hN'⟩ := Params.setOk_range hok
  have htook := generateKey_took s.turns s.ctx.iterCap.toNat s.params.table[ps] s.closedFeed (closedFeed_took s)
  rw [execKeygen_some hset]
  refine ⟨fun k f h => ?_, fun e f h => ?_⟩
  · obtain ⟨hh, hF, hga, hfa, hle, hi⟩ := generateKey_ok hN h
    obtain ⟨hu, -⟩ := htook.ok h
    refine ⟨_, _, hh.holds hN', hF.holds hN', hga, hfa, fun h0 => hle (toNat_ne_zero_iff.mpr h0), hi, hu, ?_⟩
    rw [State.cap, h]
    rfl
  · obtain ⟨rfl, h0, hends⟩ := generateKey_err h
    obtain ⟨hu, -⟩ := htook.err h
    refine ⟨rfl, hu, toNat_ne_zero_iff.mp h0, ?_, ?_⟩
    · rwa [countWord_toNat] at hends
    · rw [State.cap, h]
      rfl

end Sys2Proof.Machine
end

section
/-! PROOFS. The stream unit (10_state R43 to R46): every pull, draw, opening and close keeps what the spec says of it
(44_streams R192 to R203). -/

namespace Sys2Proof.Machine

/-! ### The MGF1 stream (10_state R44) -/

theorem digest_length (impl : DigestImpl) (h : HashAlg) (s : List Byte) : (digest impl h s).length = h.digestLen := by
  cases impl <;> cases h <;> simp [digest, sha1, sha256, be32, HashAlg.digestLen]

/-- At most a digest of bytes is buffered, the seed fits DMEM, and the minimum of runs fits its operand. -/
def Mgf.Ok (m : Mgf) : Prop := m.buf.length ≤ m.hash.digestLen ∧ m.seed.length ≤ 8192 ∧ m.minRuns < 2 ^ 32

theorem Mgf.reset_ok : Mgf.reset.Ok := ⟨by decide, by decide, by decide⟩

theorem mgfOpen_ok (impl : DigestImpl) (h : HashAlg) {seed : List Byte} (ph : Bool) {n : Nat} (hs : seed.length ≤ 8192)
    (hn : n < 2 ^ 32) : (mgfOpen impl h seed ph n).Ok := by
  refine ⟨Nat.zero_le _, ?_, hn⟩
  cases ph with
  | true =>
    show (digest impl h seed).length ≤ 8192
    rw [digest_length]
    cases h <;> decide
  | false => exact hs

theorem mgfRun_ok (impl : DigestImpl) {m : Mgf} (h : m.Ok) : (mgfRun impl m).Ok := ⟨(digest_length _ _ _).le, h.2⟩

theorem mgfPull_ok (impl : DigestImpl) {m : Mgf} (h : m.Ok) : (mgfPull impl m).2.Ok := by
  have tail : ∀ n : Mgf, n.Ok → ({ n with buf := n.buf.tail } : Mgf).Ok := fun n hn =>
    ⟨(by rw [List.length_tail]; exact (Nat.sub_le _ _).trans hn.1), hn.2⟩
  unfold mgfPull
  dsimp only
  split
  · exact tail _ (mgfRun_ok impl h)
  · exact tail _ h

/-! ### The parts of the unit -/

/-- The unit's invariant with the MGF1 stream's named. -/
theorem StreamUnit.ok_iff (u : StreamUnit) :
    u.Ok ↔ (u.src ≠ .mgf → u.mgf = Mgf.reset) ∧ (u.src ≠ .mem → u.mcur = 0 ∧ u.mend = 0) ∧ u.mcur ≤ u.mend ∧
      u.mend ≤ 8192 ∧ u.mgf.Ok ∧ u.igf.Ok := by
  simp only [StreamUnit.Ok, Mgf.Ok, and_assoc]

theorem StreamUnit.Ok.igf {u : StreamUnit} (h : u.Ok) : u.igf.Ok := by
  obtain ⟨-, -, -, -, -, hi⟩ := u.ok_iff.mp h
  exact hi

/-- Another IGF2 state, itself as the spec says, in the unit. -/
theorem StreamUnit.Ok.setIgf {u : StreamUnit} (h : u.Ok) {g : Igf} (hg : g.Ok) : ({ u with igf := g } : StreamUnit).Ok := by
  obtain ⟨h1, h2, h3, h4, h5, -⟩ := u.ok_iff.mp h
  exact (StreamUnit.ok_iff _).mpr ⟨h1, h2, h3, h4, h5, hg⟩

theorem Igf.reset_ok : Igf.reset.Ok := ⟨fun _ => rfl, fun h => by cases h⟩

/-- A close leaves the MGF1 stream at reset, whatever the source was (44_streams R197). -/
theorem closeSource_mgf {u : StreamUnit} (h : u.Ok) : (closeSource u).mgf = Mgf.reset := by
  by_cases hs : u.src = .mgf
  · exact if_pos hs
  · exact (if_neg hs).trans (h.1 hs)

theorem closeSource_ok {u : StreamUnit} (h : u.Ok) : (closeSource u).Ok := by
  have hm := closeSource_mgf h
  exact (StreamUnit.ok_iff _).mpr
    ⟨fun _ => hm, fun _ => ⟨rfl, rfl⟩, le_refl _, Nat.zero_le _, by rw [hm]; exact Mgf.reset_ok, Igf.reset_ok⟩

/-- The RNG port after a close (44_streams R194). -/
theorem closeSource_rng_ok {u : StreamUnit} (h : u.Ok) : ({ closeSource u with src := .rng } : StreamUnit).Ok := by
  have hm := closeSource_mgf h
  exact (StreamUnit.ok_iff _).mpr
    ⟨fun _ => hm, fun _ => ⟨rfl, rfl⟩, le_refl _, Nat.zero_le _, by rw [hm]; exact Mgf.reset_ok, Igf.reset_ok⟩

/-- Bytes of DMEM after a close (44_streams R196). -/
theorem closeSource_mem_ok {u : StreamUnit} (h : u.Ok) {a n : Nat} (hr : RangePre a n) :
    ({ closeSource u with src := .mem, mcur := a, mend := a + n } : StreamUnit).Ok := by
  have hm := closeSource_mgf h
  exact (StreamUnit.ok_iff _).mpr
    ⟨fun _ => hm, fun hs => absurd rfl hs, Nat.le_add_right _ _, hr, by rw [hm]; exact Mgf.reset_ok, Igf.reset_ok⟩

theorem openMgf_ok {s : State} (h : HashAlg) (ph : Bool) (hr : RangePre s.argA s.argB) :
    (openMgf s h ph).Ok := by
  have hseed : (s.dmem.readBytes s.argA s.argB).length ≤ 8192 := by
    rw [Memory.length_readBytes]
    exact (Nat.le_add_left _ _).trans hr
  exact (StreamUnit.ok_iff _).mpr ⟨fun hs => absurd rfl hs, fun _ => ⟨rfl, rfl⟩, le_refl _, Nat.zero_le _,
    mgfOpen_ok _ _ _ hseed s.ctx.arg2.isLt, Igf.reset_ok⟩

/-- IGFINIT within its bounds (44_streams R200, R201). -/
theorem igfInit_ok {m b : Nat} (h : igfBoundsOk m b = true) : (igfInit m b).Ok := by
  obtain ⟨h1, h2, h3, h4⟩ := (igfBoundsOk_iff m b).mp h
  exact ⟨fun ha => by simp [igfInit] at ha, fun _ => ⟨h1, h2, h3, h4, rfl, Nat.one_pos, Nat.zero_lt_succ _⟩⟩

/-! ### Pulls and draws -/

theorem pull_unitOk (mem : Memory) (impl : DigestImpl) (f : Feed) (h : f.su.Ok) :
    (pull mem impl f).All fun g => g.su.Ok := by
  rcases pull_cases mem impl f with ⟨-, hq⟩ | ⟨-, hq⟩ | ⟨-, -, hq⟩ | ⟨hs, hne, hq⟩ | ⟨hs, hq⟩ <;> rw [hq]
  · exact h
  · rcases rngPull_cases f with ⟨-, hq⟩ | ⟨v, rest, -, hq⟩ <;> rw [hq] <;> exact h
  · exact h
  · obtain ⟨h1, h2, h3, h4, h5, h6⟩ := f.su.ok_iff.mp h
    exact (StreamUnit.ok_iff _).mpr ⟨h1, fun hn => absurd hs hn, by dsimp only; omega, h4, h5, h6⟩
  · obtain ⟨h1, h2, h3, h4, h5, h6⟩ := f.su.ok_iff.mp h
    exact (StreamUnit.ok_iff _).mpr ⟨fun hn => absurd hs hn, h2, h3, h4, mgfPull_ok impl h5, h6⟩

theorem Res.All.and {σ α : Type} {Q R : σ → Prop} {r : Res σ α} (hq : r.All Q) (hr : r.All R) :
    r.All fun s => Q s ∧ R s := by
  cases r <;> exact ⟨hq, hr⟩

/-- A draw that keeps the unit and ends with a good IGF2 state leaves a good unit when that state is put back. -/
theorem withIgf_unitOk {α : Type} {r : Res (Igf × Feed) α} (hu : r.All fun x => x.2.su.Ok) (hg : r.All fun x => x.1.Ok) :
    (r.mapState Feed.withIgf).All fun f : Feed => f.su.Ok :=
  (hu.and hg).mapState fun _ hx => hx.1.setIgf hx.2

theorem drawIndex_unitOk {s : State} (h : s.su.Ok) (ha : s.su.igf.act = true) : (drawIndex s).All fun f : Feed => f.su.Ok :=
  withIgf_unitOk (igfNext_keeps (Q := fun f : Feed => f.su.Ok) (pull_unitOk _ _) _ _ _ _ h)
    ((igfNext_igf _ _ _ _ h.igf ha).imp fun _ hx => hx.1)

theorem drawTrinomial_unitOk {s : State} (h : s.su.Ok) (ha : s.su.igf.act = true) :
    (drawTrinomial s).All fun f : Feed => f.su.Ok :=
  withIgf_unitOk (bpgm3_keeps (Q := fun f : Feed => f.su.Ok) (pull_unitOk _ _) _ _ _ _ (s.su.igf, s.feed) h)
    ((bpgm3_igf _ _ _ _ (s.su.igf, s.feed) h.igf ha).imp fun _ hx => hx.1)

theorem decodeTrits_unitOk {s : State} (h : s.su.Ok) : (decodeTrits s).All fun f : Feed => f.su.Ok :=
  tpDecode_keeps (Q := fun f : Feed => f.su.Ok) (pull_unitOk _ _) _ _ _ _ h

/-! ### Commands -/

/-- A sequence whose last part consumes nothing keeps what its first part keeps. -/
theorem Res.All.bind_last {σ α β : Type} {Q : σ → Prop} {r : Res σ α} {k : α → σ → Res σ β} (hr : r.All Q)
    (hk : ∀ a s, Q s → (k a s).All Q) : (r.bind k).All Q :=
  hr.bind (fun a s _ => hk a s) fun _ hs => hs

theorem ofExcept_all {Q : Feed → Prop} {f : Feed} (x : Except Err Writes) (h : Q f) : (ofExcept f x).All Q := by
  cases x <;> exact h

/-- Every meaning is the end of one run, which keeps the stream unit as the spec says it is, whatever the outcome. -/
theorem exec_unitOk (i : Instr) {s : State} (h : s.su.Ok) :
    ∃ r, exec i s = conclude s r ∧ r.All fun f : Feed => f.su.Ok := by
  have hc := closeSource_ok h
  cases i with
  | nop | keyclose => exact ⟨_, rfl, h⟩
  | srcrng => exact ⟨_, rfl, closeSource_rng_ok h⟩
  | srcclose => exact ⟨_, rfl, hc⟩
  | padd | psub | pconv | pred | peq | pinvp | pinvq | bpack | bunpack | trienc | keyload | keyexport =>
    exact ⟨_, rfl, ofExcept_all (Q := fun f : Feed => f.su.Ok) _ h⟩
  | srcmgf sha256 ph =>
    refine ⟨_, rfl, ?_⟩
    split
    · next hr => exact openMgf_ok _ ph ((inRange_iff _ _).mp hr)
    · exact h
  | srcmem =>
    refine ⟨_, rfl, ?_⟩
    split
    · next hr => exact closeSource_mem_ok h ((inRange_iff _ _).mp hr)
    · exact h
  | igfinit =>
    refine ⟨_, rfl, ?_⟩
    split
    · next hb => exact h.setIgf (igfInit_ok hb)
    · exact h
  | igfnext =>
    refine ⟨_, rfl, ?_⟩
    split
    · next ha => exact (drawIndex_unitOk h ha).bind_last fun _ _ hf => hf
    · exact h
  | trismp rd =>
    refine ⟨_, rfl, ?_⟩
    split
    · next hb =>
      obtain ⟨-, ha, -⟩ := (trismpOk_iff s).mp hb
      exact (drawTrinomial_unitOk h ha).bind_last fun _ _ hf => hf
    · exact h
  | trimgf rd =>
    refine ⟨_, rfl, ?_⟩
    split
    · exact (decodeTrits_unitOk h).bind_last fun _ _ hf => hf
    · exact h
  | keygen =>
    refine ⟨_, rfl, ?_⟩
    split
    · exact h
    · exact ((generateKey_took _ _ _ _ (closedFeed_took s)).imp fun f hf => hf.1.symm ▸ hc).bind_last fun _ _ hf => hf
  | encrypt =>
    refine ⟨_, rfl, ?_⟩
    split
    · exact h
    · exact ((encLoop_took _ _ _ _ _ _ _ _ _ (closedFeed_took s)).imp fun f hf => hf.1.symm ▸ hc).bind_last
        fun _ _ hf => hf
  | decrypt =>
    refine ⟨_, rfl, ?_⟩
    split
    · exact h
    · refine (decryptMsg_keeps (Q := fun f : Feed => f.su.Ok) _ _ _ _ _ _ hc).bind_last fun cm _ hf => ?_
      cases cm <;> exact hf

theorem AccessEffect.unitOk {s t : State} (ha : AccessEffect s t) (h : s.su.Ok) : t.su.Ok := by
  cases ha with
  | reset => exact StreamUnit.reset_ok
  | _ => exact h

/-- Settles O58, by the step principle: a run keeps the unit whatever its outcome, and a waiting command commits nothing. -/
theorem stepKeepsStreamUnit : Obligations.StepKeepsStreamUnit := by
  intro s t h hs
  refine step_keeps (fun u => u.su.Ok) (fun _ _ hu => hu) (fun i u v _ hu huv => ?_) (fun _ _ hu => hu)
    (fun _ _ hu ha => ha.unitOk hu) (fun _ _ hu => hu) (fun _ _ => StreamUnit.reset_ok) h hs
  obtain ⟨r, hr, hf⟩ := exec_unitOk i hu
  cases hr.symm.trans huv
  cases r with
  | ok w f => exact hf
  | err e f => exact hf
  | starved f => exact hu
  | paused f => exact hu

end Sys2Proof.Machine
end

section
/-! PROOFS. What a command leaves of the registers the host writes and does not read of them (10_state R25, R32, R47, R51),
and the sequencer (10_state R47, 40_command R110, R113). -/

namespace Sys2Proof.Machine

/-! ### The host's registers -/

/-- Settles O9, from the three ways a command ends: none of them writes a register of the host's. -/
theorem commandsLeaveHostRegisters : Obligations.CommandsLeaveHostRegisters := by
  intro i s t h
  rcases exec_ends i s with ⟨f, w, hq, -⟩ | ⟨f, e, hq, -⟩ | ⟨n, k, hq, -⟩ <;> cases hq.symm.trans h <;>
    exact ⟨rfl, rfl, rfl, rfl, rfl, rfl, rfl, rfl, rfl, rfl, rfl, rfl, rfl, rfl, rfl⟩

/-- The state with other values in the registers a host may write while a command runs, and other flags (10_state R47,
R51). -/
def State.withHost (s : State) (a0 a1 a2 a3 n m l c : Word) (e : Bool) (x : Status) : State :=
  { s with
    arg0 := a0, arg1 := a1, arg2 := a2, arg3 := a3, cfgN := n, cfgMod := m, cfgLow := l, iterCap := c, doneIE := e
    status := x }

/-- A command's run is the same whatever those registers and flags hold: it reads the latched context. -/
theorem exec_run_withHost (i : Instr) (s : State) (a0 a1 a2 a3 n m l c : Word) (e : Bool) (x : Status) :
    ∃ r, exec i s = conclude s r ∧
      exec i (s.withHost a0 a1 a2 a3 n m l c e x) = conclude (s.withHost a0 a1 a2 a3 n m l c e x) r := by
  cases i <;> exact ⟨_, rfl, rfl⟩

/-- The end of a run leaves those registers to the host, and of the flags it writes some. -/
theorem afterRun_withHost (s : State) (r : Res Feed Writes) (a0 a1 a2 a3 n m l c : Word) (e : Bool) (x : Status) :
    ∃ y, afterRun (s.withHost a0 a1 a2 a3 n m l c e x) r = (afterRun s r).withHost a0 a1 a2 a3 n m l c e y := by
  cases r <;> exact ⟨_, rfl⟩

/-- Settles O10: the same run ends both states. -/
theorem commandsIgnoreHostRegistersAndFlags : Obligations.CommandsIgnoreHostRegistersAndFlags := by
  intro i s t a0 a1 a2 a3 n m l c e x h
  obtain ⟨r, hr, hr'⟩ := exec_run_withHost i s a0 a1 a2 a3 n m l c e x
  cases hr.symm.trans h
  obtain ⟨y, hy⟩ := afterRun_withHost s r a0 a1 a2 a3 n m l c e x
  exact ⟨y, hr'.trans (congrArg Host.Outcome.next hy)⟩

/-! ### The sequencer -/

/-- While idle the sequencer holds no context and no byte in flight. -/
theorem State.sequencerOk_of_idle {s : State} (hp : s.phase = .idle) (hc : s.ctx = Context.empty) (hf : s.inflight = 0) :
    s.SequencerOk :=
  ⟨fun hb => (by rw [hp] at hb; cases hb), fun _ => ⟨hc, hf⟩, by rw [hf]; exact Nat.zero_le _⟩

/-- A command that goes on has pulled no more than was offered and writes no flag (40_command R116, R117). -/
theorem State.SequencerOk.goesOn {s : State} (h : s.SequencerOk) (hp : s.phase = .busy) {n : Nat} (hn : n ≤ s.rng.length)
    (k : Nat) : (s.goesOn n k).SequencerOk :=
  ⟨h.1, fun hi => absurd (hp.symm.trans hi) (by decide), hn⟩

/-- Acceptance clears the flags and latches the word (40_command R110). -/
theorem accept_sequencerOk (s : State) (w : Word) : (accept s w).SequencerOk :=
  ⟨fun _ => ⟨rfl, rfl, rfl, rfl, rfl, rfl, rfl⟩, fun hi => (by cases hi), Nat.zero_le _⟩

/-- A STATUS write sets no flag. -/
theorem State.SequencerOk.clear {s : State} (h : s.SequencerOk) (w : Word) :
    ({ s with status := s.status.writeOneToClear w } : State).SequencerOk := by
  obtain ⟨hb, hi, hn⟩ := h
  refine ⟨fun hp => ?_, hi, hn⟩
  obtain ⟨hd, he, hrest⟩ := hb hp
  exact ⟨by simp [Status.writeOneToClear, hd], by simp [Status.writeOneToClear, he], hrest⟩

theorem AccessEffect.sequencerOk {s t : State} (ha : AccessEffect s t) (h : s.SequencerOk) : t.SequencerOk := by
  cases ha with
  | reset => exact State.sequencerOk_of_idle rfl rfl rfl
  | clear w => exact h.clear w
  | accepted w => exact accept_sequencerOk s w
  | _ => exact h

/-- Settles O59, by the step principle and the three ways a command ends. -/
theorem stepKeepsSequencer : Obligations.StepKeepsSequencer := by
  intro s t h hs
  refine step_keeps State.SequencerOk (fun _ _ hu => hu) (fun i u v hp hu huv => ?_)
    (fun _ _ _ => State.sequencerOk_of_idle rfl rfl rfl) (fun _ _ hu ha => ha.sequencerOk hu) (fun u v hu => ?_)
    (fun _ _ => State.sequencerOk_of_idle rfl rfl rfl) h hs
  · rcases exec_ends i u with ⟨f, w, hq, -⟩ | ⟨f, e, hq, -⟩ | ⟨n, k, hq, hn⟩ <;> cases hq.symm.trans huv
    · exact State.sequencerOk_of_idle rfl rfl rfl
    · exact State.sequencerOk_of_idle rfl rfl rfl
    · exact hu.goesOn hp hn k
  · obtain ⟨hb, hi, hn⟩ := hu
    refine ⟨hb, hi, hn.trans ?_⟩
    rw [offerByte, List.length_append]
    exact Nat.le_add_right _ _

end Sys2Proof.Machine
end

section
/-! PROOFS. The registers: what a host access to each makes of the state (10_state R22 to R39), and where the fields of
STATUS, KEYSTAT and SRCSTAT stand (R24, R31, R36). -/

namespace Sys2Proof.Machine

/-! ### Accesses that are not refused (20_memory R66) -/

/-- An aligned 32-bit access outside the windows is never refused (20_memory R64, R66). -/
theorem not_refused (s : State) {off : Nat} (ha : off % 4 = 0) (ho : off < 0x2000 ∨ 0xC000 ≤ off) :
    refusedAccess s off .w32 = false := by
  have hw : inWindow off = false := by
    simp only [inWindow, Bool.and_eq_false_iff, decide_eq_false_iff_not]
    omega
  simp [refusedAccess, ha, hw]

theorem hostAccess_read (s : State) {off : BitVec 16} (ha : off.toNat % 4 = 0) (ho : off.toNat < 0x2000) :
    hostAccess s (.read off .w32) = { s with rdata := some (regRead s off.toNat) } := by
  rw [hostAccess, not_refused s ha (.inl ho), if_neg Bool.false_ne_true, readWord, if_pos ho]

theorem hostAccess_write (s : State) {off : BitVec 16} (w : Word) (ha : off.toNat % 4 = 0) (ho : off.toNat < 0x2000) :
    hostAccess s (.write off .w32 w) = regWrite s off.toNat w := by
  rw [hostAccess, not_refused s ha (.inl ho), if_neg Bool.false_ne_true, writeWord, if_pos ho]

/-- From 0x054 on no offset of the register area names a register (10_state R39). -/
theorem regRead_reserved (s : State) {off : Nat} (h : 0x054 ≤ off) : regRead s off = 0#32 := by
  have ne : ∀ k, k < 0x054 → off ≠ k := fun k hk => by omega
  simp (disch := decide) only [regRead, ne, if_false]

theorem regWrite_reserved (s : State) {off : Nat} (w : Word) (h : 0x054 ≤ off) : regWrite s off w = s := by
  have ne : ∀ k, k < 0x054 → off ≠ k := fun k hk => by omega
  simp (disch := decide) only [regWrite, ne, if_false]

/-! ### Fields of a register -/

/-- A flag stands at its bit and nowhere else. -/
theorem flagAt_getLsbD (b : Bool) {k : Nat} (hk : k < 32) (j : Nat) : (flagAt b k).getLsbD j = (b && decide (j = k)) := by
  cases b with
  | false => simp [flagAt]
  | true =>
    by_cases h : j = k
    · simp [flagAt, h, hk]
    · have : k ≤ j → ¬ j - k = 0 := by omega
      simp [flagAt, h, BitVec.getLsbD_one]
      omega

/-- A field of n bits stands from bit k on and nowhere else. -/
theorem fieldAt_getLsbD {n k : Nat} (v : BitVec n) (hk : k + n ≤ 32) (j : Nat) :
    ((v.setWidth 32) <<< k).getLsbD j = (decide (k ≤ j) && v.getLsbD (j - k)) := by
  by_cases h : k ≤ j
  · by_cases hj : j - k < n
    · have h1 : j < 32 := by omega
      simp [h, h1]
    · simp [h, BitVec.getLsbD_of_ge v (j - k) (by omega)]
  · simp [h]

theorem statusWord_getLsbD (s : State) (j : Nat) :
    (statusWord s).getLsbD j =
      (s.busy && decide (j = 0) || s.status.done && decide (j = 1) || s.status.err && decide (j = 2) ||
        s.status.noinv && decide (j = 3) || s.status.eq && decide (j = 4) || s.status.ovr && decide (j = 5) ||
        s.status.accerr && decide (j = 6) || decide (8 ≤ j) && (errCodeByte s.status.errCode).getLsbD (j - 8)) := by
  simp only [statusWord, BitVec.getLsbD_or]
  rw [fieldAt_getLsbD _ (by decide)]
  iterate 7 rw [flagAt_getLsbD _ (by decide)]

/-- A field of a register, bit by bit. -/
theorem extractLsb'_eq {w : Word} {k n : Nat} {v : BitVec n} (h : ∀ j, j < n → w.getLsbD (k + j) = v.getLsbD j) :
    w.extractLsb' k n = v :=
  BitVec.eq_of_getLsbD_eq fun j hj => by rw [BitVec.getLsbD_extractLsb', h j hj, decide_eq_true hj, Bool.true_and]

/-- What KEYSTAT shows of the key's parameter set (10_state R31). -/
def kpsField (s : State) : BitVec 4 :=
  if s.key.kstate = .empty ∨ s.key.kstate = .closed then 0#4 else BitVec.ofNat 4 s.key.kps.val

theorem keystatWord_eq (s : State) : keystatWord s = s.key.kstate.bits.setWidth 32 ||| (kpsField s).setWidth 32 <<< 8 := by
  have h : (BitVec.ofNat 4 s.key.kps.val).setWidth 32 = BitVec.ofNat 32 s.key.kps.val := by
    have := s.key.kps.isLt
    rw [BitVec.setWidth_ofNat_of_le_of_lt (by decide) (by omega)]
  rw [keystatWord, kpsField]
  cases s.key.kstate <;> simp [h]

theorem keystatWord_getLsbD (s : State) (j : Nat) :
    (keystatWord s).getLsbD j =
      (decide (j < 32) && s.key.kstate.bits.getLsbD j || decide (8 ≤ j) && (kpsField s).getLsbD (j - 8)) := by
  rw [keystatWord_eq, BitVec.getLsbD_or, BitVec.getLsbD_setWidth, fieldAt_getLsbD _ (by decide)]

/-- What SRCSTAT shows of IGF_B (10_state R36). -/
def igfBField (s : State) : BitVec 5 := if s.su.igf.act then BitVec.ofNat 5 s.su.igf.b else 0#5

theorem srcstatWord_getLsbD (s : State) (j : Nat) :
    (srcstatWord s).getLsbD j =
      (decide (j < 32) && s.su.src.bits.getLsbD j || s.su.igf.act && decide (j = 2) ||
        (decide (s.su.src = .mgf) && decide (s.su.mgf.hash = .sha256)) && decide (j = 3) ||
        decide (8 ≤ j) && (igfBField s).getLsbD (j - 8) ||
        decide (16 ≤ j) && (nbitsField s.su.igf.nbits).getLsbD (j - 16)) := by
  have h : (if s.su.igf.act then (BitVec.ofNat 5 s.su.igf.b).setWidth 32 else 0#32) = (igfBField s).setWidth 32 := by
    unfold igfBField
    split <;> rfl
  rw [srcstatWord, h]
  simp only [BitVec.getLsbD_or, BitVec.getLsbD_setWidth]
  iterate 2 rw [fieldAt_getLsbD _ (by decide)]
  iterate 2 rw [flagAt_getLsbD _ (by decide)]

/-- The fields of KEYSTAT (10_state R31). -/
theorem keystatWord_fields (s : State) :
    (keystatWord s).extractLsb' 0 2 = s.key.kstate.bits ∧ (keystatWord s).extractLsb' 2 6 = 0#6 ∧
      (keystatWord s).extractLsb' 8 4 = kpsField s ∧ (keystatWord s).extractLsb' 12 20 = 0#20 := by
  refine ⟨extractLsb'_eq fun j hj => ?_, extractLsb'_eq fun j hj => ?_, extractLsb'_eq fun j hj => ?_,
    extractLsb'_eq fun j hj => ?_⟩ <;>
  simp (disch := omega) only [keystatWord_getLsbD, decide_eq_true, decide_eq_false, BitVec.getLsbD_of_ge,
    Nat.add_sub_cancel_left, Nat.zero_add, Bool.true_and, Bool.false_and, Bool.and_false, Bool.or_false, Bool.false_or,
    BitVec.getLsbD_zero]

/-- The fields of SRCSTAT (10_state R36). -/
theorem srcstatWord_fields (s : State) :
    (srcstatWord s).extractLsb' 0 2 = s.su.src.bits ∧ (srcstatWord s).getLsbD 2 = s.su.igf.act ∧
      (srcstatWord s).getLsbD 3 = (decide (s.su.src = .mgf) && decide (s.su.mgf.hash = .sha256)) ∧
      (srcstatWord s).extractLsb' 4 4 = 0#4 ∧ (srcstatWord s).extractLsb' 8 5 = igfBField s ∧
      (srcstatWord s).extractLsb' 13 3 = 0#3 ∧ (srcstatWord s).extractLsb' 16 3 = nbitsField s.su.igf.nbits ∧
      (srcstatWord s).extractLsb' 19 13 = 0#13 := by
  refine ⟨extractLsb'_eq fun j hj => ?_, ?_, ?_, extractLsb'_eq fun j hj => ?_, extractLsb'_eq fun j hj => ?_,
    extractLsb'_eq fun j hj => ?_, extractLsb'_eq fun j hj => ?_, extractLsb'_eq fun j hj => ?_⟩ <;>
  simp (disch := omega) only [srcstatWord_getLsbD, decide_eq_true, decide_eq_false, BitVec.getLsbD_of_ge,
    Nat.add_sub_cancel_left, Nat.zero_add, Bool.true_and, Bool.and_true, Bool.false_and, Bool.and_false, Bool.or_false,
    Bool.false_or, BitVec.getLsbD_zero, decide_true]

/-! ### The obligations -/

/-- Settles O15, bit by bit. -/
theorem statusFieldsAndWrite : Obligations.StatusFieldsAndWrite := by
  intro s w
  have bit := statusWord_getLsbD s
  simp only [bit]
  refine ⟨by simp [State.busy], by simp, by simp, by simp, by simp, by simp, by simp, by simp, ?_, ?_, ?_, rfl, rfl, rfl,
    rfl, rfl, rfl, rfl, rfl, rfl, rfl, rfl, rfl, rfl, rfl⟩
  · refine BitVec.eq_of_getLsbD_eq fun j hj => ?_
    have h : ∀ k, k < 8 → 8 + j ≠ k := fun k hk => by omega
    simp [bit, h, hj]
  · refine BitVec.eq_of_getLsbD_eq fun j hj => ?_
    have h : ∀ k, k < 8 → 16 + j ≠ k := fun k hk => by omega
    simp [bit, h, BitVec.getLsbD_of_ge (errCodeByte s.status.errCode) (16 + j - 8) (by omega)]
  · exact hostAccess_write s w (by decide) (by decide)

/-- Settles O14: the register area ends at 0x054, and above the windows there is nothing. -/
theorem reservedOffsetsInert : Obligations.ReservedOffsetsInert := by
  intro s off w ha ho
  rcases ho with ⟨h1, h2⟩ | h
  · rw [hostAccess_read s ha (by omega), hostAccess_write s w ha (by omega), regRead_reserved s h1, regWrite_reserved s w h1]
    exact ⟨rfl, rfl⟩
  · have ne : ∀ k, k < 0xC001 → ¬ off.toNat < k := fun k hk => by omega
    have hr := not_refused s ha (.inr h)
    simp only [hostAccess, hr, readWord, writeWord]
    simp (disch := decide) only [ne, if_false]
    exact ⟨rfl, rfl⟩

/-- Settles O13, offset by offset. -/
theorem registerMap : Obligations.RegisterMap := by
  intro s w
  have read : ∀ (off : BitVec 16) (v : Word), off.toNat % 4 = 0 ∧ off.toNat < 0x2000 → regRead s off.toNat = v →
      hostAccess s (.read off .w32) = { s with rdata := some v } := fun off v h hv => hv ▸ hostAccess_read s h.1 h.2
  have write : ∀ off : BitVec 16, off.toNat % 4 = 0 ∧ off.toNat < 0x2000 →
      hostAccess s (.write off .w32 w) = regWrite s off.toNat w := fun off h => hostAccess_write s w h.1 h.2
  refine ⟨?_, write _ (by decide), write _ (by decide), write _ (by decide), write _ (by decide), write _ (by decide),
    write _ (by decide), write _ (by decide), write _ (by decide), write _ (by decide), ?_, ?_, ?_⟩
  · intro p hp
    simp only [List.mem_cons, List.not_mem_nil, or_false] at hp
    rcases hp with rfl | rfl | rfl | rfl | rfl | rfl | rfl | rfl | rfl | rfl | rfl | rfl | rfl | rfl | rfl | rfl | rfl | rfl |
      rfl | rfl | rfl <;> dsimp only <;> exact read _ _ (by decide) rfl
  · intro off ho
    simp only [List.mem_cons, List.not_mem_nil, or_false] at ho
    rcases ho with rfl | rfl | rfl | rfl | rfl | rfl | rfl | rfl | rfl <;> exact write _ (by decide)
  · intro h hlt
    rw [mgfRunsWord, if_pos h, countWord_of_lt hlt]
  · intro h hlt
    rw [mgfRunsWord, if_neg h, countWord_of_lt hlt]

/-- Settles O16, from the fields of the two words. -/
theorem keystatAndSrcstatFields : Obligations.KeystatAndSrcstatFields := by
  refine ⟨fun s => ?_, fun s => ?_, by decide, by decide, fun s w => ⟨?_, ?_, ?_, ?_⟩⟩
  · obtain ⟨h1, h2, h3, h4⟩ := keystatWord_fields s
    exact ⟨h1.trans (by cases s.key.kstate <;> rfl), h2, h3, h4⟩
  · obtain ⟨h1, h2, h3, h4, h5, h6, h7, h8⟩ := srcstatWord_fields s
    exact ⟨h1.trans (by cases s.su.src <;> rfl), h2, by rw [h3]; simp, h4, h5, h6,
      fun hn => h7.trans (if_pos (by omega)), h8⟩
  · exact hostAccess_read s (by decide) (by decide)
  · exact hostAccess_read s (by decide) (by decide)
  · exact hostAccess_write s w (by decide) (by decide)
  · exact hostAccess_write s w (by decide) (by decide)

end Sys2Proof.Machine
end

section
/-! PROOFS. ENCRYPT (45_ntru R257): its checks in order, and what its loop answers. -/

namespace Sys2Proof.Machine

/-- A packed polynomial of the ring has Lh bytes (00_scope R8, 43_bitpack R171). -/
theorem pack_q_length (x : List Nat) (P : ParamSet) : (pack x P.N Config.q 0).length = P.lenH := by
  rw [pack, if_pos rfl, packAll_length, packedLen, bw_q, ParamSet.lenH]

/-! ### The checks (45_ntru R242, R257) -/

theorem requireKey_closed {s : State} (h : s.key.kstate = .empty ∨ s.key.kstate = .closed) :
    requireKey s = some .keyClosed := by
  rcases h with h | h <;> rw [requireKey, h]

theorem requireKey_open {s : State} (h : s.key.kstate = .pub ∨ s.key.kstate = .priv) : requireKey s = none := by
  rcases h with h | h <;> rw [requireKey, h]

theorem encryptError_closed {s : State} (h : s.key.kstate = .empty ∨ s.key.kstate = .closed) :
    encryptError s = some .keyClosed := by
  rw [encryptError, requireKey_closed h]

/-- With a usable key the message length is checked first, then the ranges and the table together. -/
theorem encryptError_open {s : State} (h : s.key.kstate = .pub ∨ s.key.kstate = .priv) :
    encryptError s =
      if s.keySet.maxMsgLenBytes < s.argB then some .msgTooLong
      else if inRange s.argA s.argB && inRange s.argC s.keySet.lenH && s.keySet.samplingOk then none
      else some .precondition := by
  rw [encryptError, requireKey_open h]

theorem encryptRanges_iff (s : State) :
    (inRange s.argA s.argB && inRange s.argC s.keySet.lenH && s.keySet.samplingOk) = true ↔
      RangePre s.ctx.arg0.toNat s.ctx.arg1.toNat ∧ RangePre s.ctx.arg2.toNat s.keySet.lenH ∧
        s.keySet.samplingOk = true := by
  rw [Bool.and_eq_true, Bool.and_eq_true, inRange_iff, inRange_iff, and_assoc]
  rfl

theorem execEncrypt_error {s : State} {e : Err} (h : encryptError s = some e) :
    exec .encrypt s = .next (s.failedWith e) := by
  rw [exec, execEncrypt, h, conclude_err, consume_feed]

/-- The run of ENCRYPT's loop for a message, with the grant and the ceiling of the state (45_ntru R257). -/
def encryptRun (s : State) : Res Feed Vec :=
  encLoop s.params.digest s.turns s.ctx.iterCap.toNat s.keySet (s.dmem.readBytes s.ctx.arg0.toNat s.ctx.arg1.toNat) s.keyH
    s.turns 0 s.closedFeed

theorem execEncrypt_run {s : State} (h : encryptError s = none) :
    exec .encrypt s = conclude s ((encryptRun s).bind fun e f =>
      .ok { mem := some (s.ctx.arg2.toNat, pack (natVec e) s.keySet.N Config.q 0)
            res0 := some (BitVec.ofNat 32 s.keySet.lenH) } f) := by
  rw [exec, execEncrypt, h]
  rfl

/-- A failed dm0 check, as the statement says it (45_ntru R249). -/
theorem dm0_fails {P : ParamSet} {t : Vec} (h : dm0ok P t = false) :
    ¬ ∀ v ∈ [(1 : Int), 0, -1], P.dm0 ≤ countSym P.N t v := by
  rw [← dm0ok_iff, h]
  exact Bool.false_ne_true

/-- Settles O47: the checks one by one, then `encLoop_ok` and `encLoop_err` from no attempt on. -/
theorem encryption : Obligations.Encryption := by
  intro s P hP
  obtain rfl : P = s.keySet := hP
  refine ⟨fun hk => execEncrypt_error (encryptError_closed hk), fun hk => ⟨fun hl => ?_, fun hl hn => ?_, ?_⟩⟩
  · exact execEncrypt_error ((encryptError_open hk).trans (if_pos hl))
  · have hlen : ¬ s.keySet.maxMsgLenBytes < s.argB := hl.not_gt
    refine execEncrypt_error ((encryptError_open hk).trans ?_)
    rw [if_neg hlen, if_neg (mt (encryptRanges_iff s).mp hn)]
  · intro hl hr0 hr2 hok
    have hlen : ¬ s.keySet.maxMsgLenBytes < s.argB := hl.not_gt
    have hnone : encryptError s = none := by
      rw [encryptError_open hk, if_neg hlen, if_pos ((encryptRanges_iff s).mpr ⟨hr0, hr2, hok⟩)]
    rw [execEncrypt_run hnone]
    refine ⟨fun e f hrun => ?_, fun c f hrun => ?_⟩
    · obtain ⟨n, R, mp, h1, h2, h3, h4, h5, h6, h7, h8⟩ := encLoop_ok (closedFeed_after s) (fun _ => Nat.zero_le _) hrun
      obtain ⟨hN, hcoef⟩ := eq_tab_iff.mp h8
      have hrun' : encryptRun s = .ok e f := hrun
      refine ⟨n, R, mp, s.dmem.writeBytes s.ctx.arg2.toNat (pack (natVec e) s.keySet.N Config.q 0), by omega,
        fun h0 => h2 (toNat_ne_zero_iff.mpr h0), h3, h4, fun k hk' => ?_, h6, (dm0ok_iff _ _).mp h7, hN, hcoef, fun a => ?_, ?_⟩
      · obtain ⟨R', mp', hA, hd⟩ := h5 k (Nat.zero_le _) hk'
        exact ⟨R', mp', hA, dm0_fails hd⟩
      · rw [Memory.read_writeBytes _ _ _ _ (by rw [pack_q_length]; exact hr2), pack_q_length]
      · rw [hrun']
        rfl
    · obtain ⟨rfl, h0, h1, h2, h3⟩ := encLoop_err (closedFeed_after s) (.inl rfl) (fun _ => Nat.zero_le _) hrun
      have hrun' : encryptRun s = .err .iterLimit f := hrun
      refine ⟨rfl, toNat_ne_zero_iff.mp h0, h1, by rw [h2, countWord_toNat], fun k hk' => ?_, ?_⟩
      · obtain ⟨R', mp', hA, hd⟩ := h3 k (Nat.zero_le _) hk'
        exact ⟨R', mp', hA, dm0_fails hd⟩
      · rw [hrun']
        rfl

end Sys2Proof.Machine
end

section
/-! PROOFS. Commands that pull from the RNG port (40_command R116, 44_streams R191, R192): they wait with nothing committed
where no byte is offered, and take the offered bytes in order; the trits decoded from them (R204, R205). -/

namespace Sys2Proof.Machine

/-! ### The trits of a run of bytes (44_streams R204) -/

/-- The bytes below 243 among those given. -/
def acceptedBytes (bytes : List Byte) : List Byte := bytes.filter fun v => v.toNat < 243

/-- The decoder's accumulator after the bytes: the trits of the accepted ones up to N, the number used, the number rejected. -/
def tpAfter (N : Nat) (bytes : List Byte) : TpAcc :=
  { t := ((acceptedBytes bytes).flatMap tritsOfByte).take N
    used := bytes.length
    rej := bytes.length - (acceptedBytes bytes).length }

theorem flatMap_tritsOfByte_length (l : List Byte) : (l.flatMap tritsOfByte).length = 5 * l.length := by
  induction l with
  | nil => rfl
  | cons v l ih => rw [List.flatMap_cons, List.length_append, ih, tritsOfByte_length, List.length_cons]; omega

theorem tpAfter_length (N : Nat) (bytes : List Byte) :
    (tpAfter N bytes).t.length = min N (5 * (acceptedBytes bytes).length) := by
  rw [tpAfter, List.length_take, flatMap_tritsOfByte_length]

theorem acceptedBytes_append (l : List Byte) (v : Byte) :
    acceptedBytes (l ++ [v]) = acceptedBytes l ++ if v.toNat < 243 then [v] else [] := by
  simp [acceptedBytes, List.filter_append, List.filter_cons]

/-- One more byte. -/
theorem tpByte_tpAfter (N : Nat) (l : List Byte) (v : Byte) : tpByte N (tpAfter N l) v = tpAfter N (l ++ [v]) := by
  have hle : (acceptedBytes l).length ≤ l.length := List.length_filter_le _ _
  by_cases hv : v.toNat < 243
  · rw [tpByte, if_neg (by omega), tpAfter_length]
    simp only [tpAfter, acceptedBytes_append, if_pos hv, List.flatMap_append, List.length_append, List.flatMap_singleton,
      List.take_append, flatMap_tritsOfByte_length, List.length_singleton, TpAcc.mk.injEq, List.append_cancel_left_eq]
    exact ⟨congrArg (List.take · (tritsOfByte v)) (by omega), trivial, by omega⟩
  · rw [tpByte, if_pos (by omega)]
    simp only [tpAfter, acceptedBytes_append, if_neg hv, List.append_nil, List.length_append, List.length_singleton,
      TpAcc.mk.injEq, true_and]
    omega

/-- Trit i of the accepted bytes is base-3 digit i mod 5 of byte i div 5 (44_streams R204). -/
theorem at'_flatMap_tritsOfByte (l : List Byte) (i : Nat) :
    at' (l.flatMap tritsOfByte) i = trit ((l.getD (i / 5) 0#8).toNat / 3 ^ (i % 5) % 3) := by
  induction l generalizing i with
  | nil => simp [at', trit]
  | cons v l ih =>
    rw [List.flatMap_cons, at']
    by_cases hi : i < 5
    · rw [List.getD_append _ _ _ _ (by simpa using hi), Nat.div_eq_of_lt hi, Nat.mod_eq_of_lt hi, List.getD_cons_zero]
      simp [tritsOfByte, List.getD_eq_getElem?_getD, hi]
    · rw [List.getD_append_right _ _ _ _ (by simpa using hi), tritsOfByte_length]
      have h1 : i / 5 = (i - 5) / 5 + 1 := by omega
      have h2 : i % 5 = (i - 5) % 5 := by omega
      rw [h1, h2, List.getD_cons_succ]
      exact ih (i - 5)

theorem at'_take {a : Vec} {n i : Nat} (h : i < n) : at' (a.take n) i = at' a i := by
  simp [at', List.getD_eq_getElem?_getD, h]

/-! ### The decoder over the RNG port -/

/-- From the RNG port the decoder takes the offered bytes one after the other, as long as more trits are needed. -/
theorem tpDecode_rng {mem : Memory} {impl : DigestImpl} {N extra : Nat} (bytes done rest : List Byte) {f : Feed}
    (hs : f.su.src = .rng) (hr : f.rng = bytes ++ rest)
    (hneed : ∀ k, k < bytes.length → 5 * (acceptedBytes (done ++ bytes.take k)).length < N)
    (hend : N ≤ 5 * (acceptedBytes (done ++ bytes)).length) :
    tpDecode (pull mem impl) N (bytes.length + extra) (tpAfter N done) f =
      .ok (tpAfter N (done ++ bytes)) { f with rng := rest, pulled := f.pulled + bytes.length } := by
  induction bytes generalizing done f with
  | nil =>
    have hlen : N ≤ (tpAfter N done).t.length := by rw [tpAfter_length]; simpa using hend
    subst hr
    cases extra <;> simp [tpDecode, hlen]
  | cons v bytes ih =>
    have hlt : ¬ N ≤ (tpAfter N done).t.length := by
      have := hneed 0 (by simp)
      rw [tpAfter_length]
      simp only [List.take_zero, List.append_nil] at this
      omega
    have hpull : pull mem impl f = .ok v { f with rng := bytes ++ rest, pulled := f.pulled + 1 } := by
      simp [pull, hs, rngPull, hr]
    have next := ih (done ++ [v]) (f := { f with rng := bytes ++ rest, pulled := f.pulled + 1 }) hs rfl
      (fun k hk => by simpa using hneed (k + 1) (by simpa using hk)) (by simpa using hend)
    rw [show (v :: bytes).length + extra = (bytes.length + extra) + 1 by rw [List.length_cons]; omega, tpDecode, if_neg hlt,
      hpull, Res.bind_ok, tpByte_tpAfter, next]
    simp [Nat.add_assoc, Nat.add_comm 1]

/-! ### TRIMGF from the RNG port (44_streams R205) -/

theorem execTrimgf_run {s : State} (rd : PReg) (h : s.DimPre) :
    exec (.trimgf rd) s = conclude s ((decodeTrits s).bind fun r f =>
      .ok { pr := some (rd, Poly.ofVec s.dim r.t), res0 := some (countWord r.used), res1 := some (countWord r.rej) } f) := by
  rw [exec, execTrimgf, if_pos ((dimOk_iff s).mpr h)]

/-- With no byte offered it waits: nothing is committed (40_command R116). -/
theorem execTrimgf_waits {s : State} (rd : PReg) (h : s.DimPre) (hs : s.su.src = .rng) (hr : s.rng = [])
    (ht : 1 ≤ s.turns) : exec (.trimgf rd) s = .next (s.goesOn 0 s.turns) := by
  obtain ⟨k, hk⟩ : ∃ k, s.turns = k + 1 := ⟨s.turns - 1, by omega⟩
  have hpull : s.pull s.feed = .starved s.feed := by simp [State.pull, pull, hs, rngPull, hr]
  have hN : ¬ s.dim ≤ ([] : Vec).length := Nat.not_le.mpr h.1
  have hd : decodeTrits s = .starved s.feed := by rw [decodeTrits, hk, tpDecode, if_neg hN, hpull, Res.bind_starved]
  rw [execTrimgf_run rd h, hd, Res.bind_starved, conclude_starved, feed_pulled]

/-- Where the last byte of a run is accepted, every shorter run has fewer accepted bytes. -/
theorem acceptedBytes_take_lt {bytes : List Byte} {k : Nat} (hk : k < bytes.length)
    (hlast : (bytes.getD (bytes.length - 1) 0#8).toNat < 243) :
    (acceptedBytes (bytes.take k)).length < (acceptedBytes bytes).length := by
  have hsplit : acceptedBytes bytes = acceptedBytes (bytes.take k) ++ acceptedBytes (bytes.drop k) := by
    rw [acceptedBytes, acceptedBytes, acceptedBytes, ← List.filter_append, List.take_append_drop]
  have hmem : bytes.getD (bytes.length - 1) 0#8 ∈ acceptedBytes (bytes.drop k) := by
    rw [List.getD_eq_getElem _ _ (by omega)] at hlast ⊢
    refine List.mem_filter.mpr ⟨List.mem_drop_iff_getElem.mpr ⟨bytes.length - 1 - k, by omega, ?_⟩, by simpa using hlast⟩
    congr 1
    omega
  rw [hsplit, List.length_append]
  have := List.length_pos_of_mem hmem
  omega

/-- With enough bytes offered the decoder takes them up to the one that completes the N trits, and no more (44_streams
R204, R205). -/
theorem decodeTrits_rng {s : State} {used : Nat} (hs : s.su.src = .rng) (h1 : 1 ≤ used) (hl : used ≤ s.rng.length)
    (ht : used ≤ s.turns) (ha : (acceptedBytes (s.rng.take used)).length = (s.dim + 4) / 5)
    (hlast : (s.rng.getD (used - 1) 0#8).toNat < 243) :
    decodeTrits s = .ok (tpAfter s.dim (s.rng.take used)) { s.feed with rng := s.rng.drop used, pulled := used } := by
  have hlen : (s.rng.take used).length = used := by rw [List.length_take]; omega
  have hlast' : ((s.rng.take used).getD ((s.rng.take used).length - 1) 0#8).toNat < 243 := by
    rw [hlen, List.getD_eq_getElem?_getD, List.getElem?_take_of_lt (by omega), ← List.getD_eq_getElem?_getD]
    exact hlast
  have hstart : (⟨[], 0, 0⟩ : TpAcc) = tpAfter s.dim [] := by simp [tpAfter, acceptedBytes]
  have h := tpDecode_rng (mem := s.dmem) (impl := s.params.digest) (N := s.dim) (extra := s.turns - used) (f := s.feed)
    (s.rng.take used) [] (s.rng.drop used) hs (List.take_append_drop used s.rng).symm
    (fun k hk => by have := acceptedBytes_take_lt hk hlast'; rw [List.nil_append]; omega)
    (by rw [List.nil_append]; omega)
  rw [hlen, Nat.add_sub_cancel' ht, List.nil_append, ← hstart, feed_pulled, Nat.zero_add] at h
  exact h

theorem Poly.Holds.congr {p : Poly} {N : Nat} {f g : Nat → Int} (h : p.Holds N f) (hfg : ∀ i, i < N → f i = g i) :
    p.Holds N g := by
  refine ⟨h.1, fun i => (h.2 i).trans ?_⟩
  split
  · exact hfg i ‹_›
  · rfl

/-- The trits of the run, coefficient by coefficient (44_streams R204). -/
theorem tpAfter_holds {N : Nat} (hN : N ≤ 1499) (bytes : List Byte) :
    (Poly.ofVec N (tpAfter N bytes).t).Holds N fun i =>
      trit (((acceptedBytes bytes).getD (i / 5) 0#8).toNat / 3 ^ (i % 5) % 3) := by
  have htri : IsTrinomial (tpAfter N bytes).t := isTrinomial_of_mem fun t ht => by
    obtain ⟨v, -, hv⟩ := List.mem_flatMap.mp (List.mem_of_mem_take ht)
    exact tritsOfByte_trits v t hv
  exact (htri.holds hN).congr fun i hi => by rw [tpAfter, at'_take hi, at'_flatMap_tritsOfByte]

/-! ### The RNG port beside a memory source (44_streams R192) -/

/-- The state with the current source the n bytes of another DMEM from address a. -/
def State.withMemSource (s : State) (m : Memory) (a n : Nat) : State :=
  { s with dmem := m, su := { s.su with src := .mem, mcur := a, mend := a + n } }

/-- A command that completes without error has a run that succeeds. -/
theorem conclude_completed {s t : State} {r : Res Feed Writes} (hp : s.phase = .busy) (h : conclude s r = .next t)
    (ht : t.phase = .idle) (he : t.status.err = false) :
    ∃ w f, r = .ok w f ∧ t = ((s.consume f).write w).finished := by
  rcases conclude_cases s r with ⟨f, w, hr, hq⟩ | ⟨f, e, -, hq⟩ | ⟨f, -, hq⟩ | ⟨f, -, hq⟩ <;> cases hq.symm.trans h
  · exact ⟨w, f, hr, rfl⟩
  · cases he
  · exact absurd (hp.symm.trans ht) (by decide)
  · exact absurd (hp.symm.trans ht) (by decide)

section Beside

variable {s : State} {m : Memory} {a n : Nat}

/-- The starts of the two runs. -/
theorem memBesideRng_feed (hs : s.su.src = .rng) : MemBesideRng n a s.feed (s.withMemSource m a n).feed s.feed := by
  refine ⟨0, Nat.zero_le _, rfl, rfl, rfl, rfl, rfl, rfl, rfl, rfl, ?_⟩
  simp [State.feed, State.withMemSource, ← hs]

theorem MemBesideRng.withIgf {f0 f g : Feed} (h : MemBesideRng n a f0 f g) (x : Igf) :
    MemBesideRng n a f0 (Feed.withIgf (x, f)) (Feed.withIgf (x, g)) := by
  obtain ⟨k, h1, h2, h3, h4, h5, h6, h7, h8, h9, h10⟩ := h
  exact ⟨k, h1, h2, h3, h4, h5, h6, h7, h8, h9, by simp [Feed.withIgf, h10]⟩

/-- What one draw answers from the memory source the other answers from the RNG port. -/
def DrawBeside {α : Type} (n a : Nat) (f0 : Feed) (d' d : Res Feed α) : Prop :=
  ∀ v f, d' = .ok v f → ∃ g, d = .ok v g ∧ MemBesideRng n a f0 f g

/-- Where the draw that a command makes follows, so does the whole command. -/
theorem drawBeside_command {α : Type} {d' d : Res Feed α} {c : Bool} {W : α → Writes} {t : State}
    (hd : DrawBeside n a s.feed d' d) (hp : s.phase = .busy)
    (h : conclude (s.withMemSource m a n)
      (if c then d'.bind fun v f => .ok (W v) f else .err .precondition (s.withMemSource m a n).feed) = .next t)
    (ht : t.phase = .idle) (he : t.status.err = false) :
    ∃ v f g, MemBesideRng n a s.feed f g ∧ t = (((s.withMemSource m a n).consume f).write (W v)).finished ∧
      conclude s (if c then d.bind fun v f => .ok (W v) f else .err .precondition s.feed) =
        .next ((s.consume g).write (W v)).finished := by
  obtain ⟨w, f, hr, rfl⟩ := conclude_completed (s := s.withMemSource m a n) hp h ht he
  split at hr
  · next hc =>
    obtain ⟨v, f', hv, hw⟩ := Res.bind_eq_ok.mp hr
    cases hw
    obtain ⟨g, hg, hb⟩ := hd v f hv
    exact ⟨v, f, g, hb, rfl, by rw [if_pos hc, hg]; rfl⟩
  · cases hr

/-- The two ends differ in DMEM, the source and the bytes taken from the port alone. -/
theorem MemBesideRng.finished {f g : Feed} (h : MemBesideRng n a s.feed f g) {w : Writes} (hw : w.mem = none) {t : State}
    (ht : t = (((s.withMemSource m a n).consume f).write w).finished) :
    t.su.mcur ≤ a + n ∧ ((s.consume g).write w).finished =
      { t with
        dmem := s.dmem
        su := { t.su with src := .rng, mcur := s.su.mcur, mend := s.su.mend }
        rng := s.rng.drop (t.su.mcur - a)
        rngCnt := s.rngCnt + BitVec.ofNat 32 (t.su.mcur - a) } := by
  obtain ⟨k, h1, h2, h3, h4, h5, h6, h7, h8, h9, h10⟩ := h
  subst ht
  obtain ⟨gsu, grng, gpulled, giter⟩ := g
  obtain ⟨wpr, wmem, wkey, w0, w1, wn, we⟩ := w
  dsimp only at h5 h8 h9 h10 hw
  subst hw h5 h8 h9 h10
  have hk : f.su.mcur - a = k := by omega
  refine ⟨?_, ?_⟩
  · show f.su.mcur ≤ a + n
    omega
  · simp [State.consume, State.write, State.finished, State.withMemSource, hk]

end Beside

/-! ### Sampling commands from the RNG port -/

theorem drawIndex_beside {s : State} {m : Memory} {a n : Nat} (hs : s.su.src = .rng) (hn : n ≤ s.rng.length)
    (hm : ∀ k, k < n → m.read (a + k) = s.rng.getD k 0#8) :
    DrawBeside n a s.feed (drawIndex (s.withMemSource m a n)) (drawIndex s) := by
  intro v f hd
  obtain ⟨x, hx, rfl⟩ := Res.mapState_eq_ok.mp hd
  obtain ⟨g, hg, hb⟩ := igfNext_follows (rng_follows_mem (impl := s.params.digest) (mem := s.dmem) hn hm)
    (memBesideRng_feed hs) hx
  exact ⟨_, Res.mapState_eq_ok.mpr ⟨_, hg, rfl⟩, hb.withIgf x.1⟩

theorem drawTrinomial_beside {s : State} {m : Memory} {a n : Nat} (hs : s.su.src = .rng) (hn : n ≤ s.rng.length)
    (hm : ∀ k, k < n → m.read (a + k) = s.rng.getD k 0#8) :
    DrawBeside n a s.feed (drawTrinomial (s.withMemSource m a n)) (drawTrinomial s) := by
  intro v f hd
  obtain ⟨x, hx, rfl⟩ := Res.mapState_eq_ok.mp hd
  obtain ⟨g, hg, hb⟩ := bpgm3_follows (rng_follows_mem (impl := s.params.digest) (mem := s.dmem) hn hm)
    (memBesideRng_feed hs) hx
  exact ⟨_, Res.mapState_eq_ok.mpr ⟨_, hg, rfl⟩, hb.withIgf x.1⟩

theorem decodeTrits_beside {s : State} {m : Memory} {a n : Nat} (hs : s.su.src = .rng) (hn : n ≤ s.rng.length)
    (hm : ∀ k, k < n → m.read (a + k) = s.rng.getD k 0#8) :
    DrawBeside n a s.feed (decodeTrits (s.withMemSource m a n)) (decodeTrits s) := by
  intro v f hd
  exact tpDecode_follows (rng_follows_mem (impl := s.params.digest) (mem := s.dmem) hn hm) (memBesideRng_feed hs) hd

/-- With SRC = RNG a sampling command does what it does from a memory source that holds the offered bytes and suffices. -/
theorem exec_beside {s t : State} {m : Memory} {a n : Nat} {i : Instr}
    (hi : i = .igfnext ∨ ∃ rd, i = .trismp rd ∨ i = .trimgf rd)
    (hp : s.phase = .busy) (hs : s.su.src = .rng) (hn : n ≤ s.rng.length)
    (hm : ∀ k, k < n → m.read (a + k) = s.rng.getD k 0#8) (h : exec i (s.withMemSource m a n) = .next t)
    (ht : t.phase = .idle) (he : t.status.err = false) :
    ∃ f g w, w.mem = none ∧ MemBesideRng n a s.feed f g ∧
      t = (((s.withMemSource m a n).consume f).write w).finished ∧
      exec i s = .next ((s.consume g).write w).finished := by
  rcases hi with rfl | ⟨rd, rfl | rfl⟩
  · obtain ⟨v, f, g, hb, htw, hq⟩ := drawBeside_command (drawIndex_beside hs hn hm) hp h ht he
    exact ⟨f, g, _, rfl, hb, htw, hq⟩
  · obtain ⟨v, f, g, hb, htw, hq⟩ := drawBeside_command (drawTrinomial_beside hs hn hm) hp h ht he
    exact ⟨f, g, _, rfl, hb, htw, hq⟩
  · obtain ⟨v, f, g, hb, htw, hq⟩ := drawBeside_command (decodeTrits_beside hs hn hm) hp h ht he
    exact ⟨f, g, _, rfl, hb, htw, hq⟩

/-- Settles O12: TRIMGF waits, TRIMGF decodes the run, and the port follows a memory source with its bytes. -/
theorem rngPullWaits : Obligations.RngPullWaits := by
  refine ⟨fun s rd hp hd hN hs hr ht hf hb => ?_, fun s rd used accepted hN hs h1 hl ht ha hlen hlast => ?_,
    fun i s t m a n hi hp hs hn hm h ht he => ?_⟩
  · rw [step_no_event hb, sequencerTurn_command hp hd, execTrimgf_waits rd hN hs hr ht, ← hf]
    rfl
  · obtain rfl : accepted = acceptedBytes (s.rng.take used) := ha
    refine ⟨_, ?_, (tpAfter_holds hN.2 (s.rng.take used)).congr fun i _ => ?_⟩
    · rw [execTrimgf_run rd hN, decodeTrits_rng hs h1 hl ht hlen hlast, Res.bind_ok, conclude_ok, tpAfter]
      simp only [List.length_take, min_eq_left hl]
      rfl
    · have hd : ((acceptedBytes (s.rng.take used)).getD (i / 5) 0#8).toNat / 3 ^ (i % 5) % 3 < 3 := Nat.mod_lt _ (by decide)
      generalize ((acceptedBytes (s.rng.take used)).getD (i / 5) 0#8).toNat / 3 ^ (i % 5) % 3 = d at hd
      interval_cases d <;> rfl
  · obtain ⟨f, g, w, hw, hb, htw, hq⟩ := exec_beside hi hp hs hn hm h ht he
    obtain ⟨hle, hfin⟩ := hb.finished hw htw
    exact ⟨hle, hq.trans (congrArg _ hfin)⟩

end Sys2Proof.Machine
end

section
/-! PROOFS. The accesses the bus refuses (20_memory R64, R66), and the words of the windows while idle (R62, R63). -/

namespace Sys2Proof.Machine

/-! ### Refused accesses (20_memory R64, R66) -/

/-- A refused access reads 0, writes nothing and sets ACCERR. -/
theorem hostAccess_refused {s : State} {off : BitVec 16} {wd : Width} (h : refusedAccess s off.toNat wd = true) (w : Word) :
    hostAccess s (.read off wd) = { s with rdata := some 0#32, status := { s.status with accerr := true } } ∧
      hostAccess s (.write off wd w) = { s with status := { s.status with accerr := true } } := by
  rw [hostAccess, hostAccess, if_pos h, if_pos h]
  exact ⟨rfl, rfl⟩

/-- Settles O19: both windows are refused while busy, and the register area lies below them. -/
theorem windowsRefusedWhileBusy : Obligations.WindowsRefusedWhileBusy := by
  intro s off wd w hp
  refine ⟨fun ⟨h1, h2⟩ => hostAccess_refused ?_ w, fun ho ha => ⟨hostAccess_read s ha ho, hostAccess_write s w ha ho⟩⟩
  simp [refusedAccess, State.busy, hp, inWindow, h1, h2]

/-- Settles O20: the width or the alignment alone refuses the access, whatever the phase and the offset. -/
theorem narrowOrMisalignedRefused : Obligations.NarrowOrMisalignedRefused := by
  intro s off wd w h
  refine hostAccess_refused ?_ w
  rcases h with h | h <;> simp [refusedAccess, h]

/-! ### Accesses while idle -/

theorem not_refused_of_idle {s : State} {off : Nat} (hp : s.phase = .idle) (ha : off % 4 = 0) :
    refusedAccess s off .w32 = false := by
  simp [refusedAccess, State.busy, hp, ha]

/-- While idle an aligned 32-bit access takes place (20_memory R64, R66). -/
theorem hostAccess_idle {s : State} {off : BitVec 16} (hp : s.phase = .idle) (ha : off.toNat % 4 = 0) (w : Word) :
    hostAccess s (.read off .w32) = { s with rdata := some (readWord s off.toNat) } ∧
      hostAccess s (.write off .w32 w) = writeWord s off.toNat w := by
  rw [hostAccess, hostAccess, not_refused_of_idle hp ha]
  exact ⟨rfl, rfl⟩

/-! ### The DMEM window (20_memory R62) -/

/-- The first byte stands in the low bits, each next one 8 bits up. -/
theorem dmemWord_eq (m : Memory) (k : Nat) :
    dmemWord m k =
      ((m.read (4 * k)).setWidth 32 ||| (m.read (4 * k + 1)).setWidth 32 <<< 8 |||
        (m.read (4 * k + 2)).setWidth 32 <<< 16 ||| (m.read (4 * k + 3)).setWidth 32 <<< 24) := by
  have reversed : ∀ a b c d : Word, d ||| c ||| b ||| a = a ||| b ||| c ||| d := fun a b c d => by ac_rfl
  rw [← BitVec.setWidth_eq (dmemWord m k), dmemWord, BitVec.setWidth_append_append_append_eq_shiftLeft_setWidth_or]
  exact reversed _ _ _ _

/-- A write of word k puts its four bytes at the four addresses from 4k. -/
theorem setDmemWord_read (m : Memory) {k : Nat} (w : Word) (hk : k < 2048) (a : Nat) :
    (setDmemWord m k w).read a =
      if 4 * k ≤ a ∧ a < 4 * k + 4 then w.extractLsb' (8 * (a - 4 * k)) 8 else m.read a := by
  rw [setDmemWord, Memory.read_writeBytes _ _ _ _ (by simp; omega)]
  refine ite_congr rfl (fun ⟨h1, h2⟩ => ?_) fun _ => rfl
  obtain ⟨j, rfl⟩ := Nat.exists_eq_add_of_le h1
  have hj : j < 4 := Nat.lt_of_add_lt_add_left h2
  rw [Nat.add_sub_cancel_left]
  interval_cases j <;> rfl

theorem readWord_dmem (s : State) {off : Nat} (h1 : 0x2000 ≤ off) (h2 : off < 0x4000) :
    readWord s off = dmemWord s.dmem ((off - 0x2000) / 4) := by
  rw [readWord, if_neg (by omega), if_pos h2]

theorem writeWord_dmem (s : State) {off : Nat} (w : Word) (h1 : 0x2000 ≤ off) (h2 : off < 0x4000) :
    writeWord s off w = { s with dmem := setDmemWord s.dmem ((off - 0x2000) / 4) w } := by
  rw [writeWord, if_neg (by omega), if_pos h2]

/-- Settles O17: the offset names word k, and a word is its four bytes. -/
theorem dmemWindowLittleEndian : Obligations.DmemWindowLittleEndian := by
  intro s k w hp hk
  have hoff : (BitVec.ofNat 16 (0x2000 + 4 * k)).toNat = 0x2000 + 4 * k := by
    rw [BitVec.toNat_ofNat]
    omega
  generalize BitVec.ofNat 16 (0x2000 + 4 * k) = off at hoff
  obtain ⟨hread, hwrite⟩ := hostAccess_idle (off := off) hp (by omega) w
  have hword : (off.toNat - 0x2000) / 4 = k := by omega
  refine ⟨?_, setDmemWord s.dmem k w, ?_, setDmemWord_read s.dmem w hk⟩
  · rw [hread, readWord_dmem s (by omega) (by omega), hword, dmemWord_eq]
  · rw [hwrite, writeWord_dmem s w (by omega) (by omega), hword]

/-! ### The PR windows (20_memory R63) -/

/-- Coefficient 2j stands in the low half, 2j+1 in the high half. -/
theorem prWord_eq (p : Poly) (j : Nat) :
    prWord p j = ((BitVec.ofInt 16 (p.coeff (2 * j))).setWidth 32 |||
      (BitVec.ofInt 16 (p.coeff (2 * j + 1))).setWidth 32 <<< 16) := by
  rw [Poly.coeff_eq_toInt, Poly.coeff_eq_toInt, BitVec.ofInt_toInt, BitVec.ofInt_toInt, ← BitVec.setWidth_eq (prWord p j),
    prWord, BitVec.setWidth_append_eq_shiftLeft_setWidth_or, BitVec.or_comm]

theorem Poly.coeff_of_nmax_le (p : Poly) {i : Nat} (h : 1499 ≤ i) : p.coeff i = 0 := if_neg (Nat.not_lt.mpr h)

/-- A write of word j sets coefficients 2j and 2j+1, where they exist. -/
theorem setPrWord_coeff (p : Poly) (j : Nat) (w : Word) (i : Nat) :
    (setPrWord p j w).coeff i =
      if i = 2 * j ∧ i < 1499 then (w.extractLsb' 0 16).toInt
      else if i = 2 * j + 1 ∧ i < 1499 then (w.extractLsb' 16 16).toInt
      else p.coeff i := by
  rw [Poly.coeff_eq_toInt, Poly.coeff_eq_toInt, setPrWord, coeffBits_setCoeff, coeffBits_setCoeff]
  by_cases hlow : i = 2 * j
  · subst hlow
    simp [apply_ite BitVec.toInt]
  by_cases hhigh : i = 2 * j + 1
  · subst hhigh
    simp [apply_ite BitVec.toInt]
  · simp [hlow, hhigh]

theorem readWord_pr (s : State) {off : Nat} (h1 : 0x4000 ≤ off) (h2 : off < 0xC000) :
    readWord s off = prWord s.pr[windowReg off] (windowWord off) := by
  rw [readWord, if_neg (by omega), if_neg (by omega), if_pos h2]

theorem writeWord_pr (s : State) {off : Nat} (w : Word) (h1 : 0x4000 ≤ off) (h2 : off < 0xC000) :
    writeWord s off w = s.setPr (windowReg off) (setPrWord s.pr[windowReg off] (windowWord off) w) := by
  rw [writeWord, if_neg (by omega), if_neg (by omega), if_pos h2, State.setPr]

/-- An offset of the PR windows names its register and its word. -/
theorem windowReg_windowWord {off j : Nat} (k : PReg) (hj : j < 1024) (h : off = 0x4000 + 0x1000 * k.val + 4 * j) :
    windowReg off = k ∧ windowWord off = j := by
  have hk := k.isLt
  refine ⟨Fin.ext ?_, ?_⟩
  · rw [windowReg, Fin.val_ofNat]
    omega
  · rw [windowWord]
    omega

/-- Settles O18: the offset names register k and word j, and a word is its two coefficients. -/
theorem prWindowLittleEndian : Obligations.PrWindowLittleEndian := by
  intro s k j w hp hj
  have hk := k.isLt
  have hoff : (BitVec.ofNat 16 (0x4000 + 0x1000 * k.val + 4 * j)).toNat = 0x4000 + 0x1000 * k.val + 4 * j := by
    rw [BitVec.toNat_ofNat]
    omega
  generalize BitVec.ofNat 16 (0x4000 + 0x1000 * k.val + 4 * j) = off at hoff
  obtain ⟨hread, hwrite⟩ := hostAccess_idle (off := off) hp (by omega) w
  obtain ⟨rfl, rfl⟩ := windowReg_windowWord k hj hoff
  refine ⟨?_, fun i => Poly.coeff_of_nmax_le _, _, hwrite.trans (writeWord_pr s w (by omega) (by omega)),
    setPrWord_coeff _ _ _⟩
  rw [hread, readWord_pr s (by omega) (by omega), prWord_eq]

end Sys2Proof.Machine
end

section
/-! PROOFS. The isolation of KEY_F (20_memory R71, 60_exceptions R316): one run ends two states that differ in it at most,
for every command that does not use it; host accesses and the other events do not see it. ENCRYPT with
a PUBLIC key (45_ntru R260). -/

namespace Sys2Proof.Machine

/-! ### Commands -/

/-- `RequirePrivate()` raises an error where the key is not PRIVATE (45_ntru R242). -/
theorem requirePrivate_of_not_priv {s : State} (h : s.key.kstate ≠ .priv) : ∃ e, requirePrivate s = some e := by
  unfold requirePrivate
  cases hk : s.key.kstate with
  | priv => exact absurd hk h
  | empty | closed | pub => exact ⟨_, rfl⟩

theorem execDecrypt_of_requirePrivate {s : State} {e : Err} (h : requirePrivate s = some e) :
    exec .decrypt s = conclude s (.err e s.feed) := by
  rw [exec, execDecrypt, decryptError, h]

theorem execKeyexport_of_requirePrivate {s : State} {e : Err} (h : requirePrivate s = some e) :
    exec (.keyexport true) s = conclude s (.err e s.feed) := by
  rw [exec, execKeyexport, keyexportWrites, if_pos rfl, h, ofExcept_error]

/-- The public blob and its checks do not use KEY_F (45_ntru R277, R290). -/
theorem keyexportWrites_false_withF (s : State) (f : Poly) :
    keyexportWrites { s with key := { s.key with f := f } } false = keyexportWrites s false := by
  have hblob : exportBlob { s with key := { s.key with f := f } } false = exportBlob s false := by
    rw [exportBlob, exportBlob, if_neg Bool.false_ne_true, if_neg Bool.false_ne_true]
    rfl
  rw [keyexportWrites, keyexportWrites, hblob]
  rfl

/-- A command that does not use KEY_F has one run for the two states. -/
theorem exec_run_sameButF {i : Instr} {s s' : State} (h : SameButF s s')
    (hi : s.key.kstate = .priv → i ≠ .decrypt ∧ i ≠ .keyexport true) :
    ∃ r, exec i s = conclude s r ∧ exec i s' = conclude s' r := by
  obtain ⟨f, rfl⟩ := (sameButF_iff s s').mp h
  have refused : (i = .decrypt ∨ i = .keyexport true) → ∃ e, requirePrivate s = some e := fun hd =>
    requirePrivate_of_not_priv fun hp => hd.elim (hi hp).1 (hi hp).2
  cases i with
  | decrypt =>
    obtain ⟨e, he⟩ := refused (.inl rfl)
    exact ⟨_, execDecrypt_of_requirePrivate he, execDecrypt_of_requirePrivate he⟩
  | keyexport priv =>
    cases priv with
    | true =>
      obtain ⟨e, he⟩ := refused (.inr rfl)
      exact ⟨_, execKeyexport_of_requirePrivate he, execKeyexport_of_requirePrivate he⟩
    | false => exact ⟨_, rfl, by rw [exec, execKeyexport, keyexportWrites_false_withF]; rfl⟩
  | _ => exact ⟨_, rfl, rfl⟩

theorem exec_sameButF {i : Instr} {s s' t : State} (h : SameButF s s')
    (hi : s.key.kstate = .priv → i ≠ .decrypt ∧ i ≠ .keyexport true) (ht : exec i s = .next t) :
    ∃ t', exec i s' = .next t' ∧ SameButF t t' := by
  obtain ⟨r, hr, hr'⟩ := exec_run_sameButF h hi
  cases hr.symm.trans ht
  exact ⟨_, hr', afterRun_sameButF h r⟩

/-! ### ENCRYPT (45_ntru R260) -/

theorem requireKey_of_open {s : State} (h : s.key.kstate = .pub ∨ s.key.kstate = .priv) : requireKey s = none := by
  rcases h with h | h <;> rw [requireKey, h]

/-- ENCRYPT checks that there is a key, not which of the two kinds. -/
theorem encryptError_of_open {s : State} {f : Poly} {k : KState} (hs : s.key.kstate = .pub ∨ s.key.kstate = .priv)
    (hk : k = .pub ∨ k = .priv) :
    encryptError { s with key := { s.key with f := f, kstate := k } } = encryptError s := by
  rw [encryptError, encryptError, requireKey_of_open hs, requireKey_of_open hk]
  rfl

/-- ENCRYPT has one run for the two states, and writes no key object. -/
theorem execEncrypt_run_of_open {s : State} {f : Poly} {k : KState} (hs : s.key.kstate = .pub ∨ s.key.kstate = .priv)
    (hk : k = .pub ∨ k = .priv) :
    ∃ r, exec .encrypt s = conclude s r ∧
      exec .encrypt { s with key := { s.key with f := f, kstate := k } } =
        conclude { s with key := { s.key with f := f, kstate := k } } r ∧
      ∀ w g, r = .ok w g → w.key = none := by
  have he := encryptError_of_open (f := f) hs hk
  refine ⟨_, rfl, ?_, fun w g hr => ?_⟩
  · rw [exec, execEncrypt, he]
    rfl
  · split at hr
    · cases hr
    · obtain ⟨e, f', -, hw⟩ := Res.bind_eq_ok.mp hr
      cases hw
      rfl

/-- A run that writes no key object ends a state with another one in the same state with that one. -/
theorem afterRun_withKey {s : State} (key : Key) {r : Res Feed Writes} (hr : ∀ w g, r = .ok w g → w.key = none) :
    afterRun { s with key := key } r = { afterRun s r with key := key } := by
  cases r with
  | ok w g =>
    rw [afterRun, afterRun, complete_eq, complete_eq, State.write, State.write, hr w g rfl]
    rfl
  | err e g => rfl
  | starved g => rfl
  | paused g => rfl

/-! ### Host accesses and resets -/

theorem SameButF.ite {c : Prop} [Decidable c] {s s' t t' : State} (ht : SameButF s s') (hu : SameButF t t') :
    SameButF (if c then s else t) (if c then s' else t') := by
  split
  · exact ht
  · exact hu

theorem resetEngine_sameButF {s s' : State} (h : SameButF s s') : SameButF (resetEngine s) (resetEngine s') := by
  obtain ⟨f, rfl⟩ := (sameButF_iff s s').mp h
  rfl

theorem issue_sameButF {s s' : State} (h : SameButF s s') (w : Word) : SameButF (issue s w) (issue s' w) := by
  obtain ⟨f, rfl⟩ := (sameButF_iff s s').mp h
  cases hp : s.phase <;> simp only [issue, hp] <;> rfl

theorem regWrite_sameButF {s s' : State} (h : SameButF s s') (off : Nat) (w : Word) :
    SameButF (regWrite s off w) (regWrite s' off w) := by
  have hreset := resetEngine_sameButF h
  have hissue := issue_sameButF h w
  obtain ⟨f, rfl⟩ := (sameButF_iff s s').mp h
  unfold regWrite
  refine .ite (.ite hreset rfl) (.ite rfl (.ite hissue ?_))
  iterate 9 refine .ite rfl ?_
  rfl

theorem writeWord_sameButF {s s' : State} (h : SameButF s s') (off : Nat) (w : Word) :
    SameButF (writeWord s off w) (writeWord s' off w) := by
  have hreg := regWrite_sameButF h off w
  obtain ⟨f, rfl⟩ := (sameButF_iff s s').mp h
  exact .ite hreg (.ite rfl (.ite rfl rfl))

/-- No host access depends on KEY_F: the same accesses are refused and the same words read. -/
theorem hostAccess_sameButF {s s' : State} (h : SameButF s s') (a : Access) :
    SameButF (hostAccess s a) (hostAccess s' a) := by
  cases a with
  | read off wd =>
    obtain ⟨f, rfl⟩ := (sameButF_iff s s').mp h
    exact .ite rfl rfl
  | write off wd w =>
    have hw := writeWord_sameButF h off.toNat w
    obtain ⟨f, rfl⟩ := (sameButF_iff s s').mp h
    exact .ite rfl hw

/-! ### Steps -/

/-- With a PRIVATE key the running command, if any, is neither DECRYPT nor KEYEXPORT.PRIV, the two that use KEY_F. -/
def State.RunsWithoutF (s : State) : Prop :=
  s.key.kstate = .priv → s.phase = .busy → decode s.ctx.word ≠ some .decrypt ∧ decode s.ctx.word ≠ some (.keyexport true)

theorem sequencerTurn_sameButF {s s' t : State} (h : SameButF s s') (hw : s.RunsWithoutF)
    (ht : sequencerTurn s = .next t) : ∃ t', sequencerTurn s' = .next t' ∧ SameButF t t' := by
  have hphase : s'.phase = s.phase := by rw [h]
  have hctx : s'.ctx = s.ctx := by rw [h]
  rcases sequencerTurn_cases s with ⟨hp, hq⟩ | ⟨hp, hd, hq⟩ | ⟨i, hp, hd, hq⟩ <;> rw [hq] at ht
  · cases ht
    exact ⟨s', sequencerTurn_idle (hphase.trans hp), h⟩
  · cases ht
    obtain ⟨f, rfl⟩ := (sameButF_iff s s').mp h
    exact ⟨_, sequencerTurn_illegal hp hd, rfl⟩
  · rw [sequencerTurn_command (hphase.trans hp) (hctx ▸ hd)]
    refine exec_sameButF h (fun hk => ?_) ht
    obtain ⟨h1, h2⟩ := hw hk hp
    exact ⟨fun hi => h1 (hi ▸ hd), fun hi => h2 (hi ▸ hd)⟩

theorem handle_sameButF {s s' t : State} (h : SameButF s s') (hw : s.RunsWithoutF) (e : Event)
    (ht : handle s e = .next t) : ∃ t', handle s' e = .next t' ∧ SameButF t t' := by
  cases e with
  | turn => exact sequencerTurn_sameButF h hw ht
  | access a =>
    cases ht
    exact ⟨_, rfl, hostAccess_sameButF h a⟩
  | together a =>
    obtain ⟨u, hu⟩ := sequencerTurn_total s
    obtain ⟨u', hu', huu⟩ := sequencerTurn_sameButF h hw hu
    rw [handle, hu] at ht
    cases ht
    exact ⟨hostAccess u' a, by rw [handle, hu', thenAccess], hostAccess_sameButF huu a⟩
  | rngByte v =>
    cases ht
    obtain ⟨f, rfl⟩ := (sameButF_iff s s').mp h
    exact ⟨_, rfl, rfl⟩
  | hardReset =>
    cases ht
    exact ⟨_, rfl, resetEngine_sameButF h⟩

theorem step_sameButF {s s' t : State} (h : SameButF s s') (hw : s.RunsWithoutF) (ht : step s = .next t) :
    ∃ t', step s' = .next t' ∧ SameButF t t' := by
  have hinbox : s'.inbox = s.inbox := by rw [h]
  cases hi : s.inbox with
  | nil =>
    rw [step_no_event hi] at ht
    rw [step_no_event (hinbox.trans hi)]
    exact sequencerTurn_sameButF h hw ht
  | cons e rest =>
    rw [step_event hi] at ht
    rw [step_event (hinbox.trans hi)]
    have hrest : SameButF { s with inbox := rest } { s' with inbox := rest } := by
      obtain ⟨f, rfl⟩ := (sameButF_iff s s').mp h
      rfl
    exact handle_sameButF hrest hw e ht

/-- Settles O55: one run for the two states, and no access or event that sees KEY_F. -/
theorem encryptionIgnoresPrivateKey : Obligations.EncryptionIgnoresPrivateKey := by
  refine ⟨fun s t f k hs hk ht => ?_, fun _ _ _ _ => exec_sameButF, fun _ _ a h => hostAccess_sameButF h a,
    fun _ _ _ => step_sameButF⟩
  obtain ⟨r, hr, hr', hkey⟩ := execEncrypt_run_of_open (f := f) hs hk
  cases hr.symm.trans ht
  exact hr'.trans (congrArg Host.Outcome.next (afterRun_withKey _ hkey))

end Sys2Proof.Machine
end

section
/-! PROOFS. The command word (30_encoding R90 to R96): a register or flag field of an assembled word is the operand it was
assembled from; an opcode row's command is encoded as the row's OP and the word's bits outside the mask; the OP of a row that
matches is the word's low byte, so that one row matches at most. -/

namespace Sys2Proof.Laws

open Sys2Proof.Machine

/-! ### The operands of an assembled word (30_encoding R91, R94) -/

/-- A register number as the three bits of its field (30_encoding R91). -/
def regBits (r : PReg) : BitVec 3 := BitVec.ofFin r

theorem regWord_eq (r : PReg) : regWord r = (regBits r).setWidth 32 :=
  BitVec.eq_of_toNat_eq (by simp [regWord, regBits])

theorem flagWord_shiftLeft (b : Bool) (k : Nat) : flagWord b <<< k = flagAt b k := by
  cases b <;> simp [flagWord, flagAt]

theorem assemble_getLsbD (op : BitVec 8) (rd rs1 rs2 : PReg) (red f1 f2 : Bool) (j : Nat) :
    (assemble op rd rs1 rs2 red f1 f2).getLsbD j =
      (decide (j < 32) && op.getLsbD j || decide (8 ≤ j) && (regBits rd).getLsbD (j - 8) ||
        decide (11 ≤ j) && (regBits rs1).getLsbD (j - 11) || decide (14 ≤ j) && (regBits rs2).getLsbD (j - 14) ||
        red && decide (j = 17) || f1 && decide (j = 18) || f2 && decide (j = 19)) := by
  simp only [assemble, regWord_eq, flagWord_shiftLeft, BitVec.getLsbD_or, BitVec.getLsbD_setWidth]
  iterate 3 rw [fieldAt_getLsbD _ (by decide)]
  iterate 3 rw [flagAt_getLsbD _ (by decide)]

/-- Each field of an assembled word is its operand: the bits of the others lie outside it. -/
theorem assemble_fields (op : BitVec 8) (rd rs1 rs2 : PReg) (red f1 f2 : Bool) :
    let w := assemble op rd rs1 rs2 red f1 f2
    fieldRD w = rd ∧ fieldRS1 w = rs1 ∧ fieldRS2 w = rs2 ∧ fieldRED w = red ∧ fieldF1 w = f1 ∧ fieldF2 w = f2 := by
  have bit := assemble_getLsbD op rd rs1 rs2 red f1 f2
  refine ⟨congrArg BitVec.toFin (extractLsb'_eq (v := regBits rd) fun j hj => ?_),
    congrArg BitVec.toFin (extractLsb'_eq (v := regBits rs1) fun j hj => ?_),
    congrArg BitVec.toFin (extractLsb'_eq (v := regBits rs2) fun j hj => ?_), (bit 17).trans ?_, (bit 18).trans ?_,
    (bit 19).trans ?_⟩ <;>
  simp (disch := omega) only [bit, decide_eq_true, decide_eq_false, BitVec.getLsbD_of_ge, Nat.add_sub_cancel_left,
    Bool.true_and, Bool.and_true, Bool.false_and, Bool.and_false, Bool.or_false, Bool.false_or, decide_true]

/-! ### The bits a word's fields stand for (30_encoding R91) -/

/-- A field put back in its place is the word under the field's mask. -/
theorem setWidth_extractLsb'_shiftLeft (w : Word) {k n : Nat} (hk : k + n ≤ 32) :
    (w.extractLsb' k n).setWidth 32 <<< k = w &&& (BitVec.allOnes n).setWidth 32 <<< k := by
  refine BitVec.eq_of_getLsbD_eq fun j _ => ?_
  rw [fieldAt_getLsbD _ hk, BitVec.getLsbD_and, fieldAt_getLsbD _ hk]
  by_cases h : k ≤ j
  · simp [Nat.add_sub_cancel' h, h, Bool.and_comm]
  · simp [h]

theorem regWord_extractLsb' (w : Word) {k : Nat} (hk : k + 3 ≤ 32) :
    regWord (w.extractLsb' k 3).toFin <<< k = w &&& (BitVec.allOnes 3).setWidth 32 <<< k := by
  rw [regWord_eq]
  exact setWidth_extractLsb'_shiftLeft w hk

theorem flagWord_getLsbD (w : Word) (k : Nat) : flagWord (w.getLsbD k) <<< k = w &&& BitVec.twoPow 32 k := by
  rw [BitVec.and_twoPow]
  cases w.getLsbD k <;> simp [flagWord, BitVec.twoPow_eq]

theorem regWord_fieldRD (w : Word) : regWord (fieldRD w) <<< 8 = w &&& 0x700#32 :=
  regWord_extractLsb' w (k := 8) (by decide)
theorem regWord_fieldRS1 (w : Word) : regWord (fieldRS1 w) <<< 11 = w &&& 0x3800#32 :=
  regWord_extractLsb' w (k := 11) (by decide)
theorem regWord_fieldRS2 (w : Word) : regWord (fieldRS2 w) <<< 14 = w &&& 0x1C000#32 :=
  regWord_extractLsb' w (k := 14) (by decide)
theorem flagWord_fieldRED (w : Word) : flagWord (fieldRED w) <<< 17 = w &&& 0x20000#32 := flagWord_getLsbD w 17
theorem flagWord_fieldF1 (w : Word) : flagWord (fieldF1 w) <<< 18 = w &&& 0x40000#32 := flagWord_getLsbD w 18
theorem flagWord_fieldF2 (w : Word) : flagWord (fieldF2 w) <<< 19 = w &&& 0x80000#32 := flagWord_getLsbD w 19
theorem regWord_zero : regWord 0 = 0#32 := rfl
theorem flagWord_false : flagWord false = 0#32 := rfl

/-! ### The rows of the opcode map (30_encoding R94, R95) -/

/-- The encoding of a row's command is the row's OP and the fields its command uses, whose bits are those outside the
mask. -/
theorem encode_build (w : Word) : ∀ r ∈ opRows, encode (r.build w) = r.op ||| (w &&& ~~~r.mask) := by
  simp [opRows, opRowsArith, opRowsInvPack, opRowsStream, opRowsKey, encode, assemble, regWord_zero, flagWord_false,
    regWord_fieldRD, regWord_fieldRS1, regWord_fieldRS2, flagWord_fieldRED, flagWord_fieldF1, flagWord_fieldF2,
    BitVec.or_assoc, ← BitVec.and_or_distrib_left]

/-- Every command has a row that reads it from its encoding. -/
theorem exists_row_build_encode (i : Instr) : ∃ r ∈ opRows, r.build (encode i) = i := by
  cases i <;> simp [opRows, opRowsArith, opRowsInvPack, opRowsStream, opRowsKey, encode, assemble_fields]

theorem opRows_op_nodup : (opRows.map OpRow.op).Nodup := by decide

/-- Every mask covers the opcode byte, and an OP has no bit outside that byte. -/
theorem opRows_opcodeByte : ∀ r ∈ opRows, r.mask &&& 0xFF#32 = 0xFF#32 ∧ r.op &&& 0xFF#32 = r.op := by decide

theorem op_and_mask {r : OpRow} (hr : r ∈ opRows) : r.op &&& r.mask = r.op := by
  obtain ⟨hmask, hop⟩ := opRows_opcodeByte r hr
  rw [← hop, BitVec.and_assoc, BitVec.and_comm _ r.mask, hmask]

theorem matches_iff (r : OpRow) (w : Word) : r.matches w = true ↔ w &&& r.mask = r.op := beq_iff_eq

/-- The OP of a matching row is the word's low byte (30_encoding R95). -/
theorem op_eq_of_matches {r : OpRow} {w : Word} (hr : r ∈ opRows) (hm : r.matches w = true) : r.op = w &&& 0xFF#32 := by
  obtain ⟨hmask, hop⟩ := opRows_opcodeByte r hr
  calc r.op = w &&& r.mask &&& 0xFF#32 := by rw [(matches_iff r w).mp hm, hop]
    _ = w &&& 0xFF#32 := by rw [BitVec.and_assoc, hmask]

theorem eq_of_matches {r r' : OpRow} {w : Word} (hr : r ∈ opRows) (hr' : r' ∈ opRows) (hm : r.matches w = true)
    (hm' : r'.matches w = true) : r = r' :=
  List.inj_on_of_nodup_map opRows_op_nodup hr hr' ((op_eq_of_matches hr hm).trans (op_eq_of_matches hr' hm').symm)

theorem length_matching_le_one (w : Word) : (opRows.filter fun r => r.matches w).length ≤ 1 := by
  have hops : (opRows.filter fun r => r.matches w).map OpRow.op =
      List.replicate (opRows.filter fun r => r.matches w).length (w &&& 0xFF#32) := by
    rw [← List.map_const', List.map_inj_left]
    intro r hr
    obtain ⟨hr, hm⟩ := List.mem_filter.mp hr
    exact op_eq_of_matches hr hm
  rw [← List.nodup_replicate (a := w &&& 0xFF#32), ← hops]
  exact opRows_op_nodup.sublist (List.filter_sublist.map _)

/-! ### The decoder (30_encoding R95) -/

theorem mem_and_matches_of_find {w : Word} {r : OpRow} (h : (opRows.find? fun r => r.matches w) = some r) :
    r ∈ opRows ∧ r.matches w = true := by
  have hm := List.find?_some h
  exact ⟨List.mem_of_find?_eq_some h, hm⟩

theorem decode_eq_some_iff {w : Word} {i : Instr} :
    decode w = some i ↔ ∃ r ∈ opRows, r.matches w = true ∧ r.build w = i := by
  rw [decode, Option.map_eq_some_iff]
  constructor
  · rintro ⟨r, hf, hb⟩
    obtain ⟨hr, hm⟩ := mem_and_matches_of_find hf
    exact ⟨r, hr, hm, hb⟩
  · rintro ⟨r, hr, hm, hb⟩
    obtain ⟨r', hf⟩ := Option.isSome_iff_exists.mp (List.find?_isSome (p := fun r => r.matches w) |>.mpr ⟨r, hr, hm⟩)
    obtain ⟨hr', hm'⟩ := mem_and_matches_of_find hf
    cases eq_of_matches hr hr' hm hm'
    exact ⟨r, hf, hb⟩

theorem decode_eq_none_iff {w : Word} : decode w = none ↔ ∀ r ∈ opRows, r.matches w = false := by
  simp [decode]

/-- The row that reads a command from its encoding matches it: the encoding is OP and bits outside the mask. -/
theorem decode_encode (i : Instr) : decode (encode i) = some i := by
  obtain ⟨r, hr, hb⟩ := exists_row_build_encode i
  refine decode_eq_some_iff.mpr ⟨r, hr, (matches_iff r _).mpr ?_, hb⟩
  have hw : encode i = r.op ||| (encode i &&& ~~~r.mask) := by rw [← encode_build _ r hr, hb]
  rw [hw, BitVec.and_or_distrib_right, op_and_mask hr, BitVec.and_assoc, BitVec.and_comm _ r.mask, BitVec.and_not_self]
  simp

/-- A word that a row matches is OP and its bits outside the mask, which is the encoding of the row's command. -/
theorem encode_of_decode {w : Word} {i : Instr} (h : decode w = some i) : encode i = w := by
  obtain ⟨r, hr, hm, rfl⟩ := decode_eq_some_iff.mp h
  rw [encode_build w r hr, ← (matches_iff r w).mp hm, ← BitVec.and_or_distrib_left, BitVec.or_not_self,
    BitVec.and_allOnes]

/-! ### The obligations -/

/-- Settles O2, through the row that reads the command from its encoding. -/
theorem decodeReturnsEncoded : Obligations.DecodeReturnsEncoded := decode_encode

/-- Settles O3: the OP of a matching row is the word's low byte, and no two rows share an OP. -/
theorem everyWordHasOneMeaning : Obligations.EveryWordHasOneMeaning :=
  ⟨length_matching_le_one, fun _ r hr hm => decode_eq_some_iff.mpr ⟨r, hr, hm, rfl⟩, fun _ => decode_eq_none_iff.mpr,
    fun _ _ => encode_of_decode⟩

/-- Settles O1, by evaluating the decoder on the twelve words. -/
theorem writtenOutWordsDecode : Obligations.WrittenOutWordsDecode := by
  unfold Obligations.WrittenOutWordsDecode
  decide

end Sys2Proof.Laws
end

section
/-! PROOFS. The loop-turn grant (40_command R113, R117, 70_reset R360; log 8): every loop answers the same with more turns,
or it had used its turns up; so a command that did not go on for want of turns has the same outcome under any larger grant. -/

namespace Sys2Proof.Machine

/-! ### A part of a command beside the same part with more turns -/

/-- The second outcome is the first one, unless the first had used its turns up. -/
def Res.SettledBy {σ α : Type} (r r' : Res σ α) : Prop := r' = r ∨ ∃ x, r = .paused x

@[simp] theorem Res.SettledBy.refl {σ α : Type} (r : Res σ α) : r.SettledBy r := .inl rfl

theorem Res.SettledBy.bind {σ α β : Type} {r r' : Res σ α} {k k' : α → σ → Res σ β} (hr : r.SettledBy r')
    (hk : ∀ a x, (k a x).SettledBy (k' a x)) : (r.bind k).SettledBy (r'.bind k') := by
  rcases hr with rfl | ⟨x, rfl⟩
  · cases r' with
    | ok a x => exact hk a x
    | err e x => exact .refl _
    | starved x => exact .refl _
    | paused x => exact .refl _
  · exact .inr ⟨x, rfl⟩

theorem Res.SettledBy.mapState {σ τ α : Type} {r r' : Res σ α} (h : r.SettledBy r') (f : σ → τ) :
    (r.mapState f).SettledBy (r'.mapState f) :=
  h.imp (congrArg (Res.mapState · f)) fun ⟨x, hx⟩ => ⟨f x, hx ▸ rfl⟩

theorem Res.SettledBy.scratch {τ α : Type} {r r' : Res τ α} (h : r.SettledBy r') (f : Feed) :
    (scratch r f).SettledBy (scratch r' f) := h.mapState _

theorem Res.SettledBy.ite {σ α : Type} {c : Prop} [Decidable c] {r r' q q' : Res σ α} (hr : r.SettledBy r')
    (hq : q.SettledBy q') : (if c then r else q).SettledBy (if c then r' else q') := by
  split
  · exact hr
  · exact hq

/-! ### The loops -/

section Loops

variable {σ : Type} {pull : σ → Res σ Byte}

theorem igfNext_settled {n m : Nat} (h : n ≤ m) (rej : Nat) (g : Igf) (x : σ) :
    (igfNext pull n rej g x).SettledBy (igfNext pull m rej g x) := by
  induction n generalizing m rej g x with
  | zero => exact .inr ⟨_, rfl⟩
  | succ n ih =>
    obtain ⟨m, rfl⟩ := Nat.exists_eq_add_of_lt h
    exact (Res.SettledBy.refl _).bind fun _ y => .ite (.refl _) (ih (by omega) _ _ _)

theorem bpgmPlace_settled {n m l k : Nat} (h : n ≤ m) (hl : l ≤ k) (val : Int) (need : Nat) (acc : Bpgm) (x : Igf × σ) :
    (bpgmPlace pull n val l need acc x).SettledBy (bpgmPlace pull m val k need acc x) := by
  induction l generalizing k need acc x with
  | zero =>
    cases need with
    | zero => cases k <;> exact .refl _
    | succ d => exact .inr ⟨_, rfl⟩
  | succ l ih =>
    obtain ⟨k, rfl⟩ := Nat.exists_eq_add_of_lt hl
    cases need with
    | zero => exact .refl _
    | succ d => exact (igfNext_settled h _ _ _).bind fun _ _ => ih (by omega) _ _ _

theorem bpgm3_settled {n m : Nat} (h : n ≤ m) (N ones negs : Nat) (x : Igf × σ) :
    (bpgm3 pull n N ones negs x).SettledBy (bpgm3 pull m N ones negs x) :=
  (bpgmPlace_settled h h _ _ _ _).bind fun _ _ => bpgmPlace_settled h h _ _ _ _

theorem tpDecode_settled {n m : Nat} (h : n ≤ m) (N : Nat) (acc : TpAcc) (x : σ) :
    (tpDecode pull N n acc x).SettledBy (tpDecode pull N m acc x) := by
  induction n generalizing m acc x with
  | zero =>
    by_cases hN : N ≤ acc.t.length
    · cases m <;> simp [tpDecode, hN]
    · exact .inr ⟨x, by rw [tpDecode, if_neg hN]⟩
  | succ n ih =>
    obtain ⟨m, rfl⟩ := Nat.exists_eq_add_of_lt h
    exact .ite (.refl _) ((Res.SettledBy.refl _).bind fun _ _ => ih (by omega) _ _)

end Loops

theorem genTri_settled {n m : Nat} (h : n ≤ m) (N ones negs c : Nat) (f : Feed) :
    (genTri n N ones negs c f).SettledBy (genTri m N ones negs c f) :=
  ((bpgm3_settled h _ _ _ _).mapState _).bind fun _ _ => .refl _

theorem gLoop_settled {n m l k : Nat} (h : n ≤ m) (hl : l ≤ k) (cap : Nat) (P : ParamSet) (ga : Nat) (f : Feed) :
    (gLoop n cap P l ga f).SettledBy (gLoop m cap P k ga f) := by
  induction l generalizing k ga f with
  | zero => exact .inr ⟨_, rfl⟩
  | succ l ih =>
    obtain ⟨k, rfl⟩ := Nat.exists_eq_add_of_lt hl
    exact .ite (.refl _) ((genTri_settled h _ _ _ _ _).bind fun _ _ => .ite (.refl _) (ih (by omega) _ _))

theorem fLoop_settled {n m l k : Nat} (h : n ≤ m) (hl : l ≤ k) (cap : Nat) (P : ParamSet) (ga fa : Nat) (f : Feed) :
    (fLoop n cap P ga l fa f).SettledBy (fLoop m cap P ga k fa f) := by
  induction l generalizing k fa f with
  | zero => exact .inr ⟨_, rfl⟩
  | succ l ih =>
    obtain ⟨k, rfl⟩ := Nat.exists_eq_add_of_lt hl
    refine .ite (.refl _) ((genTri_settled h _ _ _ _ _).bind fun F x => ?_)
    cases invertQ P.N (privPoly P.N F) with
    | some fq => exact .refl _
    | none => exact ih (by omega) _ _

theorem generateKey_settled {n m : Nat} (h : n ≤ m) (cap : Nat) (P : ParamSet) (f : Feed) :
    (generateKey n cap P f).SettledBy (generateKey m cap P f) :=
  (gLoop_settled h h _ _ _ _).bind fun _ _ => (fLoop_settled h h _ _ _ _ _).bind fun _ _ => .refl _

theorem genR_settled {n m : Nat} (h : n ≤ m) (impl : DigestImpl) (P : ParamSet) (seed : List Byte) :
    (genR impl n P seed).SettledBy (genR impl m P seed) := bpgm3_settled h _ _ _ _

theorem genMask_settled {n m : Nat} (h : n ≤ m) (impl : DigestImpl) (P : ParamSet) (R : Vec) :
    (genMask impl n P R).SettledBy (genMask impl m P R) := tpDecode_settled h _ _ _

theorem encAttempt_settled {n m : Nat} (hn : n ≤ m) (impl : DigestImpl) (P : ParamSet) (msg : List Byte) (h : Vec)
    (f : Feed) : (encAttempt impl n P msg h f).SettledBy (encAttempt impl m P msg h f) :=
  (Res.SettledBy.refl _).bind fun _ _ => ((genR_settled hn _ _ _).scratch _).bind fun _ _ =>
    ((genMask_settled hn _ _ _).scratch _).bind fun _ _ => .refl _

theorem encLoop_settled {n m l k : Nat} (hn : n ≤ m) (hl : l ≤ k) (impl : DigestImpl) (cap : Nat) (P : ParamSet)
    (msg : List Byte) (h : Vec) (att : Nat) (f : Feed) :
    (encLoop impl n cap P msg h l att f).SettledBy (encLoop impl m cap P msg h k att f) := by
  induction l generalizing k att f with
  | zero => exact .inr ⟨_, rfl⟩
  | succ l ih =>
    obtain ⟨k, rfl⟩ := Nat.exists_eq_add_of_lt hl
    refine .ite (.refl _) ((encAttempt_settled hn _ _ _ _ _).bind fun e x => ?_)
    cases e with
    | some e => exact .refl _
    | none => exact ih (by omega) _ _

theorem decryptMsg_settled {n m : Nat} (hn : n ≤ m) (impl : DigestImpl) (P : ParamSet) (F h : Vec) (ct : List Byte)
    (f : Feed) : (decryptMsg impl n P F h ct f).SettledBy (decryptMsg impl m P F h ct f) :=
  ((genMask_settled hn _ _ _).scratch _).bind fun _ _ => ((genR_settled hn _ _ _).scratch _).bind fun _ _ => .refl _

/-! ### The commands -/

/-- The state with another grant (log 8). -/
def State.withTurns (s : State) (k : Nat) : State := { s with turns := k }

theorem keygenSet_withTurns (s : State) (k : Nat) : keygenSet (s.withTurns k) = keygenSet s := rfl
theorem encryptError_withTurns (s : State) (k : Nat) : encryptError (s.withTurns k) = encryptError s := rfl
theorem decryptError_withTurns (s : State) (k : Nat) : decryptError (s.withTurns k) = decryptError s := rfl

/-- Under a larger grant a command's run is the same, unless it had used its grant up. -/
theorem exec_run_withTurns (i : Instr) {s : State} {k : Nat} (h : s.turns ≤ k) :
    ∃ r r', exec i s = conclude s r ∧ exec i (s.withTurns k) = conclude (s.withTurns k) r' ∧ r.SettledBy r' := by
  cases i with
  | igfnext =>
    exact ⟨_, _, rfl, rfl, .ite (((igfNext_settled h _ _ _).mapState _).bind fun _ _ => .refl _) (.refl _)⟩
  | trismp rd =>
    exact ⟨_, _, rfl, rfl, .ite (((bpgm3_settled h _ _ _ _).mapState _).bind fun _ _ => .refl _) (.refl _)⟩
  | trimgf rd => exact ⟨_, _, rfl, rfl, .ite ((tpDecode_settled h _ _ _).bind fun _ _ => .refl _) (.refl _)⟩
  | keygen =>
    refine ⟨_, _, rfl, rfl, ?_⟩
    rw [keygenSet_withTurns]
    cases keygenSet s with
    | none => exact .refl _
    | some ps => exact (generateKey_settled h _ _ _).bind fun _ _ => .refl _
  | encrypt =>
    refine ⟨_, _, rfl, rfl, ?_⟩
    rw [encryptError_withTurns]
    cases encryptError s with
    | some e => exact .refl _
    | none => exact (encLoop_settled h h _ _ _ _ _ _ _).bind fun _ _ => .refl _
  | decrypt =>
    refine ⟨_, _, rfl, rfl, ?_⟩
    rw [decryptError_withTurns]
    cases decryptError s with
    | some e => exact .refl _
    | none => exact (decryptMsg_settled h _ _ _ _ _ _).bind fun _ _ => .refl _
  | _ => exact ⟨_, _, rfl, rfl, .refl _⟩

/-- A run that did not use its grant up ends alike under every grant. -/
theorem afterRun_withTurns {s : State} {r : Res Feed Writes} (hr : (afterRun s r).turns = s.turns) (k : Nat) :
    (∀ x, r ≠ .paused x) ∧ afterRun (s.withTurns k) r = (afterRun s r).withTurns k := by
  cases r with
  | ok w f => exact ⟨by simp, rfl⟩
  | err e f => exact ⟨by simp, rfl⟩
  | starved f => exact ⟨by simp, rfl⟩
  | paused f =>
    have hgrant : 2 * s.turns + 1 = s.turns := hr
    omega

/-- Settles O11: every loop a command makes answers the same with more turns, or it had used its turns up. -/
theorem largerGrantSameOutcome : Obligations.LargerGrantSameOutcome := by
  intro i s t k h ht hk
  obtain ⟨r, r', hr, hr', hsettled⟩ := exec_run_withTurns i hk
  cases hr.symm.trans h
  obtain ⟨hne, hend⟩ := afterRun_withTurns ht k
  rcases hsettled with rfl | ⟨x, hx⟩
  · exact hr'.trans (congrArg Host.Outcome.next hend)
  · exact absurd hx (hne x)

end Sys2Proof.Machine
end

section
/-! PROOFS. The command cycle: issue, the sequencer's turn, NOP (40_command R110 to R113, R120), and what the host cannot
touch of a running command (40_command R113, 70_reset R351 to R354). -/

namespace Sys2Proof.Machine

/-! ### Issue and turn (40_command R110 to R113) -/

/-- Settles O4, from which event a step takes and what the sequencer's turn makes of the latched word. -/
theorem stepRunsDecodedCommand : Obligations.StepRunsDecodedCommand := by
  refine ⟨fun s i hp hd => ⟨fun hb => ?_, fun rest hb => ?_, fun a rest hb => ?_⟩, fun s hp => ⟨fun hb => ?_, fun rest hb => ?_⟩⟩
  · exact (step_no_event hb).trans (sequencerTurn_command hp hd)
  · exact (step_event hb).trans (sequencerTurn_command hp hd)
  · exact (step_event hb).trans (congrArg (thenAccess · a) (sequencerTurn_command hp hd))
  · exact (step_no_event hb).trans (sequencerTurn_idle hp)
  · exact (step_event hb).trans (sequencerTurn_idle hp)

/-- A word of 32 bits is placed as it is: it has been accepted and the sequencer's turn comes first (log 2). -/
theorem withFetchWord_toNat (s : State) (w : Word) :
    s.withFetchWord 32 w.toNat = { accept s w with inbox := .turn :: s.inbox } := by
  rw [State.withFetchWord, Nat.mod_eq_of_lt w.isLt, BitVec.ofNat_toNat, BitVec.setWidth_eq]
  rfl

/-- Settles O5: the placed word is the one accepted, and it decodes to its command. -/
theorem placedWordRunsNext : Obligations.PlacedWordRunsNext := by
  intro s i
  rw [withFetchWord_toNat, step_event (e := .turn) (rest := s.inbox) rfl, handle]
  exact sequencerTurn_command (s := accept s (encode i)) rfl (Sys2Proof.Laws.decode_encode i)

/-- Settles O6, from what the sequencer's turn makes of an illegal word. -/
theorem illegalWordCompletesWithError : Obligations.IllegalWordCompletesWithError := by
  refine fun s hp hd => ⟨fun hb => ?_, fun rest hb => ?_⟩
  · exact (step_no_event hb).trans (sequencerTurn_illegal hp hd)
  · exact (step_event hb).trans (sequencerTurn_illegal hp hd)

theorem issue_idle {s : State} (h : s.phase = .idle) (w : Word) : issue s w = accept s w := by rw [issue, h]

theorem issue_busy {s : State} (h : s.phase = .busy) (w : Word) :
    issue s w = { s with status := { s.status with ovr := true } } := by rw [issue, h]

/-- A CMD write is an issue (40_command R110). -/
theorem hostAccess_cmd (s : State) (w : Word) : hostAccess s (.write 0x00C .w32 w) = issue s w :=
  hostAccess_write s w (by decide) (by decide)

/-- Settles O7: the offset is CMD's, and the phase decides. -/
theorem issueAcceptedOrDropped : Obligations.IssueAcceptedOrDropped := by
  intro s w
  rw [hostAccess_cmd]
  exact ⟨fun hp => issue_idle hp w, fun hp => issue_busy hp w⟩

/-- Settles O26: NOP consumes and writes nothing. -/
theorem nopOnlyCompletes : Obligations.NopOnlyCompletes := by
  refine ⟨by decide, fun s => ?_⟩
  rw [exec, execNop, conclude_ok, consume_feed, write_nothing]

/-! ### Host accesses to a running command -/

theorem issue_phase_busy {s : State} (h : s.phase = .busy) (w : Word) : (issue s w).phase = .busy := by
  rw [issue_busy h]
  exact h

/-- Of the register writes a soft reset alone ends a running command. -/
theorem regWrite_phase_busy {s : State} (h : s.phase = .busy) (off : Nat) (w : Word) :
    (regWrite s off w).phase = .busy ∨ off = offCTRL ∧ w.getLsbD 0 = true := by
  by_cases ho : off = offCTRL
  · cases hw : w.getLsbD 0 with
    | true => exact .inr ⟨ho, rfl⟩
    | false => exact .inl (by rw [regWrite, if_pos ho, hw, if_neg Bool.false_ne_true, h])
  · exact .inl (by rw [regWrite, if_neg ho]; simp only [apply_ite State.phase, issue_phase_busy h, h, ite_self])

/-- No host access but a soft reset ends a running command (70_reset R341). -/
theorem hostAccess_phase_busy {s : State} (h : s.phase = .busy) (a : Access) :
    (hostAccess s a).phase = .busy ∨ ∃ w, a = .write 0x004 .w32 w ∧ w.getLsbD 0 = true := by
  cases a with
  | read off wd => exact .inl (by rw [hostAccess]; split <;> exact h)
  | write off wd w =>
    rw [hostAccess]
    cases hr : refusedAccess s off.toNat wd with
    | true => exact .inl h
    | false =>
      rw [if_neg Bool.false_ne_true, writeWord]
      by_cases h1 : off.toNat < 0x2000
      · rw [if_pos h1]
        refine (regWrite_phase_busy h off.toNat w).imp id fun ⟨ho, hw⟩ => ⟨w, ?_, hw⟩
        have hwd : wd = .w32 := by
          by_contra hne
          simp [refusedAccess, hne] at hr
        rw [hwd, show off = 0x004 from BitVec.eq_of_toNat_eq ho]
      · have hidle : off.toNat < 0xC000 → s.phase = .idle := idle_of_window hr (by omega)
        rw [if_neg h1, if_neg fun h2 => ?_, if_neg fun h3 => ?_]
        · exact .inl h
        · exact absurd (h.symm.trans (hidle (by omega))) (by decide)
        · exact absurd (h.symm.trans (hidle (by omega))) (by decide)

/-- Settles O21: an access that leaves the command running is a read, a refusal, a dropped issue, a clearing of flags or a
write to a register the command has latched. -/
theorem hostAccessesLeaveRunningCommand : Obligations.HostAccessesLeaveRunningCommand := by
  intro s a hp hnot
  have hbusy : (hostAccess s a).phase = .busy :=
    (hostAccess_phase_busy hp a).resolve_right fun ⟨w, ha, hw⟩ => Bool.false_ne_true ((hnot w ha).symm.trans hw)
  have heffect := hostAccess_effect s a
  generalize hostAccess s a = t at hbusy heffect ⊢
  have same : ∀ {x : Bool}, x = false → x = false := id
  cases heffect with
  | nothing | read | refusedRead | refusedWrite | dropped | register =>
    exact ⟨hp, rfl, rfl, rfl, rfl, rfl, rfl, rfl, rfl, rfl, rfl, rfl, rfl, rfl, rfl, rfl, rfl, rfl, rfl, same, same⟩
  | clear w =>
    have cleared : ∀ {x y : Bool}, x = false → (x && y) = false := fun hx => by rw [hx, Bool.false_and]
    exact ⟨hp, rfl, rfl, rfl, rfl, rfl, rfl, rfl, rfl, rfl, rfl, rfl, rfl, rfl, rfl, rfl, rfl, rfl, rfl, cleared, cleared⟩
  | reset => cases hbusy
  | accepted w h | dmem k w h | pr k j w h => exact absurd (hp.symm.trans h) (by decide)

end Sys2Proof.Machine
end

section
/-! PROOFS. The sampling commands over the draws they make (44_streams R202, R203, R205), and the draws over a source that
gives some bytes and then raises: what is consumed, and the bits left in the buffer (40_command R115, 44_streams R200). -/

namespace Sys2Proof.Machine

/-! ### Bits in a stream (44_streams R200) -/

/-- The number whose bits are those of `buf` followed by those of the bytes. -/
def streamValue (buf : Nat) (bytes : List Byte) : Nat := bytes.foldl (fun acc v => acc * 256 + v.toNat) buf

theorem streamValue_append (buf : Nat) (front rest : List Byte) :
    streamValue buf (front ++ rest) = streamValue (streamValue buf front) rest := List.foldl_append

/-- The bytes are the low bits; the bits before them stand above. -/
theorem streamValue_eq (bytes : List Byte) :
    ∃ low, low < 2 ^ (8 * bytes.length) ∧ ∀ buf, streamValue buf bytes = buf * 2 ^ (8 * bytes.length) + low := by
  induction bytes with
  | nil => exact ⟨0, by simp, fun buf => by simp [streamValue]⟩
  | cons v bytes ih =>
    obtain ⟨low, hlow, h⟩ := ih
    have hv : v.toNat < 256 := v.isLt
    have hpow : 2 ^ (8 * (v :: bytes).length) = 256 * 2 ^ (8 * bytes.length) := by
      rw [List.length_cons, Nat.mul_succ, pow_add, Nat.mul_comm]
      rfl
    refine ⟨v.toNat * 2 ^ (8 * bytes.length) + low, by rw [hpow]; nlinarith, fun buf => ?_⟩
    rw [show streamValue buf (v :: bytes) = streamValue (buf * 256 + v.toNat) bytes from rfl, h, hpow]
    ring

theorem streamValue_div (buf : Nat) (bytes : List Byte) : streamValue buf bytes / 2 ^ (8 * bytes.length) = buf := by
  obtain ⟨low, hlow, h⟩ := streamValue_eq bytes
  rw [h, Nat.add_comm, Nat.add_mul_div_right _ _ (by positivity), Nat.div_eq_of_lt hlow, Nat.zero_add]

theorem streamValue_mod (buf k : Nat) (bytes : List Byte) :
    streamValue (buf % 2 ^ k) bytes = streamValue buf bytes % 2 ^ (k + 8 * bytes.length) := by
  obtain ⟨low, hlow, h⟩ := streamValue_eq bytes
  have hk : buf % 2 ^ k < 2 ^ k := Nat.mod_lt _ (by positivity)
  have hlt : buf % 2 ^ k * 2 ^ (8 * bytes.length) + low < 2 ^ k * 2 ^ (8 * bytes.length) := by nlinarith
  rw [h, h, pow_add, ← Nat.mod_eq_of_lt hlt]
  exact ((Nat.mod_modEq buf (2 ^ k)).mul_right' _).add_right low

theorem streamValue_lt {buf k : Nat} (hb : buf < 2 ^ k) (bytes : List Byte) :
    streamValue buf bytes < 2 ^ (k + 8 * bytes.length) := by
  rw [← Nat.mod_eq_of_lt hb, streamValue_mod]
  exact Nat.mod_lt _ (by positivity)

/-- The groups of b bits of an L-bit number, the most significant first; fewer than b bits are left over. -/
def igfGroups (b L T : Nat) : List Nat := (List.range (L / b)).map fun j => T / 2 ^ (L - (j + 1) * b) % 2 ^ b

theorem igfGroups_length (b L T : Nat) : (igfGroups b L T).length = L / b := by
  rw [igfGroups, List.length_map, List.length_range]

theorem igfGroups_of_lt {b L : Nat} (h : L < b) (T : Nat) : igfGroups b L T = [] := by
  rw [igfGroups, Nat.div_eq_of_lt h, List.range_zero, List.map_nil]

/-- The first group, then those of the remaining bits. -/
theorem igfGroups_cons {b L T : Nat} (hb : 1 ≤ b) (hL : b ≤ L) (hT : T < 2 ^ L) :
    igfGroups b L T = T / 2 ^ (L - b) :: igfGroups b (L - b) (T % 2 ^ (L - b)) := by
  have hfirst : T / 2 ^ (L - b) < 2 ^ b := by
    rw [Nat.div_lt_iff_lt_mul (by positivity), ← pow_add, Nat.add_sub_cancel' hL]
    exact hT
  rw [igfGroups, Nat.div_eq_sub_div hb hL, List.range_succ_eq_map, List.map_cons, List.map_map, igfGroups, Nat.zero_add,
    Nat.one_mul, Nat.mod_eq_of_lt hfirst]
  refine congrArg _ (List.map_congr_left fun j hj => ?_)
  have hfit : (j + 1) * b ≤ L - b :=
    (Nat.mul_le_mul_right b (List.mem_range.mp hj)).trans (Nat.div_mul_le_self _ _)
  have hsplit : L - b = L - (j + 1 + 1) * b + (j + 1) * b := by rw [Nat.succ_mul (j + 1)]; omega
  rw [Function.comp_apply, Nat.succ_eq_add_one, show L - b - (j + 1) * b = L - (j + 1 + 1) * b by omega, hsplit, pow_add,
    Nat.mod_mul_right_div_self, Nat.mod_mod_of_dvd _ (pow_dvd_pow 2 (Nat.le_mul_of_pos_left b j.succ_pos))]

/-! ### A source that gives some bytes (44_streams R192) -/

/-- The buffered bits followed by those of the bytes (44_streams R200). -/
def igfAppend (g : Igf) (bytes : List Byte) : Igf :=
  { g with buf := streamValue g.buf bytes, nbits := g.nbits + 8 * bytes.length }

theorem igfAppend_cons (g : Igf) (v : Byte) (bytes : List Byte) :
    igfAppend g (v :: bytes) = igfAppend (igfPush g v) bytes := by
  rw [igfAppend, igfAppend, igfPush, List.length_cons, Nat.mul_succ, Nat.add_comm (8 * _), ← Nat.add_assoc]
  rfl

section Loops

variable {σ : Type} {p : σ → Res σ Byte} {e : Err}

/-- The source gives these bytes one after the other, and is then in state z. -/
def Gives (p : σ → Res σ Byte) : List Byte → σ → σ → Prop
  | [], x, z => x = z
  | v :: bytes, x, z => ∃ y, p x = .ok v y ∧ Gives p bytes y z

theorem Gives.append {front rest : List Byte} {x z : σ} (h : Gives p (front ++ rest) x z) :
    ∃ y, Gives p front x y ∧ Gives p rest y z := by
  induction front generalizing x with
  | nil => exact ⟨x, rfl, h⟩
  | cons v front ih =>
    obtain ⟨w, hw, h⟩ := h
    obtain ⟨y, hf, hr⟩ := ih h
    exact ⟨y, ⟨w, hw, hf⟩, hr⟩

theorem igfFill_gives {bytes : List Byte} {x z : σ} (h : Gives p bytes x z) (g : Igf) (k : Nat) :
    igfFill p (bytes.length + k) g x = igfFill p k (igfAppend g bytes) z := by
  induction bytes generalizing g x with
  | nil => cases h; simp [igfAppend, streamValue]
  | cons v bytes ih =>
    obtain ⟨y, hv, h⟩ := h
    rw [List.length_cons, Nat.add_right_comm, igfFill, hv, igfAppend_cons]
    exact ih h _

/-- A turn of IGF2 over the bytes its group needs: the group is accepted or rejected, the rest of the bits stays (44_streams
R200). -/
theorem igfNext_of_gives {bytes : List Byte} {x y : σ} {g : Igf} (h : Gives p bytes x y) (hl : bytes.length = igfNeed g)
    (turns rej : Nat) :
    igfNext p (turns + 1) rej g x =
      if igfGroup (igfAppend g bytes) < g.cut then
        .ok (igfGroup (igfAppend g bytes) % g.m, rej) (igfRest (igfAppend g bytes), y)
      else igfNext p turns (rej + 1) (igfRest (igfAppend g bytes)) y := by
  rw [igfNext, ← hl]
  exact congrArg (Res.bind · _) (igfFill_gives h g 0)

/-- A turn of IGF2 over fewer bytes than its group needs: they are buffered, and the pull's error ends it (40_command
R115). -/
theorem igfNext_runs_dry {bytes : List Byte} {x z : σ} {g : Igf} (h : Gives p bytes x z) (hz : p z = .err e z)
    (hl : bytes.length < igfNeed g) (turns rej : Nat) : igfNext p (turns + 1) rej g x = .err e (igfAppend g bytes, z) := by
  obtain ⟨k, hk⟩ : ∃ k, igfNeed g = bytes.length + (k + 1) := Nat.exists_eq_add_of_lt hl
  rw [igfNext, hk, igfFill_gives h, igfFill, hz, Res.bind_err]

/-! ### IGF2 over groups, then an error (44_streams R200) -/

/-- IGF2 with modulus m and cutoff `cut` draws these groups one after the other, and the next one ends with the error. -/
def DrawsThen (p : σ → Res σ Byte) (m cut : Nat) (e : Err) (z : Igf × σ) : List Nat → Igf × σ → Prop
  | [], x => ∀ turns rej, igfNext p (turns + 1) rej x.1 x.2 = .err e z
  | v :: vs, x =>
    ∃ y,
      (∀ turns rej, igfNext p (turns + 1) rej x.1 x.2 =
        if v < cut then .ok (v % m, rej) y else igfNext p turns (rej + 1) y.1 y.2) ∧
      DrawsThen p m cut e z vs y

/-- Over a source that gives the bytes and then raises, the groups are those of the buffered bits and the bytes; the bits
after the last whole group stay buffered. -/
theorem drawsThen_igfGroups {bytes : List Byte} {x z : σ} {g : Igf} {L T : Nat} (h : Gives p bytes x z)
    (hz : p z = .err e z) (hb : 1 ≤ g.b) (hbuf : g.buf < 2 ^ g.nbits) (hL : L = g.nbits + 8 * bytes.length)
    (hT : T = streamValue g.buf bytes) :
    DrawsThen p g.m g.cut e ({ g with buf := T % 2 ^ (L % g.b), nbits := L % g.b }, z) (igfGroups g.b L T) (g, x) := by
  have hlt : T < 2 ^ L := hT ▸ hL ▸ streamValue_lt hbuf bytes
  induction hG : L / g.b generalizing g bytes x L T with
  | zero =>
    have hLb : L < g.b := (Nat.div_eq_zero_iff.mp hG).resolve_left (by omega)
    rw [igfGroups_of_lt hLb, Nat.mod_eq_of_lt hLb, Nat.mod_eq_of_lt hlt, hT, hL]
    exact igfNext_runs_dry h hz (show bytes.length < (g.b - g.nbits + 7) / 8 by omega)
  | succ G ih =>
    have hbL : g.b ≤ L := (Nat.div_pos_iff.mp (by omega)).2
    have hneed : igfNeed g ≤ bytes.length := by rw [igfNeed]; omega
    obtain ⟨front, rest, rfl, hfront⟩ : ∃ front rest, bytes = front ++ rest ∧ front.length = igfNeed g :=
      ⟨_, _, (List.take_append_drop (igfNeed g) bytes).symm, List.length_take_of_le hneed⟩
    obtain ⟨y, hf, hr⟩ := h.append
    have hbits : g.b ≤ g.nbits + 8 * front.length := by rw [hfront, igfNeed]; omega
    have hrest : L - g.b = g.nbits + 8 * front.length - g.b + 8 * rest.length := by
      rw [hL, List.length_append]; omega
    rw [streamValue_append] at hT
    have hgroup : T / 2 ^ (L - g.b) = igfGroup (igfAppend g front) := by
      rw [hrest, Nat.add_comm, pow_add, ← Nat.div_div_eq_div_mul, hT, streamValue_div]
      rfl
    have hmod : T % 2 ^ (L - g.b) = streamValue (igfRest (igfAppend g front)).buf rest := by
      rw [hrest, hT, ← streamValue_mod]
      rfl
    rw [igfGroups_cons hb hbL hlt, hgroup]
    refine ⟨_, igfNext_of_gives hf hfront, ?_⟩
    have hleft : L % g.b = (L - g.b) % g.b := Nat.mod_eq_sub_mod hbL
    have hdvd : 2 ^ ((L - g.b) % g.b) ∣ 2 ^ (L - g.b) := pow_dvd_pow 2 (Nat.mod_le _ _)
    have next := ih (g := igfRest (igfAppend g front)) (T := T % 2 ^ (L - g.b)) hr hb (Nat.mod_lt _ (by positivity)) hrest hmod
      (Nat.mod_lt _ (by positivity)) (show (L - g.b) / g.b = G by rw [Nat.div_eq_sub_div hb hbL] at hG; omega)
    rw [hleft, ← Nat.mod_mod_of_dvd T hdvd]
    exact next

/-- A draw over the groups takes the first accepted one, or ends with the error. -/
theorem igfNext_of_drawsThen {m cut turns rej : Nat} {z x : Igf × σ} {vs : List Nat} (h : DrawsThen p m cut e z vs x)
    (ht : vs.length < turns) :
    igfNext p turns rej x.1 x.2 = .err e z ∨
      ∃ v rej' y rest, igfNext p turns rej x.1 x.2 = .ok (v % m, rej') y ∧ v ∈ vs ∧ v < cut ∧
        DrawsThen p m cut e z rest y ∧ rest ⊆ vs ∧ rest.length < vs.length := by
  obtain ⟨k, rfl⟩ : ∃ k, turns = k + 1 := ⟨turns - 1, by omega⟩
  induction vs generalizing k rej x with
  | nil => exact .inl (h k rej)
  | cons v vs ih =>
    obtain ⟨y, hturn, hy⟩ := h
    rw [hturn]
    by_cases hv : v < cut
    · exact .inr ⟨v, rej, y, vs, if_pos hv, List.mem_cons_self, hv, hy, List.subset_cons_self v vs, Nat.lt_succ_self _⟩
    · rw [if_neg hv]
      rw [List.length_cons] at ht
      obtain ⟨k, rfl⟩ : ∃ k', k = k' + 1 := ⟨k - 1, by omega⟩
      refine (ih hy (rej := rej + 1) k (by omega)).imp id ?_
      rintro ⟨u, rej', y', rest, hq, hu, hcut, hd, hsub, hlen⟩
      exact ⟨u, rej', y', rest, hq, List.mem_cons_of_mem v hu, hcut, hd, List.subset_cons_of_subset v hsub,
        hlen.trans (Nat.lt_succ_self _)⟩

/-- Where every group is rejected the draw ends with the error. -/
theorem igfNext_rejects_all {m cut turns rej : Nat} {z x : Igf × σ} {vs : List Nat} (h : DrawsThen p m cut e z vs x)
    (ht : vs.length < turns) (hrej : ∀ v ∈ vs, cut ≤ v) : igfNext p turns rej x.1 x.2 = .err e z := by
  rcases igfNext_of_drawsThen h ht (rej := rej) with hq | ⟨v, -, -, -, -, hv, hcut, -⟩
  · exact hq
  · exact absurd (hrej v hv) (by omega)

/-! ### BPGM3 over groups, then an error (44_streams R203) -/

/-- i is the index of an accepted group. -/
def IsAcceptedIndex (m cut : Nat) (vs : List Nat) (i : Nat) : Prop := ∃ v ∈ vs, v < cut ∧ v % m = i

theorem bpgmDraw_ne_zero {acc : Bpgm} {val : Int} {d r i : Nat} (h : at' (bpgmDraw acc val d r).t i ≠ 0) :
    at' acc.t i ≠ 0 ∨ d = i := by
  by_cases hd : d = i
  · exact .inr hd
  · refine .inl fun h0 => h ?_
    rw [bpgmDraw]
    split
    · rwa [at', List.getD_eq_getElem?_getD, List.getElem?_set_ne hd, ← List.getD_eq_getElem?_getD]
    · exact h0

/-- The placing of one value over the groups ends with the error, or sets coefficients at accepted indices alone. -/
theorem bpgmPlace_of_drawsThen {m cut turns left need : Nat} {val : Int} {acc : Bpgm} {z x : Igf × σ} {vs : List Nat}
    (h : DrawsThen p m cut e z vs x) (ht : vs.length < turns) (hl : vs.length < left) :
    bpgmPlace p turns val left need acc x = .err e z ∨
      ∃ r y rest, bpgmPlace p turns val left need acc x = .ok r y ∧ DrawsThen p m cut e z rest y ∧ rest ⊆ vs ∧
        rest.length ≤ vs.length ∧ ∀ i, at' r.t i ≠ 0 → at' acc.t i ≠ 0 ∨ IsAcceptedIndex m cut vs i := by
  induction left generalizing need acc x vs with
  | zero => exact absurd hl (Nat.not_lt_zero _)
  | succ left ih =>
    cases need with
    | zero => exact .inr ⟨acc, x, vs, rfl, h, List.Subset.refl vs, le_refl _, fun i hi => .inl hi⟩
    | succ need =>
      rw [bpgmPlace]
      rcases igfNext_of_drawsThen h ht (rej := 0) with hq | ⟨v, rej, y, rest, hq, hv, hcut, hd, hsub, hlen⟩
      · exact .inl (by rw [hq, Res.bind_err])
      · rw [hq, Res.bind_ok]
        refine (ih hd (by omega) (by omega)).imp id ?_
        rintro ⟨r, y', rest', hr, hd', hsub', hlen', hset⟩
        refine ⟨r, y', rest', hr, hd', List.Subset.trans hsub' hsub, by omega, fun i hi => ?_⟩
        rcases hset i hi with hi | ⟨u, hu, hu'⟩
        · exact (bpgmDraw_ne_zero hi).imp id fun hvi => ⟨v, hv, hcut, hvi⟩
        · exact .inr ⟨u, hsub hu, hu'⟩

/-- BPGM3 over the groups ends with the error, or its nonzero coefficients stand at accepted indices. -/
theorem bpgm3_of_drawsThen {m cut turns N ones negs : Nat} {z x : Igf × σ} {vs : List Nat}
    (h : DrawsThen p m cut e z vs x) (ht : vs.length < turns) :
    bpgm3 p turns N ones negs x = .err e z ∨
      ∃ r y, bpgm3 p turns N ones negs x = .ok r y ∧ ∀ i, at' r.t i ≠ 0 → IsAcceptedIndex m cut vs i := by
  rw [bpgm3]
  rcases bpgmPlace_of_drawsThen h ht ht (val := 1) (need := ones) with hq | ⟨acc, y, rest, hq, hd, hsub, hlen, hset⟩
  · exact .inl (by rw [hq, Res.bind_err])
  · rw [hq, Res.bind_ok]
    refine (bpgmPlace_of_drawsThen hd (by omega) (by omega)).imp id ?_
    rintro ⟨r, y', rest', hr, -, -, -, hset'⟩
    refine ⟨r, y', hr, fun i hi => ?_⟩
    rcases hset' i hi with hi | ⟨v, hv, hv'⟩
    · refine (hset i hi).resolve_left fun h0 => h0 ?_
      by_cases hiN : i < N
      · exact at'_tab _ hiN
      · exact at'_tab_ge _ (by omega)
    · exact ⟨v, hsub hv, hv'⟩

end Loops

/-- The indices of the coefficients other than 0. -/
def nonzeroIndices (N : Nat) (t : Vec) : Finset Nat := (Finset.range N).filter fun i => at' t i ≠ 0

theorem card_nonzeroIndices (N : Nat) (t : Vec) : (nonzeroIndices N t).card + countSym N t 0 = N := by
  have hzero : countSym N t 0 = ((Finset.range N).filter fun i => ¬ at' t i ≠ 0).card := by
    rw [countSym, List.countP_eq_length_filter]
    refine congrArg List.length (List.filter_congr fun i _ => ?_)
    rw [Bool.eq_iff_iff, beq_iff_eq, decide_eq_true_eq]
    exact not_not.symm
  rw [nonzeroIndices, hzero, Finset.card_filter_add_card_filter_not, Finset.card_range]

/-- Every accepted index belongs to a new group, the first that gave it: there are no more of them than new groups. -/
theorem card_acceptedIndices_le {m cut G : Nat} {v : Nat → Nat} {fresh : Nat → Bool} {S : Finset Nat}
    (hfresh : ∀ j, j < G → (fresh j = true ↔ v j < cut ∧ ∀ i, i < j → v i < cut → v i % m ≠ v j % m))
    (hS : ∀ i ∈ S, ∃ j, j < G ∧ v j < cut ∧ v j % m = i) :
    S.card ≤ ((Finset.range G).filter fun j => fresh j = true).card := by
  refine Finset.card_le_card_of_surjOn (fun j => v j % m) fun i hi => ?_
  classical
  have hex := hS i hi
  obtain ⟨hG, hcut, hi⟩ := Nat.find_spec hex
  refine ⟨Nat.find hex, ?_, hi⟩
  rw [Finset.mem_coe, Finset.mem_filter, Finset.mem_range]
  refine ⟨hG, (hfresh _ hG).mpr ⟨hcut, fun k hk hkcut hkeq => ?_⟩⟩
  exact Nat.find_min hex hk ⟨hk.trans hG, hkcut, hkeq.trans hi⟩

/-! ### MGF_TP_1 over bytes, then an error (44_streams R204) -/

/-- Bytes that with those after them do not complete the N trits do not complete them. -/
theorem tpAfter_incomplete {N : Nat} {done bytes : List Byte} (h : 5 * (acceptedBytes (done ++ bytes)).length < N) :
    ¬ N ≤ (tpAfter N done).t.length := by
  have hle : (acceptedBytes done).length ≤ (acceptedBytes (done ++ bytes)).length :=
    ((List.sublist_append_left done bytes).filter _).length_le
  rw [tpAfter_length]
  omega

/-- The trit decoder over bytes that do not complete the N trits ends with the pull's error. -/
theorem tpDecode_runs_dry {σ : Type} {p : σ → Res σ Byte} {e : Err} {N turns : Nat} {bytes : List Byte} {x z : σ}
    (done : List Byte) (h : Gives p bytes x z) (hz : p z = .err e z) (ht : bytes.length < turns)
    (hN : 5 * (acceptedBytes (done ++ bytes)).length < N) : tpDecode p N turns (tpAfter N done) x = .err e z := by
  induction bytes generalizing done turns x with
  | nil =>
    obtain ⟨k, rfl⟩ := Nat.exists_eq_add_of_lt ht
    cases h
    rw [tpDecode, if_neg (tpAfter_incomplete hN), hz, Res.bind_err]
  | cons v bytes ih =>
    obtain ⟨k, rfl⟩ := Nat.exists_eq_add_of_lt ht
    obtain ⟨y, hv, h⟩ := h
    rw [tpDecode, if_neg (tpAfter_incomplete hN), hv, Res.bind_ok, tpByte_tpAfter]
    exact ih (done ++ [v]) h (by rw [List.length_cons]; omega) (by rwa [List.append_assoc])

/-! ### The sources that raise (44_streams R192) -/

section Pull

variable {mem : Memory} {impl : DigestImpl} {f : Feed}

theorem pull_none (h : f.su.src = .none) : pull mem impl f = .err .noSource f := by simp [pull, h]

theorem pull_rng (h : f.su.src = .rng) : pull mem impl f = rngPull f := by simp [pull, h]

theorem pull_mgf (h : f.su.src = .mgf) :
    pull mem impl f =
      .ok (mgfPull impl f.su.mgf).1 { f with su := { f.su with mgf := (mgfPull impl f.su.mgf).2 } } := by
  simp [pull, h]

theorem pull_mem (h : f.su.src = .mem) (hne : f.su.mcur ≠ f.su.mend) :
    pull mem impl f = .ok (mem.read f.su.mcur) { f with su := { f.su with mcur := f.su.mcur + 1 } } := by
  simp [pull, h, hne]

theorem pull_mem_end (h : f.su.src = .mem) (heq : f.su.mcur = f.su.mend) : pull mem impl f = .err .srcExhausted f := by
  simp [pull, h, heq]

end Pull

/-- The consumption of n bytes from memory. -/
def Feed.advance (f : Feed) (n : Nat) : Feed := { f with su := { f.su with mcur := f.su.mcur + n } }

theorem readBytes_succ (m : Memory) (a n : Nat) : m.readBytes a (n + 1) = m.read a :: m.readBytes (a + 1) n := by
  rw [Memory.readBytes, List.range_succ_eq_map, List.map_cons, List.map_map, Nat.add_zero]
  exact congrArg _ (List.map_congr_left fun i _ => congrArg m.read (by rw [Nat.succ_eq_add_one]; omega))

/-- Memory gives the bytes from the cursor on, up to the end of the range. -/
theorem pull_gives {mem : Memory} {impl : DigestImpl} {n : Nat} {f : Feed} (hs : f.su.src = .mem)
    (hn : f.su.mcur + n ≤ f.su.mend) : Gives (pull mem impl) (mem.readBytes f.su.mcur n) f (f.advance n) := by
  induction n generalizing f with
  | zero => rfl
  | succ n ih =>
    rw [readBytes_succ]
    refine ⟨f.advance 1, pull_mem hs (by omega), ?_⟩
    · have next := ih (f := f.advance 1) hs (show f.su.mcur + 1 + n ≤ f.su.mend by omega)
      rw [show f.advance (n + 1) = (f.advance 1).advance n by simp only [Feed.advance]; congr 2; omega]
      exact next

/-- Without a source, or with n bytes left in memory, the pulls give those bytes and then raise (R192). -/
theorem State.pull_runs_dry {s : State} {e : Err} {n : Nat}
    (h : s.su.src = .none ∧ e = .noSource ∧ n = 0 ∨ s.su.src = .mem ∧ e = .srcExhausted ∧ s.su.mcur + n = s.su.mend) :
    Gives s.pull (s.dmem.readBytes s.su.mcur n) s.feed (s.feed.advance n) ∧
      s.pull (s.feed.advance n) = .err e (s.feed.advance n) := by
  rcases h with ⟨hs, rfl, rfl⟩ | ⟨hs, rfl, hn⟩
  · exact ⟨rfl, pull_none hs⟩
  · exact ⟨pull_gives (f := s.feed) hs (le_of_eq hn), pull_mem_end hs hn⟩

/-! ### The commands (44_streams R202, R203, R205) -/

theorem execIgfnext_run {s : State} (h : s.su.igf.act = true) :
    exec .igfnext s = conclude s ((drawIndex s).bind fun d f =>
      .ok { res0 := some (BitVec.ofNat 32 d.1), res1 := some (countWord d.2) } f) := by
  rw [exec, execIgfnext, if_pos h]

theorem execIgfnext_inactive {s : State} (h : s.su.igf.act = false) :
    exec .igfnext s = .next (s.failedWith .precondition) := by
  rw [exec, execIgfnext, if_neg (by rw [h]; exact Bool.false_ne_true), conclude_err, consume_feed]

theorem execTrismp_run {s : State} (rd : PReg) (h : trismpOk s = true) :
    exec (.trismp rd) s = conclude s ((drawTrinomial s).bind fun r f =>
      .ok { pr := some (rd, Poly.ofVec s.dim r.t), res0 := some (countWord r.draws), res1 := some (countWord r.rej) } f) := by
  rw [exec, execTrismp, if_pos h]

theorem execTrismp_refused {s : State} (rd : PReg) (h : ¬ trismpOk s = true) :
    exec (.trismp rd) s = .next (s.failedWith .precondition) := by
  rw [exec, execTrismp, if_neg h, conclude_err, consume_feed]

theorem execTrimgf_refused {s : State} (rd : PReg) (h : ¬ s.DimPre) :
    exec (.trimgf rd) s = .next (s.failedWith .precondition) := by
  rw [exec, execTrimgf, if_neg (fun hd => h ((dimOk_iff s).mp hd)), conclude_err, consume_feed]

/-- The trinomial TRISMP draws is the one its destination holds. -/
theorem drawTrinomial_holds {s : State} {r : Bpgm} {f : Feed} (hN : s.DimPre) (hm : s.su.igf.m = s.dim)
    (h : drawTrinomial s = .ok r f) : (Poly.ofVec s.dim r.t).Holds s.dim (at' r.t) := by
  obtain ⟨x, hx, -⟩ := Res.mapState_eq_ok.mp h
  obtain ⟨-, -, -, -, -, htri⟩ := bpgm3_ok hN.1 hm hx
  exact IsTrinomial.holds htri hN.2

/-- The trits TRIMGF decodes are the ones its destination holds. -/
theorem decodeTrits_holds {s : State} {r : TpAcc} {f : Feed} (hN : s.DimPre) (h : decodeTrits s = .ok r f) :
    (Poly.ofVec s.dim r.t).Holds s.dim (at' r.t) :=
  (isTrinomial_of_mem (tpDecode_ok (Nat.zero_le _) (by simp) h).2).holds hN.2

/-- An index below the modulus where the modulus is not 0 (44_streams R200). -/
theorem drawIndex_lt {s : State} {d : Nat × Nat} {f : Feed} (hm : 1 ≤ s.su.igf.m) (h : drawIndex s = .ok d f) :
    d.1 < s.su.igf.m := by
  obtain ⟨x, hx, -⟩ := Res.mapState_eq_ok.mp h
  exact igfNext_lt _ _ _ _ hm hx

/-- The state after the n bytes left are consumed, with the IGF2 state they leave: the bits after the last whole group
buffered (40_command R115). -/
def State.ranDry (s : State) (n : Nat) (g : Igf) : State :=
  { s with su := { s.su with mcur := s.su.mcur + n, igf := g } }

theorem consume_withIgf_advance (s : State) (n : Nat) (g : Igf) :
    s.consume (Feed.withIgf (g, s.feed.advance n)) = s.ranDry n g := by
  simp [State.consume, State.feed, Feed.withIgf, Feed.advance, State.ranDry]

/-- IGFNEXT over groups that are all rejected, then an error (40_command R115). -/
theorem execIgfnext_runs_dry {s : State} {e : Err} {n cut m : Nat} {g : Igf} {vs : List Nat} (hact : s.su.igf.act = true)
    (h : DrawsThen s.pull m cut e (g, s.feed.advance n) vs (s.su.igf, s.feed)) (ht : vs.length < s.turns)
    (hrej : ∀ v ∈ vs, cut ≤ v) : exec .igfnext s = .next ((s.ranDry n g).failedWith e) := by
  have hdraw : drawIndex s = .err e (Feed.withIgf (g, s.feed.advance n)) := by
    rw [drawIndex, igfNext_rejects_all h ht hrej, Res.mapState_err]
  rw [execIgfnext_run hact, hdraw, Res.bind_err, conclude_err, consume_withIgf_advance]

/-- TRISMP over groups with too few new indices among them, then an error (40_command R115). -/
theorem execTrismp_runs_dry {s : State} {e : Err} {n cut : Nat} {g : Igf} {vs : List Nat} (rd : PReg)
    (hok : trismpOk s = true) (h : DrawsThen s.pull s.su.igf.m cut e (g, s.feed.advance n) vs (s.su.igf, s.feed))
    (ht : vs.length < s.turns)
    (hfew : ∀ S : Finset Nat, (∀ i ∈ S, IsAcceptedIndex s.su.igf.m cut vs i) → S.card < s.argA + s.argB) :
    exec (.trismp rd) s = .next ((s.ranDry n g).failedWith e) := by
  obtain ⟨hN, -, hm, -⟩ := (trismpOk_iff s).mp hok
  have hdraw : drawTrinomial s = .err e (Feed.withIgf (g, s.feed.advance n)) := by
    rw [drawTrinomial]
    rcases bpgm3_of_drawsThen h ht (N := s.dim) (ones := s.argA) (negs := s.argB) with hq | ⟨r, y, hq, hset⟩
    · rw [hq, Res.mapState_err]
    · obtain ⟨-, -, -, hweights, -⟩ := bpgm3_ok (N := s.dim) hN.1 hm hq
      have hnonzero := card_nonzeroIndices s.dim r.t
      have hlt := hfew (nonzeroIndices s.dim r.t) fun i hi => hset i (Finset.mem_filter.mp hi).2
      omega
  rw [execTrismp_run rd hok, hdraw, Res.bind_err, conclude_err, consume_withIgf_advance]

/-- TRIMGF over bytes that do not complete the N trits, then an error (40_command R115). -/
theorem execTrimgf_runs_dry {s : State} {e : Err} {n : Nat} {bytes : List Byte} (rd : PReg) (hN : s.DimPre)
    (h : Gives s.pull bytes s.feed (s.feed.advance n)) (hz : s.pull (s.feed.advance n) = .err e (s.feed.advance n))
    (ht : bytes.length < s.turns) (hfew : (acceptedBytes bytes).length < (s.dim + 4) / 5) :
    exec (.trimgf rd) s = .next ((s.ranDry n s.su.igf).failedWith e) := by
  have hstart : (⟨[], 0, 0⟩ : TpAcc) = tpAfter s.dim [] := by simp [tpAfter, acceptedBytes]
  have hdraw : decodeTrits s = .err e (s.feed.advance n) := by
    rw [decodeTrits, hstart]
    exact tpDecode_runs_dry [] h hz ht (by rw [List.nil_append]; omega)
  rw [execTrimgf_run rd hN, hdraw, Res.bind_err, conclude_err]
  exact congrArg (fun t => Host.Outcome.next (State.failedWith t e)) (consume_withIgf_advance s n s.su.igf)

theorem streamValue_readBytes (buf : Nat) (m : Memory) (a n : Nat) :
    streamValue buf (m.readBytes a n) =
      (List.range n).foldl (fun acc i => acc * 256 + (m.read (a + i)).toNat) buf := by
  rw [streamValue, Memory.readBytes, List.foldl_map]

/-- Settles O39: each command ends as its draw does, and a draw over a source that gives n bytes and then raises is one over
the groups, or the bytes, that they make. -/
theorem samplingCommandsEndAsTheirDraws : Obligations.SamplingCommandsEndAsTheirDraws := by
  refine ⟨fun n hn => countWord_of_lt hn, fun s hact => ⟨fun d f h => ?_, fun e f h => ?_⟩,
    fun s hact => execIgfnext_inactive hact, fun s rd hN hact hm hsum => ?_, fun s rd h => ?_,
    fun s rd hN => ⟨fun r f h => ?_, fun e f h => ?_⟩, fun s rd h => execTrimgf_refused rd h, fun s f => ?_,
    fun s rd e n hsrc => ⟨fun hN ht hfew => ?_, ?_⟩⟩
  · refine ⟨fun hm => drawIndex_lt hm h, ?_⟩
    rw [execIgfnext_run hact, h]
    rfl
  · rw [execIgfnext_run hact, h]
    rfl
  · have hrun := execTrismp_run rd ((trismpOk_iff s).mpr ⟨hN, hact, hm, hsum⟩)
    refine ⟨fun r f h => ⟨_, drawTrinomial_holds hN hm h, ?_⟩, fun e f h => ?_⟩
    · rw [hrun, h]
      rfl
    · rw [hrun, h]
      rfl
  · exact execTrismp_refused rd fun hok => h ((trismpOk_iff s).mp hok)
  · refine ⟨_, decodeTrits_holds hN h, ?_⟩
    rw [execTrimgf_run rd hN, h]
    rfl
  · rw [execTrimgf_run rd hN, h]
    rfl
  · refine ⟨pull_none, pull_mem_end, pull_mem, pull_mgf, fun hs hr => ?_, fun v rest hs hr => ?_⟩
    · rw [State.pull, pull_rng hs, rngPull, hr]
    · rw [State.pull, pull_rng hs, rngPull, hr]
  · obtain ⟨hgives, hraises⟩ := State.pull_runs_dry hsrc
    exact execTrimgf_runs_dry rd hN hgives hraises (by rw [Memory.length_readBytes]; exact ht) hfew
  · intro g total bits G v fresh u hg hact hok hbits hG hturns htotal hv hu
    subst hg hbits hG hu
    obtain ⟨hb, -, -, -, -, hbuf, -⟩ := hok.2 hact
    obtain ⟨hgives, hraises⟩ := State.pull_runs_dry hsrc
    have hdraws := drawsThen_igfGroups hgives hraises hb hbuf rfl rfl
    rw [Memory.length_readBytes, streamValue_readBytes, ← htotal] at hdraws
    have hlen := igfGroups_length s.su.igf.b (s.su.igf.nbits + 8 * n) total
    have hmem : ∀ w ∈ igfGroups s.su.igf.b (s.su.igf.nbits + 8 * n) total,
        ∃ j, j < (s.su.igf.nbits + 8 * n) / s.su.igf.b ∧ v j = w := fun w hw => by
      obtain ⟨j, hj, rfl⟩ := List.mem_map.mp hw
      exact ⟨j, List.mem_range.mp hj, hv j (List.mem_range.mp hj)⟩
    refine ⟨fun hrej => ?_, fun hN hm hsum hfresh hfew => ?_⟩
    · refine execIgfnext_runs_dry hact hdraws (by rw [hlen]; exact hturns) fun w hw => ?_
      obtain ⟨j, hj, rfl⟩ := hmem w hw
      exact hrej j hj
    · refine execTrismp_runs_dry rd ((trismpOk_iff s).mpr ⟨hN, hact, hm, hsum⟩) hdraws (by rw [hlen]; exact hturns)
        fun S hS => (card_acceptedIndices_le hfresh fun i hi => ?_).trans_lt hfew
      obtain ⟨w, hw, hcut, hi⟩ := hS i hi
      obtain ⟨j, hj, rfl⟩ := hmem w hw
      exact ⟨j, hj, hcut, hi⟩

end Sys2Proof.Machine
end

section
/-! PROOFS. The coefficient-wise commands and the product of the ring (41_poly_arith R130 to R137). -/

namespace Sys2Proof.Machine

/-! ### The output function (41_poly_arith R131) -/

/-- red(v, m, low) is congruent to v mod m (00_scope R15). -/
theorem dvd_red_sub (v m low : Int) : m ∣ red v m low - v := by
  rw [red, show low + (v - low) % m - v = -((v - low) - (v - low) % m) by ring]
  exact (Int.dvd_self_sub_emod).neg_right

/-- wrap16(v) is congruent to v mod 2^16 (00_scope R15). -/
theorem dvd_wrap16_sub (v : Int) : (65536 : Int) ∣ wrap16 v - v := by
  rw [wrap16]
  omega

/-- Under the checks of R130 every output fits a coefficient: the reducer's by the range of MOD and LOW. -/
theorem out_range {s : State} {reduces : Bool} (h : s.RingPre reduces) (v : Int) :
    -32768 ≤ s.out reduces v ∧ s.out reduces v ≤ 32767 := by
  cases reduces with
  | false => exact wrap16_range v
  | true =>
    obtain ⟨-, hreduces⟩ := h
    obtain ⟨hm, -, hlow, hhigh⟩ := hreduces rfl
    have hm : 1 ≤ s.modulus := Int.ofNat_le.mpr hm
    have hhigh : s.low + s.modulus - 1 ≤ 32767 := hhigh
    obtain ⟨hge, hlt⟩ := red_range (v := v) (low := s.low) hm
    rw [State.out, if_pos rfl]
    exact ⟨hlow.trans hge, by omega⟩

/-! ### The shape of PADD, PSUB, PCONV and PRED (41_poly_arith R130, R133) -/

/-- Under the checks the command writes the outputs of f below N, here said as g, and completes. -/
theorem ringCommand_completes {s : State} (rd : PReg) {reduces : Bool} {f g : Nat → Int} (h : s.RingPre reduces)
    (hfg : ∀ i, i < s.dim → f i = g i) :
    ∃ p : Poly, conclude s (ofExcept s.feed (ringCommand s rd reduces f)) = .next (s.finished.setPr rd p) ∧
      p.Holds s.ctx.cfgN.toNat fun i => s.out reduces (g i) := by
  refine ⟨_, ?_, (Poly.holds_ofFn h.1.2 fun i _ => out_range h (f i)).congr fun i hi => congrArg _ (hfg i hi)⟩
  rw [ringCommand, if_pos ((ringOk_iff s reduces).mpr h), ofExcept_ok, conclude_ok, consume_feed]
  rfl

/-- A failed check is a PRECONDITION, and nothing is written. -/
theorem ringCommand_refused {s : State} (rd : PReg) {reduces : Bool} (f : Nat → Int) (h : ¬ s.RingPre reduces) :
    conclude s (ofExcept s.feed (ringCommand s rd reduces f)) = .next (s.failedWith .precondition) := by
  rw [ringCommand, if_neg (mt (ringOk_iff s reduces).mp h), ofExcept_error, conclude_err, consume_feed]

/-! ### The cyclic convolution (41_poly_arith R135) -/

/-- The index k - i mod N is an involution of the indices below N. -/
theorem cyclicIndex_cyclicIndex {N i : Nat} (k : Nat) (hi : i < N) : (k + N - (k + N - i) % N) % N = i := by
  have hdiv := Nat.div_add_mod (k + N - i) N
  have hback : k + N - (k + N - i) % N = i + N * ((k + N - i) / N) := by omega
  rw [hback, Nat.add_mul_mod_self_left, Nat.mod_eq_of_lt hi]

/-- The index of the model is the spec's mod(k - i, N). -/
theorem cyclicIndex_eq_emod {N i : Nat} (k : Nat) (hi : i < N) :
    (k + N - i) % N = (((k : Int) - i) % (N : Int)).toNat := by
  have hcast : ((k + N - i : Nat) : Int) = (k : Int) - i + N := by omega
  rw [← Int.add_emod_right, ← hcast]
  exact (Int.toNat_natCast _).symm

/-- The product of the ring is commutative: the sum is taken in the order of the other factor's indices. -/
theorem convAt_comm (N : Nat) (a b : Vec) : convAt N a b = convAt N b a := by
  funext k
  have below : ∀ i ∈ Finset.range N, (k + N - i) % N ∈ Finset.range N := fun i hi =>
    Finset.mem_range.mpr (Nat.mod_lt _ (Nat.zero_lt_of_lt (Finset.mem_range.mp hi)))
  have back : ∀ i ∈ Finset.range N, (k + N - (k + N - i) % N) % N = i := fun i hi =>
    cyclicIndex_cyclicIndex k (Finset.mem_range.mp hi)
  rw [convAt, convAt, sumTo_eq_sum, sumTo_eq_sum]
  refine Finset.sum_nbij' (fun i => (k + N - i) % N) (fun i => (k + N - i) % N) below below back back fun i hi => ?_
  rw [back i hi, mul_comm]

/-- The convolution of two source polynomials, over the coefficients of the registers. -/
theorem convAt_source (s : State) (rs1 rs2 : PReg) (k : Nat) :
    convAt s.dim (s.source rs1) (s.source rs2) k = ∑ i ∈ Finset.range s.ctx.cfgN.toNat,
      s.pr[rs1].coeff i * s.pr[rs2].coeff (((k : Int) - i) % (s.ctx.cfgN.toNat : Int)).toNat := by
  rw [convAt, sumTo_eq_sum]
  refine Finset.sum_congr rfl fun i hi => ?_
  have hi : i < s.dim := Finset.mem_range.mp hi
  rw [at'_source s rs1 hi, at'_source s rs2 (Nat.mod_lt _ (Nat.zero_lt_of_lt hi)), cyclicIndex_eq_emod k hi]
  rfl

/-! ### PEQ (41_poly_arith R137) -/

theorem polyEq_iff (s : State) (rs1 rs2 : PReg) :
    polyEq s rs1 rs2 = true ↔ ∀ i, i < s.ctx.cfgN.toNat → s.pr[rs1].coeff i = s.pr[rs2].coeff i := by
  simp only [polyEq, List.all_eq_true, List.mem_range, beq_iff_eq]
  exact forall₂_congr fun i hi => by rw [at'_source s rs1 hi, at'_source s rs2 hi]

/-- With N in range PEQ writes its answer to EQ and RES0 and completes. -/
theorem execPeq_run {s : State} (rs1 rs2 : PReg) (h : s.DimPre) :
    exec (.peq rs1 rs2) s = .next { s.finished with
      res0 := if polyEq s rs1 rs2 then 1#32 else 0#32
      status := { s.status with done := true, eq := polyEq s rs1 rs2 } } := by
  rw [exec, execPeq, if_pos ((dimOk_iff s).mpr h), ofExcept_ok, conclude_ok, consume_feed]
  rfl

theorem execPeq_refused {s : State} (rs1 rs2 : PReg) (h : ¬ s.DimPre) :
    exec (.peq rs1 rs2) s = .next (s.failedWith .precondition) := by
  rw [exec, execPeq, if_neg (mt (dimOk_iff s).mp h), ofExcept_error, conclude_err, consume_feed]

/-! ### The obligations -/

/-- Settles O27: both commands have the shape of `ringCommand`, over sources read below N. -/
theorem addAndSubtract : Obligations.AddAndSubtract := by
  refine ⟨fun v => ⟨(wrap16_range v).1, (wrap16_range v).2, dvd_wrap16_sub v⟩, fun rd rs1 rs2 red' s =>
    ⟨fun h => ⟨ringCommand_completes rd h fun i hi => ?_, ringCommand_completes rd h fun i hi => ?_⟩,
      fun h => ⟨ringCommand_refused rd _ h, ringCommand_refused rd _ h⟩⟩⟩
  all_goals rw [at'_source s rs1 hi, at'_source s rs2 hi]

/-- Settles O28: the shape of `ringCommand` over the convolution, which is commutative. -/
theorem cyclicConvolution : Obligations.CyclicConvolution := by
  intro rd rs1 rs2 red' s
  refine ⟨fun h => ringCommand_completes rd h fun k _ => convAt_source s rs1 rs2 k,
    fun h => ringCommand_refused rd _ h, ?_⟩
  rw [exec, exec, execPconv, execPconv, convAt_comm]

/-- Settles O29: the shape of `ringCommand` with the reducer on. -/
theorem recentring : Obligations.Recentring := by
  refine ⟨fun v m low hm => ⟨(red_range hm).1, (red_range hm).2, dvd_red_sub v m low⟩, fun rd rs1 s =>
    ⟨fun h => ?_, fun h => ringCommand_refused rd _ h⟩⟩
  exact ringCommand_completes rd h fun i hi => at'_source s rs1 hi

/-- Settles O30: the answer of the comparison decides what is written. -/
theorem coefficientwiseEquality : Obligations.CoefficientwiseEquality := by
  refine fun rs1 rs2 s => ⟨fun hN heq => ?_, fun hN hne => ?_, execPeq_refused rs1 rs2⟩
  · rw [execPeq_run rs1 rs2 hN, (polyEq_iff s rs1 rs2).mpr heq, if_pos rfl]
  · have hfalse : polyEq s rs1 rs2 = false := Bool.eq_false_iff.mpr (mt (polyEq_iff s rs1 rs2).mp hne)
    rw [execPeq_run rs1 rs2 hN, hfalse, if_neg Bool.false_ne_true]

end Sys2Proof.Machine
end

section
/-! PROOFS. The two inverters answer the ring's inverse, or that there is none (42_inversion R150 to R154). -/

namespace Sys2Proof.Machine
open Polynomial (X)
open scoped Polynomial

/-! ### The value of coefficients at a point -/

section
variable {T : Type*} [CommRing T]

/-- The value at x of the polynomial with coefficient `f i` at X^i, i < n. With x the class of X it is the element of the
ring that the coefficients represent; with x = X it is the polynomial itself. -/
def evalAt (x : T) (n : Nat) (f : Nat → Int) : T := ∑ i ∈ Finset.range n, (f i : T) * x ^ i

theorem evalAt_congr {x : T} {n : Nat} {f g : Nat → Int} (h : ∀ i, i < n → (f i : T) = g i) :
    evalAt x n f = evalAt x n g :=
  Finset.sum_congr rfl fun i hi => by rw [h i (Finset.mem_range.mp hi)]

theorem evalAt_eq_zero {x : T} {n : Nat} {f : Nat → Int} (h : ∀ i, i < n → f i = 0) : evalAt x n f = 0 :=
  Finset.sum_eq_zero fun i hi => by rw [h i (Finset.mem_range.mp hi), Int.cast_zero, zero_mul]

theorem evalAt_add (x : T) (n : Nat) (f g : Nat → Int) :
    evalAt x n (fun i => f i + g i) = evalAt x n f + evalAt x n g := by
  simp only [evalAt, ← Finset.sum_add_distrib]
  exact Finset.sum_congr rfl fun i _ => by push_cast; ring

theorem evalAt_mul (x : T) (n : Nat) (u : Int) (f : Nat → Int) :
    evalAt x n (fun i => u * f i) = u * evalAt x n f := by
  simp only [evalAt, Finset.mul_sum]
  exact Finset.sum_congr rfl fun i _ => by push_cast; ring

theorem evalAt_sub (x : T) (n : Nat) (f g : Nat → Int) :
    evalAt x n (fun i => f i - g i) = evalAt x n f - evalAt x n g := by
  simp only [evalAt, ← Finset.sum_sub_distrib]
  exact Finset.sum_congr rfl fun i _ => by push_cast; ring

/-- One coefficient alone. -/
theorem evalAt_single (x : T) {n j : Nat} (hj : j < n) (v : Int) :
    evalAt x n (fun i => if i = j then v else 0) = v * x ^ j := by
  rw [evalAt, Finset.sum_eq_single_of_mem j (Finset.mem_range.mpr hj), if_pos rfl]
  exact fun i _ hne => by rw [if_neg hne, Int.cast_zero, zero_mul]

/-- Where m is 0, a residue mod m stands for the value. -/
theorem intCast_emod {m : Int} (hm : (m : T) = 0) (v : Int) : ((v % m : Int) : T) = v := by
  rw [Int.emod_def, Int.cast_sub, Int.cast_mul, hm, zero_mul, sub_zero]

theorem evalAt_tab_emod {m : Int} (hm : (m : T) = 0) (x : T) (n : Nat) (f : Nat → Int) :
    evalAt x n (at' (tab n fun i => f i % m)) = evalAt x n f :=
  evalAt_congr fun i hi => by rw [at'_tab _ hi, intCast_emod hm]

/-- A constant coefficient 0 is a factor X. -/
theorem evalAt_shift (x : T) {n : Nat} {f : Nat → Int} (h0 : f 0 = 0) (hn : f n = 0) :
    evalAt x n f = x * evalAt x n fun i => f (i + 1) := by
  have hlong : evalAt x n f = evalAt x (n + 1) f := by
    rw [evalAt, evalAt, Finset.sum_range_succ, hn, Int.cast_zero, zero_mul, add_zero]
  rw [hlong, evalAt, Finset.sum_range_succ', h0, Int.cast_zero, zero_mul, add_zero, evalAt, Finset.mul_sum]
  exact Finset.sum_congr rfl fun i _ => by ring

variable {x : T} {N : Nat} (hx : x ^ N = 1)
include hx

/-- Where X^N = 1, rotating the coefficients up by i positions is a factor X^i. -/
theorem evalAt_rotate {i : Nat} (hi : i < N) (f : Nat → Int) :
    evalAt x N (fun k => f ((k + N - i) % N)) = x ^ i * evalAt x N f := by
  have below : ∀ j : Nat, j % N ∈ Finset.range N := fun j => Finset.mem_range.mpr (Nat.mod_lt _ (by omega))
  rw [evalAt, evalAt, Finset.mul_sum]
  refine Finset.sum_nbij' (fun k => (k + N - i) % N) (fun j => (i + j) % N) (fun _ _ => below _) (fun _ _ => below _)
    (fun k hk => ?_) (fun j hj => ?_) fun k hk => ?_
  · have hk := Finset.mem_range.mp hk
    rw [Nat.add_mod_mod, show i + (k + N - i) = k + N by omega, Nat.add_mod_right, Nat.mod_eq_of_lt hk]
  · have hj := Finset.mem_range.mp hj
    rw [show (i + j) % N + N - i = (i + j) % N + (N - i) by omega, Nat.mod_add_mod, show i + j + (N - i) = j + N by omega,
      Nat.add_mod_right, Nat.mod_eq_of_lt hj]
  · have hpow : x ^ i * x ^ ((k + N - i) % N) = x ^ k := by
      rw [← pow_eq_pow_mod _ hx, ← pow_add, show i + (k + N - i) = k + N by omega, pow_add, hx, mul_one]
    rw [← hpow]
    ring

theorem evalAt_rotUp (hN : 1 ≤ N) (j : Nat) (a : Vec) :
    evalAt x N (at' (rotUp N j a)) = x ^ j * evalAt x N (at' a) := by
  rw [pow_eq_pow_mod j hx, ← evalAt_rotate hx (Nat.mod_lt j hN)]
  exact evalAt_congr fun i hi => by rw [rotUp, at'_tab _ hi]

/-- Where X^N = 1, the cyclic convolution is the product (41_poly_arith R135). -/
theorem evalAt_cyclicConv (a b : Nat → Int) :
    evalAt x N (fun k => sumTo N fun i => a i * b ((k + N - i) % N)) = evalAt x N a * evalAt x N b := by
  have hrow : ∀ i ∈ Finset.range N, (a i : T) * x ^ i * evalAt x N b =
      ∑ k ∈ Finset.range N, ((a i * b ((k + N - i) % N) : Int) : T) * x ^ k := fun i hi => by
    rw [mul_assoc, ← evalAt_rotate hx (Finset.mem_range.mp hi), evalAt, Finset.mul_sum]
    exact Finset.sum_congr rfl fun k _ => by push_cast; ring
  rw [evalAt, evalAt, Finset.sum_mul, Finset.sum_congr rfl hrow, Finset.sum_comm]
  exact Finset.sum_congr rfl fun k _ => by rw [sumTo_eq_sum, Int.cast_sum, Finset.sum_mul]

end

/-! ### The ring R_m (42_inversion R150) -/

/-- R_m = (Z/mZ)[X]/(X^N - 1) (42_inversion R150). -/
abbrev RingR (N m : Nat) : Type := AdjoinRoot (X ^ N - 1 : (ZMod m)[X])

/-- The element of R_m with these coefficients. -/
noncomputable def classOf (N m : Nat) (f : Nat → Int) : RingR N m := evalAt (AdjoinRoot.root _) N f

theorem root_pow (N m : Nat) : (AdjoinRoot.root (X ^ N - 1 : (ZMod m)[X])) ^ N = 1 := by
  rw [← sub_eq_zero, ← AdjoinRoot.mk_X, ← map_pow, ← map_one (AdjoinRoot.mk _), ← map_sub, AdjoinRoot.mk_self]

theorem modulus_eq_zero (N m : Nat) : ((m : Int) : RingR N m) = 0 := by
  rw [Int.cast_natCast, ← map_natCast (AdjoinRoot.of _), ZMod.natCast_self, map_zero]

/-- An element of R_m is the class of the polynomial with its coefficients. -/
theorem classOf_eq_mk (N m : Nat) (f : Nat → Int) :
    classOf N m f = AdjoinRoot.mk _ (evalAt (X : (ZMod m)[X]) N f) := by
  simp [classOf, evalAt]

theorem coeff_evalAt_X {m n i : Nat} (f : Nat → Int) (hi : i < n) :
    (evalAt (X : (ZMod m)[X]) n f).coeff i = (f i : ZMod m) := by
  have hterm : ∀ j, (((f j : Int) : (ZMod m)[X]) * X ^ j).coeff i = if i = j then (f j : ZMod m) else 0 := fun j => by
    rw [← Polynomial.C_eq_intCast, Polynomial.coeff_C_mul_X_pow]
  rw [evalAt, Polynomial.finsetSum_coeff, Finset.sum_congr rfl fun j _ => hterm j,
    Finset.sum_ite_eq, if_pos (Finset.mem_range.mpr hi)]

theorem degree_evalAt_X_lt (m n : Nat) (f : Nat → Int) : (evalAt (X : (ZMod m)[X]) n f).degree < n := by
  rw [evalAt, ← Polynomial.mem_degreeLT]
  refine Submodule.sum_mem _ fun i hi => Polynomial.mem_degreeLT.mpr ?_
  rw [← Polynomial.C_eq_intCast]
  exact (Polynomial.degree_C_mul_X_pow_le i _).trans_lt (by exact_mod_cast Finset.mem_range.mp hi)

/-- An element of R_m determines its coefficients mod m. -/
theorem classOf_eq_iff {N m : Nat} (hN : 1 ≤ N) (hm : 1 < m) (f g : Nat → Int) :
    classOf N m f = classOf N m g ↔ ∀ i, i < N → f i % m = g i % m := by
  constructor
  · intro h i hi
    have : Fact (1 < m) := ⟨hm⟩
    have hmonic : (X ^ N - 1 : (ZMod m)[X]).Monic := Polynomial.monic_X_pow_sub_C 1 (by omega)
    rw [classOf_eq_mk, classOf_eq_mk, AdjoinRoot.mk_eq_mk, ← evalAt_sub] at h
    have hzero : evalAt (X : (ZMod m)[X]) N (fun i => f i - g i) = 0 := by
      by_contra hne
      refine hmonic.not_dvd_of_degree_lt hne ?_ h
      rw [← Polynomial.C_1, Polynomial.degree_X_pow_sub_C (by omega)]
      exact degree_evalAt_X_lt m N _
    have hcoeff := coeff_evalAt_X (m := m) (fun i => f i - g i) hi
    rw [hzero, Polynomial.coeff_zero, Int.cast_sub] at hcoeff
    exact (ZMod.intCast_eq_intCast_iff' _ _ _).mp (sub_eq_zero.mp hcoeff.symm)
  · exact fun h => evalAt_congr fun i hi => by
      rw [← intCast_emod (modulus_eq_zero N m), h i hi, intCast_emod (modulus_eq_zero N m)]

theorem classOf_unit {N : Nat} (hN : 1 ≤ N) (m : Nat) : classOf N m (fun k => if k = 0 then 1 else 0) = 1 := by
  rw [classOf, evalAt_single _ hN, Int.cast_one, one_mul, pow_zero]

theorem classOf_cyclicConv (N m : Nat) (a b : Nat → Int) :
    classOf N m (fun k => sumTo N fun i => a i * b ((k + N - i) % N)) = classOf N m a * classOf N m b :=
  evalAt_cyclicConv (root_pow N m) a b

/-- An inverse is one in the ring, with its coefficients in range. -/
theorem inverseIn_iff {N m : Nat} (hN : 1 ≤ N) (hm : 1 < m) (a b : Nat → Int) :
    InverseIn N m a b ↔ (∀ i, i < N → 0 ≤ b i ∧ b i < m) ∧ classOf N m a * classOf N m b = 1 := by
  rw [InverseIn, ← classOf_unit hN, ← classOf_cyclicConv, classOf_eq_iff hN hm]

/-- An inverse is unique in R_m (42_inversion R150 (a)). -/
theorem InverseIn.unique {N m : Nat} {a b b' : Nat → Int} (hN : 1 ≤ N) (hm : 1 < m) (h : InverseIn N m a b)
    (h' : InverseIn N m a b') {i : Nat} (hi : i < N) : b i = b' i := by
  obtain ⟨hrange, hab⟩ := (inverseIn_iff hN hm a b).mp h
  obtain ⟨hrange', hab'⟩ := (inverseIn_iff hN hm a b').mp h'
  have hclass : classOf N m b = classOf N m b' := left_inv_eq_right_inv ((mul_comm _ _).trans hab) hab'
  have hmod := (classOf_eq_iff hN hm b b').mp hclass i hi
  obtain ⟨h0, hlt⟩ := hrange i hi
  obtain ⟨h0', hlt'⟩ := hrange' i hi
  rwa [Int.emod_eq_of_lt h0 hlt, Int.emod_eq_of_lt h0' hlt'] at hmod

/-- An inverse depends on the coefficients below N alone. -/
theorem inverseIn_congr_left {N : Nat} {m : Int} {a a' b : Nat → Int} (h : ∀ i, i < N → a i = a' i) :
    InverseIn N m a b ↔ InverseIn N m a' b :=
  and_congr_right' (forall₂_congr fun k _ => by rw [sumTo_congr fun i hi => by rw [h i hi]])

/-! ### The lift from 2 to 2048 (42_inversion R154) -/

/-- Equal in R_m is equal up to a multiple of m in R_n. -/
theorem classOf_eq_add_of_classOf_eq {N m : Nat} (hN : 1 ≤ N) (hm : 1 < m) {f g : Nat → Int}
    (h : classOf N m f = classOf N m g) (n : Nat) : ∃ r : RingR N n, classOf N n f = classOf N n g + m * r := by
  refine ⟨classOf N n fun i => (f i - g i) / m, ?_⟩
  rw [← Int.cast_natCast m, classOf, classOf, classOf, ← evalAt_mul, ← evalAt_add]
  refine evalAt_congr fun i hi => congrArg _ ?_
  have hdvd : (m : Int) ∣ f i - g i := Int.ModEq.dvd ((classOf_eq_iff hN hm f g).mp h i hi).symm
  rw [Int.mul_ediv_cancel' hdvd, add_sub_cancel]

theorem classOf_modVec (N m : Nat) (a : Vec) : classOf N m (at' (modVec N m a)) = classOf N m (at' a) :=
  evalAt_tab_emod (modulus_eq_zero N m) _ N _

theorem classOf_conv (N m : Nat) (a b : Vec) :
    classOf N m (at' (conv N a b)) = classOf N m (at' a) * classOf N m (at' b) := by
  rw [← classOf_cyclicConv]
  exact evalAt_congr fun i hi => congrArg _ (at'_tab _ hi)

/-- One round of the lift is b · (2 - a·b) in R_m. -/
theorem classOf_newtonRound {N : Nat} (hN : 1 ≤ N) (m : Nat) (a b : Vec) :
    classOf N m (at' (newtonRound N a b m)) =
      classOf N m (at' b) * (2 - classOf N m (at' a) * classOf N m (at' b)) := by
  rw [newtonRound, classOf_modVec, classOf_conv, ← classOf_conv N m a b]
  congr 1
  calc classOf N m (at' (tab N fun i => (if i = 0 then 2 else 0) - at' (conv N a b) i % m))
      = classOf N m (fun i => (if i = 0 then 2 else 0) - at' (conv N a b) i) := evalAt_congr fun i hi => by
        rw [at'_tab _ hi, Int.cast_sub, intCast_emod (modulus_eq_zero N m), Int.cast_sub]
    _ = 2 - classOf N m (at' (conv N a b)) := by
        rw [classOf, evalAt_sub, evalAt_single _ hN, pow_zero, mul_one, Int.cast_ofNat]
        rfl

theorem newtonRound_range {N i : Nat} {m : Int} (hm : 0 < m) (a b : Vec) (hi : i < N) :
    0 ≤ at' (newtonRound N a b m) i ∧ at' (newtonRound N a b m) i < m := by
  rw [newtonRound, modVec, at'_tab _ hi]
  exact ⟨Int.emod_nonneg _ hm.ne', Int.emod_lt_of_pos _ hm⟩

/-- A round squares the modulus: from a·b = 1 + m·r follows a·b·(2 - a·b) = 1 - m²·r². -/
theorem newtonRound_inverse {N m n : Nat} (hN : 1 ≤ N) (hm : 1 < m) (hn : n ∣ m * m) {a b : Vec}
    (h : classOf N m (at' a) * classOf N m (at' b) = 1) :
    classOf N n (at' a) * classOf N n (at' (newtonRound N a b n)) = 1 := by
  rw [← classOf_conv, ← classOf_unit hN] at h
  obtain ⟨r, hr⟩ := classOf_eq_add_of_classOf_eq hN hm h n
  rw [classOf_conv, classOf_unit hN] at hr
  have hsquare : (m : RingR N n) * m = 0 := by
    obtain ⟨c, hc⟩ := hn
    have hzero := modulus_eq_zero N n
    rw [Int.cast_natCast] at hzero
    rw [← Nat.cast_mul, hc, Nat.cast_mul, hzero, zero_mul]
  rw [classOf_newtonRound hN, ← mul_assoc, hr]
  linear_combination -r ^ 2 * hsquare

/-- The four rounds of the lift take an inverse in R_2 to one in R_2048. -/
theorem newtonLift_inverse {N : Nat} (hN : 1 ≤ N) {a b : Vec} (h : InverseIn N 2 (at' a) (at' b)) :
    InverseIn N 2048 (at' a) (at' (newtonModuli.foldl (newtonRound N a) b)) := by
  have h2 := ((inverseIn_iff (m := 2) hN (by decide) _ _).mp h).2
  have h4 := newtonRound_inverse (n := 4) hN (by decide) (by decide) h2
  have h16 := newtonRound_inverse (n := 16) hN (by decide) (by decide) h4
  have h256 := newtonRound_inverse (n := 256) hN (by decide) (by decide) h16
  have h2048 := newtonRound_inverse (n := 2048) hN (by decide) (by decide) h256
  refine (inverseIn_iff (m := 2048) hN (by decide) _ _).mpr ⟨fun i hi => ?_, h2048⟩
  exact newtonRound_range (by decide) a _ hi

/-- An inverse mod 2048 read mod 2 is one mod 2. -/
theorem InverseIn.mod_two {N : Nat} {a b : Nat → Int} (hN : 1 ≤ N) (h : InverseIn N 2048 a b) :
    InverseIn N 2 a fun i => b i % 2 := by
  refine (inverseIn_iff (m := 2) hN (by decide) _ _).mpr ⟨fun i _ => by omega, ?_⟩
  have hclass : classOf N 2 (fun i => b i % 2) = classOf N 2 b :=
    (classOf_eq_iff hN (by decide) _ _).mpr fun i _ => Int.emod_emod _ _
  rw [hclass, ← classOf_cyclicConv, ← classOf_unit hN]
  refine (classOf_eq_iff hN (by decide) _ _).mpr fun k hk => ?_
  have := h.2 k hk
  omega

/-! ### The coefficients of the almost-inverse registers (42_inversion R152) -/

/-- A polynomial of n coefficients, each 0 or 1. -/
def IsBits (n : Nat) (v : Vec) : Prop := ∀ i, at' v i = 0 ∨ (at' v i = 1 ∧ i < n)

theorem isBits_tab_emod (n : Nat) (f : Nat → Int) : IsBits n (tab n fun i => f i % 2) := fun i => by
  by_cases hi : i < n
  · rw [at'_tab _ hi]
    omega
  · exact .inl (at'_tab_ge _ (by omega))

theorem IsBits.eq_zero {n i : Nat} {v : Vec} (h : IsBits n v) (hi : n ≤ i) : at' v i = 0 :=
  (h i).resolve_right fun h1 => by omega

theorem IsBits.eq_one {n i : Nat} {v : Vec} (h : IsBits n v) (hi : at' v i ≠ 0) : at' v i = 1 :=
  ((h i).resolve_left hi).1

/-- The degree is the least bound of the indices of nonzero coefficients. -/
theorem degree_le_iff (v : Vec) (n d : Nat) : degree v n ≤ d ↔ ∀ i, d < i → i < n → at' v i = 0 := by
  induction n with
  | zero => simp [degree]
  | succ n ih =>
    rw [degree]
    split
    · next hne =>
      refine ⟨fun hle i hdi hi => by omega, fun h => ?_⟩
      by_contra hlt
      exact hne (h n (by omega) (by omega))
    · next heq =>
      rw [ih]
      refine ⟨fun h i hdi hi => ?_, fun h i hdi hi => h i hdi (by omega)⟩
      by_cases hin : i = n
      · rw [hin]
        exact not_not.mp heq
      · exact h i hdi (by omega)

theorem IsBits.degree_le_iff {n d : Nat} {v : Vec} (h : IsBits n v) : degree v n ≤ d ↔ ∀ i, d < i → at' v i = 0 := by
  rw [Machine.degree_le_iff]
  refine ⟨fun hd i hi => ?_, fun hd i hi _ => hd i hi⟩
  by_cases hin : i < n
  · exact hd i hi hin
  · exact h.eq_zero (by omega)

theorem IsBits.eq_zero_of_degree_lt {n i : Nat} {v : Vec} (h : IsBits n v) (hi : degree v n < i) : at' v i = 0 :=
  h.degree_le_iff.mp le_rfl i hi

/-! ### The invariant of the almost-inverse loop (42_inversion R152) -/

/-- A register as a polynomial over the field of two elements. -/
noncomputable def polyOf (N : Nat) (v : Vec) : (ZMod 2)[X] := evalAt X (N + 1) (at' v)

/-- A register in R_2. -/
noncomputable def registerClass (N : Nat) (v : Vec) : RingR N 2 := evalAt (AdjoinRoot.root _) (N + 1) (at' v)

theorem two_eq_zero (N : Nat) : ((2 : Int) : RingR N 2) = 0 := modulus_eq_zero N 2

theorem two_eq_zero_poly : ((2 : Int) : (ZMod 2)[X]) = 0 := by exact_mod_cast CharP.cast_eq_zero (ZMod 2)[X] 2

/-- What the loop keeps on input a: b·a = X^k·f and c·a = X^k·g in R_2; g has constant coefficient 1 and is no constant;
and f and g stay coprime where a and X^N - 1 are. -/
structure InvState.Keeps (N : Nat) (a : Vec) (s : InvState) : Prop where
  bitsF : IsBits (N + 1) s.f
  bitsG : IsBits (N + 1) s.g
  constG : at' s.g 0 = 1
  degreeG : 1 ≤ degree s.g (N + 1)
  classF : classOf N 2 (at' s.b) * classOf N 2 (at' a) = AdjoinRoot.root _ ^ s.k * registerClass N s.f
  classG : classOf N 2 (at' s.c) * classOf N 2 (at' a) = AdjoinRoot.root _ ^ s.k * registerClass N s.g
  coprime : IsCoprime (evalAt X N (at' a)) (X ^ N - 1 : (ZMod 2)[X]) → IsCoprime (polyOf N s.f) (polyOf N s.g)

/-- The turns the loop has left: two for each degree, and one more where f has a constant coefficient to eliminate. -/
def InvState.turnsLeft (N : Nat) (s : InvState) : Nat :=
  2 * (degree s.f (N + 1) + degree s.g (N + 1)) + (at' s.f 0).toNat

/-- "f = f / X; c = c * X; k = k + 1" (42_inversion R152). -/
def invStrip (N : Nat) (s : InvState) : InvState :=
  { s with
    f := tab (N + 1) fun i => at' s.f (i + 1)
    c := rotUp N 1 s.c
    k := s.k + 1 }

theorem primeInv_two_one : primeInv 2 1 = 1 := by decide

section
variable {N : Nat} {a : Vec} {s : InvState}

/-- An f with constant coefficient 0 is X times the stripped one. -/
theorem evalAt_strip {T : Type*} [CommRing T] (x : T) (hf : IsBits (N + 1) s.f) (h0 : at' s.f 0 = 0) :
    evalAt x (N + 1) (at' s.f) = x * evalAt x (N + 1) (at' (invStrip N s).f) := by
  rw [evalAt_shift x h0 (hf.eq_zero le_rfl)]
  congr 1
  exact evalAt_congr fun i hi => congrArg _ (at'_tab (fun i => at' s.f (i + 1)) hi).symm

/-- Stripping a factor X of f keeps the invariant. -/
theorem InvState.Keeps.strip (h : s.Keeps N a) (hN : 1 ≤ N) (h0 : at' s.f 0 = 0) : (invStrip N s).Keeps N a where
  bitsF := fun i => by
    by_cases hi : i < N + 1
    · have := h.bitsF (i + 1)
      rw [invStrip, at'_tab _ hi]
      omega
    · exact .inl (at'_tab_ge _ (by omega))
  bitsG := h.bitsG
  constG := h.constG
  degreeG := h.degreeG
  classF := by
    rw [invStrip, h.classF, registerClass, evalAt_strip _ h.bitsF h0, ← mul_assoc, ← pow_succ]
    rfl
  classG := by
    rw [invStrip, classOf, evalAt_rotUp (root_pow N 2) hN, ← classOf, pow_one, mul_assoc, h.classG, pow_succ']
    exact (mul_assoc _ _ _).symm
  coprime := fun ha => by
    have hcop := h.coprime ha
    rw [polyOf, evalAt_strip X h.bitsF h0] at hcop
    exact hcop.of_mul_left_right

/-- Stripping lowers the degree of a nonzero f. -/
theorem InvState.Keeps.turnsLeft_strip (h : s.Keeps N a) (hN : 1 ≤ N) (h0 : at' s.f 0 = 0)
    (hf : ∃ i, at' s.f i ≠ 0) : (invStrip N s).turnsLeft N < s.turnsLeft N := by
  have hbits := (h.strip hN h0).bitsF
  have hpos : 1 ≤ degree s.f (N + 1) := by
    by_contra hlt
    obtain ⟨i, hi⟩ := hf
    refine hi (h.bitsF.degree_le_iff (d := 0) |>.mp (by omega) i ?_)
    exact Nat.pos_of_ne_zero fun hzero => hi (by rw [hzero, h0])
  have hdeg : degree (invStrip N s).f (N + 1) ≤ degree s.f (N + 1) - 1 := hbits.degree_le_iff.mpr fun i hi => by
    by_cases hiN : i < N + 1
    · rw [invStrip, at'_tab _ hiN]
      exact h.bitsF.eq_zero_of_degree_lt (by omega)
    · exact at'_tab_ge _ (by omega)
  have hconst : (at' (invStrip N s).f 0).toNat ≤ 1 := by
    have := hbits 0
    omega
  have hg : (invStrip N s).g = s.g := rfl
  rw [turnsLeft, turnsLeft, hg]
  omega

/-- Exchanging f with g and b with c keeps the invariant where f has a constant coefficient and is no constant. -/
theorem InvState.Keeps.swap (h : s.Keeps N a) (h0 : at' s.f 0 = 1) (hf : 1 ≤ degree s.f (N + 1)) :
    (invSwap N s).Keeps N a := by
  rw [invSwap]
  split
  · exact ⟨h.bitsG, h.bitsF, h0, hf, h.classG, h.classF, fun ha => (h.coprime ha).symm⟩
  · exact h

/-- After the exchange f has the higher degree, the degrees' sum is as it was, and f still has a constant coefficient. -/
theorem InvState.Keeps.swap_degrees (h : s.Keeps N a) (h0 : at' s.f 0 = 1) :
    degree (invSwap N s).g (N + 1) ≤ degree (invSwap N s).f (N + 1) ∧
      (invSwap N s).turnsLeft N = s.turnsLeft N ∧ at' (invSwap N s).f 0 = 1 := by
  rw [invSwap]
  split
  · next hlt => exact ⟨hlt.le, by simp only [turnsLeft, h0, h.constG, add_comm], h.constG⟩
  · next hge => exact ⟨not_lt.mp hge, rfl, h0⟩

/-- Where both have a constant coefficient, eliminating takes g off f and c off b. -/
theorem invEliminate_two (hf : at' s.f 0 = 1) (hg : at' s.g 0 = 1) :
    invEliminate N 2 s = { s with
      f := tab (N + 1) fun i => (at' s.f i - at' s.g i) % 2
      b := tab N fun i => (at' s.b i - at' s.c i) % 2 } := by
  have hu : at' s.f 0 * primeInv 2 (at' s.g 0) % 2 = 1 := by rw [hf, hg, primeInv_two_one]; decide
  simp only [invEliminate, hu, one_mul]

/-- Eliminating keeps the invariant. -/
theorem InvState.Keeps.eliminate (h : s.Keeps N a) (h0 : at' s.f 0 = 1) : (invEliminate N 2 s).Keeps N a := by
  rw [invEliminate_two h0 h.constG]
  refine ⟨isBits_tab_emod _ _, h.bitsG, h.constG, h.degreeG, ?_, h.classG, fun ha => ?_⟩
  · rw [registerClass, evalAt_tab_emod (two_eq_zero N), evalAt_sub, mul_sub, classOf, evalAt_tab_emod (two_eq_zero N),
      evalAt_sub, sub_mul]
    exact congrArg₂ _ h.classF h.classG
  · rw [polyOf, evalAt_tab_emod two_eq_zero_poly, evalAt_sub, sub_eq_add_neg, ← mul_neg_one]
    exact (h.coprime ha).add_mul_left_left (-1)

/-- Eliminating takes the constant coefficient off f and raises no degree. -/
theorem InvState.Keeps.turnsLeft_eliminate (h : s.Keeps N a) (h0 : at' s.f 0 = 1)
    (hdeg : degree s.g (N + 1) ≤ degree s.f (N + 1)) : (invEliminate N 2 s).turnsLeft N < s.turnsLeft N := by
  have hbits := (h.eliminate h0).bitsF
  rw [invEliminate_two h0 h.constG] at hbits ⊢
  have hle : degree (tab (N + 1) fun i => (at' s.f i - at' s.g i) % 2) (N + 1) ≤ degree s.f (N + 1) :=
    (degree_le_iff _ _ _).mpr fun i hi hiN => by
      rw [at'_tab _ hiN, h.bitsF.eq_zero_of_degree_lt hi, h.bitsG.eq_zero_of_degree_lt (by omega)]
      rfl
  have hconst : at' (tab (N + 1) fun i => (at' s.f i - at' s.g i) % 2) 0 = 0 := by
    rw [at'_tab _ (Nat.succ_pos N), h0, h.constG]
    rfl
  simp only [turnsLeft, hconst, h0, Int.toNat_zero, Int.toNat_one]
  omega

/-! ### How the loop ends -/

/-- f is 1: the rotated b is the inverse. -/
theorem InvState.Keeps.found (h : s.Keeps N a) (hN : 1 ≤ N) (h0 : at' s.f 0 = 1) (hdeg : degree s.f (N + 1) = 0) :
    InverseIn N 2 (at' a) (at' (rotUp N (N - s.k % N) (tab N fun i => at' s.b i * primeInv 2 (at' s.f 0) % 2))) := by
  rw [h0, primeInv_two_one]
  refine (inverseIn_iff (m := 2) hN (by decide) _ _).mpr ⟨fun i hi => ?_, ?_⟩
  · rw [rotUp, at'_tab _ hi, at'_tab _ (Nat.mod_lt _ hN)]
    exact ⟨Int.emod_nonneg _ (by decide), Int.emod_lt_of_pos _ (by decide)⟩
  · have hone : registerClass N s.f = 1 := by
      have hf : ∀ i, at' s.f i = if i = 0 then 1 else 0 := fun i => by
        split
        · next hi => rw [hi, h0]
        · next hi => exact h.bitsF.eq_zero_of_degree_lt (by omega)
      rw [registerClass, funext hf, evalAt_single _ N.succ_pos, Int.cast_one, one_mul, pow_zero]
    have hclass := h.classF
    rw [hone, mul_one, pow_eq_pow_mod _ (root_pow N 2)] at hclass
    have hk := Nat.mod_lt s.k hN
    simp only [mul_one]
    calc classOf N 2 (at' a) * classOf N 2 (at' (rotUp N (N - s.k % N) (tab N fun i => at' s.b i % 2)))
        = AdjoinRoot.root _ ^ (N - s.k % N) * (classOf N 2 (at' s.b) * classOf N 2 (at' a)) := by
          rw [classOf, classOf, classOf, evalAt_rotUp (root_pow N 2) hN, evalAt_tab_emod (two_eq_zero N)]
          ring
      _ = 1 := by rw [hclass, ← pow_add, Nat.sub_add_cancel hk.le, root_pow]

/-- f is 0: g, which is no constant, divides both a and X^N - 1. -/
theorem InvState.Keeps.not_coprime (h : s.Keeps N a) (hf : ∀ i, at' s.f i = 0) :
    ¬ IsCoprime (evalAt X N (at' a)) (X ^ N - 1 : (ZMod 2)[X]) := by
  intro ha
  have hzero : polyOf N s.f = 0 := evalAt_eq_zero fun i _ => hf i
  have hunit : IsUnit (polyOf N s.g) := isCoprime_zero_left.mp (hzero ▸ h.coprime ha)
  have hconst : degree s.g (N + 1) ≤ 0 := (degree_le_iff _ _ _).mpr fun i hi hiN => by
    by_contra hne
    have hcoeff : (polyOf N s.g).coeff i = 0 :=
      Polynomial.coeff_eq_zero_of_natDegree_lt (by rwa [Polynomial.natDegree_eq_zero_of_isUnit hunit])
    rw [polyOf, coeff_evalAt_X _ hiN, h.bitsG.eq_one hne] at hcoeff
    exact absurd hcoeff (by decide)
  have := h.degreeG
  omega

/-- Everything a turn does: it ends at f = 0, it finds the inverse, or it goes on with fewer turns left. -/
theorem InvState.Keeps.invTurn_cases (h : s.Keeps N a) (hN : 1 ≤ N) :
    (invTurn N 2 s = .noInverse ∧ ∀ i, at' s.f i = 0) ∨
      (∃ b, invTurn N 2 s = .found b ∧ InverseIn N 2 (at' a) (at' b)) ∨
      ∃ t, invTurn N 2 s = .again t ∧ t.Keeps N a ∧ t.turnsLeft N < s.turnsLeft N := by
  rw [invTurn]
  by_cases h0 : at' s.f 0 = 0
  · rw [if_pos h0]
    by_cases hall : (List.range (N + 1)).all (fun i => at' s.f i == 0)
    · refine .inl ⟨if_pos hall, fun i => (h.bitsF i).elim id fun hi => ?_⟩
      exact beq_iff_eq.mp (List.all_eq_true.mp hall i (List.mem_range.mpr hi.2))
    · have hf : ∃ i, at' s.f i ≠ 0 := by
        by_contra hnone
        exact hall (List.all_eq_true.mpr fun i _ => beq_iff_eq.mpr (not_not.mp fun hne => hnone ⟨i, hne⟩))
      exact .inr (.inr ⟨invStrip N s, if_neg hall, h.strip hN h0, h.turnsLeft_strip hN h0 hf⟩)
  · have h1 := h.bitsF.eq_one h0
    rw [if_neg h0]
    by_cases hdeg : degree s.f (N + 1) = 0
    · exact .inr (.inl ⟨_, if_pos hdeg, h.found hN h1 hdeg⟩)
    · have hswap := h.swap h1 (Nat.one_le_iff_ne_zero.mpr hdeg)
      obtain ⟨hle, hleft, hconst⟩ := h.swap_degrees h1
      have hsentinel : primeInv 2 (at' (invSwap N s).g 0) ≠ 0 := by rw [hswap.constG, primeInv_two_one]; decide
      rw [if_neg hdeg, if_neg hsentinel]
      exact .inr (.inr ⟨_, rfl, hswap.eliminate hconst, hleft ▸ hswap.turnsLeft_eliminate hconst hle⟩)

/-- With more turns than are left the loop ends: with the inverse, or where a and X^N - 1 have a common divisor. -/
theorem InvState.Keeps.invLoop_cases (hN : 1 ≤ N) (fuel : Nat) (h : s.Keeps N a) (hfuel : s.turnsLeft N < fuel) :
    (∃ b, invLoop N 2 fuel s = some b ∧ InverseIn N 2 (at' a) (at' b)) ∨
      (invLoop N 2 fuel s = none ∧ ¬ IsCoprime (evalAt X N (at' a)) (X ^ N - 1 : (ZMod 2)[X])) := by
  induction fuel generalizing s with
  | zero => omega
  | succ fuel ih =>
    rw [invLoop]
    obtain ⟨hturn, hf⟩ | ⟨b, hturn, hb⟩ | ⟨t, hturn, ht, hlt⟩ := h.invTurn_cases hN
    · rw [hturn]
      exact .inr ⟨rfl, h.not_coprime hf⟩
    · rw [hturn]
      exact .inl ⟨b, rfl, hb⟩
    · rw [hturn]
      exact ih ht (by omega)

end

/-! ### The start of the loop -/

section
variable {T : Type*} [CommRing T] (x : T) {N : Nat} (a : Vec)

theorem evalAt_invStart_f (h2 : ((2 : Int) : T) = 0) :
    evalAt x (N + 1) (at' (invStart N 2 a).f) = evalAt x N (at' a) := by
  have htop : at' (invStart N 2 a).f N = 0 := by rw [invStart, at'_tab _ N.lt_succ_self, if_neg N.lt_irrefl]
  rw [evalAt, Finset.sum_range_succ, htop, Int.cast_zero, zero_mul, add_zero]
  refine evalAt_congr fun i hi => ?_
  rw [invStart, at'_tab _ (by omega), if_pos hi, intCast_emod h2]

theorem at'_invStart_g (hN : 1 ≤ N) {i : Nat} (hi : i < N + 1) :
    at' (invStart N 2 a).g i = (if i = 0 then 1 else 0) + if i = N then 1 else 0 := by
  rw [invStart, at'_tab _ hi]
  split
  · rw [if_neg (by omega)]
    rfl
  · rw [zero_add]

theorem evalAt_invStart_g (h2 : ((2 : Int) : T) = 0) (hN : 1 ≤ N) :
    evalAt x (N + 1) (at' (invStart N 2 a).g) = x ^ N - 1 := by
  rw [evalAt_congr fun i hi => congrArg _ (at'_invStart_g a hN hi), evalAt_add, evalAt_single _ N.succ_pos,
    evalAt_single _ N.lt_succ_self]
  push_cast at h2 ⊢
  linear_combination h2

end

theorem invStart_keeps {N : Nat} (hN : 1 ≤ N) (a : Vec) : (invStart N 2 a).Keeps N a where
  bitsF := fun i => by
    by_cases hi : i < N + 1
    · rw [invStart, at'_tab _ hi]
      split <;> omega
    · exact .inl (at'_tab_ge _ (by omega))
  bitsG := fun i => by
    by_cases hi : i < N + 1
    · rw [at'_invStart_g a hN hi]
      split <;> split <;> omega
    · exact .inl (at'_tab_ge _ (by omega))
  constG := by rw [at'_invStart_g a hN N.succ_pos, if_pos rfl, if_neg (by omega), add_zero]
  degreeG := by
    by_contra hlt
    have htop := (degree_le_iff (invStart N 2 a).g (N + 1) 0).mp (by omega) N hN N.lt_succ_self
    rw [at'_invStart_g a hN N.lt_succ_self, if_neg (by omega), if_pos rfl] at htop
    exact absurd htop (by decide)
  classF := by
    have hb : classOf N 2 (at' (unitVec N)) = 1 := by
      rw [← classOf_unit hN]
      exact evalAt_congr fun i hi => congrArg _ (at'_tab _ hi)
    rw [registerClass, evalAt_invStart_f _ _ (two_eq_zero N), ← classOf, invStart, hb, pow_zero]
  classG := by
    have hc : classOf N 2 (at' (tab N fun _ => 0)) = 0 := evalAt_eq_zero fun i hi => at'_tab _ hi
    rw [registerClass, evalAt_invStart_g _ _ (two_eq_zero N) hN, root_pow, sub_self, mul_zero, invStart, hc, zero_mul]
  coprime := fun ha => by
    rwa [polyOf, polyOf, evalAt_invStart_f _ _ two_eq_zero_poly, evalAt_invStart_g _ _ two_eq_zero_poly hN]

/-- The turns the loop is given are enough (log 19). -/
theorem turnsLeft_invStart {N : Nat} (hN : 1 ≤ N) (a : Vec) : (invStart N 2 a).turnsLeft N < 4 * N + 4 := by
  have hle : ∀ v, degree v (N + 1) ≤ N := fun v => (degree_le_iff v _ _).mpr fun i hi hi' => by omega
  have hf := hle (invStart N 2 a).f
  have hg := hle (invStart N 2 a).g
  have hconst := (invStart_keeps hN a).bitsF 0
  rw [InvState.turnsLeft]
  omega

/-! ### The inverters (42_inversion R151, R153) -/

/-- An inverse in R_2 makes a and X^N - 1 coprime. -/
theorem InverseIn.isCoprime {N : Nat} {a : Vec} {b : Nat → Int} (hN : 1 ≤ N) (h : InverseIn N 2 (at' a) b) :
    IsCoprime (evalAt X N (at' a)) (X ^ N - 1 : (ZMod 2)[X]) := by
  have hab := ((inverseIn_iff (m := 2) hN (by decide) _ _).mp h).2
  rw [classOf_eq_mk, classOf_eq_mk, ← map_mul, ← map_one (AdjoinRoot.mk _), AdjoinRoot.mk_eq_mk] at hab
  obtain ⟨q, hq⟩ := hab
  exact ⟨evalAt X N b, -q, by linear_combination hq⟩

/-- What R151 and R153 ask of an inverter's answer for a in R_m: the inverse, or none where there is none. -/
def AnswersInverse (N m : Nat) (a : Vec) (inverse : Option Vec) : Prop :=
  (∃ b, inverse = some b ∧ InverseIn N m (at' a) (at' b)) ∨ (inverse = none ∧ ¬ ∃ b, InverseIn N m (at' a) b)

theorem invertP_answersInverse {N : Nat} (hN : 1 ≤ N) (a : Vec) : AnswersInverse N 2 a (invertP N a) :=
  ((invStart_keeps hN a).invLoop_cases hN _ (turnsLeft_invStart hN a)).imp_right fun ⟨hnone, hcop⟩ =>
    ⟨hnone, fun ⟨_, hb⟩ => hcop (hb.isCoprime hN)⟩

/-- The lift takes an inverse up, and an inverse mod 2048 read mod 2 shows that there was one to lift. -/
theorem invertQ_answersInverse {N : Nat} (hN : 1 ≤ N) (a : Vec) : AnswersInverse N 2048 a (invertQ N a) := by
  rw [invertQ]
  obtain ⟨b, hb, hinv⟩ | ⟨hnone, hno⟩ := invertP_answersInverse hN a
  · rw [hb]
    exact .inl ⟨_, rfl, newtonLift_inverse hN hinv⟩
  · rw [hnone]
    exact .inr ⟨rfl, fun ⟨_, hb⟩ => hno ⟨_, hb.mod_two hN⟩⟩

/-! ### The shape of PINVP and PINVQ -/

section
variable {s : State} {m : Nat} {inverse : Option Vec} (rd : PReg) {rs1 : PReg}

/-- The inverter's input is the source's coefficients mod m. -/
theorem inverseIn_source (b : Nat → Int) :
    InverseIn s.dim m (at' (modVec s.dim m (s.source rs1))) b ↔
      InverseIn s.ctx.cfgN.toNat m (fun i => s.pr[rs1].coeff i % m) b :=
  inverseIn_congr_left fun i hi => by rw [modVec, at'_tab _ hi, at'_source s rs1 hi]

/-- Where there is an inverse the command writes it and clears NOINV. -/
theorem inversionCommand_found (hN : s.DimPre) (hm : 1 < m) (hq : m ≤ 2048)
    (h : AnswersInverse s.dim m (modVec s.dim m (s.source rs1)) inverse) {b : Nat → Int}
    (hb : InverseIn s.ctx.cfgN.toNat m (fun i => s.pr[rs1].coeff i % m) b) :
    ∃ p : Poly,
      conclude s (ofExcept s.feed (inversionCommand s rd inverse)) =
        .next { s.finished.setPr rd p with status := { s.status with done := true, noinv := false } } ∧
      p.Holds s.ctx.cfgN.toNat b := by
  obtain ⟨v, rfl, hv⟩ | ⟨-, hno⟩ := h
  · refine ⟨Poly.ofVec s.dim v, ?_, Poly.Holds.congr (Poly.holds_ofFn hN.2 fun i hi => ?_) fun i hi => ?_⟩
    · rw [inversionCommand, if_pos ((dimOk_iff s).mpr hN), ofExcept_ok, conclude_ok, consume_feed]
      rfl
    · have := hv.1 i hi
      omega
    · exact hv.unique hN.1 hm ((inverseIn_source b).mpr hb) hi
  · exact absurd ⟨b, (inverseIn_source b).mpr hb⟩ hno

/-- Where there is none the command sets NOINV and writes nothing else. -/
theorem inversionCommand_noInverse (hN : s.DimPre) (h : AnswersInverse s.dim m (modVec s.dim m (s.source rs1)) inverse)
    (hno : ¬ ∃ b : Nat → Int, InverseIn s.ctx.cfgN.toNat m (fun i => s.pr[rs1].coeff i % m) b) :
    conclude s (ofExcept s.feed (inversionCommand s rd inverse)) =
      .next { s.finished with status := { s.status with done := true, noinv := true } } := by
  obtain ⟨v, -, hv⟩ | ⟨rfl, -⟩ := h
  · exact absurd ⟨_, (inverseIn_source _).mp hv⟩ hno
  · rw [inversionCommand, if_pos ((dimOk_iff s).mpr hN), ofExcept_ok, conclude_ok, consume_feed]
    rfl

/-- N out of range is a PRECONDITION. -/
theorem inversionCommand_refused (h : ¬ s.DimPre) :
    conclude s (ofExcept s.feed (inversionCommand s rd inverse)) = .next (s.failedWith .precondition) := by
  rw [inversionCommand.eq_def, if_neg (mt (dimOk_iff s).mp h), ofExcept_error, conclude_err, consume_feed]

end

/-! ### The obligations -/

/-- Settles O31: the almost-inverse loop answers the inverse mod 2, or a and X^N - 1 have a common divisor. -/
theorem inverseModTwo : Obligations.InverseModTwo := fun rd _ _ =>
  ⟨fun hN =>
    have answer := invertP_answersInverse hN.1 _
    ⟨fun _ hb => inversionCommand_found (m := 2) rd hN (by decide) (by decide) answer hb,
      fun hno => inversionCommand_noInverse (m := 2) rd hN answer hno⟩,
    inversionCommand_refused rd⟩

/-- Settles O32: the lift of the inverse mod 2, which is there exactly where one mod 2048 is. -/
theorem inverseModTarget : Obligations.InverseModTarget := fun rd _ _ =>
  ⟨fun hN =>
    have answer := invertQ_answersInverse hN.1 _
    ⟨fun _ hb => inversionCommand_found (m := 2048) rd hN (by decide) (by decide) answer hb,
      fun hno => inversionCommand_noInverse (m := 2048) rd hN answer hno⟩,
    inversionCommand_refused rd⟩

end Sys2Proof.Machine
end

section
/-! PROOFS. The bit packer (43_bitpack R174 to R176): the bits of a packing under a cap and of what is read from memory,
the shapes of BPACK and BUNPACK, and that packing and unpacking undo each other. -/

namespace Sys2Proof.Machine

/-! ### Bytes as streams of bits (43_bitpack R171) -/

/-- Bit 8·g + j of the stream is bit 7 - j of byte g. -/
theorem streamBit_byte (bytes : List Byte) (g : Nat) {j : Nat} (hj : j < 8) :
    streamBit bytes (8 * g + j) = (bytes.getD g 0#8).getLsbD (7 - j) := by
  rw [streamBit, show (8 * g + j) / 8 = g by omega, show (8 * g + j) % 8 = j by omega]
  rfl

/-- The bytes of a string are its stream bits. -/
theorem eq_of_streamBit {bytes bytes' : List Byte} (hlen : bytes.length = bytes'.length)
    (hbit : ∀ k, k < 8 * bytes.length → streamBit bytes k = streamBit bytes' k) : bytes = bytes' := by
  refine List.ext_getElem hlen fun g hg hg' => BitVec.eq_of_getLsbD_eq fun i hi => ?_
  have hj : 7 - i < 8 := by omega
  have h := hbit (8 * g + (7 - i)) (by omega)
  rwa [streamBit_byte _ _ hj, streamBit_byte _ _ hj, List.getD_eq_getElem _ _ hg, List.getD_eq_getElem _ _ hg',
    show 7 - (7 - i) = i by omega] at h

theorem streamBit_take (bytes : List Byte) {c k : Nat} (hk : k < 8 * c) :
    streamBit (bytes.take c) k = streamBit bytes k := by
  rw [streamBit, streamBit, List.getD_eq_getElem?_getD, List.getElem?_take_of_lt (by omega),
    ← List.getD_eq_getElem?_getD]

theorem streamBit_readBytes (m : Memory) (a : Nat) {len k : Nat} (hk : k < 8 * len) :
    streamBit (m.readBytes a len) k = (m.read (a + k / 8)).getLsbD (7 - k % 8) := by
  have hlen : k / 8 < (m.readBytes a len).length := by rw [Memory.length_readBytes]; omega
  rw [streamBit, List.getD_eq_getElem _ _ hlen]
  simp [Memory.readBytes]

/-- The stream bit j of element i lies before the end of the elements. -/
theorem elementBit_lt {n b i j : Nat} (hi : i < n) (hj : j < b) : i * b + j < n * b := by
  calc i * b + j < (i + 1) * b := by rw [Nat.succ_mul]; omega
    _ ≤ n * b := Nat.mul_le_mul_right b hi

/-! ### The bits of a packing (43_bitpack R171, R172) -/

section
variable {x : List Nat} {n mx c : Nat} (hc : c ≤ packedLen n mx)
include hc

theorem plen_le : plen n mx c ≤ packedLen n mx := by
  rw [plen]
  split <;> omega

theorem length_pack : (pack x n mx c).length = plen n mx c := by
  rw [pack, plen]
  split
  · exact packAll_length x n mx
  · rw [List.length_take, packAll_length, Nat.min_eq_left hc]

/-- A cap cuts the layout and leaves the bits before it. -/
theorem streamBit_pack {k : Nat} (hk : k < 8 * plen n mx c) : streamBit (pack x n mx c) k = packBit x n mx k := by
  have hall := streamBit_packAll x n mx k (by have := plen_le hc; omega)
  rw [plen] at hk
  rw [pack]
  split at hk
  · rw [if_pos ‹_›, hall]
  · rw [if_neg ‹_›, streamBit_take _ hk, hall]

theorem pack_bit {g j : Nat} (hg : g < plen n mx c) (hj : j < 8) :
    ((pack x n mx c).getD g 0#8).getLsbD (7 - j) = packBit x n mx (8 * g + j) := by
  rw [← streamBit_byte _ _ hj, streamBit_pack hc (by omega)]

end

theorem elements_getD (p : Poly) {n i : Nat} (hi : i < n) : (elements p n).getD i 0 = (p.coeff i).toNat := by
  simp [elements, List.getD_eq_getElem?_getD, hi]

theorem elements_lt {p : Poly} {n mx : Nat} (h : ∀ i, i < n → 0 ≤ p.coeff i ∧ p.coeff i < mx) :
    ∀ v ∈ elements p n, v < mx := by
  intro v hv
  obtain ⟨i, hi, rfl⟩ := List.mem_map.mp hv
  have := h i (List.mem_range.mp hi)
  omega

theorem length_elements (p : Poly) (n : Nat) : (elements p n).length = n := by simp [elements]

/-- The layout of a register's first n elements, bit by bit. -/
theorem packBit_elements (p : Poly) (n mx k : Nat) :
    packBit (elements p n) n mx k =
      (decide (k < n * bw mx) && (p.coeff (k / bw mx)).toNat.testBit (bw mx - 1 - k % bw mx)) := by
  rw [packBit]
  by_cases hk : k < n * bw mx
  · rw [elements_getD p (Nat.div_lt_of_lt_mul (by rwa [Nat.mul_comm]))]
  · rw [decide_eq_false hk, Bool.false_and, Bool.false_and]

/-! ### The bits of an unpacking (43_bitpack R173) -/

theorem unpackAt_testBit (bytes : List Byte) (mx i : Nat) {j : Nat} (hj : j < bw mx) :
    (unpackAt bytes mx i).testBit (bw mx - 1 - j) = streamBit bytes (i * bw mx + j) :=
  bitsValue_testBit _ _ _ hj

/-- The pad bits are those from the last element's end to the end of the L bytes. -/
theorem padnz_iff (bytes : List Byte) (n mx : Nat) :
    padnz bytes n mx = true ↔ ∃ k, n * bw mx ≤ k ∧ k < 8 * packedLen n mx ∧ streamBit bytes k = true := by
  simp only [padnz, List.any_eq_true, List.mem_range]
  constructor
  · rintro ⟨j, hj, hbit⟩
    exact ⟨n * bw mx + j, by omega, by omega, hbit⟩
  · rintro ⟨k, hge, hlt, hbit⟩
    exact ⟨k - n * bw mx, by omega, by rwa [Nat.add_sub_cancel' hge]⟩

theorem overCount_eq_card (bytes : List Byte) (n mx : Nat) :
    overCount bytes n mx = ((Finset.range n).filter fun i => mx ≤ unpackAt bytes mx i).card := by
  rw [overCount, unpack, List.countP_map, ← Nat.count_eq_card_filter_range]
  rfl

/-! ### Packing and unpacking undo each other (43_bitpack R176) -/

theorem overCount_packAll {x : List Nat} {n mx : Nat} (hl : x.length = n) (hx : ∀ v ∈ x, v < mx) :
    overCount (packAll x n mx) n mx = 0 := by
  rw [overCount, unpack_packAll x n mx hl hx, List.countP_eq_zero]
  exact fun v hv => by simpa using hx v hv

/-- The elements give back their own bits, and the pad bits are 0 on both sides. -/
theorem packAll_unpack {bytes : List Byte} {n mx : Nat} (hl : bytes.length = packedLen n mx)
    (hpad : padnz bytes n mx = false) : packAll (unpack bytes n mx) n mx = bytes := by
  refine eq_of_streamBit ((packAll_length _ n mx).trans hl.symm) fun k hk => ?_
  rw [packAll_length] at hk
  rw [streamBit_packAll _ _ _ _ hk, packBit]
  by_cases hbits : k < n * bw mx
  · have hb : 0 < bw mx := Nat.pos_of_mul_pos_left (Nat.zero_lt_of_lt hbits)
    rw [unpack_getD _ _ _ _ (Nat.div_lt_of_lt_mul (by rwa [Nat.mul_comm])), unpackAt_testBit _ _ _ (Nat.mod_lt k hb),
      Nat.div_add_mod', decide_eq_true hbits, Bool.true_and]
  · rw [decide_eq_false hbits, Bool.false_and]
    by_contra hne
    have hbit : streamBit bytes k = true := (Bool.eq_false_or_eq_true _).resolve_right (Ne.symm hne)
    rw [(padnz_iff bytes n mx).mpr ⟨k, by omega, hk, hbit⟩] at hpad
    cases hpad

/-! ### BPACK (43_bitpack R174) -/

/-- What BPACK checks before DRY: n, maxEltValue and the cap. -/
def State.PackShape (s : State) : Prop :=
  s.argB ≤ 1499 ∧ 2 ≤ s.argC ∧ s.argC ≤ 32768 ∧ s.argD ≤ packedLen s.argB s.argC

/-- The number of bytes BPACK answers. -/
def State.packLen (s : State) : Nat := plen s.argB s.argC s.argD

/-- What BPACK checks without DRY: the range of the bytes and the bound of every element. -/
def State.PackData (s : State) (rs1 : PReg) : Prop :=
  RangePre s.argA s.packLen ∧ ∀ i, i < s.argB → 0 ≤ s.pr[rs1].coeff i ∧ s.pr[rs1].coeff i < s.argC

/-- The bytes BPACK writes. -/
def State.packed (s : State) (rs1 : PReg) : List Byte := pack (elements s.pr[rs1] s.argB) s.argB s.argC s.argD

section
variable {s : State} {rs1 : PReg}

theorem packShape_iff :
    (packShapeOk s.argB s.argC && decide (s.argD ≤ packedLen s.argB s.argC)) = true ↔ s.PackShape := by
  rw [Bool.and_eq_true, packShapeOk_iff, decide_eq_true_eq, and_assoc, and_assoc]
  rfl

theorem packData_iff :
    (inRange s.argA (plen s.argB s.argC s.argD) && elementsOk s.pr[rs1] s.argB s.argC) = true ↔ s.PackData rs1 := by
  rw [Bool.and_eq_true, inRange_iff, elementsOk_iff]
  rfl

theorem execBpack_dry (h : s.PackShape) :
    exec (.bpack rs1 true) s = .next { s.finished with res0 := BitVec.ofNat 32 s.packLen } := by
  rw [exec, execBpack, bpackWrites, if_pos (packShape_iff.mpr h), if_pos rfl, ofExcept_ok, conclude_ok, consume_feed]
  rfl

theorem execBpack_run (h : s.PackShape) (hd : s.PackData rs1) :
    exec (.bpack rs1 false) s = .next { s.finished with
      dmem := s.dmem.writeBytes s.argA (s.packed rs1), res0 := BitVec.ofNat 32 s.packLen } := by
  rw [exec, execBpack, bpackWrites, if_pos (packShape_iff.mpr h), if_neg Bool.false_ne_true,
    if_pos (packData_iff.mpr hd), ofExcept_ok, conclude_ok, consume_feed]
  rfl

theorem execBpack_refusedShape (h : ¬ s.PackShape) (dry : Bool) :
    exec (.bpack rs1 dry) s = .next (s.failedWith .precondition) := by
  rw [exec, execBpack, bpackWrites, if_neg (mt packShape_iff.mp h), ofExcept_error, conclude_err, consume_feed]

theorem execBpack_refusedData (h : s.PackShape) (hd : ¬ s.PackData rs1) :
    exec (.bpack rs1 false) s = .next (s.failedWith .precondition) := by
  rw [exec, execBpack, bpackWrites, if_pos (packShape_iff.mpr h), if_neg Bool.false_ne_true,
    if_neg (mt packData_iff.mp hd), ofExcept_error, conclude_err, consume_feed]

theorem length_packed (h : s.PackShape) : (s.packed rs1).length = s.packLen := by
  obtain ⟨-, -, -, hc⟩ := h
  exact length_pack hc

/-- The bits of BPACK's bytes, over the coefficients of the register. -/
theorem packed_bit (h : s.PackShape) {g j : Nat} (hg : g < s.packLen) (hj : j < 8) :
    ((s.packed rs1).getD g 0#8).getLsbD (7 - j) = (decide (8 * g + j < s.argB * bw s.argC) &&
      (s.pr[rs1].coeff ((8 * g + j) / bw s.argC)).toNat.testBit (bw s.argC - 1 - (8 * g + j) % bw s.argC)) := by
  obtain ⟨-, -, -, hc⟩ := h
  exact (pack_bit hc hg hj).trans (packBit_elements _ _ _ _)

/-- DMEM after BPACK: the layout of R171 in the range, every other address as before. -/
theorem read_packed (h : s.PackShape) (hr : RangePre s.argA s.packLen) (a : Nat) :
    (s.dmem.writeBytes s.argA (s.packed rs1)).read a =
      if s.argA ≤ a ∧ a < s.argA + s.packLen then (s.packed rs1).getD (a - s.argA) 0#8 else s.dmem.read a := by
  have hlen := length_packed (rs1 := rs1) h
  rw [Memory.read_writeBytes _ _ _ _ (by rw [hlen]; exact hr), hlen]

end

/-! ### BUNPACK (43_bitpack R175) -/

/-- What BUNPACK checks: n, maxEltValue and the range of the L bytes. -/
def State.UnpackPre (s : State) : Prop :=
  s.argB ≤ 1499 ∧ 2 ≤ s.argC ∧ s.argC ≤ 32768 ∧ RangePre s.argA (packedLen s.argB s.argC)

/-- The L bytes BUNPACK reads. -/
def State.packedBytes (s : State) : List Byte := s.dmem.readBytes s.argA (packedLen s.argB s.argC)

/-- The polynomial BUNPACK writes. -/
def State.unpacked (s : State) : Poly := Poly.ofFn s.argB fun i => (unpackAt s.packedBytes s.argC i : Int)

section
variable {s : State} {rd : PReg}

theorem unpackPre_iff :
    (packShapeOk s.argB s.argC && inRange s.argA (packedLen s.argB s.argC)) = true ↔ s.UnpackPre := by
  rw [Bool.and_eq_true, packShapeOk_iff, inRange_iff, and_assoc, and_assoc]
  rfl

theorem execBunpack_run (h : s.UnpackPre) :
    exec (.bunpack rd) s = .next { s.finished.setPr rd s.unpacked with
      res0 := BitVec.ofNat 32 (packedLen s.argB s.argC)
      res1 := unpackReport s.packedBytes s.argB s.argC } := by
  rw [exec, execBunpack, bunpackWrites, if_pos (unpackPre_iff.mpr h), ofExcept_ok, conclude_ok, consume_feed]
  rfl

theorem execBunpack_refused (h : ¬ s.UnpackPre) : exec (.bunpack rd) s = .next (s.failedWith .precondition) := by
  rw [exec, execBunpack, bunpackWrites, if_neg (mt unpackPre_iff.mp h), ofExcept_error, conclude_err, consume_feed]

/-- An element of at most 15 bits fits a coefficient, so it is stored as read. -/
theorem unpacked_holds (h : s.UnpackPre) :
    s.unpacked.Holds s.argB fun i => (unpackAt s.packedBytes s.argC i : Int) := by
  obtain ⟨hn, -, hmx, -⟩ := h
  refine Poly.holds_ofFn hn fun i _ => ?_
  have hlt := unpackAt_lt s.packedBytes s.argC i
  have hle : 2 ^ bw s.argC ≤ 2 ^ 15 := Nat.pow_le_pow_right (by decide) (bw_le (k := 15) hmx)
  omega

end

theorem unpackReport_packAll {x : List Nat} {n mx : Nat} (hl : x.length = n) (hx : ∀ v ∈ x, v < mx) :
    unpackReport (packAll x n mx) n mx = 0#32 := by
  rw [unpackReport, overCount_packAll hl hx, padnz_packAll]
  rfl

/-! ### BPACK, then BUNPACK (43_bitpack R176) -/

theorem operands_eq {s t : State} (hctx : t.ctx = s.ctx) : t.argA = s.argA ∧ t.argB = s.argB ∧ t.argC = s.argC := by
  simp only [State.argA, State.argB, State.argC, hctx, and_self]

section
variable {s t : State} {rs1 : PReg} (hcap : s.argD = 0) (hctx : t.ctx = s.ctx)
  (hmem : t.dmem = s.dmem.writeBytes s.argA (s.packed rs1)) (hr : RangePre s.argA (packedLen s.argB s.argC))
include hcap hctx hmem hr

/-- Without a cap, a state with the same operands and the packed bytes in DMEM reads the whole layout back. -/
theorem packedBytes_written : t.packedBytes = packAll (elements s.pr[rs1] s.argB) s.argB s.argC := by
  obtain ⟨hA, hB, hC⟩ := operands_eq hctx
  have hall : s.packed rs1 = packAll (elements s.pr[rs1] s.argB) s.argB s.argC := by
    rw [State.packed, hcap, pack, if_pos rfl]
  have hlen : packedLen s.argB s.argC = (s.packed rs1).length := by rw [hall, packAll_length]
  rw [State.packedBytes, hmem, hA, hB, hC, ← hall, hlen]
  exact Memory.readBytes_writeBytes _ _ _ (by rw [← hlen]; exact hr)

/-- Its elements are those of the register that was packed, where they are in bound. -/
theorem unpackAt_written (hx : ∀ i, i < s.argB → 0 ≤ s.pr[rs1].coeff i ∧ s.pr[rs1].coeff i < s.argC) {i : Nat}
    (hi : i < s.argB) : (unpackAt t.packedBytes t.argC i : Int) = s.pr[rs1].coeff i := by
  obtain ⟨-, -, hC⟩ := operands_eq hctx
  obtain ⟨hge, hlt⟩ := hx i hi
  have hget := elements_getD s.pr[rs1] hi
  rw [packedBytes_written hcap hctx hmem hr, hC, unpackAt_packAll _ _ _ _ hi (by omega), hget, Int.toNat_of_nonneg hge]

/-- BUNPACK of such a state gives the elements back and reports nothing. -/
theorem execBunpack_written (rd : PReg) (hn : s.argB ≤ 1499) (h2 : 2 ≤ s.argC) (hmx : s.argC ≤ 32768)
    (hx : ∀ i, i < s.argB → 0 ≤ s.pr[rs1].coeff i ∧ s.pr[rs1].coeff i < s.argC) :
    ∃ u, exec (.bunpack rd) t = .next u ∧ (∀ i, i < s.argB → u.pr[rd].coeff i = s.pr[rs1].coeff i) ∧
      u.res0 = BitVec.ofNat 32 (packedLen s.argB s.argC) ∧ u.res1 = 0#32 := by
  obtain ⟨hA, hB, hC⟩ := operands_eq hctx
  have hpre : t.UnpackPre := by rw [State.UnpackPre, hA, hB, hC]; exact ⟨hn, h2, hmx, hr⟩
  have hreport : unpackReport t.packedBytes t.argB t.argC = 0#32 := by
    rw [packedBytes_written hcap hctx hmem hr, hB, hC]
    exact unpackReport_packAll (length_elements _ _) (elements_lt hx)
  refine ⟨_, execBunpack_run hpre, fun i hi => ?_, by rw [hB, hC], hreport⟩
  calc (t.finished.setPr rd t.unpacked).pr[rd].coeff i = t.unpacked.coeff i := by simp [State.setPr]
    _ = (unpackAt t.packedBytes t.argC i : Int) := ((unpacked_holds hpre).2 i).trans (if_pos (by rwa [hB]))
    _ = s.pr[rs1].coeff i := unpackAt_written hcap hctx hmem hr hx hi

end

/-! ### The obligations -/

/-- Settles O33: the layout's bits under a cap, and the checks of BPACK in their order. -/
theorem packedBytesAndLength : Obligations.PackedBytesAndLength := by
  constructor
  · rintro x n mx c b len hb rfl hc
    obtain rfl := bw_eq hb
    exact ⟨length_pack hc, fun g j hg hj => pack_bit hc hg hj⟩
  · rintro rs1 s n mx c b len rfl rfl rfl hb rfl
    obtain rfl := bw_eq hb
    refine ⟨fun h => ⟨execBpack_dry h, fun hd => ?_, execBpack_refusedData h⟩, execBpack_refusedShape⟩
    have hread := read_packed (rs1 := rs1) h hd.1
    refine ⟨_, execBpack_run h hd, fun a ha => (hread a).trans (if_neg ha), fun g j hg hj => ?_⟩
    have hbyte := (hread (s.argA + g)).trans (if_pos ⟨Nat.le_add_right _ _, Nat.add_lt_add_left hg _⟩)
    rw [Nat.add_sub_cancel_left] at hbyte
    exact (congrArg (BitVec.getLsbD · (7 - j)) hbyte).trans (packed_bit h hg hj)

/-- Settles O34: the elements and the report are read off the stream bits of the L bytes. -/
theorem unpackedElementsAndReport : Obligations.UnpackedElementsAndReport := by
  constructor
  · intro bytes n mx b bit hb hbit
    obtain rfl := bw_eq hb
    obtain rfl : bit = streamBit bytes := funext hbit
    exact ⟨fun i => ⟨unpackAt_lt bytes mx i, fun j hj => unpackAt_testBit bytes mx i hj⟩, padnz_iff bytes n mx⟩
  · rintro rd s n mx b len bit rfl rfl hb rfl hbit
    obtain rfl := bw_eq hb
    have hstream : ∀ k, k < 8 * packedLen s.argB s.argC → streamBit s.packedBytes k = bit k := fun k hk =>
      (streamBit_readBytes s.dmem s.argA hk).trans (hbit k).symm
    refine ⟨fun h => ⟨s.unpacked, unpackAt s.packedBytes s.argC, overCount s.packedBytes s.argB s.argC,
      padnz s.packedBytes s.argB s.argC, execBunpack_run h, unpacked_holds h,
      fun i hi => ⟨unpackAt_lt _ _ i, fun j hj => ?_⟩, overCount_eq_card _ _ _, ?_⟩, execBunpack_refused⟩
    · have hbits := packedLen_bits s.argB s.argC
      exact (unpackAt_testBit _ _ i hj).trans (hstream _ ((elementBit_lt hi hj).trans_le hbits))
    · exact (padnz_iff _ _ _).trans (exists_congr fun k => and_congr_right fun _ => and_congr_right fun hk => by
        rw [hstream k hk])

/-- Settles O35: BUNPACK reads the layout BPACK wrote, whose elements are its own; equal stream bits are equal bytes. -/
theorem packThenUnpackReturns : Obligations.PackThenUnpackReturns := by
  refine ⟨fun rs1 rd s t hexec hcap hn h2 hmx hr hx => ?_, fun bytes n mx _ _ _ hl hpad _ => packAll_unpack hl hpad⟩
  have hcap : s.argD = 0 := congrArg BitVec.toNat hcap
  have hlen : s.packLen = packedLen s.argB s.argC := by rw [State.packLen, hcap, plen, if_pos rfl]
  have hshape : s.PackShape := ⟨hn, h2, hmx, by rw [hcap]; exact Nat.zero_le _⟩
  have hrun := execBpack_run hshape (rs1 := rs1) ⟨by rw [hlen]; exact hr, hx⟩
  have ht := Host.Outcome.next.inj (hexec.symm.trans hrun)
  obtain ⟨u, hu, hback, hres0, hres1⟩ := execBunpack_written (t := { t with ctx := s.ctx }) hcap rfl
    (congrArg State.dmem ht) hr rd hn h2 hmx hx
  refine ⟨u, hu, hback, ?_, hres1⟩
  rw [hres0, ht, hlen]

end Sys2Proof.Machine
end

section
/-! PROOFS. MGF1 streams (44_streams R193, R197, R199): the bytes they give, the hash runs they count, and the sampling
commands over them (R192, R202, R203, R205). -/

namespace Sys2Proof.Machine

/-! ### The bytes and the runs of an MGF1 stream (44_streams R193, R199) -/

section Stream

variable (impl : DigestImpl) (hash : HashAlg) (seed : List Byte) (minRuns : Nat)

/-- The digest of run c of the stream: that of seed ‖ BE32(c). -/
def mgfBlock (c : Nat) : List Byte := digest impl hash (seed ++ be32 (BitVec.ofNat 32 c))

/-- The stream of which k bytes were pulled: what is left of the last digest, and the digests run so far. -/
def mgfAfter (k : Nat) : Mgf :=
  { hash := hash
    seed := seed
    ctr := BitVec.ofNat 32 ((k + hash.digestLen - 1) / hash.digestLen)
    buf := if k % hash.digestLen = 0 then [] else (mgfBlock impl hash seed (k / hash.digestLen)).drop (k % hash.digestLen)
    runs := (k + hash.digestLen - 1) / hash.digestLen
    minRuns := minRuns }

/-- The same stream where its next byte is buffered: byte k belongs to digest k div d. -/
def mgfFilled (k : Nat) : Mgf :=
  { hash := hash
    seed := seed
    ctr := BitVec.ofNat 32 (k / hash.digestLen + 1)
    buf := (mgfBlock impl hash seed (k / hash.digestLen)).drop (k % hash.digestLen)
    runs := k / hash.digestLen + 1
    minRuns := minRuns }

theorem mgfOpen_eq_mgfAfter (bytes : List Byte) (ph : Bool) :
    mgfOpen impl hash bytes ph minRuns = mgfAfter impl hash (if ph then digest impl hash bytes else bytes) minRuns 0 := by
  cases hash <;> rfl

theorem length_mgfBlock (c : Nat) : (mgfBlock impl hash seed c).length = hash.digestLen := digest_length _ _ _

theorem digestLen_pos : 0 < hash.digestLen := by cases hash <;> decide

/-- A pull hashes exactly where the bytes pulled are whole digests. -/
theorem mgfAfter_refill (k : Nat) :
    (if (mgfAfter impl hash seed minRuns k).buf.isEmpty then mgfRun impl (mgfAfter impl hash seed minRuns k)
      else mgfAfter impl hash seed minRuns k) = mgfFilled impl hash seed minRuns k := by
  by_cases hk : k % hash.digestLen = 0
  · have hruns : (k + hash.digestLen - 1) / hash.digestLen = k / hash.digestLen := by
      cases hash <;> simp only [HashAlg.digestLen] at hk ⊢ <;> omega
    have hctr : BitVec.ofNat 32 (k / hash.digestLen) + 1#32 = BitVec.ofNat 32 (k / hash.digestLen + 1) :=
      BitVec.ofNat_add_ofNat _ _
    simp [mgfAfter, mgfFilled, mgfRun, mgfBlock, hk, hruns, hctr]
  · have hruns : (k + hash.digestLen - 1) / hash.digestLen = k / hash.digestLen + 1 := by
      cases hash <;> simp only [HashAlg.digestLen] at hk ⊢ <;> omega
    have hlt : k % hash.digestLen < hash.digestLen := Nat.mod_lt _ (digestLen_pos hash)
    have hbuf : ((mgfBlock impl hash seed (k / hash.digestLen)).drop (k % hash.digestLen)).isEmpty = false := by
      rw [List.isEmpty_eq_false_iff, Ne, List.drop_eq_nil_iff, length_mgfBlock]
      omega
    simp [mgfAfter, mgfFilled, hk, hruns, hbuf]

/-- A pull gives byte k mod d of digest k div d. -/
theorem mgfPull_mgfAfter (k : Nat) :
    mgfPull impl (mgfAfter impl hash seed minRuns k) =
      ((mgfBlock impl hash seed (k / hash.digestLen)).getD (k % hash.digestLen) 0#8,
        mgfAfter impl hash seed minRuns (k + 1)) := by
  have hnext : ({ mgfFilled impl hash seed minRuns k with buf := (mgfFilled impl hash seed minRuns k).buf.tail } : Mgf) =
      mgfAfter impl hash seed minRuns (k + 1) := by
    have hruns : (k + hash.digestLen) / hash.digestLen = k / hash.digestLen + 1 := Nat.add_div_right k (digestLen_pos hash)
    by_cases hk : (k + 1) % hash.digestLen = 0
    · have hend : k % hash.digestLen + 1 = hash.digestLen := by
        cases hash <;> simp only [HashAlg.digestLen] at hk ⊢ <;> omega
      simp [mgfFilled, mgfAfter, hk, hruns, hend, length_mgfBlock]
    · obtain ⟨hmod, hdiv⟩ :
          (k + 1) % hash.digestLen = k % hash.digestLen + 1 ∧ (k + 1) / hash.digestLen = k / hash.digestLen := by
        cases hash <;> simp only [HashAlg.digestLen] at hk ⊢ <;> omega
      simp [mgfFilled, mgfAfter, hmod, hdiv, hruns]
  rw [mgfPull, mgfAfter_refill]
  refine Prod.ext ?_ hnext
  simp [mgfFilled, List.headD_eq_head?_getD, List.getD_eq_getElem?_getD]

theorem mgfPull_iterate (k : Nat) :
    (fun x => (mgfPull impl x).2)^[k] (mgfAfter impl hash seed minRuns 0) = mgfAfter impl hash seed minRuns k := by
  induction k with
  | zero => rfl
  | succ k ih => rw [Function.iterate_succ_apply', ih, mgfPull_mgfAfter]

end Stream

/-! ### A sampling command over a source that follows a memory source (44_streams R192) -/

section Follows

variable {s : State} {m : Memory} {a n : Nat} {Rel : Feed → Feed → Prop}

/-- Where the draw that a command makes follows its draw from memory, so does the whole command. -/
theorem drawFollows_command {α : Type} {d' d : Res Feed α} {c : Bool} {W : α → Writes} {t : State}
    (hd : ∀ v f, d' = .ok v f → ∃ g, d = .ok v g ∧ Rel f g) (hW : ∀ v, (W v).mem = none) (hp : s.phase = .busy)
    (h : conclude (s.withMemSource m a n)
      (if c then d'.bind fun v f => .ok (W v) f else .err .precondition (s.withMemSource m a n).feed) = .next t)
    (ht : t.phase = .idle) (he : t.status.err = false) :
    ∃ f g w, w.mem = none ∧ Rel f g ∧ t = (((s.withMemSource m a n).consume f).write w).finished ∧
      conclude s (if c then d.bind fun v f => .ok (W v) f else .err .precondition s.feed) =
        .next ((s.consume g).write w).finished := by
  obtain ⟨w, f, hr, rfl⟩ := conclude_completed (s := s.withMemSource m a n) hp h ht he
  split at hr
  · next hc =>
    obtain ⟨v, f', hv, hw⟩ := Res.bind_eq_ok.mp hr
    cases hw
    obtain ⟨g, hg, hrel⟩ := hd v f hv
    exact ⟨f, g, W v, hW v, hrel, rfl, by rw [if_pos hc, hg]; rfl⟩
  · cases hr

/-- A draw that also leaves an IGF2 state follows where it follows with that state put into the stream unit. -/
theorem mapState_withIgf_follows {α : Type} {d' d : Res (Igf × Feed) α}
    (higf : ∀ f g x, Rel f g → Rel (Feed.withIgf (x, f)) (Feed.withIgf (x, g)))
    (hd : ∀ v x, d' = .ok v x → ∃ y, d = .ok v (x.1, y) ∧ Rel x.2 y) (v : α) (f : Feed)
    (hv : d'.mapState Feed.withIgf = .ok v f) : ∃ g, d.mapState Feed.withIgf = .ok v g ∧ Rel f g := by
  obtain ⟨x, hx, rfl⟩ := Res.mapState_eq_ok.mp hv
  obtain ⟨y, hy, hrel⟩ := hd v x hx
  exact ⟨_, Res.mapState_eq_ok.mpr ⟨_, hy, rfl⟩, higf _ _ _ hrel⟩

/-- A sampling command does what it does from a memory source, over a source that follows that one. -/
theorem exec_follows {i : Instr} {t : State} (hi : i = .igfnext ∨ ∃ rd, i = .trismp rd ∨ i = .trimgf rd)
    (hq : PullFollows (s.withMemSource m a n).pull s.pull Rel) (hfeed : Rel (s.withMemSource m a n).feed s.feed)
    (higf : ∀ f g x, Rel f g → Rel (Feed.withIgf (x, f)) (Feed.withIgf (x, g))) (hp : s.phase = .busy)
    (h : exec i (s.withMemSource m a n) = .next t) (ht : t.phase = .idle) (he : t.status.err = false) :
    ∃ f g w, w.mem = none ∧ Rel f g ∧ t = (((s.withMemSource m a n).consume f).write w).finished ∧
      exec i s = .next ((s.consume g).write w).finished := by
  rcases hi with rfl | ⟨rd, rfl | rfl⟩
  · exact drawFollows_command (mapState_withIgf_follows higf fun _ _ hx => igfNext_follows hq hfeed hx)
      (fun _ => rfl) hp h ht he
  · exact drawFollows_command (mapState_withIgf_follows higf fun _ _ hx => bpgm3_follows hq hfeed hx)
      (fun _ => rfl) hp h ht he
  · exact drawFollows_command (fun _ _ hx => tpDecode_follows hq hfeed hx) (fun _ => rfl) hp h ht he

end Follows

/-! ### Sampling commands over an MGF1 stream (44_streams R192) -/

section Beside

variable {s : State} {m : Memory} {a n : Nat}

/-- The starts of the two runs. -/
theorem memBesideMgf_feed (hs : s.su.src = .mgf) :
    MemBesideMgf s.params.digest n a s.feed (s.withMemSource m a n).feed s.feed := by
  refine ⟨0, Nat.zero_le _, rfl, rfl, rfl, rfl, rfl, rfl, ?_⟩
  simp [State.feed, State.withMemSource, ← hs]

theorem MemBesideMgf.withIgf {impl : DigestImpl} {f0 f g : Feed} (h : MemBesideMgf impl n a f0 f g) (x : Igf) :
    MemBesideMgf impl n a f0 (Feed.withIgf (x, f)) (Feed.withIgf (x, g)) := by
  obtain ⟨k, h1, h2, h3, h4, h5, h6, h7, h8⟩ := h
  exact ⟨k, h1, h2, h3, h4, h5, h6, h7, by simp [Feed.withIgf, h8]⟩

/-- The two ends differ in DMEM and the source alone, and the stream was pulled as often as the cursor moved. -/
theorem MemBesideMgf.finished {f g : Feed} (h : MemBesideMgf s.params.digest n a s.feed f g) {w : Writes}
    (hw : w.mem = none) {t : State} (ht : t = (((s.withMemSource m a n).consume f).write w).finished) :
    t.su.mcur ≤ a + n ∧ ((s.consume g).write w).finished =
      { t with
        dmem := s.dmem
        su := { t.su with
          src := .mgf, mcur := s.su.mcur, mend := s.su.mend
          mgf := (fun x => (mgfPull s.params.digest x).2)^[t.su.mcur - a] s.su.mgf } } := by
  obtain ⟨k, h1, h2, h3, h4, h5, h6, h7, h8⟩ := h
  subst ht
  obtain ⟨gsu, grng, gpulled, giter⟩ := g
  obtain ⟨wpr, wmem, wkey, w0, w1, wn, we⟩ := w
  dsimp only at h5 h6 h7 h8 hw
  subst hw h5 h6 h7 h8
  have hk : f.su.mcur - a = k := by omega
  refine ⟨show f.su.mcur ≤ a + n by omega, ?_⟩
  simp [State.consume, State.write, State.finished, State.withMemSource, hk]

end Beside

/-- Settles O37: the stream after k pulls is written out; over it a sampling command follows its run from memory. -/
theorem mgfStreamAndRunCount : Obligations.MgfStreamAndRunCount := by
  refine ⟨fun impl hash bytes ph minRuns k => ?_, fun i s t m a n hi hp hs hm h ht he => ?_⟩
  · dsimp only
    rw [mgfOpen_eq_mgfAfter, mgfPull_iterate, mgfPull_mgfAfter]
    exact ⟨Nat.max_comm _ _, rfl⟩
  · obtain ⟨f, g, w, hw, hb, htw, hq⟩ := exec_follows hi (mgf_follows_mem (f0 := s.feed) hm) (memBesideMgf_feed hs)
      (fun f g x hfg => hfg.withIgf x) hp h ht he
    obtain ⟨hle, hfin⟩ := hb.finished hw htw
    exact ⟨hle, hq.trans (congrArg _ hfin)⟩

end Sys2Proof.Machine
end

section
/-! PROOFS. The commands that open and close a source and initialise IGF2 (44_streams R194 to R198, R201): the whole stream
unit after each. -/

namespace Sys2Proof.Machine

/-- The end of a command that changes the stream unit alone. -/
theorem conclude_withUnit (s : State) (u : StreamUnit) :
    conclude s (.ok {} (s.feed.withUnit u)) = .next { s.finished with su := u } := by
  simp [State.consume, State.feed, Feed.withUnit, State.write, State.finished]

/-! ### The source commands (44_streams R194 to R198) -/

section
variable {s : State}

theorem execSrcmem_run (h : RangePre s.argA s.argB) :
    exec .srcmem s = .next { s.finished with
      su := { closeSource s.su with src := .mem, mcur := s.argA, mend := s.argA + s.argB } } := by
  rw [exec, execSrcmem, if_pos ((inRange_iff _ _).mpr h), conclude_withUnit]

theorem execSrcmem_refused (h : ¬ RangePre s.argA s.argB) : exec .srcmem s = .next (s.failedWith .precondition) := by
  rw [exec, execSrcmem, if_neg (mt (inRange_iff _ _).mp h), conclude_err, consume_feed]

theorem execSrcmgf_run (h : RangePre s.argA s.argB) (sha256 ph : Bool) :
    exec (.srcmgf sha256 ph) s = .next { s.finished with su := openMgf s (if sha256 then .sha256 else .sha1) ph } := by
  rw [exec, execSrcmgf, if_pos ((inRange_iff _ _).mpr h), conclude_withUnit]

theorem execSrcmgf_refused (h : ¬ RangePre s.argA s.argB) (sha256 ph : Bool) :
    exec (.srcmgf sha256 ph) s = .next (s.failedWith .precondition) := by
  rw [exec, execSrcmgf, if_neg (mt (inRange_iff _ _).mp h), conclude_err, consume_feed]

end

/-- Byte i of `MemRead(a, n)` (00_scope R17). -/
theorem readBytes_getD (m : Memory) (a : Nat) {n i : Nat} (hi : i < n) :
    (m.readBytes a n).getD i 0#8 = m.read (a + i) := by
  simp [Memory.readBytes, List.getD_eq_getElem?_getD, hi]

/-- Settles O36: each source command ends with the closed unit, changed as its rule says, in place of the unit. -/
theorem sourceCommands : Obligations.SourceCommands := by
  rintro s closed rfl
  refine ⟨conclude_withUnit s _, conclude_withUnit s _, fun h => ⟨execSrcmem_run h, fun sha256 ph => ?_⟩,
    fun h => ⟨execSrcmem_refused h, fun sha256 ph => execSrcmgf_refused h sha256 ph⟩⟩
  exact ⟨_, s.dmem.readBytes s.argA s.argB, rfl, Memory.length_readBytes _ _ _, fun i hi => readBytes_getD _ _ hi,
    execSrcmgf_run h sha256 ph⟩

/-! ### IGFINIT (44_streams R201) -/

section
variable {s : State}

theorem execIgfinit_run (h : 1 ≤ s.argB ∧ s.argB ≤ 16 ∧ 1 ≤ s.argA ∧ s.argA ≤ 2 ^ s.argB) :
    exec .igfinit s = .next { s.finished with su := { s.su with igf := igfInit s.argA s.argB } } := by
  rw [exec, execIgfinit, if_pos ((igfBoundsOk_iff _ _).mpr h), conclude_withUnit]

theorem execIgfinit_refused (h : ¬ (1 ≤ s.argB ∧ s.argB ≤ 16 ∧ 1 ≤ s.argA ∧ s.argA ≤ 2 ^ s.argB)) :
    exec .igfinit s = .next (s.failedWith .precondition) := by
  rw [exec, execIgfinit, if_neg (mt (igfBoundsOk_iff _ _).mp h), conclude_err, consume_feed]

end

/-- Settles O38: within the bounds the IGF2 state alone is replaced. -/
theorem indexGeneratorInit : Obligations.IndexGeneratorInit := by
  rintro s m b rfl rfl
  exact ⟨execIgfinit_run, execIgfinit_refused⟩

end Sys2Proof.Machine
end

section
/-! PROOFS. TRIENC (44_streams R206, R207): the value of every byte, five base-3 digits to a byte, and that decoding the
bytes gives the trinomial back (R204). -/

namespace Sys2Proof.Machine

/-! ### Five base-3 digits in a byte (44_streams R206) -/

theorem fiveDigits_le {d : Nat → Nat} (h : ∀ j, d j < 3) : ∑ j ∈ Finset.range 5, d j * 3 ^ j ≤ 242 := by
  have h0 := h 0
  have h1 := h 1
  have h2 := h 2
  have h3 := h 3
  have h4 := h 4
  simp only [Finset.sum_range_succ, Finset.sum_range_zero]
  omega

/-- The digits are read back from the value. -/
theorem fiveDigits_digit {d : Nat → Nat} (h : ∀ j, d j < 3) {k : Nat} (hk : k < 5) :
    (∑ j ∈ Finset.range 5, d j * 3 ^ j) / 3 ^ k % 3 = d k := by
  have h0 := h 0
  have h1 := h 1
  have h2 := h 2
  have h3 := h 3
  have h4 := h 4
  simp only [Finset.sum_range_succ, Finset.sum_range_zero]
  interval_cases k <;> omega

/-- Digit i of the encoding; digits beyond N are missing. -/
def encDigit (t : Vec) (N i : Nat) : Nat := if i < N then dig (at' t i) else 0

section
variable {t : Vec} {N : Nat} (ht : ∀ i, i < N → at' t i = 0 ∨ at' t i = 1 ∨ at' t i = -1)
include ht

theorem encDigit_lt (i : Nat) : encDigit t N i < 3 := by
  unfold encDigit
  split
  · next hi => rcases ht i hi with h | h | h <;> rw [h] <;> decide
  · decide

/-- A digit stands for its trit (44_streams R204, R206). -/
theorem trit_encDigit {i : Nat} (hi : i < N) : trit (encDigit t N i) = at' t i := by
  rw [encDigit, if_pos hi]
  rcases ht i hi with h | h | h <;> rw [h] <;> rfl

theorem encDigit_eq_emod {i : Nat} (hi : i < N) : encDigit t N i = (at' t i % 3).toNat := by
  rw [encDigit, if_pos hi]
  rcases ht i hi with h | h | h <;> rw [h] <;> rfl

/-- A byte's value is that of its five digits, which fits it. -/
theorem toNat_tpEncodeByte (g : Nat) :
    (tpEncodeByte t N g).toNat = ∑ j ∈ Finset.range 5, encDigit t N (5 * g + j) * 3 ^ j := by
  have hle := fiveDigits_le fun j => encDigit_lt ht (5 * g + j)
  have hsum : ∀ f : Nat → Nat, ((List.range 5).map f).sum = ∑ j ∈ Finset.range 5, f j := fun _ => rfl
  have hdigits : ∑ j ∈ Finset.range 5, (if 5 * g + j < N then dig (t.getD (5 * g + j) 0) * 3 ^ j else 0) =
      ∑ j ∈ Finset.range 5, encDigit t N (5 * g + j) * 3 ^ j := Finset.sum_congr rfl fun j _ => by
    rw [encDigit, ite_mul, Nat.zero_mul]
    rfl
  rw [tpEncodeByte, hsum, hdigits, BitVec.toNat_ofNat, Nat.mod_eq_of_lt (by omega)]

theorem toNat_tpEncodeByte_le (g : Nat) : (tpEncodeByte t N g).toNat ≤ 242 :=
  (toNat_tpEncodeByte ht g).trans_le (fiveDigits_le fun j => encDigit_lt ht (5 * g + j))

end

theorem tpEncode_length (t : Vec) (N : Nat) : (tpEncode t N).length = (N + 4) / 5 := by simp [tpEncode]

theorem tpEncode_getD (t : Vec) {N g : Nat} (hg : g < (N + 4) / 5) : (tpEncode t N).getD g 0#8 = tpEncodeByte t N g := by
  simp [tpEncode, List.getD_eq_getElem?_getD, hg]

/-- Decoding the bytes gives the trinomial back (44_streams R204, R206). -/
theorem take_flatMap_tpEncode {t : Vec} {N : Nat} (hl : t.length = N)
    (ht : ∀ i, i < N → at' t i = 0 ∨ at' t i = 1 ∨ at' t i = -1) :
    ((tpEncode t N).flatMap tritsOfByte).take N = t := by
  rw [eq_tab_iff.mpr ⟨hl, fun i _ => rfl⟩, eq_tab_iff, List.length_take, flatMap_tritsOfByte_length, tpEncode_length]
  refine ⟨by omega, fun i hi => ?_⟩
  have hmod : i % 5 < 5 := Nat.mod_lt _ (by decide)
  rw [← eq_tab_iff.mpr ⟨hl, fun i _ => rfl⟩, at'_take hi, at'_flatMap_tritsOfByte, tpEncode_getD t (by omega),
    toNat_tpEncodeByte ht, fiveDigits_digit (fun j => encDigit_lt ht _) hmod, Nat.div_add_mod, trit_encDigit ht hi]

/-! ### The command (44_streams R207) -/

/-- What TRIENC checks: N, the range of the bytes, and that every coefficient is a trit. -/
def State.EncodePre (s : State) (rs1 : PReg) : Prop :=
  s.DimPre ∧ RangePre s.argA ((s.dim + 4) / 5) ∧
    ∀ i, i < s.dim → s.pr[rs1].coeff i = 0 ∨ s.pr[rs1].coeff i = 1 ∨ s.pr[rs1].coeff i = -1

section
variable {s : State} {rs1 : PReg}

theorem allTrits_source :
    allTrits s.dim (s.source rs1) = true ↔
      ∀ i, i < s.dim → s.pr[rs1].coeff i = 0 ∨ s.pr[rs1].coeff i = 1 ∨ s.pr[rs1].coeff i = -1 := by
  simp only [allTrits, List.all_eq_true, List.mem_range, decide_eq_true_eq]
  exact forall₂_congr fun i hi => by rw [at'_source s rs1 hi]

theorem encodePre_iff :
    (s.dimOk && inRange s.argA ((s.dim + 4) / 5) && allTrits s.dim (s.source rs1)) = true ↔ s.EncodePre rs1 := by
  rw [Bool.and_eq_true, Bool.and_eq_true, dimOk_iff, inRange_iff, allTrits_source, and_assoc]
  rfl

theorem execTrienc_run (h : s.EncodePre rs1) :
    exec (.trienc rs1) s = .next { s.finished with
      dmem := s.dmem.writeBytes s.argA (tpEncode (s.source rs1) s.dim), res0 := BitVec.ofNat 32 ((s.dim + 4) / 5) } := by
  rw [exec, execTrienc, triencWrites, if_pos (encodePre_iff.mpr h), ofExcept_ok, conclude_ok, consume_feed]
  rfl

theorem execTrienc_refused (h : ¬ s.EncodePre rs1) : exec (.trienc rs1) s = .next (s.failedWith .precondition) := by
  rw [exec, execTrienc, triencWrites, if_neg (mt encodePre_iff.mp h), ofExcept_error, conclude_err, consume_feed]

/-- The value of byte g over the coefficients of the register. -/
theorem toNat_tpEncodeByte_source (h : s.EncodePre rs1) (g : Nat) :
    (tpEncodeByte (s.source rs1) s.dim g).toNat =
      ∑ j ∈ Finset.range 5, if 5 * g + j < s.dim then (s.pr[rs1].coeff (5 * g + j) % 3).toNat * 3 ^ j else 0 := by
  obtain ⟨-, -, htrits⟩ := h
  have ht : ∀ i, i < s.dim → at' (s.source rs1) i = 0 ∨ at' (s.source rs1) i = 1 ∨ at' (s.source rs1) i = -1 :=
    fun i hi => by
      rw [at'_source s rs1 hi]
      exact htrits i hi
  rw [toNat_tpEncodeByte ht]
  refine Finset.sum_congr rfl fun j _ => ?_
  split
  · next hj => rw [encDigit_eq_emod ht hj, at'_source s rs1 hj]
  · next hj => rw [encDigit, if_neg hj, Nat.zero_mul]

/-- DMEM after TRIENC: the encoding in the range, every other address as before. -/
theorem read_encoded (h : s.EncodePre rs1) (a : Nat) :
    (s.dmem.writeBytes s.argA (tpEncode (s.source rs1) s.dim)).read a =
      if s.argA ≤ a ∧ a < s.argA + (s.dim + 4) / 5 then (tpEncode (s.source rs1) s.dim).getD (a - s.argA) 0#8
      else s.dmem.read a := by
  obtain ⟨-, hr, -⟩ := h
  have hlen := tpEncode_length (s.source rs1) s.dim
  rw [Memory.read_writeBytes _ _ _ _ (by rw [hlen]; exact hr), hlen]

/-- The value of byte g in DMEM after TRIENC. -/
theorem toNat_read_encoded (h : s.EncodePre rs1) {g : Nat} (hg : g < (s.dim + 4) / 5) :
    ((s.dmem.writeBytes s.argA (tpEncode (s.source rs1) s.dim)).read (s.argA + g)).toNat =
      ∑ j ∈ Finset.range 5, if 5 * g + j < s.dim then (s.pr[rs1].coeff (5 * g + j) % 3).toNat * 3 ^ j else 0 := by
  rw [read_encoded h, if_pos ⟨Nat.le_add_right _ _, Nat.add_lt_add_left hg _⟩, Nat.add_sub_cancel_left,
    tpEncode_getD _ hg, toNat_tpEncodeByte_source h]

end

/-- Settles O44: the digits of a byte are read off its value, for the command's bytes and for the decoder alike. -/
theorem tritsEncoded : Obligations.TritsEncoded := by
  constructor
  · rintro rs1 s N len rfl rfl
    exact ⟨fun h => ⟨_, execTrienc_run h, fun a ha => (read_encoded h a).trans (if_neg ha),
      fun g hg => toNat_read_encoded h hg⟩, execTrienc_refused⟩
  · intro N t h
    rw [isTrinomial, Bool.and_eq_true, decide_eq_true_eq, List.all_eq_true] at h
    obtain ⟨hl, hall⟩ := h
    have ht : IsTrinomial t := isTrinomial_of_mem fun v hv => of_decide_eq_true (hall v hv)
    refine ⟨fun v hv => ?_, take_flatMap_tpEncode hl fun i _ => ht i⟩
    obtain ⟨g, -, rfl⟩ := List.mem_map.mp hv
    exact toNat_tpEncodeByte_le (fun i _ => ht i) g

end Sys2Proof.Machine
end

section
/-! PROOFS. TRIMGF from a memory source (44_streams R192, R204, R205): the trits of the accepted bytes. -/

namespace Sys2Proof.Machine

/-- Over a source that gives the bytes the decoder takes them one after the other, as long as more trits are needed. -/
theorem tpDecode_of_gives {σ : Type} {p : σ → Res σ Byte} {N extra : Nat} {bytes : List Byte} {x z : σ}
    (done : List Byte) (h : Gives p bytes x z)
    (hneed : ∀ k, k < bytes.length → 5 * (acceptedBytes (done ++ bytes.take k)).length < N)
    (hend : N ≤ 5 * (acceptedBytes (done ++ bytes)).length) :
    tpDecode p N (bytes.length + extra) (tpAfter N done) x = .ok (tpAfter N (done ++ bytes)) z := by
  induction bytes generalizing done x with
  | nil =>
    cases h
    have hlen : N ≤ (tpAfter N done).t.length := by rw [tpAfter_length]; simpa using hend
    rw [List.append_nil]
    cases extra <;> exact if_pos hlen
  | cons v bytes ih =>
    obtain ⟨y, hv, h⟩ := h
    have hlt : ¬ N ≤ (tpAfter N done).t.length := tpAfter_incomplete (bytes := []) (hneed 0 (Nat.succ_pos _))
    rw [List.length_cons, Nat.add_right_comm, tpDecode, if_neg hlt, hv, Res.bind_ok, tpByte_tpAfter,
      List.append_cons done v bytes]
    refine ih (done ++ [v]) h (fun k hk => ?_) ?_
    · rw [← List.append_cons]
      exact hneed (k + 1) (Nat.succ_lt_succ hk)
    · rwa [← List.append_cons]

/-- With enough bytes at the cursor TRIMGF decodes those up to the one that completes the N trits, and no more. -/
theorem decodeTrits_of_gives {s : State} {bytes : List Byte} {z : Feed} (h : Gives s.pull bytes s.feed z)
    (ht : bytes.length ≤ s.turns) (hacc : (acceptedBytes bytes).length = (s.dim + 4) / 5)
    (hlast : (bytes.getD (bytes.length - 1) 0#8).toNat < 243) : decodeTrits s = .ok (tpAfter s.dim bytes) z := by
  have hstart : (⟨[], 0, 0⟩ : TpAcc) = tpAfter s.dim [] := by simp [tpAfter, acceptedBytes]
  rw [decodeTrits, hstart, ← Nat.add_sub_cancel' ht]
  refine tpDecode_of_gives [] h (fun k hk => ?_) ?_
  · have hfew := acceptedBytes_take_lt hk hlast
    rw [List.nil_append]
    omega
  · rw [List.nil_append]
    omega

/-- A memory source gives the bytes at its cursor. -/
theorem memSource_gives {s : State} {n : Nat} (hs : s.su.src = .mem) (hn : s.su.mcur + n ≤ s.su.mend) :
    Gives s.pull (s.dmem.readBytes s.su.mcur n) s.feed (s.feed.advance n) := pull_gives (f := s.feed) hs hn

/-- Bytes that are those of DMEM one by one. -/
theorem eq_readBytes {m : Memory} {a n : Nat} {bytes : List Byte} (hl : bytes.length = n)
    (h : ∀ i, i < n → bytes.getD i 0#8 = m.read (a + i)) : bytes = m.readBytes a n :=
  List.ext_getElem (by rw [hl, Memory.length_readBytes]) fun i h1 h2 => by
    rw [← List.getD_eq_getElem _ 0#8, ← List.getD_eq_getElem _ 0#8, h i (hl ▸ h1), readBytes_getD _ _ (hl ▸ h1)]

/-- The commit of n bytes consumed from memory. -/
theorem consume_advance (s : State) (n : Nat) :
    s.consume (s.feed.advance n) = { s with su := { s.su with mcur := s.su.mcur + n } } :=
  consume_withIgf_advance s n s.su.igf

/-- Settles O43: the bytes are those the memory source gives, and the last one completes the N trits. -/
theorem tritsFromMemorySource : Obligations.TritsFromMemorySource := by
  intro s rd used bytes accepted hN hs _ hend ht hl hread hacc hlen hlast
  obtain rfl : accepted = acceptedBytes bytes := hacc
  have hgives := memSource_gives hs hend
  rw [← eq_readBytes hl hread] at hgives
  have hdraw := decodeTrits_of_gives hgives (by rwa [hl]) hlen (by rwa [hl])
  refine ⟨_, ?_, (tpAfter_holds hN.2 bytes).congr fun i _ => ?_⟩
  · rw [execTrimgf_run rd hN, hdraw, Res.bind_ok, conclude_ok, consume_advance, ← hl]
    rfl
  · have hd : ((acceptedBytes bytes).getD (i / 5) 0#8).toNat / 3 ^ (i % 5) % 3 < 3 := Nat.mod_lt _ (by decide)
    generalize ((acceptedBytes bytes).getD (i / 5) 0#8).toNat / 3 ^ (i % 5) % 3 = d at hd
    interval_cases d <;> rfl

end Sys2Proof.Machine
end

section
/-! PROOFS. IGF2 over a memory source (44_streams R192, R200, R202): the groups the buffered bits and the bytes make, the
bytes each group needs, and the bits left over. -/

namespace Sys2Proof.Machine

/-! ### Groups read one after the other (44_streams R200) -/

section Groups

variable {σ : Type} {p : σ → Res σ Byte} {m cut G : Nat} {v : Nat → Nat} {y : Nat → Igf × σ}

/-- IGF2 with modulus m and cutoff `cut` reads the groups v 0 to v (G-1); before group j it is in state y j. -/
def ReadsGroups (p : σ → Res σ Byte) (m cut : Nat) (v : Nat → Nat) (y : Nat → Igf × σ) (G : Nat) : Prop :=
  ∀ j, j < G → ∀ turns rej, igfNext p (turns + 1) rej (y j).1 (y j).2 =
    if v j < cut then .ok (v j % m, rej) (y (j + 1)) else igfNext p turns (rej + 1) (y (j + 1)).1 (y (j + 1)).2

theorem ReadsGroups.congr {w : Nat → Nat} (h : ReadsGroups p m cut v y G) (hw : ∀ j, j < G → w j = v j) :
    ReadsGroups p m cut w y G := fun j hj => by
  rw [hw j hj]
  exact h j hj

/-- A draw before group j takes the first accepted group from there on. -/
theorem igfNext_of_readsGroups (h : ReadsGroups p m cut v y G) {j k turns rej : Nat} (hjk : j ≤ k) (hk : k < G)
    (hrej : ∀ i, j ≤ i → i < k → cut ≤ v i) (hacc : v k < cut) (ht : k - j < turns) :
    igfNext p turns rej (y j).1 (y j).2 = .ok (v k % m, rej + (k - j)) (y (k + 1)) := by
  induction hd : k - j generalizing j turns rej with
  | zero =>
    obtain rfl : j = k := by omega
    obtain ⟨turns, rfl⟩ := Nat.exists_eq_add_of_lt ht
    rw [h j hk, if_pos hacc]
    rfl
  | succ d ih =>
    obtain ⟨turns, rfl⟩ : ∃ t, turns = t + 1 := ⟨turns - 1, by omega⟩
    rw [h j (by omega), if_neg (Nat.not_lt.mpr (hrej j (le_refl j) (by omega))),
      ih (by omega) (fun i hi => hrej i (by omega)) (by omega) (by omega), Nat.add_assoc, Nat.add_comm 1]

end Groups

/-! ### The groups of a memory source (44_streams R192, R200) -/

theorem readBytes_add (m : Memory) (a n k : Nat) : m.readBytes a (n + k) = m.readBytes a n ++ m.readBytes (a + n) k := by
  simp only [Memory.readBytes, List.range_add, List.map_append, List.map_map, Function.comp_def, Nat.add_assoc]

/-- The bytes IGF2 pulls before it has read j groups. -/
def bytesFor (g : Igf) (j : Nat) : Nat := (j * g.b - g.nbits + 7) / 8

/-- The bits buffered after j groups. -/
def bitsAfter (g : Igf) (j : Nat) : Nat := g.nbits + 8 * bytesFor g j - j * g.b

theorem bytesFor_mono (g : Igf) {j k : Nat} (h : j ≤ k) : bytesFor g j ≤ bytesFor g k := by
  have := Nat.mul_le_mul_right g.b h
  rw [bytesFor, bytesFor]
  omega

/-- One group more takes b bits from those buffered and those pulled. -/
theorem bitsAfter_succ (g : Igf) (j : Nat) :
    bitsAfter g j + 8 * (bytesFor g (j + 1) - bytesFor g j) = bitsAfter g (j + 1) + g.b := by
  have := Nat.add_one_mul j g.b
  simp only [bitsAfter, bytesFor]
  omega

/-- The bytes pulled for group j are those its turn needs. -/
theorem igfNeed_bitsAfter (g h : Igf) (j : Nat) (hb : h.b = g.b) (hn : h.nbits = bitsAfter g j) :
    bytesFor g (j + 1) - bytesFor g j = igfNeed h := by
  have := Nat.add_one_mul j g.b
  rw [igfNeed, hb, hn]
  simp only [bitsAfter, bytesFor]
  omega

section Memory

variable {s : State}

/-- The buffered bits followed by those of the first n bytes at the cursor, as a number. -/
def State.streamPrefix (s : State) (n : Nat) : Nat := streamValue s.su.igf.buf (s.dmem.readBytes s.su.mcur n)

/-- Group j of the stream: the b bits after those of the groups before it. -/
def State.streamGroup (s : State) (j : Nat) : Nat :=
  s.streamPrefix (bytesFor s.su.igf (j + 1)) / 2 ^ bitsAfter s.su.igf (j + 1) % 2 ^ s.su.igf.b

/-- The IGF2 state after j groups: the bits left of the bytes they needed. -/
def State.igfAfter (s : State) (j : Nat) : Igf :=
  { s.su.igf with
    buf := s.streamPrefix (bytesFor s.su.igf j) % 2 ^ bitsAfter s.su.igf j
    nbits := bitsAfter s.su.igf j }

/-- The IGF2 state and the consumption after j groups. -/
def State.afterGroups (s : State) (j : Nat) : Igf × Feed := (s.igfAfter j, s.feed.advance (bytesFor s.su.igf j))

theorem afterGroups_zero (hbuf : s.su.igf.buf < 2 ^ s.su.igf.nbits) : s.afterGroups 0 = (s.su.igf, s.feed) := by
  have hbytes : bytesFor s.su.igf 0 = 0 := by simp [bytesFor]
  have hbits : bitsAfter s.su.igf 0 = s.su.igf.nbits := by simp [bitsAfter, hbytes]
  have hpre : s.streamPrefix 0 = s.su.igf.buf := rfl
  rw [State.afterGroups, State.igfAfter, hbytes, hbits, hpre, Nat.mod_eq_of_lt hbuf]
  rfl

theorem streamPrefix_add (n k : Nat) :
    s.streamPrefix (n + k) = streamValue (s.streamPrefix n) (s.dmem.readBytes (s.su.mcur + n) k) := by
  rw [State.streamPrefix, readBytes_add, streamValue_append]
  rfl

/-- The bits of fewer bytes are the high bits of those of more. -/
theorem streamPrefix_div (n k : Nat) : s.streamPrefix (n + k) / 2 ^ (8 * k) = s.streamPrefix n := by
  have h := streamValue_div (s.streamPrefix n) (s.dmem.readBytes (s.su.mcur + n) k)
  rwa [Memory.length_readBytes, ← streamPrefix_add] at h

/-- The bytes pulled for group j. -/
def State.groupBytes (s : State) (j : Nat) : List Byte :=
  s.dmem.readBytes (s.su.mcur + bytesFor s.su.igf j) (bytesFor s.su.igf (j + 1) - bytesFor s.su.igf j)

/-- The bits a turn has once it pulled the bytes for its group: those from the start of group j on. -/
theorem igfAppend_igfAfter (j : Nat) :
    igfAppend (s.igfAfter j) (s.groupBytes j) =
      { s.su.igf with
        buf := s.streamPrefix (bytesFor s.su.igf (j + 1)) % 2 ^ (bitsAfter s.su.igf (j + 1) + s.su.igf.b)
        nbits := bitsAfter s.su.igf (j + 1) + s.su.igf.b } := by
  have hsum := Nat.add_sub_cancel' (bytesFor_mono s.su.igf (Nat.le_add_right j 1))
  rw [igfAppend, State.igfAfter, State.groupBytes, streamValue_mod, ← streamPrefix_add, Memory.length_readBytes,
    bitsAfter_succ, hsum]

theorem igfGroup_groupBytes (j : Nat) : igfGroup (igfAppend (s.igfAfter j) (s.groupBytes j)) = s.streamGroup j := by
  rw [igfAppend_igfAfter, igfGroup, Nat.add_sub_cancel, pow_add, Nat.mod_mul_right_div_self, State.streamGroup]

theorem igfRest_groupBytes (j : Nat) : igfRest (igfAppend (s.igfAfter j) (s.groupBytes j)) = s.igfAfter (j + 1) := by
  rw [igfAppend_igfAfter, igfRest, Nat.add_sub_cancel, Nat.mod_mod_of_dvd _ (pow_dvd_pow 2 (Nat.le_add_right _ _)),
    State.igfAfter]

/-- A memory source that reaches past group j gives the bytes pulled for it. -/
theorem gives_groupBytes {j : Nat} (hs : s.su.src = .mem) (hend : s.su.mcur + bytesFor s.su.igf (j + 1) ≤ s.su.mend) :
    Gives s.pull (s.groupBytes j) (s.afterGroups j).2 (s.afterGroups (j + 1)).2 := by
  have hsum := Nat.add_sub_cancel' (bytesFor_mono s.su.igf (Nat.le_add_right j 1))
  have h := pull_gives (mem := s.dmem) (impl := s.params.digest) (f := (s.afterGroups j).2)
    (n := bytesFor s.su.igf (j + 1) - bytesFor s.su.igf j) hs
    (show s.su.mcur + bytesFor s.su.igf j + (bytesFor s.su.igf (j + 1) - bytesFor s.su.igf j) ≤ s.su.mend by omega)
  have hstate : (s.afterGroups j).2.advance (bytesFor s.su.igf (j + 1) - bytesFor s.su.igf j) =
      (s.afterGroups (j + 1)).2 := by
    simp only [State.afterGroups, Feed.advance, Nat.add_assoc, hsum]
  rwa [hstate] at h

/-- A memory source that has the bytes of G groups lets IGF2 read them. -/
theorem readsGroups_memSource {G : Nat} (hs : s.su.src = .mem) (hend : s.su.mcur + bytesFor s.su.igf G ≤ s.su.mend) :
    ReadsGroups s.pull s.su.igf.m s.su.igf.cut s.streamGroup s.afterGroups G := by
  intro j hj turns rej
  have hle := bytesFor_mono s.su.igf (j := j + 1) hj
  have hneed : (s.groupBytes j).length = igfNeed (s.igfAfter j) :=
    (Memory.length_readBytes _ _ _).trans (igfNeed_bitsAfter s.su.igf (s.igfAfter j) j rfl rfl)
  have hturn := igfNext_of_gives (gives_groupBytes hs (by omega)) hneed turns rej
  rwa [igfGroup_groupBytes, igfRest_groupBytes] at hturn

/-- A group read off the bits of more groups than it needs. -/
theorem streamGroup_eq {j G : Nat} (hj : j < G) :
    s.streamGroup j = s.streamPrefix (bytesFor s.su.igf G) /
      2 ^ (s.su.igf.nbits + 8 * bytesFor s.su.igf G - (j + 1) * s.su.igf.b) % 2 ^ s.su.igf.b := by
  obtain ⟨k, hk⟩ := Nat.exists_eq_add_of_le (bytesFor_mono s.su.igf (j := j + 1) hj)
  have hbits : s.su.igf.nbits + 8 * bytesFor s.su.igf G - (j + 1) * s.su.igf.b =
      8 * k + bitsAfter s.su.igf (j + 1) := by
    simp only [bitsAfter, bytesFor] at hk ⊢
    omega
  rw [State.streamGroup, hbits, hk, pow_add, ← Nat.div_div_eq_div_mul, streamPrefix_div]

end Memory

/-! ### IGFNEXT (44_streams R202) -/

/-- The commit of the consumption of G groups. -/
theorem consume_afterGroups (s : State) (G : Nat) :
    s.consume (Feed.withIgf (s.afterGroups G)) = s.ranDry (bytesFor s.su.igf G) (s.igfAfter G) :=
  consume_withIgf_advance _ _ _

/-- Settles O40: the memory source lets IGF2 read R + 1 groups, of which the last is the first accepted one. -/
theorem indexFromMemorySource : Obligations.IndexFromMemorySource := by
  intro s g R n bits left total v hg hact hok hs ht hn hend htotal hbits hleft hv hrej hacc
  subst hg hn hbits hleft
  obtain ⟨-, -, -, -, -, hbuf, -⟩ := hok.2 hact
  rw [← streamValue_readBytes] at htotal
  subst htotal
  have hreads : ReadsGroups s.pull s.su.igf.m s.su.igf.cut v s.afterGroups (R + 1) :=
    (readsGroups_memSource hs hend).congr fun j hj =>
      (hv j (Nat.le_of_lt_succ hj)).trans (streamGroup_eq hj).symm
  have hnext := igfNext_of_readsGroups hreads (rej := 0) (Nat.zero_le R) (Nat.lt_succ_self R)
    (fun i _ hi => hrej i hi) hacc ht
  rw [afterGroups_zero hbuf, Nat.zero_add, Nat.sub_zero] at hnext
  rw [execIgfnext_run hact, drawIndex, hnext, Res.mapState_ok, Res.bind_ok, conclude_ok, consume_afterGroups]
  rfl

end Sys2Proof.Machine
end

section
/-! PROOFS. BPGM3 over groups read one after the other (44_streams R203), and TRISMP from a memory source (R192, R200):
which groups are new, what each one sets, and what the draws count; the weights TRISMP reaches. -/

namespace Sys2Proof.Machine

/-! ### Counting along a sequence -/

/-- A count that is reached is reached right after one of the things counted, or at the start. -/
theorem exists_count_eq {P : Nat → Prop} [DecidablePred P] {G k : Nat} (h : k ≤ Nat.count P G) :
    ∃ e, e ≤ G ∧ Nat.count P e = k ∧ (e = 0 ∨ P (e - 1)) := by
  induction G with
  | zero => exact ⟨0, le_refl 0, by rw [Nat.count_zero] at h ⊢; omega, .inl rfl⟩
  | succ G ih =>
    by_cases hk : k ≤ Nat.count P G
    · obtain ⟨e, he, hcount, hlast⟩ := ih hk
      exact ⟨e, Nat.le_succ_of_le he, hcount, hlast⟩
    · rw [Nat.count_succ] at h
      by_cases hP : P G
      · rw [if_pos hP] at h
        exact ⟨G + 1, le_refl _, by rw [Nat.count_succ, if_pos hP]; omega, .inr hP⟩
      · rw [if_neg hP] at h
        exact absurd h hk

theorem count_lt_of_lt {P : Nat → Prop} [DecidablePred P] {k e : Nat} (hk : k < e) (hP : P k) :
    Nat.count P k < Nat.count P e :=
  calc Nat.count P k < Nat.count P (k + 1) := by rw [Nat.count_succ, if_pos hP]; exact Nat.lt_succ_self _
    _ ≤ Nat.count P e := Nat.count_monotone P hk

/-! ### The trinomial after some groups (44_streams R203) -/

section Sampling

variable (N cut ones : Nat) (v : Nat → Nat) (fresh : Nat → Bool)

/-- The new groups among the first j. -/
def freshBefore (j : Nat) : Nat := Nat.count (fun i => fresh i = true) j

/-- The value a new group gives its coefficient: +1 to the first `ones`, -1 to the others. -/
def sampledValue (k : Nat) : Int := if freshBefore fresh k < ones then 1 else -1

/-- Coefficient i after j groups: the value of the new group whose index it is, 0 where there is none. -/
def sampledCoeff : Nat → Nat → Int
  | 0, _ => 0
  | j + 1, i => if fresh j = true ∧ v j % N = i then sampledValue ones fresh j else sampledCoeff j i

/-- BPGM3's trinomial and counts after j groups. -/
def sampledAt (j : Nat) : Bpgm :=
  { t := tab N (sampledCoeff N ones v fresh j)
    draws := Nat.count (fun i => v i < cut) j
    rej := Nat.count (fun i => cut ≤ v i) j }

/-- Of the first G groups the new ones are those that are accepted and give an index no accepted one before gave. -/
def FreshGroups (G : Nat) : Prop :=
  ∀ j, j < G → (fresh j = true ↔ v j < cut ∧ ∀ i, i < j → v i < cut → v i % N ≠ v j % N)

variable {N cut ones v fresh}

theorem freshBefore_succ (j : Nat) : freshBefore fresh (j + 1) = freshBefore fresh j + if fresh j = true then 1 else 0 :=
  Nat.count_succ _ _

theorem sampledValue_ne_zero (k : Nat) : sampledValue ones fresh k ≠ 0 := by
  unfold sampledValue
  split <;> decide

/-- A coefficient is free as long as no new group gave its index. -/
theorem sampledCoeff_eq_zero_iff (j i : Nat) :
    sampledCoeff N ones v fresh j i = 0 ↔ ∀ k, k < j → fresh k = true → v k % N ≠ i := by
  induction j with
  | zero => simp [sampledCoeff]
  | succ j ih =>
    rw [sampledCoeff]
    split
    · next h => exact iff_of_false (sampledValue_ne_zero j) fun hall => hall j (Nat.lt_succ_self j) h.1 h.2
    · next h =>
      refine ih.trans ⟨fun hall k hk hf hi => ?_, fun hall k hk => hall k (Nat.lt_succ_of_lt hk)⟩
      rcases Nat.lt_succ_iff_lt_or_eq.mp hk with hk | rfl
      · exact hall k hk hf hi
      · exact h ⟨hf, hi⟩

section
variable {G : Nat} (hfresh : FreshGroups N cut v fresh G)
include hfresh

/-- An accepted group is new exactly where no new one before gave its index: the first to give it is new. -/
theorem fresh_iff {j : Nat} (hj : j < G) (hacc : v j < cut) :
    fresh j = true ↔ ∀ k, k < j → fresh k = true → v k % N ≠ v j % N := by
  refine ⟨fun hf k hk hfk => ?_, fun h => (hfresh j hj).mpr ⟨hacc, fun i hi hcut heq => ?_⟩⟩
  · obtain ⟨-, hnew⟩ := (hfresh j hj).mp hf
    obtain ⟨hcut, -⟩ := (hfresh k (hk.trans hj)).mp hfk
    exact hnew k hk hcut
  · classical
    have hex : ∃ i, v i < cut ∧ v i % N = v j % N := ⟨i, hcut, heq⟩
    obtain ⟨hcut0, heq0⟩ := Nat.find_spec hex
    have hlt := (Nat.find_min' hex ⟨hcut, heq⟩).trans_lt hi
    refine h _ hlt ((hfresh _ (hlt.trans hj)).mpr ⟨hcut0, fun k hk hkcut hkeq => ?_⟩) heq0
    exact Nat.find_min hex hk ⟨hkcut, hkeq.trans heq0⟩

/-- A coefficient keeps the value its new group gave it. -/
theorem sampledCoeff_of_fresh {j k : Nat} (hk : k < j) (hj : j ≤ G) (hf : fresh k = true) :
    sampledCoeff N ones v fresh j (v k % N) = sampledValue ones fresh k := by
  induction j with
  | zero => exact absurd hk (Nat.not_lt_zero k)
  | succ j ih =>
    rw [sampledCoeff]
    rcases Nat.lt_succ_iff_lt_or_eq.mp hk with hk | rfl
    · obtain ⟨hcut, -⟩ := (hfresh k (hk.trans hj)).mp hf
      rw [if_neg fun h => ((hfresh j hj).mp h.1).2 k hk hcut h.2.symm]
      exact ih hk (Nat.le_of_succ_le hj)
    · rw [if_pos ⟨hf, rfl⟩]

end

theorem at'_sampledAt {i : Nat} (hi : i < N) (j : Nat) :
    at' (sampledAt N cut ones v fresh j).t i = sampledCoeff N ones v fresh j i := at'_tab _ hi

theorem tab_set {n d : Nat} (hd : d < n) (f : Nat → Int) (val : Int) :
    (tab n f).set d val = tab n fun i => if d = i then val else f i := by
  refine eq_tab_iff.mpr ⟨by rw [List.length_set, tab_length], fun i hi => ?_⟩
  rw [at', List.getD_eq_getElem?_getD]
  by_cases h : d = i
  · subst h
    rw [if_pos rfl, List.getElem?_set_self (by rw [tab_length]; exact hd), Option.getD_some]
  · rw [if_neg h, List.getElem?_set_ne h, ← List.getD_eq_getElem?_getD]
    exact at'_tab f hi

/-- Rejected groups are counted and set nothing. -/
theorem sampledAt_rejects {G : Nat} (hfresh : FreshGroups N cut v fresh G) {j k : Nat} (hjk : j ≤ k) (hk : k ≤ G)
    (hrej : ∀ i, j ≤ i → i < k → cut ≤ v i) :
    freshBefore fresh k = freshBefore fresh j ∧
      sampledAt N cut ones v fresh k =
        { sampledAt N cut ones v fresh j with rej := (sampledAt N cut ones v fresh j).rej + (k - j) } := by
  induction k, hjk using Nat.le_induction with
  | base => exact ⟨rfl, by rw [Nat.sub_self]; rfl⟩
  | succ k hjk ih =>
    obtain ⟨hcount, hat⟩ := ih (Nat.le_of_succ_le hk) fun i hji hi => hrej i hji (Nat.lt_succ_of_lt hi)
    have hcut := hrej k hjk (Nat.lt_succ_self k)
    have hold : ¬ fresh k = true := fun hf => Nat.not_lt.mpr hcut ((hfresh k hk).mp hf).1
    refine ⟨by rw [freshBefore_succ, if_neg hold, hcount]; rfl, ?_⟩
    have hcoeff : sampledCoeff N ones v fresh (k + 1) = sampledCoeff N ones v fresh k :=
      funext fun i => if_neg fun h => hold h.1
    rw [Nat.succ_sub hjk, Nat.succ_eq_add_one, ← Nat.add_assoc]
    rw [sampledAt, Bpgm.mk.injEq] at hat
    obtain ⟨ht, hdraws, hr⟩ := hat
    rw [sampledAt, hcoeff, ht, Nat.count_succ, if_neg (Nat.not_lt.mpr hcut), hdraws, Nat.count_succ, if_pos hcut, hr]
    rfl

/-- An accepted group sets a free coefficient where it is new, and is a collision where it is not. -/
theorem bpgmDraw_sampledAt {G : Nat} (hfresh : FreshGroups N cut v fresh G) (hN : 1 ≤ N) {k : Nat} (hk : k < G)
    (hacc : v k < cut) {val : Int} (hval : fresh k = true → sampledValue ones fresh k = val) :
    (at' (sampledAt N cut ones v fresh k).t (v k % N) = 0 ↔ fresh k = true) ∧
      bpgmDraw (sampledAt N cut ones v fresh k) val (v k % N) 0 = sampledAt N cut ones v fresh (k + 1) := by
  have hi : v k % N < N := Nat.mod_lt _ hN
  have hfree : at' (sampledAt N cut ones v fresh k).t (v k % N) = 0 ↔ fresh k = true := by
    rw [at'_sampledAt hi, sampledCoeff_eq_zero_iff, fresh_iff hfresh hk hacc]
  refine ⟨hfree, ?_⟩
  have ht : (if at' (sampledAt N cut ones v fresh k).t (v k % N) = 0 then
      (sampledAt N cut ones v fresh k).t.set (v k % N) val else (sampledAt N cut ones v fresh k).t) =
        tab N (sampledCoeff N ones v fresh (k + 1)) := by
    by_cases hf : fresh k = true
    · rw [if_pos (hfree.mpr hf), sampledAt, tab_set hi, ← hval hf]
      refine congrArg (tab N) (funext fun i => ?_)
      simp only [sampledCoeff, hf, true_and]
    · rw [if_neg fun h => hf (hfree.mp h)]
      exact congrArg (tab N) (funext fun i => (if_neg fun h => hf h.1).symm)
  rw [bpgmDraw, ht]
  simp only [sampledAt, Nat.count_succ, if_pos hacc, if_neg (Nat.not_le.mpr hacc)]

/-- A draw: some rejected groups, then an accepted one. -/
theorem bpgmDraw_after_rejects {G : Nat} (hfresh : FreshGroups N cut v fresh G) (hN : 1 ≤ N) {j k : Nat} (hjk : j ≤ k)
    (hk : k < G) (hrej : ∀ i, j ≤ i → i < k → cut ≤ v i) (hacc : v k < cut) {val : Int}
    (hval : fresh k = true → sampledValue ones fresh k = val) :
    bpgmDraw (sampledAt N cut ones v fresh j) val (v k % N) (k - j) = sampledAt N cut ones v fresh (k + 1) ∧
      freshBefore fresh (k + 1) =
        freshBefore fresh j + if at' (sampledAt N cut ones v fresh j).t (v k % N) = 0 then 1 else 0 := by
  obtain ⟨hsame, hat⟩ := sampledAt_rejects (ones := ones) hfresh hjk (Nat.le_of_lt hk) hrej
  obtain ⟨hfree, hdraw⟩ := bpgmDraw_sampledAt hfresh hN hk hacc hval
  have ht : (sampledAt N cut ones v fresh k).t = (sampledAt N cut ones v fresh j).t := by rw [hat]
  rw [ht] at hfree
  refine ⟨by rw [← hdraw, hat]; rfl, ?_⟩
  rw [freshBefore_succ, hsame]
  simp only [hfree]

/-- Where no new group is wanted, none is read. -/
theorem eq_of_freshBefore_eq {j e : Nat} (hje : j ≤ e) (hcount : freshBefore fresh e = freshBefore fresh j)
    (hlast : j = e ∨ fresh (e - 1) = true) : j = e := by
  by_contra hne
  have h1 := count_lt_of_lt (P := fun i => fresh i = true) (show e - 1 < e by omega) (hlast.resolve_left hne)
  have h2 := Nat.count_monotone (fun i => fresh i = true) (show j ≤ e - 1 by omega)
  exact absurd hcount (Nat.ne_of_gt (h2.trans_lt h1))

/-- The first accepted group from group j on. -/
theorem exists_next_accepted {j e : Nat} (hje : j ≤ e) (hacc : v e < cut) :
    ∃ k, j ≤ k ∧ k ≤ e ∧ v k < cut ∧ ∀ i, j ≤ i → i < k → cut ≤ v i := by
  classical
  have hex : ∃ k, j ≤ k ∧ v k < cut := ⟨e, hje, hacc⟩
  obtain ⟨hjk, hk⟩ := Nat.find_spec hex
  exact ⟨Nat.find hex, hjk, Nat.find_min' hex ⟨hje, hacc⟩, hk, fun i hji hi =>
    Nat.not_lt.mp fun hcut => Nat.find_min hex hi ⟨hji, hcut⟩⟩

/-! ### BPGM3 over groups (44_streams R203) -/

section
variable {σ : Type} {p : σ → Res σ Byte} {y : Nat → Igf × σ} {G turns : Nat} (hfresh : FreshGroups N cut v fresh G)
  (hN : 1 ≤ N) (h : ReadsGroups p N cut v y G) (ht : G ≤ turns)
include hfresh hN h ht

/-- The placing of one value goes on to the group that is the last new one wanted. -/
theorem bpgmPlace_of_readsGroups {val : Int} {j e left need : Nat} (hje : j ≤ e) (he : e ≤ G) (hleft : e ≤ j + left)
    (hcount : freshBefore fresh e = freshBefore fresh j + need) (hlast : j = e ∨ fresh (e - 1) = true)
    (hval : ∀ k, j ≤ k → k < e → fresh k = true → sampledValue ones fresh k = val) :
    bpgmPlace p turns val left need (sampledAt N cut ones v fresh j) (y j) =
      .ok (sampledAt N cut ones v fresh e) (y e) := by
  induction left generalizing j need with
  | zero =>
    obtain rfl : j = e := by omega
    obtain rfl : need = 0 := by omega
    rfl
  | succ left ih =>
    cases need with
    | zero =>
      obtain rfl := eq_of_freshBefore_eq hje hcount hlast
      rfl
    | succ need =>
      have hne : j ≠ e := fun heq => by subst heq; omega
      have hend := hlast.resolve_left hne
      obtain ⟨k, hjk, hke, hacc, hrej⟩ :=
        exists_next_accepted (show j ≤ e - 1 by omega) ((hfresh (e - 1) (by omega)).mp hend).1
      obtain ⟨hdraw, hnew⟩ := bpgmDraw_after_rejects hfresh hN hjk (by omega) hrej hacc (hval k hjk (by omega))
      rw [bpgmPlace, igfNext_of_readsGroups h hjk (by omega) hrej hacc (by omega), Res.bind_ok, Nat.zero_add, hdraw]
      refine ih (by omega) (by omega) ?_ (.inr hend) fun i hi => hval i (by omega)
      rw [hcount, hnew]
      split <;> omega

/-- BPGM3 reads the groups up to the last new one wanted, the first `ones` new ones for +1 and the others for -1. -/
theorem bpgm3_of_readsGroups {negs : Nat} (hcount : freshBefore fresh G = ones + negs)
    (hlast : G = 0 ∨ fresh (G - 1) = true) :
    bpgm3 p turns N ones negs (y 0) = .ok (sampledAt N cut ones v fresh G) (y G) := by
  obtain ⟨e, he, hones, hend⟩ : ∃ e, e ≤ G ∧ freshBefore fresh e = ones ∧ (e = 0 ∨ fresh (e - 1) = true) :=
    exists_count_eq (show ones ≤ freshBefore fresh G by omega)
  have hstart : (⟨tab N fun _ => 0, 0, 0⟩ : Bpgm) = sampledAt N cut ones v fresh 0 := rfl
  have hzero : freshBefore fresh 0 = 0 := rfl
  have hplus : ∀ k, 0 ≤ k → k < e → fresh k = true → sampledValue ones fresh k = 1 := fun k _ hk hf =>
    if_pos (hones ▸ count_lt_of_lt (P := fun i => fresh i = true) hk hf)
  have hminus : ∀ k, e ≤ k → k < G → fresh k = true → sampledValue ones fresh k = -1 := fun k hk _ _ =>
    if_neg (Nat.not_lt.mpr (hones ▸ Nat.count_monotone _ hk))
  rw [bpgm3, hstart, bpgmPlace_of_readsGroups hfresh hN h ht (Nat.zero_le e) he (by omega) (by omega)
    (hend.imp_left Eq.symm) hplus, Res.bind_ok]
  exact bpgmPlace_of_readsGroups hfresh hN h ht he (le_refl G) (by omega) (by omega)
    (hlast.imp_left fun h0 => by omega) hminus

end

/-- The coefficient after G groups: of the new group with its index, if there is one. -/
theorem sampledCoeff_eq {G : Nat} {rank : Nat → Nat} (hfresh : FreshGroups N cut v fresh G)
    (hrank : ∀ j, j < G → rank j = freshBefore fresh j) (i : Nat) :
    sampledCoeff N ones v fresh G i =
      if ∃ j, j < G ∧ fresh j = true ∧ v j % N = i ∧ rank j < ones then 1
      else if ∃ j, j < G ∧ fresh j = true ∧ v j % N = i then -1
      else 0 := by
  split
  · next h =>
    obtain ⟨j, hj, hf, rfl, hlt⟩ := h
    rw [sampledCoeff_of_fresh hfresh hj (le_refl G) hf, sampledValue, ← hrank j hj, if_pos hlt]
  · next hplus =>
    split
    · next h =>
      obtain ⟨j, hj, hf, rfl⟩ := h
      rw [sampledCoeff_of_fresh hfresh hj (le_refl G) hf, sampledValue, ← hrank j hj,
        if_neg fun hlt => hplus ⟨j, hj, hf, rfl, hlt⟩]
    · next h => exact (sampledCoeff_eq_zero_iff G i).mpr fun j hj hf hi => h ⟨j, hj, hf, hi⟩

end Sampling

/-! ### The bits of a memory source with no bit buffered (44_streams R200) -/

section Bits

variable {s : State}

theorem streamPrefix_succ (n : Nat) :
    s.streamPrefix (n + 1) = 2 ^ 8 * s.streamPrefix n + (s.dmem.read (s.su.mcur + n)).toNat := by
  rw [streamPrefix_add, Nat.mul_comm]
  rfl

/-- Stream bit k is bit 7 - k mod 8 of byte k div 8 at the cursor. -/
theorem streamPrefix_testBit {n k : Nat} (hk : k < 8 * n) :
    (s.streamPrefix n).testBit (8 * n - 1 - k) = (s.dmem.read (s.su.mcur + k / 8)).getLsbD (7 - k % 8) := by
  induction n with
  | zero => exact absurd hk (Nat.not_lt_zero k)
  | succ n ih =>
    rw [streamPrefix_succ, Nat.testBit_two_pow_mul_add _ (s.dmem.read _).isLt]
    by_cases hkn : k < 8 * n
    · rw [if_neg (by omega), ← ih hkn]
      congr 1
      omega
    · rw [if_pos (by omega), show 8 * (n + 1) - 1 - k = 7 - k % 8 by omega, show k / 8 = n by omega]
      rfl

/-- Group j is stream bits j·b to j·b+b-1, the first the most significant. -/
theorem streamGroup_eq_bitsValue (hbits : s.su.igf.nbits = 0) (j : Nat) :
    s.streamGroup j = bitsValue (fun i => (s.dmem.read (s.su.mcur + (j * s.su.igf.b + i) / 8)).getLsbD
      (7 - (j * s.su.igf.b + i) % 8)) s.su.igf.b := by
  have hlt : s.streamGroup j < 2 ^ s.su.igf.b := Nat.mod_lt _ (by positivity)
  have hsucc := Nat.add_one_mul j s.su.igf.b
  have hbytes : (j + 1) * s.su.igf.b ≤ 8 * bytesFor s.su.igf (j + 1) := by rw [bytesFor, hbits]; omega
  have hleft : bitsAfter s.su.igf (j + 1) = 8 * bytesFor s.su.igf (j + 1) - (j + 1) * s.su.igf.b := by
    rw [bitsAfter, hbits, Nat.zero_add]
  refine (bitsValue_of_testBit hlt fun i hi => ?_).symm
  rw [State.streamGroup, Nat.testBit_mod_two_pow, decide_eq_true (by omega), Bool.true_and, Nat.testBit_div_two_pow,
    ← streamPrefix_testBit (n := bytesFor s.su.igf (j + 1)) (by omega), hleft]
  congr 1
  omega

/-- The bits left over are the last of the last byte. -/
theorem streamPrefix_mod {n k : Nat} (hk : k ≤ 8) (hn : n = 0 → k = 0) :
    s.streamPrefix n % 2 ^ k = (s.dmem.read (s.su.mcur + n - 1)).toNat % 2 ^ k := by
  cases n with
  | zero => rw [hn rfl, pow_zero, Nat.mod_one, Nat.mod_one]
  | succ n =>
    have hpow : 2 ^ 8 = 2 ^ k * 2 ^ (8 - k) := by rw [← pow_add, Nat.add_sub_cancel' hk]
    rw [streamPrefix_succ, hpow, Nat.mul_assoc, Nat.mul_add_mod]
    rfl

end Bits

/-- With no bit buffered the groups leave the last bits of the last byte. -/
theorem igfAfter_of_nbits_zero {s : State} {G len left : Nat} (hbits : s.su.igf.nbits = 0)
    (hlen : len = bytesFor s.su.igf G) (hleft : left = 8 * len - G * s.su.igf.b) :
    s.igfAfter G = { s.su.igf with buf := (s.dmem.read (s.su.mcur + len - 1)).toNat % 2 ^ left, nbits := left } := by
  have hafter : left = bitsAfter s.su.igf G := by rw [hleft, hlen, bitsAfter, hbits, Nat.zero_add]
  have hle : len = (G * s.su.igf.b + 7) / 8 := by rw [hlen, bytesFor, hbits, Nat.sub_zero]
  rw [State.igfAfter, ← hafter, ← hlen, streamPrefix_mod (by omega) (by omega)]

/-! ### TRISMP (44_streams R203) -/

/-- What TRISMP draws from a memory source with the groups v, of which the last is the last new one wanted. -/
theorem drawTrinomial_memSource {s : State} {G : Nat} {v : Nat → Nat} {fresh : Nat → Bool} (hN : s.DimPre)
    (hm : s.su.igf.m = s.dim) (hbuf : s.su.igf.buf < 2 ^ s.su.igf.nbits) (hs : s.su.src = .mem)
    (hend : s.su.mcur + bytesFor s.su.igf G ≤ s.su.mend) (ht : G ≤ s.turns)
    (hv : ∀ j, j < G → v j = s.streamGroup j) (hfresh : FreshGroups s.dim s.su.igf.cut v fresh G)
    (hcount : freshBefore fresh G = s.argA + s.argB) (hlast : G = 0 ∨ fresh (G - 1) = true) :
    drawTrinomial s = .ok (sampledAt s.dim s.su.igf.cut s.argA v fresh G) (Feed.withIgf (s.afterGroups G)) := by
  have hreads := (readsGroups_memSource hs hend).congr hv
  rw [hm] at hreads
  have h := bpgm3_of_readsGroups hfresh hN.1 hreads ht hcount hlast
  rw [afterGroups_zero hbuf] at h
  exact Res.mapState_eq_ok.mpr ⟨_, h, rfl⟩

/-- Settles O42: the memory source lets IGF2 read the G groups, and BPGM3 over them sets what the new ones say. -/
theorem trinomialFromMemorySource : Obligations.TrinomialFromMemorySource := by
  intro s rd g K G len left bit v fresh rank hN hg hact hok hm hbits hs hK hKN ht hlen hleft hend hbit hv hfresh hrank
    hcount hlast
  subst hg
  obtain ⟨-, -, -, -, -, hbuf, -⟩ := hok.2 hact
  have hbytes : len = bytesFor s.su.igf G := by rw [hlen, bytesFor, hbits, Nat.sub_zero]
  have hgroup : ∀ j, j < G → v j = s.streamGroup j := fun j hj => by
    obtain ⟨hlt, hvj⟩ := hv j hj
    rw [streamGroup_eq_bitsValue hbits]
    exact (bitsValue_of_testBit hlt fun i hi => by rw [hvj i hi, hbit]).symm
  have hrank' : ∀ j, j ≤ G → rank j = freshBefore fresh j := fun j hj =>
    (hrank j hj).trans (Nat.count_eq_card_filter_range _ _).symm
  rw [hm] at hfresh
  have hdraw := drawTrinomial_memSource hN hm hbuf hs (hbytes ▸ hend) ht hgroup hfresh
    ((hrank' G (le_refl G)).symm.trans (hcount.trans hK)) hlast
  refine ⟨_, ?_, (drawTrinomial_holds hN hm hdraw).congr fun i hi => ?_⟩
  · rw [execTrismp_run rd ((trismpOk_iff s).mpr ⟨hN, hact, hm, hK ▸ hKN⟩), hdraw, Res.bind_ok, conclude_ok,
      consume_afterGroups, igfAfter_of_nbits_zero hbits hbytes hleft, ← hbytes, ← Nat.count_eq_card_filter_range,
      ← Nat.count_eq_card_filter_range]
    rfl
  · rw [at'_sampledAt hi, hm]
    exact sampledCoeff_eq hfresh (fun j hj => hrank' j (Nat.le_of_lt hj)) i

/-- Settles O41: the draw is BPGM3's, whose weights are counted with each coefficient it sets. -/
theorem sampledWeights : Obligations.SampledWeights := by
  intro s r f hN hm h
  obtain ⟨x, hx, -⟩ := Res.mapState_eq_ok.mp h
  obtain ⟨hlen, hones, hnegs, hzeros, hdraws, -⟩ := bpgm3_ok (N := s.dim) hN.1 hm hx
  exact ⟨hlen, hones, hnegs, hzeros, hdraws⟩

end Sys2Proof.Machine
end

section
/-! PROOFS. What KEYGEN generates (45_ntru R240, R252 to R254): the relation f·h = 3·g in R_2048, the weights of F and g, and
the length of a PRIVATE blob (R278, R279). -/

namespace Sys2Proof.Machine

/-! ### The key relation in R_2048 (45_ntru R254) -/

theorem classOf_convAt (N m : Nat) (a b : Vec) :
    classOf N m (convAt N a b) = classOf N m (at' a) * classOf N m (at' b) := classOf_cyclicConv N m _ _

theorem classOf_intMul (N m : Nat) (u : Int) (a : Nat → Int) : classOf N m (fun i => u * a i) = u * classOf N m a :=
  evalAt_mul _ N u a

theorem classOf_add (N m : Nat) (a b : Nat → Int) :
    classOf N m (fun i => a i + b i) = classOf N m a + classOf N m b := evalAt_add _ N a b

/-- f·h = 3·g mod 2048, said of the elements of R_2048. -/
theorem keyRelation_iff {N : Nat} (hN : 1 ≤ N) (F g h : Vec) :
    KeyRelation N F g h ↔
      classOf N 2048 (at' (privPoly N F)) * classOf N 2048 (at' h) = (3 : Int) * classOf N 2048 (at' g) := by
  rw [← classOf_convAt, ← classOf_intMul, classOf_eq_iff hN (by decide)]
  rfl

/-- With an inverse fq of f, h = 3·fq·g satisfies f·h = 3·g (45_ntru R254). -/
theorem keyH_keyRelation {N : Nat} {F fq : Vec} (hN : 1 ≤ N) (hfq : InverseIn N 2048 (at' (privPoly N F)) (at' fq))
    (g : Vec) : KeyRelation N F g (keyH N fq g) := by
  have hinv := ((inverseIn_iff (m := 2048) hN (by decide) _ _).mp hfq).2
  have hh : classOf N 2048 (at' (keyH N fq g)) = (3 : Int) * (classOf N 2048 (at' fq) * classOf N 2048 (at' g)) := by
    rw [← classOf_convAt, ← classOf_intMul]
    exact evalAt_tab_emod (modulus_eq_zero N 2048) _ N _
  rw [keyRelation_iff hN, hh]
  linear_combination (((3 : Int) : RingR N 2048) * classOf N 2048 (at' g)) * hinv

/-! ### The length of a PRIVATE blob (45_ntru R278, R279) -/

theorem indexEnc_length (P : ParamSet) (F : Vec) : (indexEnc P F).length = P.lenIndex := by
  rw [indexEnc, pack, if_pos rfl, packAll_length]
  rfl

/-- F of the weights df/df takes the shorter of its two forms. -/
theorem encodeF_length_of_weights {P : ParamSet} {F : Vec} (h1 : countSym P.N F 1 = P.df)
    (h2 : countSym P.N F (-1) = P.df) : (encodeF P F).length = min P.lenTrit P.lenIndex := by
  by_cases hlt : P.lenIndex < P.lenTrit
  · rw [encodeF, if_pos ⟨hlt, h1, h2⟩, indexEnc_length, min_eq_right hlt.le]
  · rw [encodeF, if_neg fun h => hlt h.1, tpEncode_length, min_eq_left (not_lt.mp hlt)]
    rfl

theorem blobHead_length (P : ParamSet) (tag : Byte) (h : Vec) : (blobHead P tag h).length = 4 + P.lenH := by
  rw [blobHead, List.length_append, pack_q_length]
  rfl

theorem privBlob_length (P : ParamSet) (h F : Vec) :
    (privBlob P h F).length = 4 + P.lenH + (encodeF P F).length := by
  rw [privBlob, List.length_append, blobHead_length]

/-! ### The obligation -/

theorem ParamSet.wf_range {P : ParamSet} (h : P.wf = true) : 1 ≤ P.N ∧ P.N ≤ 1499 := by
  simp only [ParamSet.wf, ParamSet.rangeOk, Bool.and_eq_true, decide_eq_true_eq] at h
  obtain ⟨⟨⟨⟨⟨hlo, hhi⟩, -⟩, -⟩, -⟩, -⟩ := h
  exact ⟨hlo, hhi⟩

/-- The inverse mod 2048 that an inverter answers is one. -/
theorem invertQ_eq_some {N : Nat} {a b : Vec} (hN : 1 ≤ N) (h : invertQ N a = some b) :
    InverseIn N 2048 (at' a) (at' b) := by
  obtain ⟨b', hb, hinv⟩ | ⟨hnone, -⟩ := invertQ_answersInverse hN a
  · obtain rfl : b' = b := Option.some.inj (hb.symm.trans h)
    exact hinv
  · exact absurd (hnone.symm.trans h) (Option.some_ne_none b).symm

/-- Settles O46: both loops end with a draw of the weights that is invertible, and h is made of the inverse. -/
theorem generatedKeyIsAKeyPair : Obligations.GeneratedKeyIsAKeyPair := by
  intro turns cap P f0 f k hwf hk
  have hN := (ParamSet.wf_range hwf).1
  obtain ⟨g, f1, r, hg, hr, rfl⟩ := generateKey_eq_ok.mp hk
  obtain ⟨-, -, hginv, -, a, a', hgdraw⟩ := gLoop_ok hg fun _ => Nat.zero_le _
  obtain ⟨-, -, hfq, -, b, b', hFdraw⟩ := fLoop_ok hr fun _ => Nat.zero_le _
  obtain ⟨hglen, hgones, hgnegs, -⟩ := genTri_ok hN hgdraw
  obtain ⟨hFlen, hFones, hFnegs, -⟩ := genTri_ok hN hFdraw
  obtain ⟨gq, hgq⟩ := Option.isSome_iff_exists.mp hginv
  have hfinv := invertQ_eq_some hN hfq
  refine ⟨hFlen, tab_length _ _, ?_, hFones, hFnegs, fun i _ => keyH_inQ P.N r.fq g.1 i, ⟨_, hfinv⟩,
    g.1, hglen, hgones, hgnegs, ⟨_, invertQ_eq_some hN hgq⟩, keyH_keyRelation hN hfinv g.1⟩
  rw [privBlob_length, encodeF_length_of_weights hFones hFnegs]

end Sys2Proof.Machine
end

section
/-! PROOFS. DECRYPT (45_ntru R264 to R273): its checks in order, and the end it makes of each answer of the decryption
computation. -/

namespace Sys2Proof.Machine

/-! ### The checks (45_ntru R242, R264) -/

theorem requirePrivate_closed {s : State} (h : s.key.kstate = .empty ∨ s.key.kstate = .closed) :
    requirePrivate s = some .keyClosed := by
  rcases h with h | h <;> rw [requirePrivate, h]

theorem requirePrivate_pub {s : State} (h : s.key.kstate = .pub) : requirePrivate s = some .noPrivkey := by
  rw [requirePrivate, h]

theorem requirePrivate_priv {s : State} (h : s.key.kstate = .priv) : requirePrivate s = none := by
  rw [requirePrivate, h]

/-- With a PRIVATE key the ciphertext length is checked first, then the ranges and the table together. -/
theorem decryptError_priv {s : State} (h : s.key.kstate = .priv) :
    decryptError s =
      if s.argB ≠ s.keySet.lenH then some .fmtLen
      else if inRange s.argA s.argB && inRange s.argC s.keySet.maxMsgLenBytes && s.keySet.samplingOk then none
      else some .precondition := by
  rw [decryptError, requirePrivate_priv h]

theorem decryptError_of_length {s : State} (h : s.key.kstate = .priv) (hlen : s.argB = s.keySet.lenH) :
    decryptError s =
      if inRange s.argA s.argB && inRange s.argC s.keySet.maxMsgLenBytes && s.keySet.samplingOk then none
      else some .precondition := (decryptError_priv h).trans (if_neg (not_not.mpr hlen))

theorem decryptRanges_iff {s : State} (hlen : s.argB = s.keySet.lenH) :
    (inRange s.argA s.argB && inRange s.argC s.keySet.maxMsgLenBytes && s.keySet.samplingOk) = true ↔
      RangePre s.ctx.arg0.toNat s.keySet.lenH ∧ RangePre s.ctx.arg2.toNat s.keySet.maxMsgLenBytes ∧
        s.keySet.samplingOk = true := by
  rw [Bool.and_eq_true, Bool.and_eq_true, inRange_iff, inRange_iff, and_assoc, hlen]
  rfl

/-! ### The end of the command (45_ntru R265, R266) -/

/-- The stream unit is closed and nothing else consumed (45_ntru R241). -/
theorem consume_closedFeed (s : State) : s.consume s.closedFeed = { s with su := closeSource s.su } := by
  simp [State.consume, State.closedFeed, Feed.withUnit, State.feed]

/-- The decryption computation on the ciphertext at ARG0, with the key and the grant of the state (45_ntru R265). -/
def decryptRun (s : State) : Res Feed (Option (List Byte)) :=
  decryptMsg s.params.digest s.turns s.keySet s.keyF s.keyH (s.dmem.readBytes s.ctx.arg0.toNat s.keySet.lenH) s.closedFeed

section
variable {s : State}

theorem execDecrypt_error {e : Err} (h : decryptError s = some e) : exec .decrypt s = .next (s.failedWith e) := by
  rw [exec, execDecrypt, h, conclude_err, consume_feed]

variable (h : decryptError s = none)
include h

theorem execDecrypt_message {cm : List Byte} (hrun : decryptRun s = .ok (some cm) s.closedFeed) :
    exec .decrypt s = .next { s.finished with
      su := closeSource s.su
      dmem := s.dmem.writeBytes s.ctx.arg2.toNat cm
      res0 := BitVec.ofNat 32 cm.length } := by
  unfold decryptRun at hrun
  rw [exec, execDecrypt, h, State.argA, hrun, Res.bind_ok, conclude_ok, consume_closedFeed]
  rfl

theorem execDecrypt_fails (hrun : decryptRun s = .ok none s.closedFeed) :
    exec .decrypt s = .next (State.failedWith { s with su := closeSource s.su } .decryptFail) := by
  unfold decryptRun at hrun
  rw [exec, execDecrypt, h, State.argA, hrun, Res.bind_ok, conclude_err, consume_closedFeed]

theorem execDecrypt_goesOn (hrun : decryptRun s = .paused s.closedFeed) :
    exec .decrypt s = .next (s.goesOn 0 (2 * s.turns + 1)) := by
  unfold decryptRun at hrun
  rw [exec, execDecrypt, h, State.argA, hrun, Res.bind_paused, conclude_paused]
  rfl

end

/-! ### The message Parse cuts (45_ntru R270) -/

theorem RecoveryOf.cm_length {impl : DigestImpl} {turns : Nat} {P : ParamSet} {F h : Vec} {ct : List Byte} {v : Recovery}
    (hv : RecoveryOf impl turns P F h ct v) :
    v.cm.length = min (min (v.lengthByte P) P.maxMsgLenBytes) (P.mBufLen - (P.db + 1)) := by
  obtain ⟨-, -, -, -, ⟨mask, cMt, -, -, -, hM⟩, -, hcm, -⟩ := hv
  have hlen : v.cM.length = P.mBufLen := by rw [← triToBin_length P cMt, hM]
  rw [hcm, List.length_take, List.length_drop, hlen]

/-- Settles O48: the checks one by one, then the three answers of `decryptMsg_cases`. -/
theorem decryption : Obligations.Decryption := by
  intro s P hP
  obtain rfl : P = s.keySet := hP
  refine ⟨fun hk => ?_, fun hk => ?_, fun hk => ⟨fun hl => ?_, fun hl hn => ?_, fun hl hr0 hr2 hok => ?_⟩⟩
  · exact execDecrypt_error (by rw [decryptError, requirePrivate_closed hk])
  · exact execDecrypt_error (by rw [decryptError, requirePrivate_pub hk])
  · exact execDecrypt_error ((decryptError_priv hk).trans (if_pos hl))
  · exact execDecrypt_error ((decryptError_of_length hk hl).trans (if_neg (mt (decryptRanges_iff hl).mp hn)))
  · have hnone : decryptError s = none :=
      (decryptError_of_length hk hl).trans (if_pos ((decryptRanges_iff hl).mpr ⟨hr0, hr2, hok⟩))
    obtain ⟨v, hv, honly, hanswer⟩ | ⟨hno, hpaused⟩ := decryptMsg_cases s.params.digest s.turns s.keySet s.keyF s.keyH
      (s.dmem.readBytes s.ctx.arg0.toNat s.keySet.lenH) s.closedFeed
    · refine ⟨fun w hw hpass => ?_, fun w hw hfail => ?_, fun hno => absurd ⟨v, hv⟩ hno⟩
      · obtain rfl := honly w hw
        obtain ⟨-, hrun⟩ | ⟨hfail, -⟩ := hanswer
        · have hlen := hv.cm_length
          obtain ⟨-, -, -, hbyte, -⟩ := hpass
          have hle : w.cm.length ≤ s.keySet.maxMsgLenBytes := by omega
          exact ⟨_, hle, fun hbuf => by omega, fun a => Memory.read_writeBytes w.cm s.dmem _ a
            ((Nat.add_le_add_left hle _).trans hr2), execDecrypt_message hnone hrun⟩
        · exact absurd hpass hfail
      · obtain rfl := honly w hw
        obtain ⟨hpass, -⟩ | ⟨-, hrun⟩ := hanswer
        · exact absurd hpass hfail
        · exact execDecrypt_fails hnone hrun
    · exact ⟨fun v hv => absurd ⟨v, hv⟩ hno, fun v hv => absurd ⟨v, hv⟩ hno, fun _ => execDecrypt_goesOn hnone hpaused⟩

end Sys2Proof.Machine
end

section
/-! PROOFS. DECRYPT undoes ENCRYPT (45_ntru R268, R274): conv(f, e) is 3·conv(r, g) + conv(f, mp) mod 2048, which is mp mod 3
where it does not wrap; from mp come R, the mask, and the buffer the message is parsed from. -/

namespace Sys2Proof.Machine

/-! ### Packed polynomials are read back (43_bitpack R176) -/

theorem InQ.of_mem {a : Vec} (h : InQ a) : ∀ v ∈ a, 0 ≤ v ∧ v < 2048 := fun v hv => by
  obtain ⟨i, hi, rfl⟩ := List.getElem_of_mem hv
  rw [← List.getD_eq_getElem a 0 hi]
  exact h i

theorem intVec_unpack_pack {N : Nat} {a : Vec} (hl : a.length = N) (ha : InQ a) :
    intVec (unpack (pack (natVec a) N Config.q 0) N Config.q) = a := by
  have hbound : ∀ v ∈ natVec a, v < Config.q := fun v hv => by
    obtain ⟨w, hw, rfl⟩ := List.mem_map.mp hv
    have := ha.of_mem w hw
    show w.toNat < 2048
    omega
  rw [pack, if_pos rfl, unpack_packAll _ _ _ (by rw [natVec, List.length_map, hl]) hbound, intVec, natVec, List.map_map]
  exact (List.map_congr_left fun v hv => Int.toNat_of_nonneg (ha.of_mem v hv).1).trans (List.map_id a)

/-! ### The candidate message (45_ntru R268) -/

/-- red(v, m, low) is the value in [low, low + m) that is congruent to v (00_scope R15). -/
theorem red_eq_of_emod_eq {v w m low : Int} (hlow : low ≤ w) (hhigh : w < low + m) (h : v % m = w % m) :
    red v m low = w := by
  have hsub : (v - low) % m = (w - low) % m := Int.ModEq.sub_right low h
  rw [red, hsub, Int.emod_eq_of_lt (by omega) (by omega)]
  ring

/-- f = 1 + 3F is 1 mod 3 (45_ntru R240). -/
theorem classOf_privPoly_three {N : Nat} (hN : 1 ≤ N) (F : Vec) : classOf N 3 (at' (privPoly N F)) = 1 := by
  rw [← classOf_unit hN 3, classOf_eq_iff hN (by decide)]
  intro i hi
  rw [privPoly, at'_tab _ hi]
  exact Int.add_mul_emod_self_left _ _ _

theorem convAt_privPoly_emod_three {N k : Nat} (hN : 1 ≤ N) (F a : Vec) (hk : k < N) :
    convAt N (privPoly N F) a k % 3 = at' a k % 3 := by
  refine (classOf_eq_iff (m := 3) hN (by decide) (convAt N (privPoly N F) a) (at' a)).mp ?_ k hk
  rw [classOf_convAt, classOf_privPoly_three hN, one_mul]

section
variable {N : Nat} {F g h r mp e : Vec} (he : ∀ i, i < N → at' e i = (at' (blindPoly N r h) i + at' mp i) % 2048)
include he

/-- The candidate R of the message is the blinding polynomial (45_ntru R269). -/
theorem candidateR_ciphertext : candidateR N e mp = blindPoly N r h := by
  refine (eq_tab_iff.mpr ⟨by rw [blindPoly, modVec, tab_length], fun i hi => ?_⟩).symm
  have hR : 0 ≤ at' (blindPoly N r h) i ∧ at' (blindPoly N r h) i < 2048 := by
    rw [blindPoly, modVec, at'_tab _ hi]
    exact ⟨Int.emod_nonneg _ (by decide), Int.emod_lt_of_pos _ (by decide)⟩
  rw [he i hi]
  show _ = _ % (2048 : Int)
  omega

variable (hN : 1 ≤ N)
include hN

/-- For e = r·h + mp, f·e = 3·r·g + f·mp mod 2048. -/
theorem convAt_ciphertext (hkey : KeyRelation N F g h) {k : Nat} (hk : k < N) :
    convAt N (privPoly N F) e k % 2048 = (3 * convAt N r g k + convAt N (privPoly N F) mp k) % 2048 := by
  have hR : classOf N 2048 (at' (blindPoly N r h)) = classOf N 2048 (at' r) * classOf N 2048 (at' h) := by
    rw [← classOf_conv]
    exact classOf_modVec N 2048 _
  have hclass : classOf N 2048 (at' e) = classOf N 2048 (at' r) * classOf N 2048 (at' h) + classOf N 2048 (at' mp) := by
    rw [← hR, ← classOf_add, classOf_eq_iff hN (by decide)]
    exact fun i hi => by rw [he i hi]; exact Int.emod_emod _ _
  refine (classOf_eq_iff (m := 2048) hN (by decide) (convAt N (privPoly N F) e)
    (fun k => 3 * convAt N r g k + convAt N (privPoly N F) mp k)).mp ?_ k hk
  rw [classOf_add, classOf_intMul, classOf_convAt, classOf_convAt, classOf_convAt, hclass]
  linear_combination classOf N 2048 (at' r) * (keyRelation_iff hN F g h).mp hkey

/-- Where decryption does not wrap, the candidate message is the message representative (45_ntru R268). -/
theorem candidateMsg_ciphertext (hmp : mp.length = N) (htrit : ∀ i, i < N → |at' mp i| ≤ 1) (hkey : KeyRelation N F g h)
    (hwrap : ∀ i, i < N → -1024 ≤ 3 * convAt N r g i + convAt N (privPoly N F) mp i ∧
      3 * convAt N r g i + convAt N (privPoly N F) mp i < 1024) :
    candidateMsg N F e = mp := by
  refine (eq_tab_iff.mpr ⟨hmp, fun i hi => ?_⟩).symm
  obtain ⟨hlow, hhigh⟩ := hwrap i hi
  obtain ⟨hge, hle⟩ := abs_le.mp (htrit i hi)
  have hthree := convAt_privPoly_emod_three hN F mp hi
  rw [red_eq_of_emod_eq hlow (by omega) (convAt_ciphertext he hN hkey hi),
    red_eq_of_emod_eq hge (by omega) (by omega)]

end

/-! ### The buffer of the message (45_ntru R247, R250, R270) -/

theorem tritPair_trits (x y z : Bool) : ∀ t ∈ tritPair x y z, t = 0 ∨ t = 1 ∨ t = -1 := by
  revert x y z
  decide

theorem tritsOfBits_trits : ∀ l : List Bool, ∀ t ∈ tritsOfBits l, t = 0 ∨ t = 1 ∨ t = -1
  | [], _, ht => absurd ht List.not_mem_nil
  | [x], t, ht => tritPair_trits x false false t ht
  | [x, y], t, ht => tritPair_trits x y false t ht
  | x :: y :: z :: rest, t, ht =>
    (List.mem_append.mp ht).elim (tritPair_trits x y z t) (tritsOfBits_trits rest t)

/-- `BinToTri` answers a trinomial (45_ntru R247). -/
theorem binToTri_isTrinomial (P : ParamSet) (m : List Byte) : IsTrinomial (binToTri P m) := by
  refine isTrinomial_of_mem fun t ht => ?_
  unfold binToTri at ht
  split at ht
  · rcases List.mem_append.mp ht with ht | ht
    · exact tritsOfBits_trits _ t (List.mem_of_mem_take ht)
    · exact .inl (List.eq_of_mem_replicate ht)
  · obtain ⟨v, -, rfl⟩ := List.mem_map.mp ht
    exact toTrit_range v

/-- Taking the mask off the message representative leaves the trinomial of the buffer (45_ntru R258, R270). -/
theorem unmask_messageRep (P : ParamSet) (b m : List Byte) (mask : Vec) :
    (tab P.N fun i => red (at' (messageRep P b m mask) i - at' mask i) 3 (-1)) = binToTri P (msgBuf P b m) := by
  refine (eq_tab_iff.mpr ⟨length_binToTri P _, fun i hi => ?_⟩).symm
  have htrit := binToTri_isTrinomial P (msgBuf P b m) i
  rw [messageRep, at'_tab _ hi]
  refine (red_eq_of_emod_eq (by omega) (by omega) ?_).symm
  have := dvd_red_sub (at' (binToTri P (msgBuf P b m)) i + at' mask i) 3 (-1)
  omega

section
variable {P : ParamSet} {b m : List Byte} (hb : b.length = P.db)
include hb

theorem msgBuf_length (h : P.db + 1 + m.length ≤ P.mBufLen) : (msgBuf P b m).length = P.mBufLen := by
  simp only [msgBuf, List.length_append, List.length_cons, List.length_nil, List.length_replicate, hb]
  omega

theorem msgBuf_drop :
    (msgBuf P b m).drop (P.db + 1) = m ++ List.replicate (P.mBufLen - P.db - 1 - m.length) 0#8 := by
  rw [msgBuf, List.append_assoc, List.drop_left' (by simp [hb])]

/-- Parse finds the random bytes and the message again, and only zeros after it (45_ntru R270). -/
theorem parseBuf_msgBuf (hm : m.length ≤ P.maxMsgLenBytes) (h255 : P.maxMsgLenBytes ≤ 255) :
    parseBuf P (msgBuf P b m) = ⟨b, m, true⟩ := by
  have hbyte : ((msgBuf P b m).getD P.db 0#8).toNat = m.length := by
    have hget : (msgBuf P b m).getD P.db 0#8 = BitVec.ofNat 8 m.length := by simp [msgBuf, ← hb]
    rw [hget, BitVec.toNat_ofNat, Nat.mod_eq_of_lt (by omega)]
  have htake : (msgBuf P b m).take P.db = b := by simp [msgBuf, ← hb]
  have hrest : (msgBuf P b m).drop (P.db + 1 + m.length) = List.replicate (P.mBufLen - P.db - 1 - m.length) 0#8 := by
    rw [← List.drop_drop, msgBuf_drop hb, List.drop_left]
  simp only [parseBuf, hbyte, htake, msgBuf_drop hb, hm, decide_true, if_true, hrest, List.take_left, Bool.true_and]
  simp

end

/-! ### The values of the decryption (45_ntru R266) -/

section
variable (P : ParamSet) (m b : List Byte) (h : Vec) (r : Bpgm) (mask : TpAcc)

/-- The ciphertext polynomial of an attempt: e = R + mp mod 2048 (45_ntru R258). -/
def ciphertextPoly : Vec :=
  tab P.N fun i => (at' (blindPoly P.N r.t h) i + at' (messageRep P b m mask.t) i) % 2048

theorem ciphertextPoly_inQ : InQ (ciphertextPoly P m b h r mask) := by
  refine inQ_of_mem fun v hv => ?_
  obtain ⟨i, -, rfl⟩ := List.mem_map.mp hv
  exact ⟨Int.emod_nonneg _ (by decide), Int.emod_lt_of_pos _ (by decide)⟩

/-- The packed ciphertext of an attempt (45_ntru R258). -/
def ciphertext : List Byte := pack (natVec (ciphertextPoly P m b h r mask)) P.N Config.q 0

theorem ctVec_ciphertext : ctVec P (ciphertext P m b h r mask) = ciphertextPoly P m b h r mask :=
  intVec_unpack_pack (tab_length _ _) (ciphertextPoly_inQ P m b h r mask)

end

/-- Bounds of a set that meets its constraints (00_scope R7). -/
theorem ParamSet.wf_buffer {P : ParamSet} (h : P.wf = true) :
    P.maxMsgLenBytes ≤ 255 ∧ P.db + 1 + P.maxMsgLenBytes ≤ P.mBufLen := by
  simp only [ParamSet.wf, ParamSet.bufferOk, Bool.and_eq_true, decide_eq_true_eq] at h
  obtain ⟨⟨-, ⟨hmax, -⟩, hbuf⟩, -⟩ := h
  exact ⟨hmax, hbuf⟩

theorem ParamSet.wf_sampling {P : ParamSet} (h : P.wf = true) : P.samplingOk = true := by
  simp only [ParamSet.wf, Bool.and_eq_true] at h
  exact h.2

/-- One attempt of ENCRYPT that passed: the bytes b, the two draws and the dm0 check (45_ntru R258). -/
structure PassedAttempt (impl : DigestImpl) (turns : Nat) (P : ParamSet) (m b : List Byte) (h : Vec) (r : Bpgm)
    (tp : TpAcc) : Prop where
  length : b.length = P.db
  blind : ∃ x, genR impl turns P (sData P m b h) = .ok r x
  mask : ∃ y, genMask impl turns P (blindPoly P.N r.t h) = .ok tp y
  dm0 : dm0ok P (messageRep P b m tp.t) = true

section
variable {impl : DigestImpl} {turns : Nat} {P : ParamSet} {m b : List Byte} {F g h : Vec} {r : Bpgm} {mask : TpAcc}
  (hA : PassedAttempt impl turns P m b h r mask) (hwf : P.wf = true) (hlaw : binTriLawful P)
  (hkey : KeyRelation P.N F g h) (hm : m.length ≤ P.maxMsgLenBytes) (hwrap : NeverWraps impl turns P F g h m)
include hA hwf hlaw hkey hm hwrap

/-- Decrypting the ciphertext of an attempt computes the attempt's own values again (45_ntru R268 to R271). -/
theorem recoveryFrom_ciphertext :
    recoveryFrom P F h (ciphertext P m b h r mask) mask r =
      ⟨messageRep P b m mask.t, blindPoly P.N r.t h, msgBuf P b m, true, b, m, blindPoly P.N r.t h⟩ := by
  obtain ⟨hb, ⟨x, hx⟩, ⟨y, hy⟩, -⟩ := hA
  obtain ⟨h255, hbuf⟩ := ParamSet.wf_buffer hwf
  have he : ∀ i, i < P.N → at' (ciphertextPoly P m b h r mask) i =
      (at' (blindPoly P.N r.t h) i + at' (messageRep P b m mask.t) i) % 2048 := fun i hi => at'_tab _ hi
  have hci := candidateMsg_ciphertext he (ParamSet.wf_range hwf).1 (tab_length _ _) (abs_messageRep_le P b m mask.t) hkey
    (hwrap b r x mask y hb hx hy)
  have hM := hlaw.1 _ (msgBuf_length hb (Nat.le_trans (Nat.add_le_add_left hm _) hbuf))
  simp only [recoveryFrom, ctVec_ciphertext, hci, candidateR_ciphertext he, unmask_messageRep, hM,
    parseBuf_msgBuf hb hm h255]

/-- The decryption of the ciphertext ends with those values, and every check passes (45_ntru R266, R274). -/
theorem recovers_ciphertext : ∃ v, RecoveryOf impl turns P F h (ciphertext P m b h r mask) v ∧
    v.Passes P (ciphertext P m b h r mask) ∧ v.cm = m := by
  have hv := recoveryFrom_ciphertext hA hwf hlaw hkey hm hwrap
  obtain ⟨hb, ⟨x, hx⟩, ⟨y, hy⟩, hdm0⟩ := hA
  refine ⟨_, recoveryOf_iff.mpr ⟨mask, y, r, x, rfl, ?_, ?_⟩, (passes_iff P F h _ mask r).mpr ?_, ?_⟩
  · rwa [hv]
  · rwa [hv]
  · have hpad : padnz (ciphertext P m b h r mask) P.N Config.q = false :=
      padnz_packAll _ P.N Config.q
    simp only [hv, hpad, hdm0, parseBuf_msgBuf hb hm (ParamSet.wf_buffer hwf).1, Bool.not_false, Bool.and_self,
      decide_true]
  · rw [hv]

end

/-! ### The state ENCRYPT leaves (45_ntru R257) -/

/-- Where ENCRYPT completes without error, an attempt passed and the bytes of its ciphertext stand at ARG2. -/
theorem execEncrypt_completed {s t : State} (hkey : s.key.kstate = .priv) (hp : s.phase = .busy)
    (h : exec .encrypt s = .next t) (ht : t.phase = .idle) (he : t.status.err = false) :
    ∃ b r mask, PassedAttempt s.params.digest s.turns s.keySet (s.dmem.readBytes s.ctx.arg0.toNat s.ctx.arg1.toNat) b
        s.keyH r mask ∧
      ∀ i, i < s.keySet.lenH → t.dmem.read (s.ctx.arg2.toNat + i) =
        (ciphertext s.keySet (s.dmem.readBytes s.ctx.arg0.toNat s.ctx.arg1.toNat) b s.keyH r mask).getD i 0#8 := by
  have hnone : encryptError s = none := by
    cases herr : encryptError s with
    | none => rfl
    | some e => cases (execEncrypt_error herr).symm.trans h; cases he
  have hrange : RangePre s.ctx.arg2.toNat s.keySet.lenH := by
    rw [encryptError_open (.inr hkey)] at hnone
    split at hnone
    · cases hnone
    · split at hnone
      · next hok => exact ((encryptRanges_iff s).mp hok).2.1
      · cases hnone
  obtain ⟨w, f, hrun, rfl⟩ := conclude_completed hp ((execEncrypt_run hnone).symm.trans h) ht he
  obtain ⟨e, f', hloop, hw⟩ := Res.bind_eq_ok.mp hrun
  obtain ⟨rfl, rfl⟩ := Res.ok.inj hw
  obtain ⟨n, R, mp, hpos, -, hn, -, -, ⟨hblind, mask, hmask, hlen, hmp⟩, hdm0, rfl⟩ :=
    encLoop_ok (closedFeed_after s) (fun _ => Nat.zero_le _) hloop
  obtain ⟨r, x, hx, rfl⟩ := blindOf_iff.mp hblind
  obtain ⟨acc, y, hy, rfl⟩ := (maskOf_iff (tab_length _ _)).mp hmask
  obtain rfl := eq_tab_iff.mpr ⟨hlen, hmp⟩
  refine ⟨_, r, acc, ⟨?_, ⟨x, hx⟩, ⟨y, hy⟩, hdm0⟩, fun i hi => ?_⟩
  · obtain ⟨k, rfl⟩ : ∃ k, n = k + 1 := ⟨n - 1, by omega⟩
    rw [Nat.mul_succ] at hn
    rw [List.length_take, List.length_drop, Nat.add_sub_cancel]
    omega
  · refine (Memory.read_writeBytes _ s.dmem _ _ (by rw [pack_q_length]; exact hrange)).trans ?_
    rw [pack_q_length, if_pos ⟨Nat.le_add_right _ _, Nat.add_lt_add_left hi _⟩, Nat.add_sub_cancel_left]
    rfl

/-- Settles O49: the attempt that passed is found again by the decryption of its ciphertext. -/
theorem decryptionReturnsEncrypted : Obligations.DecryptionReturnsEncrypted := by
  intro s t s' P g hP hwf hlaw hpriv hok hg hkey hlen hwrap _ hexec ht hp he hk hC hturns hl hr0 hr2 hct
  obtain rfl : P = s.keySet := hP
  obtain ⟨b, r, mask, hA, hmem⟩ := execEncrypt_completed hpriv hp hexec ht he
  have hset : s'.keySet = s.keySet := by simp only [State.keySet, hk, hC]
  have hF : s'.keyF = s.keyF := by simp only [State.keyF, hset, hk]
  have hH : s'.keyH = s.keyH := by simp only [State.keyH, hset, hk]
  have hread := eq_readBytes (pack_q_length _ _) fun i hi => ((hct i hi).trans (hmem i hi)).symm
  obtain ⟨v, hv, hpass, hcm⟩ := recovers_ciphertext hA hwf hlaw hkey (by rwa [Memory.length_readBytes]) hwrap
  obtain ⟨-, -, hpriv'⟩ := decryption s' s.keySet hset.symm
  obtain ⟨-, -, hdecrypt⟩ := hpriv' (hk ▸ hpriv)
  obtain ⟨hmessage, -, -⟩ := hdecrypt hl hr0 hr2 (ParamSet.wf_sampling hwf)
  rw [hF, hH, hC, hturns, ← hread] at hmessage
  obtain ⟨m, -, -, hm, hres⟩ := hmessage v hv hpass
  have hcmlen : v.cm.length = s.ctx.arg1.toNat := by rw [hcm, Memory.length_readBytes]
  refine ⟨m, by rw [hres, hcmlen, BitVec.ofNat_toNat, BitVec.setWidth_eq], fun a => ?_⟩
  rw [hm a, hcmlen]
  by_cases ha : s'.ctx.arg2.toNat ≤ a ∧ a < s'.ctx.arg2.toNat + s.ctx.arg1.toNat
  · rw [if_pos ha, if_pos ha, hcm, readBytes_getD _ _ (by omega)]
  · rw [if_neg ha, if_neg ha]

end Sys2Proof.Machine
end

section
/-! PROOFS. KEYCLOSE (45_ntru R276) and KEYEXPORT (R277, R278, R290): the checks, the bytes of the blob, what is written. -/

namespace Sys2Proof.Machine

/-- Settles O50: the command has one run, which consumes nothing. -/
theorem keyClosing : Obligations.KeyClosing := by
  intro s
  rw [exec, execKeyclose, conclude_ok, consume_feed]
  rfl

/-! ### The blob (45_ntru R277, R278) -/

theorem exportBlob_true (s : State) : exportBlob s true = privBlob s.keySet s.keyH s.keyF := if_pos rfl

theorem exportBlob_false (s : State) : exportBlob s false = pubBlob s.keySet s.keyH := if_neg Bool.false_ne_true

/-- The index form packs the indices of the ones, then those of the negative ones (45_ntru R278). -/
theorem encodeF_eq (P : ParamSet) (F : Vec) :
    encodeF P F =
      if P.lenIndex < P.lenTrit ∧ countSym P.N F 1 = P.df ∧ countSym P.N F (-1) = P.df then
        pack (((List.range P.N).filter fun i => at' F i = 1) ++ (List.range P.N).filter fun i => at' F i = -1)
          (2 * P.df) P.N 0
      else tpEncode F P.N := rfl

/-- The bytes of either blob: tag, OID, packed h, and F for the one of a PRIVATE key (45_ntru R277, R278). -/
theorem exportBlob_eq (s : State) (priv : Bool) :
    exportBlob s priv =
      [if priv then 0x02#8 else 0x01#8, s.keySet.oid.1, s.keySet.oid.2.1, s.keySet.oid.2.2] ++
        pack (natVec s.keyH) s.keySet.N Config.q 0 ++ (if priv then encodeF s.keySet s.keyF else []) := by
  cases priv with
  | true => rfl
  | false => exact (List.append_nil _).symm

/-! ### The command (45_ntru R290) -/

/-- The key state a blob needs: PRIVATE for `privBlob`, PUBLIC or PRIVATE for `pubBlob` (45_ntru R242). -/
def State.Exports (s : State) (priv : Bool) : Prop := s.key.kstate = .priv ∨ s.key.kstate = .pub ∧ priv = false

section
variable {s : State} {priv : Bool}

theorem execKeyexport_closed (h : s.key.kstate = .empty ∨ s.key.kstate = .closed) :
    exec (.keyexport priv) s = .next (s.failedWith .keyClosed) := by
  rw [exec, execKeyexport, keyexportWrites, requirePrivate_closed h, requireKey_closed h, ite_self, ofExcept_error,
    conclude_err, consume_feed]

theorem execKeyexport_noPrivkey (h : s.key.kstate = .pub) :
    exec (.keyexport true) s = .next (s.failedWith .noPrivkey) := by
  rw [execKeyexport_of_requirePrivate (requirePrivate_pub h), conclude_err, consume_feed]

variable (h : s.Exports priv)
include h

theorem keyexportWrites_of_exports :
    keyexportWrites s priv =
      if inRange s.argA (exportBlob s priv).length then
        .ok { mem := some (s.argA, exportBlob s priv), res0 := some (BitVec.ofNat 32 (exportBlob s priv).length) }
      else .error .precondition := by
  have hnone : (if priv then requirePrivate s else requireKey s) = none := by
    rcases h with hk | ⟨hk, rfl⟩
    · rw [requirePrivate_priv hk, requireKey_open (.inr hk), ite_self]
    · exact requireKey_open (.inl hk)
  rw [keyexportWrites, hnone]

theorem execKeyexport_refused (hr : ¬ RangePre s.argA (exportBlob s priv).length) :
    exec (.keyexport priv) s = .next (s.failedWith .precondition) := by
  rw [exec, execKeyexport, keyexportWrites_of_exports h, if_neg (mt (inRange_iff _ _).mp hr), ofExcept_error, conclude_err,
    consume_feed]

theorem execKeyexport_run (hr : RangePre s.argA (exportBlob s priv).length) :
    exec (.keyexport priv) s = .next { s.finished with
      dmem := s.dmem.writeBytes s.argA (exportBlob s priv)
      res0 := BitVec.ofNat 32 (exportBlob s priv).length } := by
  rw [exec, execKeyexport, keyexportWrites_of_exports h, if_pos ((inRange_iff _ _).mpr hr), ofExcept_ok, conclude_ok,
    consume_feed]
  rfl

end

/-- Settles O52: the key state, then the range of the blob's bytes. -/
theorem keyExporting : Obligations.KeyExporting := by
  intro s priv P F h blob hP hF hh hblob
  obtain rfl : P = s.keySet := hP
  obtain rfl : blob = exportBlob s priv := by rw [hblob, hF, hh, exportBlob_eq, encodeF_eq]; rfl
  refine ⟨execKeyexport_closed, fun hk hpriv => hpriv ▸ execKeyexport_noPrivkey hk, fun hk =>
    ⟨execKeyexport_refused hk, fun hr => ⟨_, execKeyexport_run hk hr, fun a => ?_⟩⟩⟩
  exact Memory.read_writeBytes _ s.dmem _ a hr

end Sys2Proof.Machine
end

section
/-! PROOFS. KEYLOAD (45_ntru R280 to R283): the checks of the decoding in their order, the two forms of F, and the key each
accepted blob gives. -/

namespace Sys2Proof.Machine

/-! ### The trit form of F (45_ntru R282) -/

/-- What refuses a trit form: a byte from 243 up, or digits beyond N in the last byte (45_ntru R282). -/
def BadTrits (P : ParamSet) (u : List Byte) : Prop :=
  (∃ g, g < P.lenTrit ∧ 243 ≤ (u.getD g 0#8).toNat) ∨
    P.N % 5 ≠ 0 ∧ 3 ^ (P.N % 5) ≤ (u.getD (P.lenTrit - 1) 0#8).toNat

theorem decodeFTrit_check {P : ParamSet} {u : List Byte} (hu : u.length = P.lenTrit) :
    (u.all (fun v => decide (v.toNat < 243)) &&
      (decide (P.N % 5 = 0) || decide ((u.getD (P.lenTrit - 1) 0#8).toNat < 3 ^ (P.N % 5)))) = true ↔ ¬ BadTrits P u := by
  have hbytes : (∀ v ∈ u, v.toNat < 243) ↔ ¬ ∃ g, g < P.lenTrit ∧ 243 ≤ (u.getD g 0#8).toNat := by
    rw [List.forall_mem_iff_getElem, ← hu]
    push Not
    exact forall₂_congr fun g hg => by rw [List.getD_eq_getElem u 0#8 hg]
  rw [Bool.and_eq_true, List.all_eq_true, Bool.or_eq_true, BadTrits, not_or, ← hbytes]
  simp only [decide_eq_true_eq, not_and_or, not_not, not_le]

theorem decodeFTrit_bad {P : ParamSet} {u : List Byte} (hu : u.length = P.lenTrit) (h : BadTrits P u) :
    decodeFTrit P u = none := by
  rw [decodeFTrit, if_neg fun hc => (decodeFTrit_check hu).mp hc h]

theorem decodeFTrit_good {P : ParamSet} {u : List Byte} (hu : u.length = P.lenTrit) (h : ¬ BadTrits P u) :
    decodeFTrit P u = some ((u.flatMap tritsOfByte).take P.N) := by
  rw [decodeFTrit, if_pos ((decodeFTrit_check hu).mpr h)]

/-- The trit of a base-3 digit, case by case (44_streams R204). -/
theorem trit_of_lt {d : Nat} (h : d < 3) :
    trit d =
      match (generalizing := false) d with
      | 0 => 0
      | 1 => 1
      | _ => -1 := by
  interval_cases d <;> rfl

/-- A coefficient of the F of a trit form (45_ntru R282, 44_streams R204). -/
theorem at'_tritF {N i : Nat} (u : List Byte) (hi : i < N) :
    at' ((u.flatMap tritsOfByte).take N) i = trit ((u.getD (i / 5) 0#8).toNat / 3 ^ (i % 5) % 3) := by
  rw [at'_take hi, at'_flatMap_tritsOfByte]

/-! ### The index form of F (45_ntru R283) -/

/-- What refuses an index form: an index from N up, two equal indices or a pad bit (45_ntru R283). -/
def BadIndices (P : ParamSet) (u : List Byte) : Prop :=
  (∃ j, j < 2 * P.df ∧ P.N ≤ unpackAt u P.N j) ∨
    (∃ i j, i < j ∧ j < 2 * P.df ∧ unpackAt u P.N i = unpackAt u P.N j) ∨ padnz u (2 * P.df) P.N = true

/-- The F of an index form: the first df indices hold 1, the others -1 (45_ntru R283). -/
def indexedF (P : ParamSet) (idx : List Nat) : Vec :=
  tab P.N fun i => if (idx.take P.df).contains i then 1 else if (idx.drop P.df).contains i then -1 else 0

theorem unpack_nodup_iff (u : List Byte) (n mx : Nat) :
    (unpack u n mx).Nodup ↔ ¬ ∃ i j, i < j ∧ j < n ∧ unpackAt u mx i = unpackAt u mx j := by
  simp only [List.Nodup, List.pairwise_iff_getElem, unpack_length]
  simp only [unpack, List.getElem_map, List.getElem_range]
  push Not
  exact ⟨fun h i j hij hj => h i j (hij.trans hj) hj hij, fun h i j _ hj hij => h i j hij hj⟩

theorem decodeFIndex_check (P : ParamSet) (u : List Byte) :
    ((unpack u (2 * P.df) P.N).all (fun i => decide (i < P.N)) && decide (unpack u (2 * P.df) P.N).Nodup &&
      !padnz u (2 * P.df) P.N) = true ↔ ¬ BadIndices P u := by
  have hrange : (∀ i ∈ unpack u (2 * P.df) P.N, i < P.N) ↔ ¬ ∃ j, j < 2 * P.df ∧ P.N ≤ unpackAt u P.N j := by
    simp [unpack]
  simp only [Bool.and_eq_true, List.all_eq_true, decide_eq_true_eq, Bool.not_eq_true', hrange, unpack_nodup_iff,
    BadIndices, not_or, and_assoc, Bool.not_eq_true]

theorem decodeFIndex_bad {P : ParamSet} {u : List Byte} (h : BadIndices P u) : decodeFIndex P u = none :=
  if_neg fun hc => (decodeFIndex_check P u).mp hc h

theorem decodeFIndex_good {P : ParamSet} {u : List Byte} (h : ¬ BadIndices P u) :
    decodeFIndex P u = some (indexedF P (unpack u (2 * P.df) P.N)) := if_pos ((decodeFIndex_check P u).mpr h)

theorem mem_take_unpack {u : List Byte} {n mx k i : Nat} (hk : k ≤ n) :
    i ∈ (unpack u n mx).take k ↔ ∃ j, j < k ∧ unpackAt u mx j = i := by
  rw [unpack, ← List.map_take, List.take_range, min_eq_left hk]
  simp

theorem mem_unpack {u : List Byte} {n mx i : Nat} : i ∈ unpack u n mx ↔ ∃ j, j < n ∧ unpackAt u mx j = i := by
  simp [unpack]

/-- A coefficient of the F of an index form, by the indices one by one (45_ntru R283). -/
theorem at'_indexedF {P : ParamSet} {u : List Byte} {i : Nat} (hi : i < P.N) :
    at' (indexedF P (unpack u (2 * P.df) P.N)) i =
      if ∃ j, j < P.df ∧ unpackAt u P.N j = i then 1
      else if ∃ j, j < 2 * P.df ∧ unpackAt u P.N j = i then -1 else 0 := by
  have htake : i ∈ (unpack u (2 * P.df) P.N).take P.df ↔ ∃ j, j < P.df ∧ unpackAt u P.N j = i := mem_take_unpack (by omega)
  have hsplit : i ∈ unpack u (2 * P.df) P.N ↔
      i ∈ (unpack u (2 * P.df) P.N).take P.df ∨ i ∈ (unpack u (2 * P.df) P.N).drop P.df := by
    rw [← List.mem_append, List.take_append_drop]
  rw [mem_unpack] at hsplit
  rw [indexedF, at'_tab _ hi]
  by_cases hone : i ∈ (unpack u (2 * P.df) P.N).take P.df
  · rw [if_pos (List.contains_iff_mem.mpr hone), if_pos (htake.mp hone)]
  · rw [if_neg (mt List.contains_iff_mem.mp hone), if_neg (mt htake.mpr hone)]
    exact if_congr (List.contains_iff_mem.trans ((hsplit.trans (or_iff_right hone)).symm)) rfl rfl

/-! ### The decoding of a blob (45_ntru R280, R281) -/

/-- The tag of a PUBLIC or a PRIVATE blob (45_ntru R277, R278). -/
def IsTag (v : Byte) : Prop := v = 0x01#8 ∨ v = 0x02#8

theorem oidLookup_eq_none {C : Params} {o : List Byte} (h : ∀ ps : Fin 12, C.table[ps].oidBytes ≠ o) :
    oidLookup C o = none :=
  List.find?_eq_none.mpr fun ps _ => by simpa using h ps

/-- The first set of the OID is the one looked up (log 28). -/
theorem oidLookup_eq_some {C : Params} {o : List Byte} {ps : Fin 12} (h : C.table[ps].oidBytes = o)
    (hfirst : ∀ j : Fin 12, j < ps → C.table[j].oidBytes ≠ o) : oidLookup C o = some ps := by
  refine List.find?_eq_some_iff_getElem.mpr ⟨by simpa using h, ps.val, by simp, by simp, fun j hj => ?_⟩
  simpa using hfirst ⟨j, hj.trans ps.isLt⟩ hj

section
variable {C : Params} {s : List Byte}

theorem decodeBlob_empty (h : s.length < 1) : decodeBlob C s = .error .fmtLen := if_pos h

theorem decodeBlob_badTag (h : 1 ≤ s.length) (htag : ¬ IsTag (s.getD 0 0#8)) : decodeBlob C s = .error .fmtTag := by
  rw [decodeBlob, if_neg (not_lt.mpr h)]
  exact if_pos (not_or.mp htag)

variable (htag : IsTag (s.getD 0 0#8))
include htag

theorem decodeBlob_short (h : 1 ≤ s.length) (hshort : s.length < 4) : decodeBlob C s = .error .fmtLen := by
  rw [decodeBlob, if_neg (not_lt.mpr h)]
  exact (if_neg (not_and_or.mpr (htag.imp not_not.mpr not_not.mpr))).trans (if_pos hshort)

theorem decodeBlob_noOid (h : 4 ≤ s.length) (hoid : oidLookup C ((s.drop 1).take 3) = none) :
    decodeBlob C s = .error .fmtOid := by
  rw [decodeBlob, if_neg (by omega)]
  dsimp only
  rw [if_neg (not_and_or.mpr (htag.imp not_not.mpr not_not.mpr)), if_neg (not_lt.mpr h), hoid]

theorem decodeBlob_body (h : 4 ≤ s.length) {ps : Fin 12} (hoid : oidLookup C ((s.drop 1).take 3) = some ps) :
    decodeBlob C s = decodeBody C.table[ps] ps (decide (s.getD 0 0#8 = 0x02#8)) s := by
  rw [decodeBlob, if_neg (by omega)]
  dsimp only
  rw [if_neg (not_and_or.mpr (htag.imp not_not.mpr not_not.mpr)), if_neg (not_lt.mpr h), hoid]

end

section
variable {C : Params} {s : List Byte} {ps : Fin 12} (h : 4 ≤ s.length) (hoid : C.table[ps].oidBytes = (s.drop 1).take 3)
  (hfirst : ∀ j : Fin 12, j < ps → C.table[j].oidBytes ≠ (s.drop 1).take 3)
include h hoid hfirst

theorem decodeBlob_pub (htag : s.getD 0 0#8 = 0x01#8) : decodeBlob C s = decodeBody C.table[ps] ps false s := by
  rw [decodeBlob_body (.inl htag) h (oidLookup_eq_some hoid hfirst), htag]
  rfl

theorem decodeBlob_priv (htag : s.getD 0 0#8 = 0x02#8) : decodeBlob C s = decodeBody C.table[ps] ps true s := by
  rw [decodeBlob_body (.inr htag) h (oidLookup_eq_some hoid hfirst), htag]
  rfl

end

/-- The packed h of a blob (45_ntru R277). -/
def blobPacked (P : ParamSet) (s : List Byte) : List Byte := (s.drop 4).take P.lenH

/-- The bytes of F in a PRIVATE blob (45_ntru R278). -/
def blobF (P : ParamSet) (s : List Byte) : List Byte := s.drop (4 + P.lenH)

section
variable {P : ParamSet} {s : List Byte} (ps : Fin 12)

theorem decodeBody_pub_length (h : s.length ≠ 4 + P.lenH) : decodeBody P ps false s = .error .fmtLen := if_neg h

theorem decodeBody_pub_padded (h : s.length = 4 + P.lenH) (hpad : padnz (blobPacked P s) P.N 2048 = true) :
    decodeBody P ps false s = .error .fmtData := (if_pos h).trans (if_pos hpad)

theorem decodeBody_pub_ok (h : s.length = 4 + P.lenH) (hpad : padnz (blobPacked P s) P.N 2048 = false) :
    decodeBody P ps false s = .ok ⟨ps, ctVec P (blobPacked P s), [], .pub⟩ :=
  (if_pos h).trans (if_neg (Bool.eq_false_iff.mp hpad))

theorem decodeBody_priv_length (h : s.length ≠ 4 + P.lenH + P.lenTrit) (h' : s.length ≠ 4 + P.lenH + P.lenIndex) :
    decodeBody P ps true s = .error .fmtLen := (if_neg h).trans (if_neg h')

theorem decodeBody_priv_padded (h : s.length = 4 + P.lenH + P.lenTrit ∨ s.length = 4 + P.lenH + P.lenIndex)
    (hpad : padnz (blobPacked P s) P.N 2048 = true) : decodeBody P ps true s = .error .fmtData := by
  by_cases ht : s.length = 4 + P.lenH + P.lenTrit
  · exact (if_pos ht).trans (if_pos hpad)
  · exact (if_neg ht).trans ((if_pos (h.resolve_left ht)).trans (if_pos hpad))

/-- What becomes of a PRIVATE blob once its F is decoded, or refused (45_ntru R280). -/
def privBlobOf (P : ParamSet) (ps : Fin 12) (s : List Byte) (F : Option Vec) : Except Err Blob :=
  F.elim (.error .fmtData) fun F => .ok ⟨ps, ctVec P (blobPacked P s), F, .priv⟩

variable (hpad : padnz (blobPacked P s) P.N 2048 = false)
include hpad

theorem decodeBody_trits (h : s.length = 4 + P.lenH + P.lenTrit) :
    decodeBody P ps true s = privBlobOf P ps s (decodeFTrit P (blobF P s)) := by
  refine ((if_pos h).trans (if_neg (Bool.eq_false_iff.mp hpad))).trans ?_
  change _ = privBlobOf P ps s (decodeFTrit P (s.drop (4 + P.lenH)))
  cases decodeFTrit P (s.drop (4 + P.lenH)) <;> rfl

theorem decodeBody_indices (h : s.length ≠ 4 + P.lenH + P.lenTrit) (h' : s.length = 4 + P.lenH + P.lenIndex) :
    decodeBody P ps true s = privBlobOf P ps s (decodeFIndex P (blobF P s)) := by
  refine ((if_neg h).trans ((if_pos h').trans (if_neg (Bool.eq_false_iff.mp hpad)))).trans ?_
  change _ = privBlobOf P ps s (decodeFIndex P (s.drop (4 + P.lenH)))
  cases decodeFIndex P (s.drop (4 + P.lenH)) <;> rfl

end

/-! ### The command (45_ntru R280) -/

/-- The bytes KEYLOAD decodes. -/
def State.blob (s : State) : List Byte := s.dmem.readBytes s.argA s.argB

@[simp] theorem State.length_blob (s : State) : s.blob.length = s.ctx.arg1.toNat := Memory.length_readBytes _ _ _

section
variable {s : State}

theorem execKeyload_refused (h : ¬ RangePre s.argA s.argB) : exec .keyload s = .next (s.failedWith .precondition) := by
  rw [exec, execKeyload, keyloadWrites, if_neg (mt (inRange_iff _ _).mp h), ofExcept_error, conclude_err, consume_feed]

variable (h : RangePre s.argA s.argB)
include h

theorem execKeyload_error {e : Err} (hd : decodeBlob s.params s.blob = .error e) :
    exec .keyload s = .next (s.failedWith e) := by
  unfold State.blob at hd
  rw [exec, execKeyload, keyloadWrites, if_pos ((inRange_iff _ _).mpr h), hd, ofExcept_error, conclude_err, consume_feed]

theorem execKeyload_ok {b : Blob} (hd : decodeBlob s.params s.blob = .ok b) :
    exec .keyload s = .next { s.finished with
      key := loadedKey s.params.table[b.ps] b, res0 := s.ctx.arg1, res1 := BitVec.ofNat 32 b.ps.val } := by
  have harg : BitVec.ofNat 32 s.argB = s.ctx.arg1 := by rw [State.argB, BitVec.ofNat_toNat, BitVec.setWidth_eq]
  unfold State.blob at hd
  rw [exec, execKeyload, keyloadWrites, if_pos ((inRange_iff _ _).mpr h), hd, ofExcept_ok, conclude_ok, consume_feed, harg]
  rfl

end

/-- The h that is unpacked from a blob (45_ntru R278). -/
theorem ctVec_holds {P : ParamSet} (hN : P.N ≤ 1499) (bytes : List Byte) :
    (Poly.ofVec P.N (ctVec P bytes)).Holds P.N fun i => (unpackAt bytes 2048 i : Int) :=
  ((intVec_unpack_inQ bytes P.N).holds hN).congr fun _ hi => at'_ctVec hi

/-- Settles O51: the range, then each way the decoding ends. -/
theorem keyLoading : Obligations.KeyLoading := by
  intro s n blob hn hblob
  obtain rfl : blob = s.blob := by rw [hblob, hn]; rfl
  obtain rfl : n = s.blob.length := hn.trans s.length_blob.symm
  have hrange : RangePre s.ctx.arg0.toNat s.blob.length ↔ RangePre s.argA s.argB := by
    rw [s.length_blob]
    rfl
  refine ⟨fun hr => execKeyload_refused (mt hrange.mpr hr), fun hr => ?_⟩
  replace hr := hrange.mp hr
  refine ⟨fun h => ?_, fun h h1 h2 => ?_, fun h htag h4 => ?_, fun h htag hno => ?_, fun h ps hoid hfirst => ?_⟩
  · exact execKeyload_error hr (decodeBlob_empty h)
  · exact execKeyload_error hr (decodeBlob_badTag h (not_or.mpr ⟨h1, h2⟩))
  · exact execKeyload_error hr (decodeBlob_short htag h h4)
  · exact execKeyload_error hr (decodeBlob_noOid htag h (oidLookup_eq_none hno))
  · refine ⟨fun htag => ?_, fun htag => ?_⟩
    · have hbody := decodeBlob_pub h hoid hfirst htag
      refine ⟨fun hl => ?_, fun hl hpad => ?_, fun hl hN hpad => ⟨_, ctVec_holds hN _, ?_⟩⟩
      · exact execKeyload_error hr (hbody.trans (decodeBody_pub_length ps hl))
      · exact execKeyload_error hr (hbody.trans (decodeBody_pub_padded ps hl hpad))
      · rw [execKeyload_ok hr (hbody.trans (decodeBody_pub_ok ps hl hpad)), loadedKey, Poly.ofVec_nil]
        rfl
    · have hbody := decodeBlob_priv h hoid hfirst htag
      refine ⟨fun hl hl' => ?_, fun hl hpad => ?_, fun hpad => ⟨fun hl => ?_, fun hl hl' => ?_⟩⟩
      · exact execKeyload_error hr (hbody.trans (decodeBody_priv_length ps hl hl'))
      · exact execKeyload_error hr (hbody.trans (decodeBody_priv_padded ps hl hpad))
      · have hbody := hbody.trans (decodeBody_trits ps hpad hl)
        have hu : (blobF s.params.table[ps] s.blob).length = s.params.table[ps].lenTrit := by
          rw [blobF, List.length_drop]
          omega
        refine ⟨fun hbad => ?_, fun hgood hN => ?_⟩
        · exact execKeyload_error hr (hbody.trans (congrArg _ (decodeFTrit_bad hu hbad)))
        · have hF := decodeFTrit_good hu hgood
          exact ⟨_, _, ctVec_holds hN _, ((decodeFTrit_isTrinomial hF).holds hN).congr fun i hi =>
            (at'_tritF _ hi).trans (trit_of_lt (Nat.mod_lt _ (by decide))),
            execKeyload_ok hr (hbody.trans (congrArg _ hF))⟩
      · have hbody := hbody.trans (decodeBody_indices ps hpad hl hl')
        refine ⟨fun hbad => ?_, fun hgood hN => ?_⟩
        · exact execKeyload_error hr (hbody.trans (congrArg _ (decodeFIndex_bad hbad)))
        · have hF := decodeFIndex_good hgood
          exact ⟨_, _, ctVec_holds hN _, ((decodeFIndex_isTrinomial hF).holds hN).congr fun i hi => at'_indexedF hi,
            execKeyload_ok hr (hbody.trans (congrArg _ hF))⟩

end Sys2Proof.Machine
end

section
/-! PROOFS. KEYEXPORT, then KEYLOAD (45_ntru R296): each form of F is read back (R282, R283), a blob decodes to the set and
the polynomials it was made of, and a canonical array is determined by its coefficients (10_state R40). -/

namespace Sys2Proof.Machine

/-! ### Canonical arrays (10_state R40, log 16) -/

theorem Poly.getD_eq_of_coeff_eq {p q : Poly} (hp : p.wf = true) (hq : q.wf = true) (h : ∀ i, p.coeff i = q.coeff i)
    (i : Nat) : p.getD i 0 = q.getD i 0 := by
  by_cases hi : i < 1499
  · have hc := h i
    rw [Poly.coeff, Poly.coeff, if_pos hi, if_pos hi] at hc
    exact BitVec.eq_of_toInt_eq hc
  · have hlp := ((Poly.wf_iff p).mp hp).1
    have hlq := ((Poly.wf_iff q).mp hq).1
    rw [List.getD_eq_default _ _ (by omega), List.getD_eq_default _ _ (by omega)]

/-- The last entry is not 0, so an array with the same coefficients reaches as far. -/
theorem Poly.length_le_of_coeff_eq {p q : Poly} (hp : p.wf = true) (hq : q.wf = true)
    (h : ∀ i, p.coeff i = q.coeff i) : p.length ≤ q.length := by
  by_contra hlt
  have hlast : p.length - 1 < p.length := by omega
  have hzero := Poly.getD_eq_of_coeff_eq hp hq h (p.length - 1)
  rw [List.getD_eq_getElem _ _ hlast, List.getD_eq_default _ _ (by omega)] at hzero
  refine ((Poly.wf_iff p).mp hp).2 ?_
  rw [List.getLast?_eq_getElem?, List.getElem?_eq_getElem hlast, hzero]
  rfl

theorem Poly.eq_of_coeff_eq {p q : Poly} (hp : p.wf = true) (hq : q.wf = true) (h : ∀ i, p.coeff i = q.coeff i) :
    p = q := by
  have hlen := (Poly.length_le_of_coeff_eq hp hq h).antisymm (Poly.length_le_of_coeff_eq hq hp fun i => (h i).symm)
  refine List.ext_getElem hlen fun i h1 h2 => ?_
  rw [← List.getD_eq_getElem p 0 h1, ← List.getD_eq_getElem q 0 h2]
  exact Poly.getD_eq_of_coeff_eq hp hq h i

/-- An array whose entries lie below N is stored again from its first N coefficients. -/
theorem Poly.ofVec_toVec {p : Poly} {N : Nat} (hp : p.wf = true) (hl : p.length ≤ N) : Poly.ofVec N (p.toVec N) = p := by
  refine Poly.eq_of_coeff_eq (Poly.wf_ofFn _ _) hp fun i => ?_
  rw [Poly.ofVec, Poly.coeff_ofFn_raw]
  split
  · next hi =>
    obtain ⟨hlow, hhigh⟩ := Poly.coeff_range p i
    rw [Poly.toVec, at'_tab _ hi.1, toInt_ofInt_of_range hlow hhigh]
  · next hi =>
    rw [Poly.coeff]
    split
    · next hmax =>
      have : N ≤ i := by
        by_contra hN
        exact hi ⟨not_le.mp hN, hmax⟩
      rw [List.getD_eq_default _ _ (hl.trans this)]
      rfl
    · rfl

/-- A coefficient read from an array is one of its entries or 0. -/
theorem Poly.at'_toVec (p : Poly) (N i : Nat) : (∃ c ∈ p, at' (p.toVec N) i = c.toInt) ∨ at' (p.toVec N) i = 0 := by
  by_cases hi : i < N
  · rw [Poly.toVec, at'_tab _ hi, Poly.coeff]
    split
    · by_cases hl : i < p.length
      · exact .inl ⟨p[i], List.getElem_mem hl, by rw [List.getD_eq_getElem _ _ hl]⟩
      · exact .inr (by rw [List.getD_eq_default _ _ (not_lt.mp hl)]; rfl)
    · exact .inr rfl
  · exact .inr (at'_tab_ge _ (not_lt.mp hi))

theorem Key.Ok.keyH_inQ {s : State} (h : s.key.Ok s.params) : InQ s.keyH := fun i => by
  obtain ⟨-, -, -, -, hh, -⟩ := h
  obtain ⟨c, hc, heq⟩ | hzero := Poly.at'_toVec s.key.h s.keySet.N i
  · exact heq.symm ▸ hh c hc
  · exact hzero.symm ▸ by decide

theorem Key.Ok.keyF_isTrinomial {s : State} (h : s.key.Ok s.params) : IsTrinomial s.keyF := fun i => by
  obtain ⟨-, -, -, -, -, hF, -⟩ := h
  obtain ⟨c, hc, heq⟩ | hzero := Poly.at'_toVec s.key.f s.keySet.N i
  · rw [State.keyF, heq]
    rcases hF c hc with rfl | rfl | rfl <;> decide
  · exact .inl hzero

/-! ### The trit form is read back (45_ntru R282) -/

theorem digits_lt {d : Nat → Nat} (h : ∀ j, d j < 3) (r : Nat) : ∑ j ∈ Finset.range r, d j * 3 ^ j < 3 ^ r := by
  induction r with
  | zero => simp
  | succ r ih =>
    have hd : d r * 3 ^ r ≤ 2 * 3 ^ r := Nat.mul_le_mul_right _ (Nat.le_of_lt_succ (h r))
    rw [Finset.sum_range_succ, pow_succ]
    omega

section
variable {P : ParamSet} {F : Vec} (hl : F.length = P.N) (hF : IsTrinomial F)
include hF

/-- The last byte of a trit form has no digit beyond N (44_streams R206). -/
theorem tpEncodeByte_last_lt {N g : Nat} (hg : 5 * g + N % 5 = N) : (tpEncodeByte F N g).toNat < 3 ^ (N % 5) := by
  have hdigit := fun j => encDigit_lt (N := N) (fun i _ => hF i) (5 * g + j)
  have hzero : ∀ j ∈ Finset.range 5, j ∉ Finset.range (N % 5) → encDigit F N (5 * g + j) * 3 ^ j = 0 := fun j _ hj => by
    rw [Finset.mem_range, not_lt] at hj
    rw [encDigit, if_neg (by omega), Nat.zero_mul]
  have hsub : Finset.range (N % 5) ⊆ Finset.range 5 := Finset.range_subset_range.mpr (Nat.mod_lt _ (by decide)).le
  rw [toNat_tpEncodeByte (fun i _ => hF i), ← Finset.sum_subset hsub hzero]
  exact digits_lt hdigit _

theorem tpEncode_not_bad : ¬ BadTrits P (tpEncode F P.N) := by
  have hbyte : ∀ g, g < P.lenTrit → (tpEncode F P.N).getD g 0#8 = tpEncodeByte F P.N g := fun g => tpEncode_getD F
  rintro (⟨g, hg, hbig⟩ | ⟨hr, hbig⟩)
  · rw [hbyte g hg] at hbig
    have := toNat_tpEncodeByte_le (N := P.N) (fun i _ => hF i) g
    omega
  · have hg : 5 * (P.lenTrit - 1) + P.N % 5 = P.N := by
      rw [ParamSet.lenTrit]
      omega
    rw [hbyte _ (by rw [ParamSet.lenTrit]; omega)] at hbig
    exact absurd (tpEncodeByte_last_lt hF hg) (not_lt.mpr hbig)

include hl

theorem decodeFTrit_tpEncode : decodeFTrit P (tpEncode F P.N) = some F := by
  rw [decodeFTrit_good (tpEncode_length F P.N) (tpEncode_not_bad hF), take_flatMap_tpEncode hl fun i _ => hF i]

end

/-! ### The index form is read back (45_ntru R283) -/

theorem mem_indicesOf {N : Nat} {F : Vec} {s : Int} {i : Nat} : i ∈ indicesOf N F s ↔ i < N ∧ at' F i = s := by
  simp [indicesOf]

theorem length_indicesOf (N : Nat) (F : Vec) (s : Int) : (indicesOf N F s).length = countSym N F s :=
  List.countP_eq_length_filter.symm

/-- The indices of an index form, those of the ones first (45_ntru R278). -/
def signedIndices (N : Nat) (F : Vec) : List Nat := indicesOf N F 1 ++ indicesOf N F (-1)

theorem signedIndices_nodup (N : Nat) (F : Vec) : (signedIndices N F).Nodup := by
  refine List.nodup_append'.mpr ⟨List.nodup_range.filter _, List.nodup_range.filter _, fun i h1 h2 => ?_⟩
  have := (mem_indicesOf.mp h1).2.symm.trans (mem_indicesOf.mp h2).2
  omega

theorem lt_of_mem_signedIndices {N : Nat} {F : Vec} {i : Nat} (h : i ∈ signedIndices N F) : i < N :=
  (List.mem_append.mp h).elim (fun h => (mem_indicesOf.mp h).1) fun h => (mem_indicesOf.mp h).1

section
variable {P : ParamSet} {F : Vec} (h1 : countSym P.N F 1 = P.df) (h2 : countSym P.N F (-1) = P.df)
include h1

/-- The F of its own indices. -/
theorem indexedF_signedIndices (hl : F.length = P.N) (hF : IsTrinomial F) : indexedF P (signedIndices P.N F) = F := by
  have hlen : (indicesOf P.N F 1).length = P.df := (length_indicesOf _ _ _).trans h1
  refine (eq_tab_iff.mpr ⟨hl, fun i hi => ?_⟩).symm
  rw [signedIndices, List.take_left' hlen, List.drop_left' hlen]
  simp only [List.contains_iff_mem, mem_indicesOf, hi, true_and]
  rcases hF i with h | h | h <;> rw [h] <;> rfl

include h2

theorem unpack_indexEnc : unpack (indexEnc P F) (2 * P.df) P.N = signedIndices P.N F := by
  refine unpack_packAll _ _ _ ?_ fun i => lt_of_mem_signedIndices
  rw [List.length_append, length_indicesOf, length_indicesOf, h1, h2]
  omega

theorem decodeFIndex_indexEnc (hl : F.length = P.N) (hF : IsTrinomial F) : decodeFIndex P (indexEnc P F) = some F := by
  have hpad : padnz (indexEnc P F) (2 * P.df) P.N = false := padnz_packAll _ _ _
  have hchecks : ((signedIndices P.N F).all (fun i => decide (i < P.N)) && decide (signedIndices P.N F).Nodup &&
      !padnz (indexEnc P F) (2 * P.df) P.N) = true := by
    rw [hpad, Bool.and_eq_true, Bool.and_eq_true, List.all_eq_true, decide_eq_true_eq]
    exact ⟨⟨fun i hi => decide_eq_true (lt_of_mem_signedIndices hi), signedIndices_nodup _ _⟩, rfl⟩
  rw [decodeFIndex, unpack_indexEnc h1 h2]
  exact (if_pos hchecks).trans (congrArg some (indexedF_signedIndices h1 hl hF))

end

/-! ### A blob decodes to what it was made of (45_ntru R277 to R281) -/

/-- The OID of a set that meets its constraints is no other set's (45_ntru R281). -/
theorem Params.setOk_oid {C : Params} {ps j : Fin 12} (h : C.setOk ps = true) (hj : j ≠ ps) :
    C.table[j].oidBytes ≠ C.table[ps].oidBytes := by
  rw [Params.setOk, Bool.and_eq_true, Params.oidUnique, List.all_eq_true] at h
  have hoid := h.2 j (List.mem_finRange j)
  rw [Bool.or_eq_true, decide_eq_true_eq, decide_eq_true_eq] at hoid
  intro heq
  simp only [ParamSet.oidBytes, List.cons.injEq, and_true] at heq
  exact hoid.resolve_left hj (Prod.ext heq.1 (Prod.ext heq.2.1 heq.2.2))

section
variable {P : ParamSet} (tag : Byte) {h : Vec} (rest : List Byte)

theorem blobPacked_blobHead : blobPacked P (blobHead P tag h ++ rest) = pack (natVec h) P.N Config.q 0 := by
  have hdrop : (blobHead P tag h ++ rest).drop 4 = pack (natVec h) P.N Config.q 0 ++ rest := rfl
  rw [blobPacked, hdrop, List.take_left' (pack_q_length _ _)]

theorem blobF_blobHead : blobF P (blobHead P tag h ++ rest) = rest := List.drop_left' (blobHead_length P tag h)

theorem padnz_blobHead : padnz (blobPacked P (blobHead P tag h ++ rest)) P.N 2048 = false := by
  rw [blobPacked_blobHead]
  exact padnz_packAll _ _ _

theorem ctVec_blobHead (hl : h.length = P.N) (hh : InQ h) : ctVec P (blobPacked P (blobHead P tag h ++ rest)) = h := by
  rw [blobPacked_blobHead]
  exact intVec_unpack_pack hl hh

end

section
variable {C : Params} {ps : Fin 12} {h F : Vec} (hok : C.setOk ps = true) (hl : h.length = C.table[ps].N) (hh : InQ h)
include hok hl hh

theorem decodeBlob_pubBlob : decodeBlob C (pubBlob C.table[ps] h) = .ok ⟨ps, h, [], .pub⟩ := by
  have hlen : (pubBlob C.table[ps] h).length = 4 + C.table[ps].lenH := blobHead_length _ _ _
  have hpub : pubBlob C.table[ps] h = blobHead C.table[ps] 0x01#8 h ++ [] := (List.append_nil _).symm
  rw [decodeBlob_pub (ps := ps) (by omega) rfl (fun j hj => Params.setOk_oid hok hj.ne) rfl,
    decodeBody_pub_ok ps hlen (by rw [hpub]; exact padnz_blobHead _ _), hpub, ctVec_blobHead _ _ hl hh]

/-- The length says which form of F a PRIVATE blob has: the index form is only made where it is the shorter one. -/
theorem decodeBlob_privBlob (hlF : F.length = C.table[ps].N) (hF : IsTrinomial F) :
    decodeBlob C (privBlob C.table[ps] h F) = .ok ⟨ps, h, F, .priv⟩ := by
  have hlen := privBlob_length C.table[ps] h F
  have hpad : padnz (blobPacked C.table[ps] (privBlob C.table[ps] h F)) C.table[ps].N 2048 = false := padnz_blobHead _ _
  have hblobF : blobF C.table[ps] (privBlob C.table[ps] h F) = encodeF C.table[ps] F := blobF_blobHead _ _
  have hH : ctVec C.table[ps] (blobPacked C.table[ps] (privBlob C.table[ps] h F)) = h := ctVec_blobHead _ _ hl hh
  rw [decodeBlob_priv (ps := ps) (by omega) rfl (fun j hj => Params.setOk_oid hok hj.ne) rfl]
  by_cases hform : C.table[ps].lenIndex < C.table[ps].lenTrit ∧ countSym C.table[ps].N F 1 = C.table[ps].df ∧
      countSym C.table[ps].N F (-1) = C.table[ps].df
  · have hencode : encodeF C.table[ps] F = indexEnc C.table[ps] F := if_pos hform
    obtain ⟨hlt, h1, h2⟩ := hform
    rw [hencode, indexEnc_length] at hlen
    rw [decodeBody_indices ps hpad (by omega) hlen, hblobF, hencode, decodeFIndex_indexEnc h1 h2 hlF hF, privBlobOf, hH]
    rfl
  · have hencode : encodeF C.table[ps] F = tpEncode F C.table[ps].N := if_neg hform
    rw [hencode, tpEncode_length] at hlen
    rw [decodeBody_trits ps hpad hlen, hblobF, hencode, decodeFTrit_tpEncode hlF hF, privBlobOf, hH]
    rfl

end

/-! ### The obligation -/

/-- What an exported blob holds: the set, h, and for `privBlob` F with PRIVATE (45_ntru R277, R278). -/
def State.exported (s : State) (priv : Bool) : Blob :=
  ⟨s.key.kps, s.keyH, if priv then s.keyF else [], if priv then .priv else .pub⟩

theorem decodeBlob_exportBlob {s : State} (hok : s.params.setOk s.key.kps = true) (hkey : s.key.Ok s.params)
    (priv : Bool) :
    decodeBlob s.params (exportBlob s priv) = .ok (s.exported priv) := by
  cases priv with
  | true =>
    rw [exportBlob_true]
    exact decodeBlob_privBlob hok (tab_length _ _) hkey.keyH_inQ (tab_length _ _) hkey.keyF_isTrinomial
  | false =>
    rw [exportBlob_false]
    exact decodeBlob_pubBlob hok (tab_length _ _) hkey.keyH_inQ

/-- The key that is loaded from the decoded blob is the exported one. -/
theorem loadedKey_exported {s : State} {priv : Bool} (hkey : s.key.Ok s.params) (hexp : s.Exports priv) :
    loadedKey s.keySet (s.exported priv) = if priv then s.key else { s.key with f := [], kstate := .pub } := by
  obtain ⟨hwfh, hwff, hlh, hlf, -⟩ := hkey
  have hH : Poly.ofVec s.keySet.N s.keyH = s.key.h := Poly.ofVec_toVec hwfh hlh
  have hF : Poly.ofVec s.keySet.N s.keyF = s.key.f := Poly.ofVec_toVec hwff hlf
  cases priv with
  | true =>
    have hpriv : s.key.kstate = .priv := hexp.resolve_right fun h => absurd h.2 (by decide)
    simp only [loadedKey, State.exported, if_true, hH, hF, ← hpriv]
  | false => simp only [loadedKey, State.exported, Bool.false_eq_true, if_false, hH, Poly.ofVec_nil]

/-- Settles O53: the bytes read are the blob written, which decodes to the key. -/
theorem keyBlobRoundTrip : Obligations.KeyBlobRoundTrip := by
  intro s t u priv P _ hok hkey hexp hr hexec hdmem hparams harg0 harg1
  cases (execKeyexport_run hexp hr).symm.trans hexec
  have hA : u.argA = s.argA := congrArg BitVec.toNat harg0
  have hB : u.argB = (exportBlob s priv).length := by
    have hlt : (exportBlob s priv).length < 2 ^ 32 := by
      have : s.ctx.arg0.toNat + (exportBlob s priv).length ≤ 8192 := hr
      omega
    rw [State.argB, harg1]
    exact (BitVec.toNat_ofNat _ _).trans (Nat.mod_eq_of_lt hlt)
  have hblob : u.blob = exportBlob s priv := by
    rw [State.blob, hdmem, hA, hB]
    exact Memory.readBytes_writeBytes _ _ _ hr
  have hdecode := decodeBlob_exportBlob hok hkey priv
  rw [← hblob, ← hparams] at hdecode
  refine ⟨_, execKeyload_ok (by rw [hA, hB]; exact hr) hdecode, rfl, rfl, ?_, harg1, rfl⟩
  rw [← loadedKey_exported hkey hexp]
  simp only [hparams]
  rfl

end Sys2Proof.Machine
end

section
/-! PROOFS. The IRQ output (60_exceptions R310): what the end of a command, a reset and each host access make of it; and the
order of a completion and a host access in one step (R312). -/

namespace Sys2Proof.Machine

/-! ### IRQ after the end of a command and after a reset -/

theorem State.irq_iff {s : State} : s.irq = true ↔ s.status.done = true ∧ s.doneIE = true := Bool.and_eq_true_iff

@[simp] theorem State.finished_irq (s : State) : s.finished.irq = s.doneIE := Bool.true_and _
@[simp] theorem State.failedWith_irq (s : State) (e : Err) : (s.failedWith e).irq = s.doneIE := Bool.true_and _
@[simp] theorem accept_irq (s : State) (w : Word) : (accept s w).irq = false := Bool.false_and _
@[simp] theorem resetEngine_irq (s : State) : (resetEngine s).irq = false := rfl

/-- A command that has come to its end raises IRQ where it is enabled (40_command R114, R115). -/
theorem exec_irq_of_idle {i : Instr} {s t : State} (hs : s.phase = .busy) (h : exec i s = .next t) (ht : t.phase = .idle) :
    t.irq = s.doneIE := by
  rcases exec_ends i s with ⟨f, w, hq, -⟩ | ⟨f, e, hq, -⟩ | ⟨n, k, hq, -⟩ <;> cases hq.symm.trans h
  · exact State.finished_irq _
  · exact State.failedWith_irq _ e
  · exact absurd (hs.symm.trans ht) (by decide)

/-! ### The four register writes that touch IRQ -/

/-- A write of CTRL with bit 0 set is a soft reset (70_reset R341). -/
theorem hostAccess_softReset (s : State) {w : Word} (hw : w.getLsbD 0 = true) :
    hostAccess s (.write 0x004 .w32 w) = resetEngine s :=
  (hostAccess_write s w (by decide) (by decide)).trans (if_pos hw)

theorem hostAccess_status (s : State) (w : Word) :
    hostAccess s (.write 0x008 .w32 w) = { s with status := s.status.writeOneToClear w } :=
  hostAccess_write s w (by decide) (by decide)

theorem hostAccess_irqEn (s : State) (w : Word) : hostAccess s (.write 0x038 .w32 w) = { s with doneIE := w.getLsbD 0 } :=
  hostAccess_write s w (by decide) (by decide)

/-- A 1 to STATUS bit 1 clears DONE (10_state R24). -/
theorem hostAccess_clearDone (s : State) {w : Word} (hw : w.getLsbD 1 = true) :
    (hostAccess s (.write 0x008 .w32 w)).status.done = false := by
  rw [hostAccess_status]
  simp [Status.writeOneToClear, hw]

/-- A CMD write that meets an idle engine is an acceptance (40_command R110). -/
theorem hostAccess_cmd_idle {s : State} (hp : s.phase = .idle) (w : Word) :
    hostAccess s (.write 0x00C .w32 w) = accept s w :=
  (hostAccess_cmd s w).trans (issue_idle hp w)

/-- The register write at this offset with this datum clears DONE, issues a command, disables IRQ or resets the engine
(60_exceptions R310). -/
def Deasserts (off : Nat) (w : Word) : Prop :=
  off = offSTATUS ∧ w.getLsbD 1 = true ∨ off = offCMD ∨ off = offIRQEN ∧ w.getLsbD 0 = false ∨
    off = offCTRL ∧ w.getLsbD 0 = true

/-- A register write outside the four leaves IRQ asserted. -/
theorem regWrite_irq {s : State} (h : s.irq = true) (off : Nat) (w : Word) :
    (regWrite s off w).irq = true ∨ Deasserts off w := by
  obtain ⟨hdone, hie⟩ := State.irq_iff.mp h
  by_cases hctrl : off = offCTRL
  · cases hw : w.getLsbD 0 with
    | true => exact .inr (.inr (.inr (.inr ⟨hctrl, hw⟩)))
    | false => exact .inl (by rw [regWrite, if_pos hctrl, hw, if_neg Bool.false_ne_true, h])
  by_cases hstatus : off = offSTATUS
  · cases hw : w.getLsbD 1 with
    | true => exact .inr (.inl ⟨hstatus, hw⟩)
    | false =>
      refine .inl ?_
      rw [regWrite, if_neg hctrl, if_pos hstatus]
      exact State.irq_iff.mpr ⟨by rw [Status.writeOneToClear, hdone, hw]; rfl, hie⟩
  by_cases hcmd : off = offCMD
  · exact .inr (.inr (.inl hcmd))
  by_cases hen : off = offIRQEN
  · subst hen
    cases hw : w.getLsbD 0 with
    | true => exact .inl (State.irq_iff.mpr ⟨hdone, hw⟩)
    | false => exact .inr (.inr (.inr (.inl ⟨rfl, hw⟩)))
  · refine .inl ?_
    rw [regWrite, if_neg hctrl, if_neg hstatus, if_neg hcmd]
    simp only [State.irq, apply_ite State.status, apply_ite State.doneIE, if_neg hen, ite_self]
    exact h

/-- A host access leaves IRQ asserted, or it is one of the four register writes. -/
theorem hostAccess_irq {s : State} (h : s.irq = true) (a : Access) :
    (hostAccess s a).irq = true ∨ ∃ off w, a = .write off .w32 w ∧ Deasserts off.toNat w := by
  have kept := State.irq_iff.mp h
  cases a with
  | read off wd => exact .inl (by rw [hostAccess]; split <;> exact State.irq_iff.mpr kept)
  | write off wd w =>
    rw [hostAccess]
    cases hr : refusedAccess s off.toNat wd with
    | true => exact .inl (State.irq_iff.mpr kept)
    | false =>
      have hwd : wd = .w32 := by
        by_contra hne
        simp [refusedAccess, hne] at hr
      rw [if_neg Bool.false_ne_true, writeWord]
      by_cases h1 : off.toNat < 0x2000
      · rw [if_pos h1]
        exact (regWrite_irq h off.toNat w).imp id fun hd => ⟨off, w, by rw [hwd], hd⟩
      · refine .inl ?_
        rw [if_neg h1]
        split
        · exact State.irq_iff.mpr kept
        · split <;> exact State.irq_iff.mpr kept

/-- An access that deasserts IRQ is a DONE clear, a command issue, a write of DONEIE = 0 or a soft reset. -/
theorem hostAccess_deasserts {s : State} {a : Access} (h : s.irq = true) (hd : (hostAccess s a).irq = false) :
    ∃ w, a = .write 0x008 .w32 w ∧ w.getLsbD 1 = true ∨ a = .write 0x00C .w32 w ∨
      a = .write 0x038 .w32 w ∧ w.getLsbD 0 = false ∨ a = .write 0x004 .w32 w ∧ w.getLsbD 0 = true := by
  obtain ⟨off, w, rfl, hoff⟩ :=
    (hostAccess_irq h a).resolve_left fun ha => Bool.false_ne_true (hd.symm.trans ha)
  have access : ∀ {k : BitVec 16}, off.toNat = k.toNat → Access.write off .w32 w = .write k .w32 w :=
    fun hk => by rw [BitVec.eq_of_toNat_eq hk]
  exact ⟨w, hoff.imp (.imp_left access) (.imp access (.imp (.imp_left access) (.imp_left access)))⟩

/-! ### The obligations -/

/-- Settles O24: an event that meets an idle engine touches IRQ by a host access or a hard reset only, since the sequencer's
turn changes nothing there. -/
theorem irqFollowsDone : Obligations.IrqFollowsDone := by
  refine ⟨fun _ => State.irq_iff, fun i s t => exec_irq_of_idle, fun s w => ⟨fun hw => ?_, fun hp => ?_, fun hw => ?_,
    fun hw => ?_⟩, fun s t h => ?_, fun s t e hp hirq h ht => ?_⟩
  · rw [State.irq, hostAccess_clearDone s hw, Bool.false_and]
  · rw [hostAccess_cmd_idle hp, accept_irq]
  · rw [hostAccess_irqEn, State.irq, hw, Bool.and_false]
  · rw [hostAccess_softReset s hw, resetEngine_irq]
  · cases h
    exact resetEngine_irq s
  · have unchanged : t.irq = s.irq → False := fun hq => Bool.false_ne_true (ht.symm.trans (hq.trans hirq))
    cases e with
    | turn =>
      cases (sequencerTurn_idle hp).symm.trans h
      exact (unchanged rfl).elim
    | access a =>
      cases h
      obtain ⟨w, hw⟩ := hostAccess_deasserts hirq ht
      exact .inr ⟨a, w, .inl rfl, hw⟩
    | together a =>
      rw [handle, sequencerTurn_idle hp] at h
      cases h
      obtain ⟨w, hw⟩ := hostAccess_deasserts hirq ht
      exact .inr ⟨a, w, .inr rfl, hw⟩
    | rngByte v =>
      cases h
      exact (unchanged rfl).elim
    | hardReset => exact .inl rfl

/-- Settles O25: the access meets the state the sequencer's turn has left. -/
theorem completionBeforeAccess : Obligations.CompletionBeforeAccess := by
  intro s t a rest hin hturn
  refine ⟨?_, fun hp => ⟨?_, ?_, ?_⟩⟩
  · rw [step_event hin, handle, hturn, thenAccess]
  · rintro w rfl hw
    exact hostAccess_clearDone t hw
  · rintro w rfl
    exact hostAccess_cmd_idle hp w
  · rintro w rfl hw
    exact hostAccess_softReset t hw

end Sys2Proof.Machine
end

section
/-! PROOFS. Reset (70_reset R340 to R342): the soft reset against the hard one, and the value of every piece of state
after it. -/

namespace Sys2Proof.Machine

/-! ### A CTRL write (70_reset R341) -/

theorem hostAccess_ctrl (s : State) (w : Word) :
    hostAccess s (.write 0x004 .w32 w) = if w.getLsbD 0 then resetEngine s else s :=
  hostAccess_write s w (by decide) (by decide)

/-- A write of CTRL with bit 0 clear has no effect (10_state R23). -/
theorem hostAccess_ctrl_inert (s : State) {w : Word} (hw : w.getLsbD 0 = false) :
    hostAccess s (.write 0x004 .w32 w) = s := by
  rw [hostAccess_ctrl, hw, if_neg Bool.false_ne_true]

/-- Settles O22: a hard reset and a CTRL write with bit 0 set are one operation, whatever the phase. -/
theorem softResetIsHardReset : Obligations.SoftResetIsHardReset := fun s _ =>
  ⟨rfl, fun hw => congrArg Host.Outcome.next (hostAccess_softReset s hw).symm, hostAccess_ctrl_inert s⟩

/-! ### The registers after reset (70_reset R342) -/

theorem statusWord_reset : statusWord State.reset = 0#32 := by decide
theorem keystatWord_reset : keystatWord State.reset = 0#32 := by decide
theorem srcstatWord_reset : srcstatWord State.reset = 0#32 := by decide
theorem mgfRunsWord_reset : mgfRunsWord State.reset = 0#32 := by decide
theorem srcRemWord_reset : srcRemWord State.reset = 0#32 := by decide

/-- After reset every offset of the register area but that of ID reads 0. -/
theorem regRead_reset {off : Nat} (h : off ≠ offID) : regRead State.reset off = 0#32 := by
  have plain : State.reset.cmd = 0#32 ∧ State.reset.arg0 = 0#32 ∧ State.reset.arg1 = 0#32 ∧ State.reset.arg2 = 0#32 ∧
      State.reset.arg3 = 0#32 ∧ State.reset.res0 = 0#32 ∧ State.reset.res1 = 0#32 ∧ State.reset.cfgN = 0#32 ∧
      State.reset.cfgMod = 0#32 ∧ State.reset.cfgLow = 0#32 ∧ flagAt State.reset.doneIE 0 = 0#32 ∧
      State.reset.iterCap = 0#32 ∧ State.reset.iterCnt = 0#32 ∧ State.reset.rngCnt = 0#32 :=
    ⟨rfl, rfl, rfl, rfl, rfl, rfl, rfl, rfl, rfl, rfl, rfl, rfl, rfl, rfl⟩
  simp only [regRead, if_neg h, plain, statusWord_reset, keystatWord_reset, srcstatWord_reset, mgfRunsWord_reset,
    srcRemWord_reset, ite_self]

/-! ### The coefficient arrays after reset (10_state R40, R41) -/

@[simp] theorem Poly.coeff_nil (i : Nat) : Poly.coeff [] i = 0 := ite_self _

theorem State.reset_pr (k : PReg) : State.reset.pr[k] = [] := by
  fin_cases k <;> rfl

/-- Settles O23: the registers read 0, every array and DMEM are empty, and each other field is at its value by definition. -/
theorem resetValues : Obligations.ResetValues := by
  refine ⟨rfl, fun off ho => regRead_reset fun h => ?_, fun k i => ?_, fun i => ⟨Poly.coeff_nil i, Poly.coeff_nil i⟩,
    rfl, rfl, rfl, rfl, rfl, rfl, rfl, rfl, rfl, rfl, rfl, rfl, rfl, rfl, rfl, rfl, rfl, rfl, Memory.read_nil, rfl⟩
  · subst h
    exact absurd ho (by decide)
  · rw [State.reset_pr, Poly.coeff_nil]

end Sys2Proof.Machine
end
